-- ==== Sys2Proof/Word.lean ====
section
/-! DEFINITION. The plainest types: a byte and a sequence of line bits. -/

namespace Sys2Proof

/-- A byte of a frame, of the configuration block or of a stored part. -/
abbrev Byte := BitVec 8

/-- A sequence of bits in the order in which they are sent; `true` is a recessive 1, `false` a dominant 0. -/
abbrev Bits := List Bool

end Sys2Proof
end

