-- ==== Sys2Proof/Config.lean ====
section
/-! DEFINITION. What the configuration block fixes (file 11 R185, file 12 R192), and the index type of the
things the part has four of (banks, price rows). -/

namespace Sys2Proof

/-- An index of four: bank 1 to 4 (file 00 section 5.5) or price row 1 to 4 (file 08 R149). -/
inductive Four where
  | one | two | three | four
deriving DecidableEq, Repr

/-- The number the spec gives the index. -/
def Four.num : Four → Nat
  | .one => 1 | .two => 2 | .three => 3 | .four => 4

/-- The index a number names, if it names one. -/
def Four.ofNum : Nat → Option Four
  | 1 => some .one | 2 => some .two | 3 => some .three | 4 => some .four
  | _ => none

/-- All four, in ascending order. -/
def Four.all : List Four := [.one, .two, .three, .four]

/-- One thing for each index of four. -/
structure Quad (α : Type) where
  one : α
  two : α
  three : α
  four : α
deriving DecidableEq, Repr

def Quad.get {α : Type} (q : Quad α) : Four → α
  | .one => q.one | .two => q.two | .three => q.three | .four => q.four

def Quad.set {α : Type} (q : Quad α) (i : Four) (x : α) : Quad α :=
  match i with
  | .one => { q with one := x }
  | .two => { q with two := x }
  | .three => { q with three := x }
  | .four => { q with four := x }

/-- The same thing at every index. -/
def Quad.const {α : Type} (x : α) : Quad α := ⟨x, x, x, x⟩

def Quad.map {α β : Type} (f : α → β) (q : Quad α) : Quad β := ⟨f q.one, f q.two, f q.three, f q.four⟩

/-- The four things in ascending order of index. -/
def Quad.toList {α : Type} (q : Quad α) : List α := [q.one, q.two, q.three, q.four]

/-- A bank of the cascade. Banks are numbered 1 to the bank count. -/
abbrev Bank := Four

/-- The class of the node's one hose (file 00 section 6.1). -/
inductive HoseClass where
  | car70 | bus35
deriving DecidableEq, Repr

/-- The order in which refill candidates are taken (file 07 R121). -/
inductive RefillOrder where
  | descending | rotating
deriving DecidableEq, Repr

/-- The configuration values handed out at the end of CHECK (file 11 R185). They hold until the next start-up. -/
structure Cfg where
  hose : HoseClass
  bankCount : Nat
  /-- Nominal pressure of each bank, in pressure codes. -/
  nominal : Quad Nat
  /-- Draw limit of each bank, 1 to 3. -/
  drawLimit : Quad Nat
  hysteresis : Nat
  order : RefillOrder
  directAllowed : Bool
  /-- Compressor direct flow, in 0.1 g/s. -/
  directFlow : Nat
  maxStarts : Nat
  /-- Chiller capacity C, in W. -/
  capacity : Nat
  /-- Peak flow F_peak, in 0.1 g/s. -/
  peakFlow : Nat
  commTarget : Nat
  nonCommTarget : Nat
  /-- Delivery setpoint T_set, a temperature code. -/
  tSet : Nat
  /-- Pulse weight, in cg. -/
  pulseWeight : Nat
  /-- Dead volume V_h, in 0.01 L. -/
  deadVolume : Nat
  /-- Carrier period Tc, in 0.1 us. -/
  carrier : Nat
deriving DecidableEq, Repr

/-- What stands in the configuration values before a CHECK has passed: no value has been handed out, and the model
writes zeros (log 6, DESIGN CHOICE, unsafe). -/
def Cfg.unset : Cfg :=
  { hose := .car70, bankCount := 0, nominal := Quad.const 0, drawLimit := Quad.const 0, hysteresis := 0,
    order := .descending, directAllowed := false, directFlow := 0, maxStarts := 0, capacity := 0, peakFlow := 0,
    commTarget := 0, nonCommTarget := 0, tSet := 0, pulseWeight := 0, deadVolume := 0, carrier := 0 }

end Sys2Proof
end

