-- ==== Sys2Proof/Syntax.lean ====
section
/-! DEFINITION. The commands of the part: one constructor for each row of spec/opcode_table.json, in the table's order,
and the types of their operands. -/

namespace Sys2Proof

/-- The causes that hold the part and lead to start-up (file 11 R181). -/
inductive StartCause where
  | powerUp | supplyDip | resetPin
deriving DecidableEq, Repr

/-- The analog channels (file 01 section 1.1). -/
inductive Channel where
  | pH | tS | tD
  | pB (k : Bank)
  | pC | tC | tK | tA
deriving DecidableEq, Repr

/-- The discrete inputs (file 01 section 1.5). -/
inductive Input where
  | holstered | coupled | start | stop | breakaway | meterFault | motorRun | loop
deriving DecidableEq, Repr

/-- One thing for each discrete input. -/
structure PerInput (α : Type) where
  holstered : α
  coupled : α
  start : α
  stop : α
  breakaway : α
  meterFault : α
  motorRun : α
  loop : α
deriving DecidableEq, Repr

def PerInput.get {α : Type} (p : PerInput α) : Input → α
  | .holstered => p.holstered | .coupled => p.coupled | .start => p.start | .stop => p.stop
  | .breakaway => p.breakaway | .meterFault => p.meterFault | .motorRun => p.motorRun | .loop => p.loop

def PerInput.set {α : Type} (p : PerInput α) (i : Input) (x : α) : PerInput α :=
  match i with
  | .holstered => { p with holstered := x }
  | .coupled => { p with coupled := x }
  | .start => { p with start := x }
  | .stop => { p with stop := x }
  | .breakaway => { p with breakaway := x }
  | .meterFault => { p with meterFault := x }
  | .motorRun => { p with motorRun := x }
  | .loop => { p with loop := x }

def PerInput.map {α β : Type} (f : α → β) (p : PerInput α) : PerInput β :=
  ⟨f p.holstered, f p.coupled, f p.start, f p.stop, f p.breakaway, f p.meterFault, f p.motorRun, f p.loop⟩

/-- All inputs, in the order of the table of file 01 section 1.5. -/
def Input.all : List Input := [.holstered, .coupled, .start, .stop, .breakaway, .meterFault, .motorRun, .loop]

/-- The levels of the eight inputs; `true` is active. -/
abbrev Levels := PerInput Bool

/-- All inputs inactive (the model's choice at reset, log 4, DESIGN CHOICE, unsafe). -/
def PerInput.inactive : Levels := ⟨false, false, false, false, false, false, false, false⟩

/-- The valves the part commands (file 00 section 4): bank draw, bank refill, direct and vent. -/
inductive Valve where
  | draw (k : Bank)
  | refill (k : Bank)
  | direct
  | vent
deriving DecidableEq, Repr

/-- The kinds of claim (file 04 section 4.2). -/
inductive ClaimKind where
  | draw | refill
deriving DecidableEq, Repr

/-- The pause reasons, in the order of the table of file 03 section 3.7. -/
inductive PauseReason where
  | precoolUnfit | heatShare | vehicleHalt | sampleAge | bankWait | lineQuiet
deriving DecidableEq, Repr

/-- The tank groups of a vehicle (file 02 section 2.1). -/
inductive Side where
  | a | b
deriving DecidableEq, Repr

/-- The commands. An operand `frame : Bits` holds the bits of a received line frame from the first bit of its start
symbol to the last bit of its end field, fill bits included (file 12 R188). -/
inductive Instr where
  | startUpCause (cause : StartCause)
  | startUp (straps : BitVec 3) (levels : Levels)
  | configReadDone (block : List Byte)
  | scanWriteComplete
  | storeScanEnd
  | warmUpEnd
  | listenEnd
  | scanGridInstant
  | converterAnswer (echo : Nat) (microamps : BitVec 16)
  | exchangeTimeout
  | channelAgeExpiry (channel : Channel)
  | diLevelTaken (input : Input) (level : Bool)
  | recoveryTimerExpiry
  | esdClear (frame : Bits)
  | vehicleFrame (bytes : List Byte)
  | sideSilentExpiry (side : Side)
  | authorize (frame : Bits)
  | authorizationTimeout
  | stop (frame : Bits)
  | valveTravelEnd (valve : Valve)
  | bankSearchRetry
  | pulseEnd
  | equalizeEnd
  | holdEnd
  | rezeroVentTimeout
  | controlPeriod
  | pauseLimitExpiry (reason : PauseReason)
  | precoolGraceEnd
  | ventTimeout
  | settleExpiry (bank : Bank) (kind : ClaimKind)
  | peerStatus (frame : Bits)
  | peerClaim (frame : Bits)
  | peerRelease (frame : Bits)
  | peerHeat (frame : Bits)
  | conflictFrame (frame : Bits)
  | entryStale (node : Nat)
  | entryForgotten (node : Nat)
  | evaluationTick
  | surveyTick
  | startingEnd
  | runTimerExpiry
  | stoppingEnd
  | motorAbsentExpiry
  | lockoutEnd
  | startListExpiry
  | meterPulse
  | creepWindowClose
  | creepQuietExpiry
  | price (frame : Bits)
  | createWriteComplete
  | checkpointWriteComplete
  | closeWriteComplete
  | creepWriteComplete
  | collectWriteComplete
  | query (frame : Bits)
  | collect (frame : Bits)
  | readTotals (frame : Bits)
  | transmitAttempt
  | frameSent
  | arbitrationYield (position : Nat)
  | lineFault (position : Nat)
  | lineSilentEnd
  | statusTick
  | progressTick
  | quietTimer1000
  | quietTimer1800
  /-- `interval`: the time since the rising edge before, in 0.1 us, truncated (file 02 R17). -/
  | irRisingEdge (interval : Nat)
  | quietLineSeen
deriving DecidableEq, Repr

end Sys2Proof
end

