-- ==== Sys2Proof/Decode.lean ====
section
/-! DEFINITION. Decoding by the bits of spec/opcode_table.json. No row of the table gives bits: a command reaches the part
as an event, not as a word. -/

namespace Sys2Proof

/-- The command that a word spells by the table's bits: none for every word, as no row has bits. -/
def decodeTableWord (_nbits _w : Nat) : Option Instr := none

end Sys2Proof
end

