-- ==== Sys2Proof/Machine/State.lean ====
section
/-! DEFINITION. The state of one FC408 node, block by block, as plain data, and the state right after start-up.
Every instant is in whole milliseconds of the node's own clock `Node.now`; a timer is held as the instant it
started from. -/

namespace Sys2Proof.Machine

/-! ## STC: Start Control (file 11) -/

/-- Start phases (file 11 section 11.2). `held` is the hold of R181. CHECK begins and ends inside the command
CONFIG_READ_DONE and is never the phase between two commands. -/
inductive StartPhase where
  | held | configRead | storeScan | warmUp | listen | run | startFault
deriving DecidableEq, Repr

structure Stc where
  phase : StartPhase
  /-- The causes that hold the part (R181). -/
  causes : List StartCause
  /-- Node number, 1 to 8 (R183). -/
  node : Nat
  cfg : Cfg
  /-- The hose class code as read (R186). -/
  hoseCode : Nat
  /-- NUMBER_CONFLICT (file 05 R97). -/
  conflict : Bool
  /-- When the present phase began. -/
  phaseSince : Nat
  /-- The start-up instant, from which the up-time counts (R181). -/
  startedAt : Nat
deriving DecidableEq, Repr

/-! ## ISC: Input Scanner (file 01) -/

inductive Health where
  | ok | failed
deriving DecidableEq, Repr

/-- A channel record (file 01 section 1.1). The age is the time since `acceptedAt`, NEVER when absent (R5). -/
structure ChannelRec where
  value : Option Nat
  acceptedAt : Option Nat
  health : Health
deriving DecidableEq, Repr

/-- One channel record for each channel. -/
structure Channels where
  pH : ChannelRec
  tS : ChannelRec
  tD : ChannelRec
  pB : Quad ChannelRec
  pC : ChannelRec
  tC : ChannelRec
  tK : ChannelRec
  tA : ChannelRec
deriving DecidableEq, Repr

def Channels.get (r : Channels) : Channel → ChannelRec
  | .pH => r.pH | .tS => r.tS | .tD => r.tD | .pB k => r.pB.get k
  | .pC => r.pC | .tC => r.tC | .tK => r.tK | .tA => r.tA

def Channels.set (r : Channels) (c : Channel) (x : ChannelRec) : Channels :=
  match c with
  | .pH => { r with pH := x }
  | .tS => { r with tS := x }
  | .tD => { r with tD := x }
  | .pB k => { r with pB := r.pB.set k x }
  | .pC => { r with pC := x }
  | .tC => { r with tC := x }
  | .tK => { r with tK := x }
  | .tA => { r with tA := x }

/-- A scan cycle in progress: the channels whose exchange has not ended, the one in flight first; `judged` is false
for a cycle that started during WARM_UP (R7). `since` is the instant of the request of the exchange in flight, from which
its 2 ms run (R3). -/
structure Cycle where
  left : List Channel
  judged : Bool
  since : Nat
deriving DecidableEq, Repr

/-- A discrete input: the raw level at its pin, the filtered level and the run count of R8. -/
structure InputRec where
  raw : Bool
  filtered : Bool
  run : Nat
deriving DecidableEq, Repr

inductive LatchCause where
  | breakaway | hoseRupture | overpressure
deriving DecidableEq, Repr

/-- Loop state (R12); `recovering` holds the instant its recovery timer started. -/
inductive LoopState where
  | normal | tripped
  | recovering (since : Nat)
deriving DecidableEq, Repr

structure Isc where
  channels : Channels
  cycle : Option Cycle
  /-- The pending mark of R2. -/
  pendingCycle : Bool
  /-- The next grid instant; absent while scanning does not run. -/
  gridNext : Option Nat
  inputs : PerInput InputRec
  /-- The drive latch: absent is clear, present is set with its cause (R10). -/
  latch : Option LatchCause
  /-- The overpressure mark (R11). -/
  overMark : Bool
  loop : LoopState
deriving DecidableEq, Repr

/-! ## VLR: Vehicle Link Receiver (file 02) -/

inductive VehicleCmd where
  | run | halt | abort
deriving DecidableEq, Repr

structure SideData where
  volume : Nat
  pressure : Nat
  temperature : Nat
  command : VehicleCmd
deriving DecidableEq, Repr

/-- A side record (file 02 section 2.4). `age` in ms; absent is NEVER. -/
structure SideRec where
  data : Option SideData
  sequence : Option Nat
  age : Option Nat
deriving DecidableEq, Repr

inductive LinkState where
  | absent | valid | lost | rejected
deriving DecidableEq, Repr

/-- The burst in progress (R17): the time from its first to its latest rising edge, in 0.1 us, and whether it holds a
short interval. -/
structure Burst where
  span : Nat
  spoiled : Bool
deriving DecidableEq, Repr

inductive DecoderMode where
  | discarding | idle
  | receiving (bits : Bits)
deriving DecidableEq, Repr

/-- `quietFrom` is the instant from which the 2,000 µs of R16 and R19 run: the decoder's start or its latest rising
edge. It is absent once they have passed, until the next edge. -/
structure Decoder where
  mode : DecoderMode
  burst : Option Burst
  quietFrom : Option Nat
deriving DecidableEq, Repr

structure Vlr where
  /-- Absent while the decoder is stopped (R16). -/
  decoder : Option Decoder
  sideA : SideRec
  sideB : SideRec
  /-- The declared group count (R21). -/
  declared : Option Nat
  /-- The captured tank volume (R23). -/
  volume : Option Nat
  link : LinkState
deriving DecidableEq, Repr

/-! ## FCU: Fill Controller (file 03) -/

/-- Fill phase with its sub-state (file 03 section 3.1), in the order of the codes of file 12. -/
inductive Phase where
  | idle | authorized | checking
  | flowing | switching | paused
  | closing | venting | closingRecord
  | done
deriving DecidableEq, Repr

inductive LimitKind where
  | none | mass | amount
deriving DecidableEq, Repr

/-- An authorization (R32). -/
structure Auth where
  number : Nat
  terminal : Nat
  row : Four
  unitPrice : Nat
  limitKind : LimitKind
  /-- The limit value of the command, in cg or cents; not used with kind NONE. -/
  limitValue : Nat
  /-- The limit mass in force, in cg. -/
  limitMass : Nat
deriving DecidableEq, Repr

inductive CheckStep where
  | claimWait | opening | pulse | equalize | hold | rezero
deriving DecidableEq, Repr

/-- A source of gas (R36). -/
inductive Source where
  | bank (k : Bank)
  | direct
deriving DecidableEq, Repr

inductive FillKind where
  | comm | noncomm | degraded
deriving DecidableEq, Repr

/-- End reasons: the 20 of R58 in their order, those of R59, and INTERRUPTED. -/
inductive EndReason where
  | esd | breakaway | hoseRupture | overpressure | vehicleAbort | disconnect | sensorFail | meterFault
  | lineFault | numberConflict | tempLimit | pressureLimit | targetSoc | massLimit | amountLimit
  | sensorStale | precoolFail | heatShareTimeout | vehicleHalt | banksExhausted
  | stopTerminal | stopLocal | emptyTank | fullTank | leak | interrupted
deriving DecidableEq, Repr

/-- The pause reasons: absent while not active, else the instant it became active (R56). -/
structure Pauses where
  precoolUnfit : Option Nat
  heatShare : Option Nat
  vehicleHalt : Option Nat
  sampleAge : Option Nat
  bankWait : Option Nat
  lineQuiet : Option Nat
deriving DecidableEq, Repr

def Pauses.none : Pauses := ⟨.none, .none, .none, .none, .none, .none⟩

def Pauses.get (p : Pauses) : PauseReason → Option Nat
  | .precoolUnfit => p.precoolUnfit | .heatShare => p.heatShare | .vehicleHalt => p.vehicleHalt
  | .sampleAge => p.sampleAge | .bankWait => p.bankWait | .lineQuiet => p.lineQuiet

def Pauses.set (p : Pauses) (r : PauseReason) (x : Option Nat) : Pauses :=
  match r with
  | .precoolUnfit => { p with precoolUnfit := x }
  | .heatShare => { p with heatShare := x }
  | .vehicleHalt => { p with vehicleHalt := x }
  | .sampleAge => { p with sampleAge := x }
  | .bankWait => { p with bankWait := x }
  | .lineQuiet => { p with lineQuiet := x }

/-- A valve: the position it is commanded to and, while it travels, the instant of the latest command (R30). -/
structure ValveRec where
  opened : Bool
  since : Option Nat
deriving DecidableEq, Repr

/-- A valve at rest in the closed position, as every valve stands at State.reset (the model's choice, log 47). -/
def ValveRec.shut : ValveRec := ⟨false, none⟩

structure Fcu where
  phase : Phase
  auth : Option Auth
  /-- The start of the authorization timer; absent while stopped. -/
  authSince : Option Nat
  check : CheckStep
  /-- When the check step began; absent while the step waits at its start (R42). -/
  stepSince : Option Nat
  /-- A reading at the end of EQUALIZE or HOLD waits for an accepted P_H sample (R39). -/
  awaiting : Bool
  attempt : Nat
  /-- The bank of the check claim, pending or held. -/
  checkBank : Option Bank
  /-- The bank whose check claim was given up during REZERO (R38). -/
  givenUp : Option Bank
  /-- The vent opening of REZERO: absent while the bank valve closes, else when the vent was commanded open (R41). -/
  rezeroVent : Option Nat
  p0 : Option Nat
  source : Option Source
  /-- The source in use last, kept when it is given up (R47): a search starts above it. -/
  lastSource : Option Source
  target : Option Source
  /-- The target has become the current source and its switch completes with the valve travels (R45). -/
  targetTaken : Bool
  /-- The target became HELD while LINE_QUIET held and is not opened yet (R57). -/
  targetWaits : Bool
  /-- No source is open since one was given up (R47). -/
  noSource : Bool
  /-- The last search for a switch target ended without one, and no target has been present and no source given up since
  (R46; how long this stands is the model's choice, log 52). -/
  noTarget : Bool
  kind : Option FillKind
  pRamp : Nat
  rem : Nat
  fCmd : Nat
  /-- When RAMPING began (R43). -/
  rampSince : Option Nat
  pauses : Pauses
  lastSoc : Option Nat
  peakTv : Option Nat
  endReason : Option EndReason
  pEnd : Option Nat
  tEnd : Option Nat
  derated : Bool
  exhausted : Bool
  ventFail : Bool
  /-- The next control period; absent while it is stopped. -/
  periodNext : Option Nat
  /-- The last bank search that ended without a bank, or the setting of BANK_WAIT by a margin if that is later (R38, R46;
  that a repeat counts its 1 s from here is the model's choice, log 59). -/
  searchAt : Option Nat
  /-- Accepted P_H samples with their instants, oldest first (R54). -/
  window : List (Nat × Nat)
  /-- The quiet timer has reached 1,800 ms since the entry to CHECKING (R58 row 9). -/
  lineFault : Bool
  /-- The entry to CHECKING. -/
  startedAt : Nat
  /-- The entry to VENTING. -/
  ventSince : Option Nat
  /-- Bank draw valves VB1 to VB4. -/
  vb : Quad ValveRec
  /-- Hose vent valve VVENT. -/
  vvent : ValveRec
  /-- The draw claim of this bank is released once its valve has closed (R30). -/
  relOnClose : Quad Bool
deriving DecidableEq, Repr

/-! ## BCU: Bank Claim Unit (file 04) -/

/-- States of an own claim that stays on record; DENIED and LOST are reported and removed at once (section 4.2).
SETTLING and HELD carry the announcement instant, from which the settle timer runs. -/
inductive ClaimState where
  | requested
  | settling (announced : Nat)
  | held (announced : Nat)
deriving DecidableEq, Repr

structure OwnClaim where
  bank : Bank
  kind : ClaimKind
  state : ClaimState
deriving DecidableEq, Repr

structure Bcu where
  /-- Own claims in the order of their requests. -/
  own : List OwnClaim
deriving DecidableEq, Repr

/-! ## PTB: Peer Table (file 05) -/

/-- Compressor states (file 07 section 7.1), in the order of the codes of file 12. -/
inductive CompState where
  | off | starting | loadedRefill | loadedDirect | idleRun | stopping | lockout
deriving DecidableEq, Repr

/-- A peer's fill phase, at phase level (file 05 R86). -/
inductive PeerPhase where
  | idle | authorized | checking | ramping | ending | done
deriving DecidableEq, Repr

/-- A claim of a peer, with its announcement instant in the node's own time, which may lie before instant 0. -/
structure PeerClaim where
  bank : Bank
  kind : ClaimKind
  instant : Int
deriving DecidableEq, Repr

/-- A Peer Table entry that is not EMPTY (file 05 section 5.1). -/
structure Peer where
  node : Nat
  /-- STALE; FRESH otherwise. -/
  stale : Bool
  /-- The last STATUS instant. -/
  last : Nat
  phase : PeerPhase
  waiting : Bool
  claims : List PeerClaim
  reservation : Nat
  raise : Option Int
  comp : CompState
  refillBank : Option Bank
  latch : Bool
deriving DecidableEq, Repr

structure Ptb where
  /-- The entries that are not EMPTY, in ascending order of node number. -/
  peers : List Peer
deriving DecidableEq, Repr

/-! ## HSU: Heat Share Unit (file 06) -/

structure Hsu where
  rWant : Nat
  /-- The temperature drop in use, in 0.1 K. -/
  dT10 : Nat
  cEff : Nat
  rOwn : Nat
  raise : Option Nat
  waiting : Bool
  /-- The next tick of the evaluation grid; absent while it is stopped. -/
  gridNext : Option Nat
  resend : Bool
deriving DecidableEq, Repr

/-! ## CCU: Compressor Control Unit (file 07) -/

inductive ClaimStage where
  | pending | held | releasing
deriving DecidableEq, Repr

structure RefillClaim where
  bank : Bank
  stage : ClaimStage
deriving DecidableEq, Repr

inductive DirectReq where
  | none | pending | serving
deriving DecidableEq, Repr

structure Ccu where
  state : CompState
  /-- When the present state began: the timers of STARTING, STOPPING and LOCKOUT. -/
  since : Nat
  claim : Option RefillClaim
  direct : DirectReq
  /-- The run timer's start; absent while CM_RUN is off. -/
  runSince : Option Nat
  /-- The off timer's start; absent while CM_RUN is on. -/
  offSince : Option Nat
  /-- The motor-absent timer's start; absent while it does not run. -/
  absentSince : Option Nat
  /-- Instants of starts, oldest first (R119). -/
  starts : List Nat
  pointer : Option Bank
  hold : Bool
  surveyNext : Option Nat
  /-- A bank denied during STARTING, passed over in the choice at its end (R124). -/
  passOver : Option Bank
  /-- Refill valves VR1 to VR4. -/
  vr : Quad ValveRec
  /-- Direct valve VDIR. -/
  vdir : ValveRec
deriving DecidableEq, Repr

/-! ## MPU: Meter and Price Unit (file 08) -/

/-- Fill terms (R138). -/
structure Terms where
  unitPrice : Nat
  limitKind : LimitKind
  limitValue : Nat
  limitMass : Nat
deriving DecidableEq, Repr

structure CreepWindow where
  openedAt : Nat
  mass : Nat
deriving DecidableEq, Repr

structure Mpu where
  /-- The price table: absent is an unset row (R149). -/
  prices : Quad (Option Nat)
  windowOpen : Bool
  terms : Option Terms
  gross : Nat
  slow : Bool
  limit : Bool
  creepWindow : Option CreepWindow
  /-- The creep quiet timer's start; absent while stopped. -/
  quietSince : Option Nat
  pending : Nat
  creepFlag : Bool
  /-- The projected figures as formed last (R145). -/
  ventEst : Nat
  projNet : Nat
  projAmount : Nat
deriving DecidableEq, Repr

/-! ## RST: Record Store (file 09) -/

inductive SlotState where
  | free | opened | closed | collected | damaged
deriving DecidableEq, Repr

/-- A stage entry (file 03 R36); the source is absent while it is pending. -/
structure Stage where
  source : Option Source
  gross : Nat
  collisions : Nat
deriving DecidableEq, Repr

/-- The fill flags of a record (file 09 section 9.2). -/
structure RecordFlags where
  derated : Bool
  exhausted : Bool
  ventFail : Bool
  overshoot : Bool
  interrupted : Bool
deriving DecidableEq, Repr

/-- The body of a record: every field of file 09 section 9.2 but transaction number, slot state and checkpoint count. -/
structure RecordBody where
  authNumber : Nat
  terminal : Nat
  hose : HoseClass
  kind : FillKind
  endReason : Option EndReason
  flags : RecordFlags
  limitKind : LimitKind
  limitMass : Nat
  row : Four
  unitPrice : Nat
  gross : Nat
  vent : Nat
  net : Nat
  amount : Nat
  soc : Nat
  finalPH : Nat
  peakTv : Option Nat
  volume : Option Nat
  duration : Nat
  upTime : Nat
  stages : List Stage
deriving DecidableEq, Repr

/-- A body with nothing in it, which a create fills (file 09 section 9.2). -/
def RecordBody.blank : RecordBody :=
  { authNumber := 0, terminal := 9, hose := .car70, kind := .noncomm, endReason := none,
    flags := ⟨false, false, false, false, false⟩, limitKind := .none, limitMass := 0, row := .one, unitPrice := 0,
    gross := 0, vent := 0, net := 0, amount := 0, soc := 0, finalPH := 0, peakTv := none, volume := none,
    duration := 0, upTime := 0, stages := [] }

/-- A slot of the nonvolatile store: header and body, each with its CRC-16 as stored (section 9.1). The body is held as
the bytes the cells hold, so that a DAMAGED record can be sent as read (file 12 R190, log 16). -/
structure StoredSlot where
  state : SlotState
  txn : Nat
  count : Nat
  headerCrc : BitVec 16
  body : List Byte
  bodyCrc : BitVec 16
deriving DecidableEq, Repr

/-- The four sums (R159). -/
structure Sums where
  gross : Nat
  net : Nat
  amount : Nat
  creep : Nat
deriving DecidableEq, Repr

/-- One copy of the totals area (file 12 section 12.3). -/
structure TotalsCopy where
  sums : Sums
  last : Nat
  writes : Nat
  crc : BitVec 16
deriving DecidableEq, Repr

/-- The working image of the OPEN record (R153); `slot` is the slot number less one, `written` the gross at the last
completed write (R157). -/
structure Image where
  slot : Nat
  txn : Nat
  count : Nat
  body : RecordBody
  written : Nat
deriving DecidableEq, Repr

inductive RecordWrite where
  | create | checkpoint | close
deriving DecidableEq, Repr

inductive RequestKind where
  | query | collect | readTotals
deriving DecidableEq, Repr

/-- A line request in the request list (R160). -/
structure LineRequest where
  kind : RequestKind
  txn : Nat
  terminal : Nat
  ticket : Nat
deriving DecidableEq, Repr

structure RecordMark where
  kind : RecordWrite
  ticket : Nat
deriving DecidableEq, Repr

structure CreepMark where
  mass : Nat
  ticket : Nat
deriving DecidableEq, Repr

/-- The write in progress (R152), with what it copies. Slots are numbered from 0 here. -/
inductive Write where
  | record (kind : RecordWrite) (image : Image)
  | creep (mass : Nat)
  | collect (slot txn terminal : Nat)
  | scanTotals (copy : TotalsCopy)
  | scanFree (slot : Nat)
  | scanDamaged (slot : Nat)
  | scanClose (slot : Nat)
  | scanLast
deriving DecidableEq, Repr

structure Slot where
  state : SlotState
  txn : Nat
deriving DecidableEq, Repr

/-- The start-up scan (R164, R165): it runs at a slot, or it has taken slot 64 and built the table. -/
inductive Scan where
  | atSlot (slot : Nat)
  | complete
deriving DecidableEq, Repr

structure Rst where
  /-- Nonvolatile: slots 1 to 64. -/
  slots : List StoredSlot
  /-- Nonvolatile: the two copies of the totals area. -/
  copy1 : TotalsCopy
  copy2 : TotalsCopy
  /-- The slot table (R151); empty until the scan has built it. -/
  table : List Slot
  /-- The totals as the last completed write left them (R163). -/
  totals : TotalsCopy
  /-- The last transaction number issued. -/
  lastIssued : Nat
  image : Option Image
  recordMark : Option RecordMark
  creepMark : Option CreepMark
  requests : List LineRequest
  /-- The model's own order of arrival of marks and requests (R160). -/
  ticket : Nat
  write : Option Write
  scan : Option Scan
  lost : Nat
  restarted : Bool
deriving DecidableEq, Repr

/-! ## LIU: Line Interface Unit (file 10) -/

/-- Result codes (R173), in the order of their codes. -/
inductive Result where
  | ok | busy | badField | notReady | noPrice | storeFull | meterFault | lockedEsd | unknownRecord
deriving DecidableEq, Repr

/-- What a queued frame carries. STATUS, HEAT and PROGRESS are formed at the attempt to send them; the other kinds are
fixed at the offer (R174). `progressDone` is a PROGRESS that was still queued at the entry to DONE: it carries phase DONE
and the figures of that moment (R179, log 38). -/
inductive FrameBody where
  | status
  | heat
  | progress (terminal : Nat)
  | progressDone (terminal : Nat) (payload : List Byte)
  | claim (bank : Bank) (kind : ClaimKind)
  | release (bank : Bank) (kind : ClaimKind)
  | answer (terminal : Nat) (command : BitVec 6) (result : Result) (number : Nat)
  | recordA (terminal : Nat) (payload : List Byte)
  | recordB (terminal : Nat) (payload : List Byte)
  | totals (terminal : Nat) (payload : List Byte)
deriving DecidableEq, Repr

/-- A frame of the transmit queue. `doomed`: it is removed at the end of its attempt (R174, R180). -/
structure QFrame where
  body : FrameBody
  faults : Nat
  onWire : Bool
  doomed : Bool
deriving DecidableEq, Repr

/-- A line frame without its start symbol, length, CRC and end field (file 12 R188). -/
structure LineFrame where
  cls : BitVec 2
  source : BitVec 4
  destination : BitVec 4
  kind : BitVec 6
  payload : List Byte
deriving DecidableEq, Repr

structure Liu where
  queue : List QFrame
  /-- The frame on the wire, as formed at its attempt. -/
  wire : Option LineFrame
  consecutive : Nat
  total : Nat
  /-- LINE_SILENT since; absent while it is off. -/
  silentSince : Option Nat
  silentEnded : Bool
  /-- The quiet timer's start; absent while stopped. -/
  quietSince : Option Nat
  statusNext : Option Nat
  progressNext : Option Nat
deriving DecidableEq, Repr

/-! ## The node and the machine -/

/-- One node: its blocks and its clock, in ms. -/
structure Node where
  now : Nat
  stc : Stc
  isc : Isc
  vlr : Vlr
  fcu : Fcu
  bcu : Bcu
  ptb : Ptb
  hsu : Hsu
  ccu : Ccu
  mpu : Mpu
  rst : Rst
  liu : Liu
deriving DecidableEq, Repr

/-- The machine: the node and the commands that wait, first in first out. -/
structure State where
  node : Node
  pending : List Instr
deriving DecidableEq, Repr

/-- Why a step stops with a fault. -/
inductive Fault where
  /-- Raised by DI_LEVEL_TAKEN where a START press would create a record and the store holds no FREE and no COLLECTED
  slot. File 09 R154 says that this cannot arise. Safe: the model stops where the spec gives nothing. -/
  | noSlot
deriving DecidableEq, Repr

/-- Why a command is refused. -/
inductive Refusal where
  /-- Raised by an arm of exec whose command has no meaning yet. Safe. -/
  | notModelled (mnemonic : String)
  /-- Raised by the reception commands where the bits spell a frame that belongs to another row (log 7). Safe: the frame
  has its effect under that row's command. -/
  | otherFrame
deriving DecidableEq, Repr

/-! ## Start-up values -/

/-- The record of a channel after start-up (file 01 R7). -/
def ChannelRec.startUp : ChannelRec := ⟨none, none, .ok⟩

def Channels.startUp : Channels :=
  { pH := .startUp, tS := .startUp, tD := .startUp, pB := Quad.const .startUp, pC := .startUp, tC := .startUp,
    tK := .startUp, tA := .startUp }

/-- The ISC after start-up with these first raw samples (file 01 R7, R8, R15). An active breakaway level is taken
after this, by the trip request of R10. -/
def Isc.startUp (levels : Levels) : Isc :=
  { channels := .startUp, cycle := none, pendingCycle := false, gridNext := none,
    inputs := levels.map fun l => ⟨l, l, 0⟩, latch := none, overMark := false,
    loop := if levels.loop then .tripped else .normal }

def SideRec.cleared : SideRec := ⟨none, none, none⟩

/-- The VLR after start-up (file 02 R28). -/
def Vlr.startUp : Vlr :=
  { decoder := none, sideA := .cleared, sideB := .cleared, declared := none, volume := none, link := .absent }

/-- The FCU after start-up (file 03 R29). -/
def Fcu.startUp : Fcu :=
  { phase := .idle, auth := none, authSince := none, check := .claimWait, stepSince := none, awaiting := false,
    attempt := 0, checkBank := none, givenUp := none, rezeroVent := none, p0 := none, source := none,
    lastSource := none, target := none, targetTaken := false, targetWaits := false, noSource := false,
    noTarget := false, kind := none, pRamp := 0, rem := 0, fCmd := 0, rampSince := none, pauses := .none, lastSoc := none, peakTv := none,
    endReason := none, pEnd := none, tEnd := none, derated := false, exhausted := false, ventFail := false,
    periodNext := none, searchAt := none, window := [], lineFault := false, startedAt := 0, ventSince := none,
    vb := Quad.const .shut, vvent := .shut, relOnClose := Quad.const false }

/-- The BCU after start-up (file 04 R65). -/
def Bcu.startUp : Bcu := ⟨[]⟩

/-- The Peer Table after start-up: every entry EMPTY (file 05 R98). -/
def Ptb.startUp : Ptb := ⟨[]⟩

/-- The HSU after start-up (file 06 R103). -/
def Hsu.startUp : Hsu :=
  { rWant := 0, dT10 := 100, cEff := 0, rOwn := 0, raise := none, waiting := false, gridNext := none, resend := false }

/-- The CCU at a start-up instant `now`, from which the off timer runs (file 07 R118). -/
def Ccu.startUp (now : Nat) : Ccu :=
  { state := .off, since := now, claim := none, direct := .none, runSince := none, offSince := some now,
    absentSince := none, starts := [], pointer := none, hold := false, surveyNext := none, passOver := none,
    vr := Quad.const .shut, vdir := .shut }

/-- The MPU after start-up (file 08 R136). -/
def Mpu.startUp : Mpu :=
  { prices := Quad.const none, windowOpen := false, terms := none, gross := 0, slow := false, limit := false,
    creepWindow := none, quietSince := none, pending := 0, creepFlag := false, ventEst := 0, projNet := 0,
    projAmount := 0 }

def Sums.zero : Sums := ⟨0, 0, 0, 0⟩

/-- Totals of zero with their CRC-16: what the working memory holds before the scan, and the totals copies of the
model's reset store (log 5, DESIGN CHOICE, unsafe). -/
def TotalsCopy.blank : TotalsCopy := { sums := .zero, last := 0, writes := 0, crc := 0xEF8A }

/-- The RST after start-up (file 09 R151, R166): the nonvolatile contents are kept, the working memory is cleared. -/
def Rst.startUp (old : Rst) : Rst :=
  { slots := old.slots, copy1 := old.copy1, copy2 := old.copy2, table := [], totals := .blank, lastIssued := 0,
    image := none, recordMark := none, creepMark := none, requests := [], ticket := 0, write := none, scan := none,
    lost := 0, restarted := false }

/-- The LIU after start-up (file 10 R180). -/
def Liu.startUp : Liu :=
  { queue := [], wire := none, consecutive := 0, total := 0, silentSince := none, silentEnded := false,
    quietSince := none, statusNext := none, progressNext := none }

/-! ## Reset -/

/-- A free slot of the model's reset store, its checks sound (log 5, DESIGN CHOICE, unsafe). -/
def StoredSlot.blank : StoredSlot :=
  { state := .free, txn := 0, count := 0, headerCrc := 0x110C, body := List.replicate 57 0, bodyCrc := 0xBD90 }

/-- The store of the model's reset state (log 5, DESIGN CHOICE, unsafe). -/
def Rst.blank : Rst :=
  { slots := List.replicate 64 .blank, copy1 := .blank, copy2 := .blank, table := [], totals := .blank, lastIssued := 0,
    image := none, recordMark := none, creepMark := none, requests := [], ticket := 0, write := none, scan := none,
    lost := 0, restarted := false }

/-- The node right after the start-up instant (file 11 R181): CONFIG_READ, every block in its start-up state.
Straps 000, inputs inactive, clock 0, the store's contents and the valves at rest closed are the model's choice (logs 4,
5, 47). -/
def Node.reset : Node :=
  { now := 0,
    stc := { phase := .configRead, causes := [], node := 1, cfg := .unset, hoseCode := 0, conflict := false,
             phaseSince := 0, startedAt := 0 },
    isc := .startUp .inactive, vlr := .startUp, fcu := .startUp, bcu := .startUp, ptb := .startUp, hsu := .startUp,
    ccu := .startUp 0, mpu := .startUp, rst := .blank, liu := .startUp }

/-- The machine right after reset: no command waits. -/
def State.reset : State := { node := .reset, pending := [] }

end Sys2Proof.Machine
end

