-- ==== Sys2Proof/Machine/Formats.lean ====
section
/-! DEFINITION. Formats (file 12): bits and bytes, the check computations, the line frame on the wire and its reception
(R188, R171), the vehicle frame (R191), the configuration block (R192, R184, R185) and the codes of R189. -/

namespace Sys2Proof.Machine

/-! ## Bits and bytes -/

/-- The bits of a field, most significant first. -/
def bitsOf {w : Nat} (x : BitVec w) : Bits := (List.range w).map fun i => x.getMsbD i

/-- The number a sequence of bits spells, most significant first. -/
def natOfBits (bs : Bits) : Nat := bs.foldl (fun a b => 2 * a + b.toNat) 0

/-- A field read from its bits, most significant first. -/
def fieldOf (w : Nat) (bs : Bits) : BitVec w := BitVec.ofNat w (natOfBits bs)

/-- `n` bytes read from their bits. -/
def bytesOfBits : Nat → Bits → List Byte
  | 0, _ => []
  | n + 1, bs => fieldOf 8 (bs.take 8) :: bytesOfBits n (bs.drop 8)

def bitsOfBytes (bytes : List Byte) : Bits := bytes.flatMap bitsOf

/-- A multi-byte field, most significant byte first (file 00 section 5.4). -/
def natOfBytes (bytes : List Byte) : Nat := bytes.foldl (fun a b => 256 * a + b.toNat) 0

/-- The field of `k` bytes at offset `o`, offsets counted from 0. -/
def fieldAt (bytes : List Byte) (o k : Nat) : Nat := natOfBytes ((bytes.drop o).take k)

/-- One byte at offset `o`, offsets counted from 0. -/
def byteAt (bytes : List Byte) (o : Nat) : Byte := bytes.getD o 0

/-- A figure in `k` bytes, most significant first; one too large is sent saturated (file 12, conventions). -/
def bigEndian (k x : Nat) : List Byte :=
  (List.range k).map fun i => BitVec.ofNat 8 (min x (256 ^ k - 1) / 256 ^ (k - 1 - i))

/-! ## Check computations -/

/-- One bit into the CRC-16 register, polynomial 0x1021 (R188). -/
def crc16Step (r : BitVec 16) (b : Bool) : BitVec 16 :=
  if r.getMsbD 0 != b then (r <<< 1) ^^^ 0x1021#16 else r <<< 1

/-- The CRC-16 of R188 over a sequence of bits. -/
def crc16 (bs : Bits) : BitVec 16 := bs.foldl crc16Step 0xFFFF#16

/-- One bit into the CRC-8 register, polynomial 0x07 (R191). -/
def crc8Step (r : BitVec 8) (b : Bool) : BitVec 8 :=
  if r.getMsbD 0 != b then (r <<< 1) ^^^ 0x07#8 else r <<< 1

/-- The CRC-8 of R191 over a sequence of bits. -/
def crc8 (bs : Bits) : BitVec 8 := bs.foldl crc8Step 0x00#8

/-! ## The line frame on the wire (R188) -/

/-- The start symbol: seven dominant bits and a recessive one. -/
def startSymbol : Bits := [false, false, false, false, false, false, false, true]

/-- The end field: eight recessive bits. -/
def endField : Bits := List.replicate 8 true

/-- Fill bits: after every run of six identical bits a bit of the opposite level is inserted. `level` and `run` are the
run so far; the inserted bit counts toward the next run. -/
def stuff (level : Bool) (run : Nat) : Bits → Bits
  | [] => []
  | b :: bs =>
    if (if b = level then run + 1 else 1) = 6 then b :: (!b) :: stuff (!b) 1 bs
    else b :: stuff b (if b = level then run + 1 else 1) bs

/-- The three header bytes as bits: class, source, destination, kind, length. -/
def headerBits (f : LineFrame) : Bits :=
  bitsOf f.cls ++ bitsOf f.source ++ bitsOf f.destination ++ bitsOf f.kind ++ bitsOf (BitVec.ofNat 8 f.payload.length)

/-- Header and payload: what the CRC-16 is computed over. -/
def checkedBits (f : LineFrame) : Bits := headerBits f ++ bitsOfBytes f.payload

/-- The frame as it stands on the wire, from its start symbol to its end field. The recessive bit that ends the start
symbol counts as the first bit of the first run. -/
def wireBits (f : LineFrame) : Bits :=
  startSymbol ++ stuff true 1 (checkedBits f ++ bitsOf (crc16 (checkedBits f))) ++ endField

/-- What reading a number of data bits off the wire comes to. -/
inductive Taken where
  | got (data : Bits) (level : Bool) (run : Nat) (rest : Bits)
  /-- Seven dominant bits: a start symbol inside the frame (R188); `rest` follows them. -/
  | symbol (rest : Bits)
  /-- Seven recessive bits, or the bits end too soon (R171). -/
  | bad
deriving DecidableEq, Repr

/-- One more data bit in front. -/
def Taken.cons (b : Bool) : Taken → Taken
  | .got data level run rest => .got (b :: data) level run rest
  | t => t

/-- Read `n` data bits and remove the fill bits among and directly behind them. -/
def takeBits : Nat → Bool → Nat → Bits → Taken
  | 0, level, run, bs => .got [] level run bs
  | _ + 1, _, _, [] => .bad
  | n + 1, level, run, b :: bs =>
    if (if b = level then run + 1 else 1) = 6 then
      match bs with
      | [] => .bad
      | c :: cs => if c = b then (if b then .bad else .symbol cs) else (takeBits n c 1 cs).cons b
    else (takeBits n b (if b = level then run + 1 else 1) bs).cons b

/-- A frame from its data bits: header `h` and payload with CRC `d`. Absent where the CRC differs, the source is
outside 1 to 12 or the destination is above 12 (R171). -/
def frameOfBits (len : Nat) (h d : Bits) : Option LineFrame :=
  let f : LineFrame :=
    { cls := fieldOf 2 (h.take 2), source := fieldOf 4 ((h.drop 2).take 4), destination := fieldOf 4 ((h.drop 6).take 4),
      kind := fieldOf 6 ((h.drop 10).take 6), payload := bytesOfBits len d }
  if crc16 (h ++ d.take (8 * len)) = fieldOf 16 (d.drop (8 * len)) ∧ 1 ≤ f.source.toNat ∧ f.source.toNat ≤ 12 ∧
      f.destination.toNat ≤ 12 then some f else none

/-- What follows the first seven dominant bits in a row, `run` dominant bits standing just before these (R188). -/
def symbolIn : Nat → Bits → Option Bits
  | _, [] => none
  | run, b :: bs => if b then symbolIn 0 bs else if run = 6 then some bs else symbolIn (run + 1) bs

/-- The same behind bits that end in a run of `run` bits of this level. -/
def symbolBehind (level : Bool) (run : Nat) (bs : Bits) : Option Bits := symbolIn (if level then 0 else run) bs

/-- Reception of what follows a start symbol (R171). A start symbol inside the frame, in its end field or reaching into it
too, discards the frame, and reception starts again on the new frame (R188); `fuel` bounds the restarts. Seven dominant
bits followed by an eighth begin no frame (the model's choice, log 46). A start symbol behind the header of a frame whose
length is above 32 begins a new frame, and after a fill-bit violation the bits are not read on (the model's choice,
log 57). -/
def receiveBody : Nat → Bits → Option LineFrame
  | 0, _ => none
  | fuel + 1, bs =>
    let again := fun (behind : Option Bits) =>
      match behind with
      | some (true :: next) => receiveBody fuel next
      | _ => none
    match takeBits 24 true 1 bs with
    | .bad => none
    | .symbol rest => again (some rest)
    | .got h level run rest =>
      if 32 < natOfBits (h.drop 16) then again (symbolBehind level run rest)
      else
        match takeBits (8 * natOfBits (h.drop 16) + 16) level run rest with
        | .bad => none
        | .symbol rest => again (some rest)
        | .got d level run rest =>
          if rest = endField then frameOfBits (natOfBits (h.drop 16)) h d
          else if rest.take 8 = endField then none
          else again (symbolBehind level run rest)

/-- The frame that the bits spell, from the start symbol to the end field, if it passes the reception checks of R171. -/
def receive (bs : Bits) : Option LineFrame :=
  if bs.take 8 = startSymbol then receiveBody bs.length (bs.drop 8) else none

/-! ## Frame kinds (file 12 section 12.2) -/

def kindStatus : BitVec 6 := 0x01
def kindClaim : BitVec 6 := 0x02
def kindRelease : BitVec 6 := 0x03
def kindHeat : BitVec 6 := 0x04
def kindProgress : BitVec 6 := 0x05
def kindAnswer : BitVec 6 := 0x06
def kindRecordA : BitVec 6 := 0x07
def kindRecordB : BitVec 6 := 0x08
def kindTotals : BitVec 6 := 0x09
def kindAuthorize : BitVec 6 := 0x10
def kindStop : BitVec 6 := 0x11
def kindEsdClear : BitVec 6 := 0x12
def kindPrice : BitVec 6 := 0x13
def kindQuery : BitVec 6 := 0x14
def kindCollect : BitVec 6 := 0x15
def kindReadTotals : BitVec 6 := 0x16

/-- The payload length Formats gives a received kind. -/
def kindLength (k : BitVec 6) : Option Nat :=
  if k = kindStatus then some 29
  else if k = kindClaim ∨ k = kindRelease then some 1
  else if k = kindHeat then some 6
  else if k = kindAuthorize then some 8
  else if k = kindPrice then some 4
  else if k = kindQuery ∨ k = kindCollect then some 2
  else if k = kindStop ∨ k = kindEsdClear ∨ k = kindReadTotals then some 0
  else none

def isPeerKind (k : BitVec 6) : Bool := k = kindStatus ∨ k = kindClaim ∨ k = kindRelease ∨ k = kindHeat

def isCommandKind (k : BitVec 6) : Bool :=
  k = kindAuthorize ∨ k = kindStop ∨ k = kindEsdClear ∨ k = kindPrice ∨ k = kindQuery ∨ k = kindCollect ∨
    k = kindReadTotals

/-! ## Codes (R189) -/

def phaseCode : Phase → Nat
  | .idle => 0 | .authorized => 1 | .checking => 2 | .flowing => 3 | .switching => 4 | .paused => 5
  | .closing => 6 | .venting => 7 | .closingRecord => 8 | .done => 9

/-- A phase code reduced to the phase, as the Peer Table keeps it; absent for a code outside the table. -/
def peerPhaseOf : Nat → Option PeerPhase
  | 0 => some .idle | 1 => some .authorized | 2 => some .checking
  | 3 => some .ramping | 4 => some .ramping | 5 => some .ramping
  | 6 => some .ending | 7 => some .ending | 8 => some .ending
  | 9 => some .done
  | _ => none

def pauseCode : PauseReason → Nat
  | .precoolUnfit => 1 | .heatShare => 2 | .vehicleHalt => 3 | .sampleAge => 4 | .bankWait => 5 | .lineQuiet => 6

def compCode : CompState → Nat
  | .off => 0 | .starting => 1 | .loadedRefill => 2 | .loadedDirect => 3 | .idleRun => 4 | .stopping => 5 | .lockout => 6

def compOf : Nat → Option CompState
  | 0 => some .off | 1 => some .starting | 2 => some .loadedRefill | 3 => some .loadedDirect
  | 4 => some .idleRun | 5 => some .stopping | 6 => some .lockout
  | _ => none

def loopCode : LoopState → Nat
  | .normal => 0 | .tripped => 1 | .recovering _ => 2

def latchCode : Option LatchCause → Nat
  | none => 0 | some .breakaway => 1 | some .hoseRupture => 2 | some .overpressure => 3

def resultCode : Result → Nat
  | .ok => 0 | .busy => 1 | .badField => 2 | .notReady => 3 | .noPrice => 4 | .storeFull => 5
  | .meterFault => 6 | .lockedEsd => 7 | .unknownRecord => 8

def endReasonCode : Option EndReason → Nat
  | none => 0
  | some .esd => 1 | some .breakaway => 2 | some .hoseRupture => 3 | some .overpressure => 4
  | some .vehicleAbort => 5 | some .disconnect => 6 | some .sensorFail => 7 | some .meterFault => 8
  | some .lineFault => 9 | some .numberConflict => 10 | some .tempLimit => 11 | some .pressureLimit => 12
  | some .targetSoc => 13 | some .massLimit => 14 | some .amountLimit => 15 | some .sensorStale => 16
  | some .precoolFail => 17 | some .heatShareTimeout => 18 | some .vehicleHalt => 19 | some .banksExhausted => 20
  | some .stopTerminal => 21 | some .stopLocal => 22 | some .emptyTank => 23 | some .fullTank => 24
  | some .leak => 25 | some .interrupted => 26

def slotCode : SlotState → Nat
  | .free => 0 | .opened => 1 | .closed => 2 | .collected => 3 | .damaged => 4

def hoseCodeOf : HoseClass → Nat
  | .car70 => 1 | .bus35 => 2

def kindCode : ClaimKind → Nat
  | .draw => 1 | .refill => 2

def claimKindOf : Nat → Option ClaimKind
  | 1 => some .draw | 2 => some .refill
  | _ => none

def limitCode : LimitKind → Nat
  | .none => 0 | .mass => 1 | .amount => 2

def limitKindOf : Nat → Option LimitKind
  | 0 => some .none | 1 => some .mass | 2 => some .amount
  | _ => none

def fillKindCode : FillKind → Nat
  | .comm => 0 | .noncomm => 1 | .degraded => 2

def sourceCode : Option Source → Nat
  | none => 0
  | some (.bank k) => k.num
  | some .direct => 5

/-- The claim byte: bank in bits 7 to 4, kind in bits 1 and 0 (R189). Bits 3 and 2 are sent as 0 (the model's choice,
log 61). -/
def claimByte (b : Bank) (k : ClaimKind) : Byte := BitVec.ofNat 8 (16 * b.num + kindCode k)

/-! ## Payloads of peers (R189) -/

/-- A claim as a STATUS lists it: bank, kind, age in 10 ms units. Listed claims whose bank number names no bank or whose
kind is unknown are already left out (file 05 R89). -/
structure ListedClaim where
  bank : Bank
  kind : ClaimKind
  age : Nat
deriving DecidableEq, Repr

/-- Bank and kind of a claim byte; absent for an unknown kind or a number that names no bank. That bank 0 is left out like an
unknown kind, and does not bar the whole frame, is the model's choice (log 50). -/
def claimOfByte (x : Byte) : Option (Bank × ClaimKind) :=
  match Four.ofNum (x.toNat / 16), claimKindOf (x.toNat % 4) with
  | some b, some k => some (b, k)
  | _, _ => none

/-- What the Peer Table takes from a STATUS (file 05 R86). -/
structure StatusFields where
  phase : PeerPhase
  waiting : Bool
  reservation : Nat
  raiseAge : Nat
  comp : CompState
  refillBank : Option Bank
  latch : Bool
  claims : List ListedClaim
deriving DecidableEq, Repr

/-- The claim entry at offset `o` of a STATUS payload. -/
def listedClaim (p : List Byte) (o : Nat) : Option ListedClaim :=
  (claimOfByte (byteAt p o)).map fun bk => ⟨bk.1, bk.2, fieldAt p (o + 1) 2⟩

/-- A STATUS payload; absent where its length is not 29 or a field other than the hose class holds a code outside the
tables of R189 (log 22 lists the codes tested). Bits that its table does not name are not read (the model's choice,
log 58). -/
def readStatus (p : List Byte) : Option StatusFields :=
  if p.length ≠ 29 then none
  else
    match peerPhaseOf (fieldAt p 0 1), compOf (fieldAt p 9 1 / 16) with
    | some phase, some comp =>
      if 6 < fieldAt p 1 1 ∨ 4 < fieldAt p 9 1 % 16 ∨ fieldAt p 10 1 % 4 = 3 ∨ 4 < fieldAt p 16 1 then none
      else some
        { phase := phase, waiting := (byteAt p 3).getLsbD 0, reservation := fieldAt p 4 3, raiseAge := fieldAt p 7 2,
          comp := comp, refillBank := Four.ofNum (fieldAt p 9 1 % 16), latch := (byteAt p 10).getLsbD 2,
          claims := (List.range (fieldAt p 16 1)).filterMap fun i => listedClaim p (17 + 3 * i) }
    | _, _ => none

/-- A CLAIM or RELEASE payload. -/
def readClaim (p : List Byte) : Option (Bank × ClaimKind) :=
  if p.length = 1 then claimOfByte (byteAt p 0) else none

structure HeatFields where
  reservation : Nat
  raiseAge : Nat
  waiting : Bool
deriving DecidableEq, Repr

/-- A HEAT payload; absent where its length is not 6 or the waiting flag is neither 0 nor 1. -/
def readHeat (p : List Byte) : Option HeatFields :=
  if p.length = 6 ∧ fieldAt p 5 1 ≤ 1 then some ⟨fieldAt p 0 3, fieldAt p 3 2, fieldAt p 5 1 = 1⟩ else none

/-! ## Command payloads (R189) -/

structure AuthorizeFields where
  number : Nat
  row : Nat
  limitKind : Nat
  limitValue : Nat
deriving DecidableEq, Repr

def readAuthorize (p : List Byte) : AuthorizeFields :=
  ⟨fieldAt p 0 2, fieldAt p 2 1, fieldAt p 3 1, fieldAt p 4 4⟩

/-! ## The vehicle frame (R191) -/

structure VehicleFields where
  side : Side
  groups : Nat
  sequence : Nat
  data : SideData
deriving DecidableEq, Repr

def vehicleCmdOf : Nat → Option VehicleCmd
  | 1 => some .run | 2 => some .halt | 3 => some .abort
  | _ => none

def sideOf : Nat → Option Side
  | 0x41 => some .a | 0x42 => some .b
  | _ => none

/-- A vehicle frame of 14 bytes that passes every test of file 02 R20; absent where it is discarded. A command byte
whose complement does not match is no command code. -/
def readVehicle (p : List Byte) : Option VehicleFields :=
  if p.length ≠ 14 ∨ fieldAt p 0 1 ≠ 0xA5 ∨ byteAt p 13 ≠ crc8 (bitsOfBytes (p.take 13)) ∨ fieldAt p 4 1 ≠ 1 then none
  else
    match sideOf (fieldAt p 1 1), vehicleCmdOf (fieldAt p 11 1) with
    | some side, some cmd =>
      if byteAt p 12 ≠ ~~~(byteAt p 11) ∨ fieldAt p 2 1 < 1 ∨ 2 < fieldAt p 2 1 ∨ (side = .b ∧ fieldAt p 2 1 = 1) ∨
          fieldAt p 5 2 = 0 ∨ 9999 < fieldAt p 5 2 then none
      else some
        { side := side, groups := fieldAt p 2 1, sequence := fieldAt p 3 1 % 16,
          data := ⟨fieldAt p 5 2, fieldAt p 7 2, fieldAt p 9 2, cmd⟩ }
    | _, _ => none

/-! ## The configuration block (R192, file 11 R184 and R185) -/

/-- The byte at an address; a memory that does not drive its data line reads 0xFF (file 11 R184). -/
def configByte (block : List Byte) (a : Nat) : Nat := (block.getD a 0xFF#8).toNat

/-- A field of two bytes. -/
def configWord (block : List Byte) (a : Nat) : Nat := 256 * configByte block a + configByte block (a + 1)

def clamp (x lo hi : Nat) : Nat := max lo (min x hi)

/-- A field with a default: its default code takes the default, another value is clamped (R185). -/
def withDefault (code dflt x lo hi : Nat) : Nat := if x = code then dflt else clamp x lo hi

/-- The hose class code of the block. -/
def hoseCodeRead (block : List Byte) : Nat := configByte block 0 / 16

def hoseOfCode : Nat → Option HoseClass
  | 1 => some .car70 | 2 => some .bus35
  | _ => none

def nominalsRead (block : List Byte) : Quad Nat :=
  ⟨configWord block 1, configWord block 3, configWord block 5, configWord block 7⟩

/-- Test 4 of R184 over the banks 1 to the bank count: each pressure in range and above that of the bank below. -/
def nominalsPass (count : Nat) (p : Quad Nat) : Bool :=
  Four.all.all fun k =>
    decide (count < k.num) ||
      (decide (2000 ≤ p.get k) && decide (p.get k ≤ 9500) &&
        Four.all.all fun j => decide (j.num + 1 ≠ k.num) || decide (p.get j < p.get k))

/-- CHECK (R184, R185): the configuration values, or absent where a test fails. -/
def readConfig (block : List Byte) : Option Cfg :=
  if ((List.range 32).map (configByte block)).sum % 256 ≠ 0 then none
  else
    match hoseOfCode (hoseCodeRead block) with
    | none => none
    | some hose =>
      let count := configByte block 0 % 16
      if count < 2 ∨ 4 < count then none
      else if nominalsPass count (nominalsRead block) = false then none
      else some
        { hose := hose, bankCount := count, nominal := nominalsRead block,
          drawLimit := ⟨withDefault 15 2 (configByte block 9 / 16) 1 3, withDefault 15 2 (configByte block 9 % 16) 1 3,
            withDefault 15 2 (configByte block 10 / 16) 1 3, withDefault 15 2 (configByte block 10 % 16) 1 3⟩,
          hysteresis := clamp (configWord block 11) 100 1000,
          order := if configByte block 13 / 64 = 1 then .rotating else .descending,
          directAllowed := configByte block 13 / 16 % 4 ≠ 0,
          maxStarts := withDefault 15 6 (configByte block 13 % 16) 1 12,
          directFlow := clamp (configWord block 14) 10 400,
          capacity := clamp (65536 * configByte block 16 + configWord block 17) 10000 250000,
          peakFlow := match hose with
            | .car70 => clamp (configWord block 19) 50 600
            | .bus35 => clamp (configWord block 19) 100 1500,
          commTarget := withDefault 65535 980 (configWord block 21) 800 1000,
          nonCommTarget := withDefault 65535 900 (configWord block 23) 700 950,
          tSet := withDefault 65535 2382 (configWord block 25) 2332 2532,
          pulseWeight := clamp (configByte block 27) 1 100,
          deadVolume := clamp (configByte block 28) 5 200,
          carrier := clamp (configWord block 29) 200 333 }

end Sys2Proof.Machine
end

