-- ==== Sys2Proof/Machine/Operands.lean ====
section
/-! DEFINITION. What the blocks read of one another: channel records, levels, timers, valve positions, combined vehicle
values, peer figures. Readings only: nothing here changes a state. -/

namespace Sys2Proof.Machine

/-! ## Time -/

/-- Milliseconds since an instant. -/
def Node.elapsed (n : Node) (since : Nat) : Nat := n.now - since

/-- A timer, absent while stopped, has reached `ms`. -/
def Node.reached (n : Node) (since : Option Nat) (ms : Nat) : Bool :=
  match since with
  | none => false
  | some t => decide (ms ≤ n.now - t)

/-- A grid, absent while stopped, has come to its next instant. -/
def Node.gridDue (n : Node) (next : Option Nat) : Bool :=
  match next with
  | none => false
  | some t => decide (t ≤ n.now)

/-- The up-time count in whole seconds (file 11 R181). -/
def Node.upTime (n : Node) : Nat := min ((n.now - n.stc.startedAt) / 1000) 4294967295

/-! ## Phase of start-up -/

def Node.inRun (n : Node) : Bool := n.stc.phase = .run

/-- Frames are handed on from the start of LISTEN (file 10 R172). -/
def Node.hears (n : Node) : Bool := n.stc.phase = .listen ∨ n.stc.phase = .run

/-! ## Channels (file 01) -/

def Node.chan (n : Node) (c : Channel) : ChannelRec := n.isc.channels.get c

/-- The age of a record: ms since acceptance, saturating at 65,535; absent is NEVER (R5). -/
def Node.chanAge (n : Node) (c : Channel) : Option Nat := (n.chan c).acceptedAt.map fun t => min (n.now - t) 65535

/-- "Older than `ms`": true for NEVER, and for a saturated age against every threshold a block applies (R5). -/
def Node.olderThan (n : Node) (c : Channel) (ms : Nat) : Bool :=
  match n.chanAge c with
  | none => true
  | some a => decide (ms < a) || decide (a = 65535)

def Node.chanFailed (n : Node) (c : Channel) : Bool := (n.chan c).health = .failed

/-- P_H as held, 0 if it has no value (file 03 R62, file 08 R144). -/
def Node.pH (n : Node) : Nat := (n.chan .pH).value.getD 0

/-- T_D as held, 2132 if it has no value (file 03 R62, file 08 R144). -/
def Node.tD (n : Node) : Nat := (n.chan .tD).value.getD 2132

/-- T_S as held, 3832 if it has no value (file 06 R102). -/
def Node.tS (n : Node) : Nat := (n.chan .tS).value.getD 3832

/-- T_A as held, 2132 if it has no value (file 03 R49). -/
def Node.tA (n : Node) : Nat := (n.chan .tA).value.getD 2132

/-- Header pressure of a bank; it has a value whenever the bank is AVAILABLE. -/
def Node.pB (n : Node) (b : Bank) : Nat := (n.chan (.pB b)).value.getD 0

/-- A record with a value and health OK. -/
def ChannelRec.sound (r : ChannelRec) : Bool := r.value.isSome ∧ r.health = .ok

/-- AVAILABLE (file 04 R66). -/
def Node.available (n : Node) (b : Bank) : Bool := (n.chan (.pB b)).sound

/-- The converter input number of a channel (file 01 section 1.1). -/
def converterInput : Channel → Nat
  | .pH => 0 | .tS => 1 | .tD => 2
  | .pB .one => 3 | .pB .two => 4 | .pB .three => 5 | .pB .four => 6
  | .pC => 7 | .tC => 8 | .tK => 9 | .tA => 10

/-- The span of a channel: its codes at 4 mA and at 20 mA. -/
def span : Channel → Nat × Nat
  | .pH => (0, 10000) | .tS => (2132, 3832) | .tD => (2132, 3832) | .pB _ => (0, 10000)
  | .pC => (0, 10000) | .tC => (2732, 4732) | .tK => (2132, 3832) | .tA => (2132, 3832)

/-- The banks of this site, in ascending order. -/
def banksUpTo (count : Nat) : List Bank := Four.all.filter fun b => decide (b.num ≤ count)

/-- The scan order, without the banks above the bank count (R1). -/
def scanOrder (count : Nat) : List Channel :=
  [.pH, .tS, .tD] ++ (banksUpTo count).map Channel.pB ++ [.pC, .tC, .tK, .tA]

/-! ## Inputs, loop and line -/

/-- The filtered level of an input (R8). -/
def Node.level (n : Node) (i : Input) : Bool := (n.isc.inputs.get i).filtered

/-- The loop is "open" for R12. -/
def Node.loopOpen (n : Node) : Bool := n.isc.latch.isSome || n.level .loop

/-- The quiet timer stands at `ms` or more (file 10 R178). -/
def Node.quietAtLeast (n : Node) (ms : Nat) : Bool := n.reached n.liu.quietSince ms

/-! ## Valves (file 03 R30) -/

/-- "Open and ready": the opening travel has ended. -/
def ValveRec.ready (v : ValveRec) : Bool := v.opened ∧ v.since = none

/-- The valve has closed. While it travels it counts as open. -/
def ValveRec.closed (v : ValveRec) : Bool := v.opened = false ∧ v.since = none

/-- Every bank draw valve has closed. -/
def Node.drawValvesClosed (n : Node) : Bool := n.fcu.vb.toList.all ValveRec.closed

/-- Every bank draw valve other than that of `b` has closed. -/
def Node.otherDrawValvesClosed (n : Node) (b : Bank) : Bool :=
  Four.all.all fun k => decide (k = b) || (n.fcu.vb.get k).closed

/-! ## Fill phases (file 03 section 3.1) -/

def Phase.ramping : Phase → Bool
  | .flowing => true | .switching => true | .paused => true
  | _ => false

/-- CHECKING or RAMPING: a fill in progress for the HSU (R35, R61) and for the end test (R58). -/
def Phase.filling : Phase → Bool
  | .checking => true | .flowing => true | .switching => true | .paused => true
  | _ => false

def Phase.ending : Phase → Bool
  | .closing => true | .venting => true | .closingRecord => true
  | _ => false

def Pauses.any (p : Pauses) : Bool :=
  p.precoolUnfit.isSome || p.heatShare.isSome || p.vehicleHalt.isSome || p.sampleAge.isSome || p.bankWait.isSome ||
    p.lineQuiet.isSome

/-- The reasons in the order of the table of section 3.7. -/
def PauseReason.all : List PauseReason := [.precoolUnfit, .heatShare, .vehicleHalt, .sampleAge, .bankWait, .lineQuiet]

/-- The pause reason shown: the first active one (R56). -/
def Pauses.shown (p : Pauses) : Option PauseReason := PauseReason.all.find? fun r => (p.get r).isSome

/-- A source is open and ready. -/
def Node.sourceReady (n : Node) : Bool :=
  match n.fcu.source with
  | none => false
  | some (.bank b) => (n.fcu.vb.get b).ready
  | some .direct => n.ccu.vdir.ready

/-- The margin P_Bk - P_H. -/
def Node.margin (n : Node) (b : Bank) : Int := (n.pB b : Int) - (n.pH : Int)

/-- A fill sample is older than `ms` (R49). -/
def Node.sampleOlder (n : Node) (ms : Nat) : Bool :=
  n.olderThan .pH ms || n.olderThan .tS ms || n.olderThan .tD ms

/-! ## Vehicle values (file 02 R26) -/

/-- The declared sides. -/
def Vlr.declaredSides (v : Vlr) : List SideRec :=
  match v.declared with
  | none => []
  | some 1 => [v.sideA]
  | some _ => [v.sideA, v.sideB]

/-- The worse of two commands: ABORT before HALT before RUN. -/
def VehicleCmd.worse : VehicleCmd → VehicleCmd → VehicleCmd
  | .abort, _ => .abort
  | _, .abort => .abort
  | .halt, _ => .halt
  | _, .halt => .halt
  | .run, .run => .run

structure Combined where
  pressure : Nat
  temperature : Nat
  command : VehicleCmd
deriving DecidableEq, Repr

/-- Combination over a list of side records; absent if one holds no data. -/
def combineSides : List SideRec → Option Combined
  | [] => none
  | [r] => r.data.map fun d => ⟨d.pressure, d.temperature, d.command⟩
  | r :: rs =>
    match r.data, combineSides rs with
    | some d, some c => some ⟨max d.pressure c.pressure, max d.temperature c.temperature, d.command.worse c.command⟩
    | _, _ => none

/-- The combined values, present when every declared side holds data. -/
def Vlr.combined (v : Vlr) : Option Combined := combineSides v.declaredSides

/-- Every declared side's age is below 1,000 ms, with the declared group count present (R23). -/
def Vlr.allFresh (v : Vlr) : Bool :=
  v.declared.isSome && v.declaredSides.all fun r => match r.age with | none => false | some a => decide (a < 1000)

def Node.linkValid (n : Node) : Bool := n.vlr.link = .valid

/-- The combined command, while the link is VALID. -/
def Node.validCommand (n : Node) : Option VehicleCmd :=
  if n.linkValid then n.vlr.combined.map (·.command) else none

/-! ## Own claims (file 04) -/

/-- The own claim on a bank of a kind. -/
def Bcu.find (c : Bcu) (b : Bank) (k : ClaimKind) : Option OwnClaim :=
  c.own.find? fun o => decide (o.bank = b) && decide (o.kind = k)

def ClaimState.isHeld : ClaimState → Bool
  | .held _ => true
  | _ => false

/-- The own draw claim on a bank is HELD: only then is its valve commanded open (file 03 R30). -/
def Node.drawHeld (n : Node) (b : Bank) : Bool :=
  match n.bcu.find b .draw with
  | none => false
  | some c => c.state.isHeld

/-! ## Peer figures (file 05 R94, R95) -/

def Ptb.find (p : Ptb) (node : Nat) : Option Peer := p.peers.find? fun e => decide (e.node = node)

/-- The waiting flag counts: FRESH, flag set, fill in CHECKING or RAMPING. -/
def Peer.counts (p : Peer) : Bool := !p.stale && p.waiting && (decide (p.phase = .checking) || decide (p.phase = .ramping))

/-- Any FRESH entry reports STARTING. -/
def Ptb.peerStarting (p : Ptb) : Bool := p.peers.any fun e => !e.stale && decide (e.comp = .starting)

/-- Any entry reports its drive latch set. -/
def Ptb.peerLatch (p : Ptb) : Bool := p.peers.any fun e => e.latch

/-- A FRESH entry names the bank as its refill bank while reporting LOADED_REFILL. -/
def Ptb.refilling (p : Ptb) (b : Bank) : Bool :=
  p.peers.any fun e => !e.stale && decide (e.comp = .loadedRefill) && decide (e.refillBank = some b)

/-! ## Store figures (file 09 R163) -/

/-- The slot may take a new record. -/
def Slot.takable (s : Slot) : Bool := s.state = .free ∨ s.state = .collected

def Rst.freeSlots (r : Rst) : Nat := (r.table.filter Slot.takable).length

def Slot.uncollected (s : Slot) : Bool := s.state = .closed ∨ s.state = .damaged

def Rst.uncollected (r : Rst) : Nat := (r.table.filter Slot.uncollected).length

/-! ## PROGRESS (file 10 R179, file 12 R189) -/

def pauseShownCode (p : Pauses) : Nat := match p.shown with | some r => pauseCode r | none => 0

/-- PROGRESS. The stage source is that of the last stage entry, which the FCU keeps as its last source (log 26). -/
def Node.progressPayload (n : Node) : List Byte :=
  bigEndian 2 n.rst.lastIssued ++ bigEndian 1 (phaseCode n.fcu.phase) ++ bigEndian 1 (sourceCode n.fcu.lastSource) ++
  bigEndian 4 n.mpu.gross ++ bigEndian 4 n.mpu.projNet ++ bigEndian 4 n.mpu.projAmount ++
  bigEndian 2 (n.fcu.lastSoc.getD 65535) ++ bigEndian 1 (pauseShownCode n.fcu.pauses)

/-! ## Outputs (file 07 R117, file 01 R10) -/

def CompState.running : CompState → Bool
  | .starting => true | .loadedRefill => true | .loadedDirect => true | .idleRun => true
  | _ => false

/-- CM_RUN. -/
def Node.cmRun (n : Node) : Bool := n.ccu.state.running

/-- CM_LOAD: on while the valve of LOADED_REFILL or LOADED_DIRECT is open and ready, and forced off by the quiet hold. -/
def Node.cmLoad (n : Node) : Bool :=
  !n.ccu.hold &&
    match n.ccu.state, n.ccu.claim with
    | .loadedRefill, some c => (n.ccu.vr.get c.bank).ready
    | .loadedDirect, _ => n.ccu.vdir.ready
    | _, _ => false

/-- ES_DRV opens the loop. -/
def Node.esDrive (n : Node) : Bool := n.isc.latch.isSome

end Sys2Proof.Machine
end

