-- ==== Sys2Proof/Machine/Flags.lean ====
section
/-! DEFINITION. The arithmetic of the spec: channel conversion, state of charge, ramp rate, flow, vent mass, amounts,
heat want, capacity and ceiling, precool class. -/

namespace Sys2Proof.Machine

/-! ## Hose class figures -/

/-- P_limit (file 01 R11). -/
def hoseLimit : HoseClass → Nat
  | .car70 => 8750 | .bus35 => 4375

/-- Overpressure threshold: P_limit plus 2.00 MPa (file 01 R11). -/
def overThreshold (h : HoseClass) : Nat := hoseLimit h + 200

/-- Nominal working pressure Pn (file 03 R55). -/
def hoseNominal : HoseClass → Nat
  | .car70 => 7000 | .bus35 => 3500

/-- The hose cap, in cg (file 03 R32). -/
def hoseCap : HoseClass → Nat
  | .car70 => 800000 | .bus35 => 6000000

/-! ## Channel conversion (file 01 R4) -/

/-- A loop current in µA is in range. -/
def currentInRange (i : Nat) : Bool := decide (3600 ≤ i) && decide (i ≤ 21000)

/-- The code of an in-range current: clamped to 4 to 20 mA and scaled over the span, rounded half up. -/
def codeOfCurrent (c : Channel) (i : Nat) : Nat :=
  (span c).1 + ((clamp i 4000 20000 - 4000) * ((span c).2 - (span c).1) + 8000) / 16000

/-! ## State of charge (file 03 R55) -/

def kP (p : Nat) : Nat := (p * 39 + 100) / 200

/-- Dref: 4247 for CAR70, 3565 for BUS35. -/
def dRef (h : HoseClass) : Nat := 2882 + kP (hoseNominal h)

/-- The state of charge in per mille, saturated at 1200; P = 0 gives 0. -/
def soc (h : HoseClass) (p t : Nat) : Nat :=
  let p := min p 10000
  let t := clamp t 2132 3832
  let d := t + kP p
  if p = 0 then 0
  else min ((1000 * p * dRef h + (hoseNominal h * d) / 2) / (hoseNominal h * d)) 1200

/-! ## Precool class (file 06 R100) -/

inductive PrecoolClass where
  | cold | mid | warm | unfit
deriving DecidableEq, Repr

/-- The grade of a T_D value. -/
def precoolGrade : Option Nat → PrecoolClass
  | none => .unfit
  | some t => if t ≤ 2432 then .cold else if t ≤ 2532 then .mid else if t ≤ 2682 then .warm else .unfit

/-- The class as handed out, with the grace of the first 30,000 ms of RAMPING. -/
def Node.precoolClass (n : Node) : PrecoolClass :=
  let g := precoolGrade (n.chan .tD).value
  if g = .unfit ∧ n.fcu.phase.ramping ∧ n.reached n.fcu.rampSince 30000 = false then .warm else g

/-! ## Allowed ramp rate (file 03 R51) -/

def aprrBase : HoseClass → PrecoolClass → Nat
  | .car70, .cold => 2800 | .car70, .mid => 2000 | .car70, .warm => 800
  | .bus35, .cold => 1200 | .bus35, .mid => 900 | .bus35, .warm => 400
  | _, .unfit => 0

/-- The derating factor K: 16 while T_A is FAILED. -/
def derating (failed : Bool) (tA : Nat) : Nat :=
  if failed then 16 else if 3032 < tA then min ((tA - 3032) / 10) 16 else 0

/-- APRR from class, kind (`full`: a fill of kind COMM) and K. -/
def aprr (h : HoseClass) (c : PrecoolClass) (full : Bool) (k : Nat) : Nat :=
  (if full then aprrBase h c else aprrBase h c * 3 / 4) * (32 - k) / 32

/-! ## Vent mass, amount (file 08 R144, R145) -/

/-- The vent mass in cg. -/
def ventMass (vh p t : Nat) : Nat :=
  if p = 0 then 0 else (vh * 2425 * p + (100 * (t + kP p)) / 2) / (100 * (t + kP p))

/-- A net mass priced, in cents, rounded half up. -/
def priced (net unitPrice : Nat) : Nat := (net * unitPrice + 500000) / 1000000

/-- The limit mass of an authorization (file 03 R32). -/
def limitMassOf (h : HoseClass) (kind : LimitKind) (value unitPrice : Nat) : Nat :=
  match kind with
  | .none => hoseCap h
  | .mass => min value (hoseCap h)
  | .amount => min (value * 1000000 / unitPrice) (hoseCap h)

/-! ## Heat (file 06) -/

/-- C_eff from the T_K record (R101). -/
def effectiveCapacity (c : Nat) (r : ChannelRec) : Nat :=
  match r.health, r.value with
  | .ok, some t => if t ≤ 2332 then c else if t ≤ 2481 then c * (2482 - t) / 150 else 0
  | _, _ => 0

/-- ΔT10 (R102). -/
def tempDrop (tS tSet : Nat) : Nat := max (tS - tSet) 100

/-- R_want: rounded up to a whole watt (R102). -/
def heatWant (peakFlow dT10 : Nat) : Nat := (peakFlow * 143 * dT10 + 999) / 1000

/-- The HSU flow ceiling in 0.1 g/s (R112). -/
def Hsu.ceiling (h : Hsu) : Nat := 1000 * h.rOwn / (143 * h.dT10)

/-! ## Flow (file 03 R53) -/

/-- F_max in RAMPING. -/
def Node.flowMax (n : Node) : Nat :=
  min (min (n.hsu.ceiling) n.stc.cfg.peakFlow)
    (min (if n.fcu.source = some .direct then n.stc.cfg.directFlow else n.hsu.ceiling)
      (if n.mpu.slow then 50 else n.hsu.ceiling))

/-- The pressure error, 0 to 50. -/
def pressureError (pRamp pH : Nat) : Nat := min (pRamp - pH) 50

/-- The pulse flow command (R39). -/
def Node.pulseFlow (n : Node) : Nat := min 50 (min n.hsu.ceiling n.stc.cfg.peakFlow)

/-- The flow command of a RAMPING period (R53). -/
def Node.flowCommand (n : Node) : Nat :=
  if n.fcu.phase = .paused ∨ n.sourceReady = false then 0
  else n.flowMax * pressureError n.fcu.pRamp n.pH / 50

/-! ## Instants from reported ages (file 05 R90) -/

/-- The oldest instant a reported age allows. -/
def convertAge (r : Nat) (a : Nat) : Int :=
  if a < 65535 then (r : Int) - 10 * ((a : Int) + 1) else (r : Int) - 655360

/-- The held instant agrees with the reported age. -/
def ageAgrees (r : Nat) (a : Nat) (h : Int) : Bool :=
  if a < 65535 then decide (10 * (a : Int) ≤ (r : Int) - h) && decide ((r : Int) - h ≤ 10 * ((a : Int) + 1))
  else decide (655350 ≤ (r : Int) - h)

/-- The instant the Peer Table takes: the held one where the report agrees with it, else the converted one. -/
def instantOf (r : Nat) (a : Nat) (held : Option Int) : Int :=
  match held with
  | some h => if ageAgrees r a h then h else convertAge r a
  | none => convertAge r a

/-- An age in whole 10 ms units, truncated, saturating at 65535 (file 04 R82, file 06 R108). -/
def reportedAge (now since : Nat) : Nat := min ((now - since) / 10) 65535

end Sys2Proof.Machine
end

