-- ==== Sys2Proof/Machine/Ops.lean ====
section
/-! DEFINITION. Shared operations: how a meaning acts on the node, valve commands, the transmit queue (file 10 section
10.5), and the view, the admission walk, requests and releases of claims (file 04). -/

namespace Sys2Proof.Machine

/-- A command that changes the node: the next state, with the waiting commands as they are. -/
def State.act (s : State) (f : Node → Node) : Host.Outcome State Fault Refusal :=
  .next { s with node := f s.node }

/-- `f` where the condition holds, otherwise nothing happens. -/
def Node.onlyIf (n : Node) (c : Bool) (f : Node → Node) : Node := if c then f n else n

/-! ## Valves (file 03 R30) -/

/-- A command to a valve. One that names the position already commanded starts no new travel (log 11). -/
def ValveRec.command (v : ValveRec) (opened : Bool) (now : Nat) : ValveRec :=
  if v.opened = opened then v else ⟨opened, some now⟩

/-- The travel of a valve ends 400 ms after its latest command. -/
def ValveRec.travelEnded (v : ValveRec) (now : Nat) : Bool :=
  match v.since with
  | none => false
  | some t => decide (400 ≤ now - t)

/-- A valve after its travel. -/
def ValveRec.arrive (v : ValveRec) : ValveRec := ⟨v.opened, none⟩

/-! ## The transmit queue (file 10) -/

/-- Class of a frame: 0 urgent, 1 normal, 2 bulk (R174). -/
def FrameBody.cls : FrameBody → Nat
  | .claim _ _ => 0 | .release _ _ => 0 | .heat => 0
  | .status => 1 | .answer _ _ _ _ => 1
  | .progress _ => 2 | .progressDone _ _ => 2 | .recordA _ _ => 2 | .recordB _ _ => 2 | .totals _ _ => 2

def FrameBody.isProgress : FrameBody → Bool
  | .progress _ => true
  | .progressDone _ _ => true
  | _ => false

/-- A frame as it enters the queue. -/
def QFrame.fresh (b : FrameBody) : QFrame := ⟨b, 0, false, false⟩

/-- A frame of the queue that waits with this body. -/
def QFrame.waits (b : FrameBody) (f : QFrame) : Bool := !f.onWire && decide (f.body = b)

/-- Take a place by class, and by arrival within the class (R174). -/
def queueInsert (f : QFrame) : List QFrame → List QFrame
  | [] => [f]
  | g :: gs => if f.body.cls < g.body.cls then f :: g :: gs else g :: queueInsert f gs

/-- The queue without its youngest frame of a class that is not on the wire; absent if there is none. The youngest is the
one that stands last: a frame that took an older one's place (R175) counts by that place (the model's choice, log 44). -/
def dropYoungest (c : Nat) : List QFrame → Option (List QFrame)
  | [] => none
  | f :: fs =>
    match dropYoungest c fs with
    | some gs => some (f :: gs)
    | none => if f.body.cls = c ∧ f.onWire = false then some fs else none

def urgentCount (q : List QFrame) : Nat := (q.filter fun f => decide (f.body.cls = 0)).length

/-- The youngest bulk frame displaced, or else, for an urgent frame, the youngest normal frame (R176). -/
def makeRoom (c : Nat) (q : List QFrame) : Option (List QFrame) :=
  match dropYoungest 2 q with
  | some r => some r
  | none => if c = 0 then dropYoungest 1 q else none

/-- An offer to the queue (R175, R176): the queue after it, and whether the offered frame was kept. A PROGRESS that falls
due while one is on the wire, and none waits, is queued beside it (the model's choice, log 43). -/
def queueOffer (b : FrameBody) (q : List QFrame) : List QFrame × Bool :=
  if (b = .status ∨ b = .heat) ∧ q.any (QFrame.waits b) then
    (q.map fun f => if QFrame.waits b f then .fresh b else f, true)
  else if b.isProgress ∧ q.any (fun f => !f.onWire && f.body.isProgress) then (q, true)
  else if b.cls = 0 ∧ 5 ≤ urgentCount q then (q, false)
  else if q.length < 10 then (queueInsert (.fresh b) q, true)
  else if b.cls = 2 then (q, false)
  else
    match makeRoom b.cls q with
    | some r => (queueInsert (.fresh b) r, true)
    | none => (q, false)

/-- An offer by a block. While NUMBER_CONFLICT holds, a frame other than a STATUS is discarded at the offer (R180). -/
def liuOffer (b : FrameBody) (n : Node) : Node × Bool :=
  if n.stc.conflict ∧ b ≠ .status then (n, true)
  else ({ n with liu.queue := (queueOffer b n.liu.queue).1 }, (queueOffer b n.liu.queue).2)

/-- An offer whose drop is not reported (R169). -/
def offer (b : FrameBody) (n : Node) : Node := (liuOffer b n).1

/-- A queued PROGRESS at the entry to DONE, with the payload it then carries (R179, log 38). -/
def QFrame.atDone (payload : List Byte) (f : QFrame) : QFrame :=
  match f.body with
  | .progress t => { f with body := .progressDone t payload }
  | _ => f

/-- Removal of the CLAIM of a REQUESTED claim (R175): it leaves the queue, or, on the wire, it is removed at the end of
its attempt. -/
def queueRemoveClaim (b : Bank) (k : ClaimKind) (q : List QFrame) : List QFrame :=
  (q.filter fun f => !QFrame.waits (.claim b k) f).map fun f =>
    if f.body = .claim b k then { f with doomed := true } else f

/-- An ANSWER to a terminal (R173). -/
def answer (terminal : Nat) (command : BitVec 6) (result : Result) (number : Nat) (n : Node) : Node :=
  offer (.answer terminal command result number) n

/-! ## The view and the admission walk (file 04 R68) -/

/-- A claim of the view. -/
structure ViewClaim where
  instant : Int
  holder : Nat
  bank : Bank
  kind : ClaimKind
deriving DecidableEq, Repr

/-- Order of the walk: instant, then holder, then DRAW before REFILL. -/
def ViewClaim.before (a b : ViewClaim) : Bool :=
  decide (a.instant < b.instant) ||
    (decide (a.instant = b.instant) &&
      (decide (a.holder < b.holder) ||
        (decide (a.holder = b.holder) && (decide (a.kind = .draw) || decide (b.kind = .refill)))))

def insertClaim (c : ViewClaim) : List ViewClaim → List ViewClaim
  | [] => [c]
  | d :: ds => if c.before d then c :: d :: ds else d :: insertClaim c ds

def sortClaims : List ViewClaim → List ViewClaim
  | [] => []
  | c :: cs => insertClaim c (sortClaims cs)

/-- A peer's claims on a bank, as claims of the view. -/
def Peer.viewOf (p : Peer) (b : Bank) : List ViewClaim :=
  (p.claims.filter fun c => decide (c.bank = b)).map fun c => ⟨c.instant, p.node, b, c.kind⟩

/-- An own claim as a claim of the view; absent while it is REQUESTED. -/
def OwnClaim.view (node : Nat) (c : OwnClaim) : Option ViewClaim :=
  match c.state with
  | .requested => none
  | .settling t => some ⟨(t : Int), node, c.bank, c.kind⟩
  | .held t => some ⟨(t : Int), node, c.bank, c.kind⟩

/-- The view of a bank, oldest first: the peers' claims that the Peer Table holds and the own SETTLING and HELD claims
(section 4.3). After each walk it is the bank's admitted claim set (R69). -/
def Node.bankView (n : Node) (b : Bank) : List ViewClaim :=
  sortClaims (n.ptb.peers.flatMap (·.viewOf b) ++
    (n.bcu.own.filter fun c => decide (c.bank = b)).filterMap (·.view n.stc.node))

/-- Whether the walk admits a claim of this kind after `draws` admitted draws and, if `refill`, an admitted refill. -/
def admits (limit draws : Nat) (refill : Bool) : ClaimKind → Bool
  | .draw => !refill && decide (draws < limit)
  | .refill => !refill && decide (draws = 0)

/-- The walk: the admitted claims and the dropped ones, each in order. -/
def walk (limit : Nat) : Nat → Bool → List ViewClaim → List ViewClaim × List ViewClaim
  | _, _, [] => ([], [])
  | draws, refill, c :: cs =>
    if admits limit draws refill c.kind then
      let r := walk limit (if c.kind = .draw then draws + 1 else draws) (refill || decide (c.kind = .refill)) cs
      (c :: r.1, r.2)
    else
      let r := walk limit draws refill cs
      (r.1, c :: r.2)

/-- A claim that has just entered the view, at its end (R72, R76). -/
def enteredLast (c : ViewClaim) (cs : List ViewClaim) : List ViewClaim :=
  if cs.contains c then (cs.filter fun d => decide (d ≠ c)) ++ [c] else cs

/-- The view of a bank as the walk takes it, with the claim that has just entered by its own frame as the youngest. -/
def Node.walkOrder (n : Node) (b : Bank) : Option ViewClaim → List ViewClaim
  | none => n.bankView b
  | some c => enteredLast c (n.bankView b)

/-- The claims the walk drops on a bank. -/
def Node.dropped (n : Node) (b : Bank) (last : Option ViewClaim) : List ViewClaim :=
  (walk (n.stc.cfg.drawLimit.get b) 0 false (n.walkOrder b last)).2

/-- A peer without the claims that a walk dropped. Of two equal claims of an entry both leave when one is dropped (the
model's choice, log 41). -/
def Peer.withoutClaims (p : Peer) (gone : List ViewClaim) : Peer :=
  { p with claims := p.claims.filter fun c => !gone.contains ⟨c.instant, p.node, c.bank, c.kind⟩ }

/-- The walk of one bank is run: dropped claims leave the view, a peer's from its entry and an own one from the own
claims. The kinds of the own claims that became LOST are answered with it (R78). -/
def bcuWalk (b : Bank) (last : Option ViewClaim) (n : Node) : Node × List ClaimKind :=
  ({ n with
      ptb.peers := n.ptb.peers.map (·.withoutClaims (n.dropped b last))
      bcu.own := n.bcu.own.filter fun c =>
        match c.view n.stc.node with
        | none => true
        | some v => !(n.dropped b last).contains v },
    ((n.dropped b last).filter fun c => decide (c.holder = n.stc.node)).map (·.kind))

/-- Walks over several banks in the order given. -/
def bcuWalks : List Bank → Node → Node × List (Bank × ClaimKind)
  | [], n => (n, [])
  | b :: bs, n =>
    ((bcuWalks bs (bcuWalk b none n).1).1,
      (bcuWalk b none n).2.map (fun k => (b, k)) ++ (bcuWalks bs (bcuWalk b none n).1).2)

/-- The own REQUESTED claims on a bank, in the order of their requests, as claims younger than every claim of the view. -/
def Bcu.requestedOn (c : Bcu) (b : Bank) : List OwnClaim :=
  c.own.filter fun o => decide (o.bank = b) && decide (o.state = .requested)

/-- What the walk has admitted after a list of kinds. -/
def walkCounts (limit : Nat) : List ClaimKind → Nat × Bool → Nat × Bool
  | [], acc => acc
  | k :: ks, (draws, refill) =>
    walkCounts limit ks
      (if admits limit draws refill k then
        (if k = .draw then draws + 1 else draws, refill || decide (k = .refill))
       else (draws, refill))

/-- The trial walk of R70: a request of this kind, younger than the view and the requested claims `ahead`. -/
def Node.trialAdmits (n : Node) (b : Bank) (ahead : List OwnClaim) (k : ClaimKind) : Bool :=
  let acc := walkCounts (n.stc.cfg.drawLimit.get b) ((n.bankView b).map (·.kind) ++ ahead.map (·.kind)) (0, false)
  admits (n.stc.cfg.drawLimit.get b) acc.1 acc.2 k

/-! ## Requests and releases (file 04 R70, R79) -/

def Bcu.count (c : Bcu) (k : ClaimKind) : Nat := (c.own.filter fun o => decide (o.kind = k)).length

/-- The request check of R70, in its order; true where the request is refused. -/
def Node.requestRefused (n : Node) (b : Bank) (k : ClaimKind) : Bool :=
  (!n.inRun || n.stc.conflict) ||
  n.quietAtLeast 1800 ||
  decide (n.stc.cfg.bankCount < b.num) ||
  !n.available b ||
  (match k with
    | .draw => decide (2 ≤ n.bcu.count .draw)
    | .refill => decide (1 ≤ n.bcu.count .refill)) ||
  (n.bcu.find b k).isSome ||
  !n.trialAdmits b (n.bcu.requestedOn b) k

/-- The own claims without the one on a bank of a kind. -/
def Bcu.without (c : Bcu) (b : Bank) (k : ClaimKind) : Bcu :=
  ⟨c.own.filter fun o => !(decide (o.bank = b) && decide (o.kind = k))⟩

/-- A request for a claim: true where it became REQUESTED with its CLAIM frame queued, false where it is DENIED at once,
which includes a CLAIM frame that a full queue refuses at the offer (R70, R73). That a refill choice goes on after such a
refusal as after one of R70 is the model's choice (file 07 R122, log 60). -/
def bcuRequest (b : Bank) (k : ClaimKind) (n : Node) : Node × Bool :=
  if n.requestRefused b k then (n, false)
  else
    match liuOffer (.claim b k) { n with bcu.own := n.bcu.own ++ [⟨b, k, .requested⟩] } with
    | (m, true) => (m, true)
    | (m, false) => ({ m with bcu := m.bcu.without b k }, false)

/-- A release by a requester (R79). Under NUMBER_CONFLICT no RELEASE frame is offered (R81). -/
def bcuRelease (b : Bank) (k : ClaimKind) (n : Node) : Node :=
  match n.bcu.find b k with
  | none => n
  | some c =>
    match c.state with
    | .requested => { n with bcu := n.bcu.without b k, liu.queue := queueRemoveClaim b k n.liu.queue }
    | _ => offer (.release b k) { n with bcu := n.bcu.without b k }

/-- A REQUESTED claim withdrawn from the queue without a report (R71, R80, R81). -/
def bcuWithdraw (b : Bank) (k : ClaimKind) (n : Node) : Node :=
  { n with bcu := n.bcu.without b k, liu.queue := queueRemoveClaim b k n.liu.queue }

end Sys2Proof.Machine
end

