-- ==== Sys2Proof/Machine/StoreOps.lean ====
section
/-! DEFINITION. The Record Store (file 09): records as bytes, checks of stored parts, the request list, the writes, the
working image, the start-up scan. -/

namespace Sys2Proof.Machine

/-! ## Records as bytes (file 12 R190) -/

def flagsByte (f : RecordFlags) : Nat :=
  16 * f.derated.toNat + 8 * f.exhausted.toNat + 4 * f.ventFail.toNat + 2 * f.overshoot.toNat + f.interrupted.toNat

/-- RECORD-A, offsets 4 to 30. Bits 12 and 11 of offset 25 to 26, which its table does not name, are 0 (the model's choice,
log 62). -/
def recordAFields (r : RecordBody) : List Byte :=
  bigEndian 2 r.authNumber ++
  [BitVec.ofNat 8 (64 * (r.terminal - 9) + 16 * (r.row.num - 1) + 4 * limitCode r.limitKind +
    2 * r.peakTv.isSome.toNat + r.volume.isSome.toNat), BitVec.ofNat 8 (endReasonCode r.endReason)] ++
  bigEndian 3 r.limitMass ++ bigEndian 3 r.unitPrice ++ bigEndian 3 r.gross ++ bigEndian 2 r.vent ++
  bigEndian 3 r.net ++ bigEndian 3 r.amount ++
  bigEndian 2 (16384 * fillKindCode r.kind + (if r.hose = .bus35 then 8192 else 0) + min r.soc 2047) ++
  bigEndian 2 r.finalPH ++ bigEndian 2 (r.peakTv.getD 0)

/-- The stage sources, 3 bits each, stage 1 first. Bit 15, which the table of RECORD-B does not name, is 0 (the model's
choice, log 62). -/
def stageSources (stages : List Stage) : Nat :=
  (List.range 5).foldl (fun a i => 8 * a + sourceCode ((stages[i]?).bind (·.source))) 0

/-- A stage entry, zeros beyond the list. -/
def stageBytes (s : Option Stage) : List Byte :=
  match s with
  | none => [0, 0, 0, 0]
  | some s => bigEndian 3 s.gross ++ bigEndian 1 s.collisions

/-- RECORD-B, offsets 4 to 32. -/
def recordBFields (r : RecordBody) : List Byte :=
  bigEndian 2 (r.volume.getD 0) ++ bigEndian 2 r.duration ++ bigEndian 3 r.upTime ++
  bigEndian 2 (stageSources r.stages) ++ (List.range 5).flatMap fun i => stageBytes r.stages[i]?

/-- A body as its 57 bytes: the flags, RECORD-A from offset 4 to 30, RECORD-B from offset 4 to 32 (log 16). -/
def RecordBody.bytes (r : RecordBody) : List Byte := bigEndian 1 (flagsByte r.flags) ++ recordAFields r ++ recordBFields r

/-- `k` bytes of a stored body from index `o` on. -/
def bodyPart (o k : Nat) (body : List Byte) : List Byte := (List.range k).map fun i => byteAt body (o + i)

/-- RECORD-A of a body: the header fields around the body's bytes as read, with end reason 0 while OPEN, as the table of
R190 gives it, also between the entry to CLOSING_RECORD and the close write (R158, R161; the model's choice, log 48). -/
def recordAPayload (state : SlotState) (txn count : Nat) (body : List Byte) : List Byte :=
  bigEndian 2 txn ++ [BitVec.ofNat 8 (32 * slotCode state + (byteAt body 0).toNat % 32)] ++ bodyPart 1 3 body ++
  [if state = .opened then 0 else byteAt body 4] ++ bodyPart 5 23 body ++ bigEndian 2 count

/-- RECORD-B of a body. -/
def recordBPayload (state : SlotState) (txn : Nat) (body : List Byte) : List Byte :=
  bigEndian 2 txn ++ [BitVec.ofNat 8 (slotCode state)] ++ bodyPart 28 29 body

/-! ## Checks of stored parts (R188, R190; the byte layout under the CRC is log 16) -/

def headerCrcOf (state : SlotState) (txn count : Nat) : BitVec 16 :=
  crc16 (bitsOfBytes (bigEndian 1 (slotCode state) ++ bigEndian 2 txn ++ bigEndian 2 count))

def bodyCrcOf (body : List Byte) : BitVec 16 := crc16 (bitsOfBytes body)

def totalsCrcOf (s : Sums) (last writes : Nat) : BitVec 16 :=
  crc16 (bitsOfBytes (bigEndian 5 s.gross ++ bigEndian 5 s.net ++ bigEndian 5 s.amount ++ bigEndian 5 s.creep ++
    bigEndian 2 last ++ bigEndian 2 writes))

def StoredSlot.headerSound (s : StoredSlot) : Bool := s.headerCrc = headerCrcOf s.state s.txn s.count

def StoredSlot.bodySound (s : StoredSlot) : Bool := s.bodyCrc = bodyCrcOf s.body

def TotalsCopy.sound (c : TotalsCopy) : Bool := c.crc = totalsCrcOf c.sums c.last c.writes

/-- A whole slot as a write leaves it. -/
def StoredSlot.ofBytes (state : SlotState) (txn count : Nat) (body : List Byte) : StoredSlot :=
  ⟨state, txn, count, headerCrcOf state txn count, body, bodyCrcOf body⟩

/-- A whole slot as a write of the working image leaves it. -/
def StoredSlot.make (state : SlotState) (txn count : Nat) (body : RecordBody) : StoredSlot :=
  .ofBytes state txn count body.bytes

/-- A header write: the body is left as it was (R162). -/
def StoredSlot.withHeader (s : StoredSlot) (state : SlotState) (txn count : Nat) : StoredSlot :=
  { s with state := state, txn := txn, count := count, headerCrc := headerCrcOf state txn count }

/-! ## Sums and totals (R159, R190) -/

/-- A sum wraps from 999,999,999,999 to 0. -/
def sumAdd (a b : Nat) : Nat := (a + b) % 1000000000000

/-- A write that changes the totals area writes both copies with the write count raised by one. -/
def Rst.writeTotals (r : Rst) (s : Sums) (last : Nat) : Rst :=
  let w := (r.totals.writes + 1) % 65536
  let c : TotalsCopy := ⟨s, last, w, totalsCrcOf s last w⟩
  { r with copy1 := c, copy2 := c, totals := c }

/-- A counter of 16 bits that saturates. -/
def satSucc (x : Nat) : Nat := min (x + 1) 65535

/-! ## Slots and numbers (R154) -/

/-- How far a number lies back from the last number issued, wrapping from 1 to 65535. -/
def backFrom (last num : Nat) : Nat := (last + 65535 - num) % 65535

/-- Among slots that pass, the one whose number lies furthest back, as an index. -/
def furthestBack (last : Nat) (p : Slot → Bool) : Nat → List Slot → Option (Nat × Nat) → Option (Nat × Nat)
  | _, [], best => best
  | i, s :: ss, best =>
    furthestBack last p (i + 1) ss
      (if p s then
        match best with
        | none => some (i, backFrom last s.txn)
        | some (j, d) => if d < backFrom last s.txn then some (i, backFrom last s.txn) else some (j, d)
       else best)

/-- The slot of a new record: the lowest FREE one, else the COLLECTED one with the oldest number. -/
def Rst.chooseSlot (r : Rst) : Option Nat :=
  match r.table.findIdx? fun s => decide (s.state = .free) with
  | some i => some i
  | none => (furthestBack r.lastIssued (fun s => decide (s.state = .collected)) 0 r.table none).map (·.1)

def nextNumber (t : Nat) : Nat := if 65535 ≤ t then 1 else t + 1

/-- The first number from `t` on that is not held. -/
def pickNumber (held : List Nat) : Nat → Nat → Nat
  | 0, t => t
  | fuel + 1, t => if held.contains t then pickNumber held fuel (nextNumber t) else t

/-- The numbers held by slots that are not FREE, other than the chosen one. -/
def Rst.heldNumbers (r : Rst) (slot : Nat) : List Nat :=
  ((r.table.set slot ⟨.free, 0⟩).filter fun s => decide (s.state ≠ .free)).map (·.txn)

/-- The transaction number of a new record in the slot chosen. -/
def Rst.chooseNumber (r : Rst) (slot : Nat) : Nat := pickNumber (r.heldNumbers slot) 64 (nextNumber r.lastIssued)

/-! ## Serving the request list (R160 to R163) -/

/-- The slot that holds a number, in any state other than FREE, as an index. -/
def Rst.slotOf (r : Rst) (txn : Nat) : Option Nat :=
  r.table.findIdx? fun s => decide (s.state ≠ .free) && decide (s.txn = txn)

/-- The slot a QUERY asks for (R161). -/
def Rst.queried (r : Rst) (txn : Nat) : Option Nat :=
  if txn = 0 then (furthestBack r.lastIssued Slot.uncollected 0 r.table none).map (·.1) else r.slotOf txn

/-- RECORD-A and RECORD-B of one record are offered, in that order (file 12 R190). -/
def offerPair (terminal : Nat) (state : SlotState) (txn count : Nat) (body : List Byte) (n : Node) : Node :=
  offer (.recordB terminal (recordBPayload state txn body)) (offer (.recordA terminal (recordAPayload state txn count body)) n)

/-- The record of a slot is offered: the working image while OPEN, the stored record otherwise (R161). -/
def offerRecord (terminal slot : Nat) (n : Node) : Node :=
  match n.rst.table[slot]?, n.rst.slots[slot]? with
  | some t, some s =>
    match t.state, n.rst.image with
    | .opened, some im => offerPair terminal .opened t.txn im.count im.body.bytes n
    | _, _ => offerPair terminal t.state t.txn s.count s.body n
  | _, _ => n

def serveQuery (txn terminal : Nat) (n : Node) : Node :=
  match n.rst.queried txn with
  | some i => offerRecord terminal i n
  | none => answer terminal kindQuery .unknownRecord txn n

def slotStateCount (st : SlotState) (t : List Slot) : Nat := (t.filter fun s => decide (s.state = st)).length

/-- CLOSED slots whose record carries the INTERRUPTED flag (R163). -/
def Rst.interruptedCount (r : Rst) : Nat :=
  ((r.table.zip r.slots).filter fun p => decide (p.1.state = .closed) && (byteAt p.2.body 0).getLsbD 0).length

def Rst.totalsPayload (r : Rst) : List Byte :=
  bigEndian 5 r.totals.sums.gross ++ bigEndian 5 r.totals.sums.net ++ bigEndian 5 r.totals.sums.amount ++
  bigEndian 5 r.totals.sums.creep ++ bigEndian 1 (slotStateCount .closed r.table) ++
  bigEndian 1 (slotStateCount .damaged r.table) ++ bigEndian 1 r.interruptedCount ++ bigEndian 1 r.freeSlots ++
  bigEndian 1 r.lost ++ bigEndian 1 r.restarted.toNat

/-- A COLLECT is served (R162): a header write begins, or it is answered at once; under NUMBER_CONFLICT too (the model's
choice, log 55). -/
def serveCollect (txn terminal : Nat) (n : Node) : Node :=
  if txn = 0 then answer terminal kindCollect .badField 0 n
  else
    match n.rst.slotOf txn with
    | none => answer terminal kindCollect .unknownRecord txn n
    | some i =>
      match (n.rst.table.getD i ⟨.free, 0⟩).state with
      | .closed => { n with rst.write := some (.collect i txn terminal) }
      | .damaged => { n with rst.write := some (.collect i txn terminal) }
      | .opened => answer terminal kindCollect .busy txn n
      | _ => answer terminal kindCollect .ok txn n

def serveRequest (q : LineRequest) (n : Node) : Node :=
  match q.kind with
  | .query => serveQuery q.txn q.terminal n
  | .readTotals => offer (.totals q.terminal n.rst.totalsPayload) n
  | .collect => serveCollect q.txn q.terminal n

/-- The peak T_v as a record takes it: present for COMM and DEGRADED fills (R153). -/
def peakFor (kind : FillKind) (peak : Option Nat) : Option Nat := if kind = .noncomm then none else peak

/-- The working image with its running fields as they stand (R153). -/
def Node.snapshot (n : Node) (im : Image) : Image :=
  { im with body := { im.body with
      flags := { im.body.flags with derated := n.fcu.derated, exhausted := n.fcu.exhausted, ventFail := n.fcu.ventFail }
      soc := n.fcu.lastSoc.getD 0
      finalPH := n.pH
      peakTv := peakFor im.body.kind n.fcu.peakTv
      volume := n.vlr.volume
      duration := (n.now - n.fcu.startedAt) / 1000 } }

/-- A record write begins: it copies the image as it stands; the figures of a close are already in it (R153, R158). The
running fields taken at the write enter the working image too (the model's choice, log 54). -/
def beginRecordWrite (kind : RecordWrite) (n : Node) : Node :=
  match n.rst.image with
  | none => { n with rst.recordMark := none }
  | some im =>
    let im := if kind = .close then im else n.snapshot im
    { n with rst.recordMark := none, rst.image := some im, rst.write := some (.record kind im) }

/-- What the store takes next: the oldest of the marks and the first request (R160). -/
inductive StoreItem where
  | record (kind : RecordWrite)
  | creep (mass : Nat)
  | request (q : LineRequest)
deriving DecidableEq, Repr

def Rst.waiting (r : Rst) : List (Nat × StoreItem) :=
  (match r.recordMark with | none => [] | some m => [(m.ticket, .record m.kind)]) ++
  (match r.creepMark with | none => [] | some m => [(m.ticket, .creep m.mass)]) ++
  (match r.requests with | [] => [] | q :: _ => [(q.ticket, .request q)])

def oldestItem : List (Nat × StoreItem) → Option (Nat × StoreItem)
  | [] => none
  | x :: xs =>
    match oldestItem xs with
    | none => some x
    | some y => if y.1 < x.1 then some y else some x

/-- While the store is idle it takes the oldest waiting item; a request served without a write is followed by the next
item at once (R160). `fuel` bounds the requests served. -/
def storeTake : Nat → Node → Node
  | 0, n => n
  | fuel + 1, n =>
    if n.rst.write.isSome then n
    else
      match oldestItem n.rst.waiting with
      | none => n
      | some (_, .record kind) => beginRecordWrite kind n
      | some (_, .creep mass) => { n with rst.creepMark := none, rst.write := some (.creep mass) }
      | some (_, .request q) => storeTake fuel (serveRequest q { n with rst.requests := n.rst.requests.tail })

/-- The store takes what waits, if it is idle. -/
def storeKick (n : Node) : Node := storeTake (n.rst.requests.length + 1) n

/-! ## Marks (R160) -/

/-- The write a merged record mark stands for: a close if any was a close, a create if one waited and no close. -/
def mergeWrite : RecordWrite → RecordWrite → RecordWrite
  | .close, _ => .close
  | _, .close => .close
  | .create, _ => .create
  | _, .create => .create
  | .checkpoint, .checkpoint => .checkpoint

/-- A record write request raises the record write mark or merges into it. -/
def raiseRecord (kind : RecordWrite) (n : Node) : Node :=
  storeKick { n with
    rst.recordMark := (match n.rst.recordMark with
      | none => some ⟨kind, n.rst.ticket⟩
      | some m => some ⟨mergeWrite m.kind kind, m.ticket⟩)
    rst.ticket := n.rst.ticket + 1 }

/-- A creep accrual raises the creep mark or adds to its mass (R159, R160). -/
def raiseCreep (mass : Nat) (n : Node) : Node :=
  storeKick { n with
    rst.creepMark := (match n.rst.creepMark with
      | none => some ⟨mass, n.rst.ticket⟩
      | some m => some ⟨m.mass + mass, m.ticket⟩)
    rst.ticket := n.rst.ticket + 1 }

/-- A line request arrives: BUSY where the list holds 4, else it is kept (R160). -/
def takeRequest (kind : RequestKind) (command : BitVec 6) (txn terminal : Nat) (n : Node) : Node :=
  if 4 ≤ n.rst.requests.length then answer terminal command .busy txn n
  else storeKick { n with
    rst.requests := n.rst.requests ++ [⟨kind, txn, terminal, n.rst.ticket⟩]
    rst.ticket := n.rst.ticket + 1 }

/-! ## The working image (R155, R156) -/

/-- A create request: slot, number, image and create mark (R154, R155). It is made with an authorization held and a slot
to take; without one nothing is created (log 24). -/
def rstCreate (n : Node) : Node :=
  match n.fcu.auth, n.rst.chooseSlot with
  | some a, some slot =>
    let txn := n.rst.chooseNumber slot
    let body : RecordBody :=
      { RecordBody.blank with
        authNumber := a.number, terminal := a.terminal, hose := n.stc.cfg.hose, kind := .noncomm,
        limitKind := a.limitKind, limitMass := a.limitMass, row := a.row, unitPrice := a.unitPrice,
        upTime := n.upTime, stages := [⟨none, 0, 0⟩] }
    raiseRecord .create { n with
      rst.table := n.rst.table.set slot ⟨.opened, txn⟩
      rst.lastIssued := txn
      rst.image := some ⟨slot, txn, 0, body, 0⟩ }
  | _, _ => n

/-- A change of the working image. -/
def onImage (f : RecordBody → RecordBody) (n : Node) : Node :=
  { n with rst.image := n.rst.image.map fun im => { im with body := f im.body } }

/-- A change of the last stage entry. -/
def onLastStage (f : Stage → Stage) : List Stage → List Stage
  | [] => []
  | [s] => [f s]
  | s :: ss => s :: onLastStage f ss

/-- The source of stage entry 1 (R156). -/
def rstSetFirstSource (b : Bank) : Node → Node :=
  onImage fun r => match r.stages with
    | [] => r
    | s :: ss => { r with stages := { s with source := some (.bank b) } :: ss }

/-- A collision of the last stage entry, saturating at 255 (R36). -/
def rstCollision : Node → Node :=
  onImage fun r => { r with stages := onLastStage (fun s => { s with collisions := min (s.collisions + 1) 255 }) r.stages }

/-- A stage entry is appended and a checkpoint is asked (R156, R157). -/
def rstAppend (src : Source) (n : Node) : Node :=
  raiseRecord .checkpoint (onImage (fun r => { r with stages := r.stages ++ [⟨some src, 0, 0⟩] }) n)

/-- The FCU tells the fill kind. -/
def rstKind (k : FillKind) : Node → Node := onImage fun r => { r with kind := k }

/-! ## Completion of writes (R157 to R159, R162) -/

/-- A slot of the store is written. -/
def Rst.putSlot (r : Rst) (i : Nat) (s : StoredSlot) : Rst := { r with slots := r.slots.set i s }

/-- The create write takes effect: the slot OPEN, and the totals area with the new last number. -/
def Rst.commitCreate (r : Rst) (im : Image) : Rst :=
  { (r.putSlot im.slot (.make .opened im.txn im.count im.body)).writeTotals r.totals.sums im.txn with write := none }

/-- The checkpoint write takes effect: image, checkpoint count, gross gained. It writes the totals area, its write count
raised, also where no gross was gained (the model's choice, log 56). -/
def Rst.commitCheckpoint (r : Rst) (im : Image) : Rst :=
  { (r.putSlot im.slot (.make .opened im.txn (satSucc im.count) im.body)).writeTotals
      { r.totals.sums with gross := sumAdd r.totals.sums.gross (im.body.gross - im.written) } im.txn with
    write := none
    image := r.image.map fun cur => { cur with count := satSucc im.count, written := im.body.gross } }

/-- The close write takes effect: the slot CLOSED, checkpoint count, the three totalizers. -/
def Rst.commitClose (r : Rst) (im : Image) : Rst :=
  { (r.putSlot im.slot (.make .closed im.txn (satSucc im.count) im.body)).writeTotals
      { r.totals.sums with
        gross := sumAdd r.totals.sums.gross (im.body.gross - im.written)
        net := sumAdd r.totals.sums.net im.body.net
        amount := sumAdd r.totals.sums.amount im.body.amount } im.txn with
    write := none
    table := r.table.set im.slot ⟨.closed, im.txn⟩
    image := none }

/-- A creep write takes effect: its mass in the gross totalizer and the creep total. -/
def Rst.commitCreep (r : Rst) (mass : Nat) : Rst :=
  { r.writeTotals
      { r.totals.sums with gross := sumAdd r.totals.sums.gross mass, creep := sumAdd r.totals.sums.creep mass }
      r.totals.last with
    write := none }

/-- The header write of a COLLECT takes effect. -/
def Rst.commitCollect (r : Rst) (slot txn : Nat) : Rst :=
  { r with
    slots := r.slots.modify slot fun s => s.withHeader .collected s.txn s.count
    table := r.table.set slot ⟨.collected, txn⟩
    write := none }

/-! ## The start-up scan (R164, R165) -/

/-- The highest transaction number of a slot that is not FREE, or 0. -/
def highestNumber (slots : List StoredSlot) : Nat :=
  slots.foldl (fun a s => if s.state = .free then a else max a s.txn) 0

/-- The scan has taken slot 64: where the totals restarted, the last number issued is written with them; otherwise the
slot table is built. -/
def Rst.scanFinish (r : Rst) : Rst :=
  if r.restarted ∧ r.write = none ∧ r.scan ≠ some (.atSlot 65) then
    { r with write := some .scanLast, scan := some (.atSlot 65) }
  else
    { r with table := r.slots.map fun s => ⟨s.state, s.txn⟩, lastIssued := r.totals.last, scan := some .complete }

/-- The scan takes the slots from index `i` on, up to the first that needs a write. -/
def Rst.scanSlots (r : Rst) : Nat → List StoredSlot → Rst
  | _, [] => r.scanFinish
  | i, s :: ss =>
    if s.headerSound = false then { r with write := some (.scanFree i), scan := some (.atSlot i) }
    else
      match s.state with
      | .free => r.scanSlots (i + 1) ss
      | .collected => r.scanSlots (i + 1) ss
      | .damaged => r.scanSlots (i + 1) ss
      | .closed =>
        if s.bodySound then r.scanSlots (i + 1) ss
        else { r with write := some (.scanDamaged i), scan := some (.atSlot i) }
      | .opened =>
        if s.bodySound then { r with write := some (.scanClose i), scan := some (.atSlot i) }
        else { r with write := some (.scanDamaged i), scan := some (.atSlot i) }

/-- The scan goes on from slot index `i`. -/
def Rst.scanFrom (r : Rst) (i : Nat) : Rst := r.scanSlots i (r.slots.drop i)

/-- The copy written last of two sound ones (file 12): the one whose count is one ahead, else copy 1. -/
def Rst.laterCopy (r : Rst) : TotalsCopy :=
  if r.copy2.writes = (r.copy1.writes + 1) % 65536 then r.copy2 else r.copy1

/-- The scan begins (R164). Where neither copy is sound the write count goes on from 0, so that the next write stores 1 (the
model's choice, log 51). -/
def Rst.scanBegin (r : Rst) : Rst :=
  if r.copy1.sound ∧ r.copy2.sound then
    { r with totals := r.laterCopy, lost := 0, restarted := false }.scanFrom 0
  else if r.copy1.sound then
    { r with totals := r.copy1, lost := 0, restarted := false, write := some (.scanTotals r.copy1),
             scan := some (.atSlot 0) }
  else if r.copy2.sound then
    { r with totals := r.copy2, lost := 0, restarted := false, write := some (.scanTotals r.copy2),
             scan := some (.atSlot 0) }
  else { r with totals := .blank, lost := 0, restarted := true }.scanFrom 0

/-- Gross and unit price of a stored body. -/
def bodyGross (body : List Byte) : Nat := fieldAt body 11 3

def bodyPrice (body : List Byte) : Nat := fieldAt body 8 3

/-- An OPEN record closed INTERRUPTED from its stored contents: the flag, the end reason, vent 0, the gross as the net and
the net priced (R165). -/
def interruptedBody (body : List Byte) : List Byte :=
  [byteAt body 0 ||| 1] ++ bodyPart 1 3 body ++ [BitVec.ofNat 8 (endReasonCode (some .interrupted))] ++
  bodyPart 5 9 body ++ bigEndian 2 0 ++ bodyPart 11 3 body ++ bigEndian 3 (priced (bodyGross body) (bodyPrice body)) ++
  bodyPart 22 35 body

/-- A write of the scan takes effect and the scan goes on. The header of a slot made FREE holds number 0 and count 0 and
its body stays; a close made while the totals restart stores 0 as the last number, until the slots are done (the model's
choice, log 39). -/
def Rst.scanWriteDone (r : Rst) : Rst :=
  match r.write with
  | some (.scanTotals c) => { r with copy1 := c, copy2 := c, write := none }.scanFrom 0
  | some (.scanFree i) =>
    { r with slots := r.slots.modify i fun s => s.withHeader .free 0 0, lost := r.lost + 1, write := none }.scanFrom (i + 1)
  | some (.scanDamaged i) =>
    { r with slots := r.slots.modify i fun s => s.withHeader .damaged s.txn s.count, write := none }.scanFrom (i + 1)
  | some (.scanClose i) =>
    match r.slots[i]? with
    | none => r
    | some s =>
      ({ (r.putSlot i (.ofBytes .closed s.txn (satSucc s.count) (interruptedBody s.body))).writeTotals
          { r.totals.sums with
            net := sumAdd r.totals.sums.net (bodyGross s.body)
            amount := sumAdd r.totals.sums.amount (priced (bodyGross s.body) (bodyPrice s.body)) } r.totals.last with
        write := none } : Rst).scanFrom (i + 1)
  | some .scanLast =>
    ({ r.writeTotals r.totals.sums (highestNumber r.slots) with write := none } : Rst).scanFinish
  | _ => r

end Sys2Proof.Machine
end

