-- ==== Sys2Proof/Machine/MeterOps.lean ====
section
/-! DEFINITION. The Meter and Price Unit (file 08): projections and marks, pulses, creep, the counting window, the final
figures. -/

namespace Sys2Proof.Machine

/-- The inputs of the vent estimate: the held P_H and T_D, and from the entry to VENTING P_end and T_end (R144, R145). -/
def Node.ventInputs (n : Node) : Nat × Nat :=
  match n.fcu.pEnd, n.fcu.tEnd with
  | some p, some t => (p, t)
  | _, _ => (n.pH, n.tD)

/-- The vent estimate (R145). -/
def Node.ventEstimate (n : Node) : Nat := ventMass n.stc.cfg.deadVolume n.ventInputs.1 n.ventInputs.2

/-- The marks are tested each time the projected figures are formed in CHECKING or RAMPING; both latch (R146). -/
def mpuMarks (n : Node) : Node :=
  match n.mpu.terms with
  | none => n
  | some t =>
    if n.fcu.phase.filling then
      { n with
        mpu.slow := n.mpu.slow || decide (t.limitMass ≤ n.mpu.projNet + 10000)
        mpu.limit := n.mpu.limit || decide (t.limitMass ≤ n.mpu.projNet) }
    else n

/-- The projected figures are formed, while the counting window is OPEN (R145). -/
def mpuProject (n : Node) : Node :=
  if n.mpu.windowOpen then
    mpuMarks { n with
      mpu.ventEst := n.ventEstimate
      mpu.projNet := n.mpu.gross - n.ventEstimate
      mpu.projAmount := priced (n.mpu.gross - n.ventEstimate)
        (match n.mpu.terms with | none => 0 | some t => t.unitPrice) }
  else n

/-- Pending creep is handed to the RST as one accrual (R142). -/
def mpuAccrue (n : Node) : Node :=
  if 0 < n.mpu.pending then raiseCreep n.mpu.pending { n with mpu.pending := 0 } else n

/-- A pulse in an OPEN window (R139): the gross of the fill and of the last stage entry, a checkpoint at each multiple of
20,000 cg, and the projections. -/
def mpuFillPulse (n : Node) : Node :=
  let w := n.stc.cfg.pulseWeight
  let m := onImage (fun r => { r with
      gross := r.gross + w, stages := onLastStage (fun s => { s with gross := s.gross + w }) r.stages })
    { n with mpu.gross := n.mpu.gross + w }
  mpuProject (if n.mpu.gross / 20000 < (n.mpu.gross + w) / 20000 then raiseRecord .checkpoint m else m)

/-- The creep window with one more pulse (R140). -/
def creepAdd (now w : Nat) : Option CreepWindow → CreepWindow
  | none => ⟨now, w⟩
  | some c => ⟨c.openedAt, c.mass + w⟩

/-- A pulse in a CLOSED window is creep (R140). -/
def mpuCreepPulse (n : Node) : Node :=
  let w := n.stc.cfg.pulseWeight
  let win := creepAdd n.now w n.mpu.creepWindow
  let m := { n with
    mpu.pending := n.mpu.pending + w
    mpu.quietSince := some n.now
    mpu.creepWindow := some win
    mpu.creepFlag := n.mpu.creepFlag || decide (1000 < win.mass) }
  if 20000 ≤ n.mpu.pending + w then mpuAccrue m else m

/-- The counting window opens at the entry to CHECKING (R138). The projected figures are formed at once (log 20). -/
def mpuOpen (n : Node) : Node :=
  let m := mpuAccrue n
  mpuProject { m with
    mpu.terms := m.fcu.auth.map fun a => ⟨a.unitPrice, a.limitKind, a.limitValue, a.limitMass⟩
    mpu.gross := 0
    mpu.slow := false
    mpu.limit := false
    mpu.windowOpen := true }

/-- LIMIT_OVERSHOOT (R148). -/
def overshoot (t : Terms) (net amount : Nat) : Bool :=
  match t.limitKind with
  | .amount => decide (t.limitValue < amount)
  | _ => decide (t.limitMass < net)

/-- The figures of the close go into the working image: those of the FCU (file 03 R63) and the final figures of the MPU
(R147, R148). The counting window closes. -/
def mpuFinal (n : Node) : Node :=
  let t : Terms := n.mpu.terms.getD ⟨0, .none, 0, 0⟩
  let vent := n.ventEstimate
  let net := n.mpu.gross - vent
  let kind := n.fcu.kind.getD .noncomm
  onImage (fun r => { r with
      endReason := n.fcu.endReason
      kind := kind
      flags := { derated := n.fcu.derated, exhausted := n.fcu.exhausted, ventFail := n.fcu.ventFail,
                 overshoot := overshoot t net (priced net t.unitPrice), interrupted := r.flags.interrupted }
      soc := n.fcu.lastSoc.getD 0
      finalPH := n.fcu.pEnd.getD 0
      peakTv := peakFor kind n.fcu.peakTv
      volume := n.vlr.volume
      duration := (n.now - n.fcu.startedAt) / 1000
      gross := n.mpu.gross
      vent := vent
      net := net
      amount := priced net t.unitPrice })
    { n with mpu.windowOpen := false }

end Sys2Proof.Machine
end

