-- ==== Sys2Proof/Machine/HeatOps.lean ====
section
/-! DEFINITION. The Heat Share Unit (file 06): evaluation, over-commit, want, announcement; and the flow command's fall
with the ceiling (file 03 R53). -/

namespace Sys2Proof.Machine

/-- The HSU hands out a new ceiling: a flow command above it is lowered at once, and the pulse flow command follows it
(file 03 R39, R53). -/
def fcuCeiling (n : Node) : Node :=
  if n.fcu.phase.ramping then { n with fcu.fCmd := min n.fcu.fCmd n.hsu.ceiling }
  else if n.fcu.phase = .checking ∧ n.fcu.check = .pulse ∧ n.fcu.stepSince.isSome then
    { n with fcu.fCmd := n.pulseFlow }
  else n

/-- A HEAT frame is offered and the resend mark cleared; a frame the queue refuses sets it again (R108). No HEAT frame is
offered under NUMBER_CONFLICT (R115). -/
def hsuOffer (n : Node) : Node :=
  if n.stc.conflict then n
  else
    let r := liuOffer .heat n
    { r.1 with hsu.resend := !r.2 }

/-- The own raise instant after a change of the reservation (R107). -/
def raiseAfter (now old new : Nat) (r : Option Nat) : Option Nat :=
  if new = 0 then none else if old < new then some now else r

/-- R_own and the waiting flag are set; a change is handed out at once (R106, R107, R108). -/
def hsuSet (r : Nat) (waiting : Bool) (n : Node) : Node :=
  if r = n.hsu.rOwn ∧ waiting = n.hsu.waiting then n
  else hsuOffer (fcuCeiling { n with
    hsu.rOwn := r
    hsu.waiting := waiting
    hsu.raise := raiseAfter n.now n.hsu.rOwn r n.hsu.raise })

/-- A reservation of the view (R109). -/
structure Reservation where
  instant : Int
  holder : Nat
  amount : Nat
deriving DecidableEq, Repr

def Reservation.before (a b : Reservation) : Bool :=
  decide (a.instant < b.instant) || (decide (a.instant = b.instant) && decide (a.holder ≤ b.holder))

def insertReservation (c : Reservation) : List Reservation → List Reservation
  | [] => [c]
  | d :: ds => if c.before d then c :: d :: ds else d :: insertReservation c ds

def sortReservations : List Reservation → List Reservation
  | [] => []
  | c :: cs => insertReservation c (sortReservations cs)

/-- The peers' reservations above 0. -/
def Ptb.reservations (p : Ptb) : List Reservation :=
  (p.peers.filter fun e => decide (0 < e.reservation)).map fun e => ⟨e.raise.getD 0, e.node, e.reservation⟩

/-- Every reservation above 0 in the view, oldest raise first. -/
def Node.reservations (n : Node) : List Reservation :=
  sortReservations (n.ptb.reservations ++
    (if 0 < n.hsu.rOwn then [⟨((n.hsu.raise.getD 0 : Nat) : Int), n.stc.node, n.hsu.rOwn⟩] else []))

/-- The walk of R109: the admitted portion of each reservation, the total never above the capacity. -/
def portions : Nat → List Reservation → List (Nat × Nat)
  | _, [] => []
  | left, r :: rs => (r.holder, min r.amount left) :: portions (left - r.amount) rs

/-- The peers' reservations together (file 05 R94). -/
def Ptb.sum (p : Ptb) : Nat := (p.peers.map (·.reservation)).sum

/-- The view is over-committed (section 6.5). -/
def Node.overCommitted (n : Node) : Bool := decide (n.hsu.cEff < n.hsu.rOwn + n.ptb.sum)

/-- The own admitted portion. -/
def Node.ownPortion (n : Node) : Nat :=
  (((portions n.hsu.cEff n.reservations).filter fun p => decide (p.1 = n.stc.node)).map (·.2)).sum

/-- The counted peer sum (R105). -/
def Node.countedPeerSum (n : Node) : Nat :=
  (((portions n.hsu.cEff n.reservations).filter fun p => decide (p.1 ≠ n.stc.node)).map (·.2)).sum

/-- The waiting peers of R94. -/
def Ptb.anyWaiting (p : Ptb) : Bool := p.peers.any Peer.counts

/-- The count n of the fair share (R105), with R_want above 0. -/
def Node.sharers (n : Node) : Nat :=
  1 + (n.ptb.peers.filter fun e => decide (0 < e.reservation) || e.counts).length

/-- The target of R105. -/
def Node.heatTarget (n : Node) : Nat :=
  let t := min n.hsu.rWant (n.hsu.cEff - n.countedPeerSum)
  if n.ptb.anyWaiting then min t (n.hsu.cEff / n.sharers) else t

/-- The target as NUMBER_CONFLICT leaves it: no raise (R115). Where a raise from 0 is barred, the target counts as below
4,000 W and the waiting flag is set or stays (the model's choice, logs 35 and 42). -/
def Node.heatTargetAllowed (n : Node) : Nat :=
  if n.stc.conflict then min n.heatTarget n.hsu.rOwn else n.heatTarget

/-- What an evaluation sets (R106); with the quiet timer at 1,800 ms or more nothing is reserved (R114). -/
def Node.evaluation (n : Node) : Nat × Bool :=
  if n.quietAtLeast 1800 ∨ n.hsu.rWant = 0 then (0, false)
  else if n.heatTargetAllowed < 4000 then (0, true)
  else (n.heatTargetAllowed, false)

/-- An evaluation (R104 to R106). One that changes nothing offers a HEAT frame only under the resend mark (R108). -/
def hsuEvaluate (n : Node) : Node :=
  if n.evaluation.1 = n.hsu.rOwn ∧ n.evaluation.2 = n.hsu.waiting then
    if n.hsu.resend then hsuOffer n else n
  else hsuSet n.evaluation.1 n.evaluation.2 n

/-- The over-commit test and walk (R109, R110). -/
def hsuOverCommit (n : Node) : Node :=
  if n.overCommitted = false ∨ n.ownPortion = n.hsu.rOwn then n
  else if 4000 ≤ n.ownPortion then hsuSet n.ownPortion n.hsu.waiting n
  else if 0 < n.hsu.rWant then hsuSet 0 true n
  else n

/-- The want is computed and the ceiling formed on the new ΔT10 (R102, R112). -/
def hsuWant (n : Node) : Node :=
  let d := tempDrop n.tS n.stc.cfg.tSet
  fcuCeiling { n with hsu.dT10 := d, hsu.rWant := heatWant n.stc.cfg.peakFlow d }

/-- The fill starts (R102, R104): want, evaluation, and the evaluation grid from this moment. -/
def hsuFillStart (n : Node) : Node :=
  hsuEvaluate (hsuWant { n with hsu.gridNext := some (n.now + 1000) })

/-- The entry to ENDING (R113). -/
def hsuFillEnd (n : Node) : Node :=
  hsuEvaluate { n with hsu.rWant := 0, hsu.gridNext := none }

/-- A decrease event of the Peer Table (R104). -/
def hsuDecrease (n : Node) : Node := n.onlyIf n.fcu.phase.filling hsuEvaluate

/-- C_eff is formed again from the T_K record; a fall is tested for over-commit at once (R101, R109). -/
def hsuCapacity (n : Node) : Node :=
  let c := effectiveCapacity n.stc.cfg.capacity (n.chan .tK)
  if c < n.hsu.cEff then hsuOverCommit { n with hsu.cEff := c } else { n with hsu.cEff := c }

/-- The quiet timer reaches 1,800 ms (R114): no reservation, and a HEAT frame is offered. -/
def hsuQuiet (n : Node) : Node :=
  hsuOffer (fcuCeiling { n with hsu.rOwn := 0, hsu.waiting := false, hsu.raise := none })

end Sys2Proof.Machine
end

