-- ==== Sys2Proof/Machine/CompressorOps.lean ====
section
/-! DEFINITION. The Compressor Control Unit (file 07) without its reports to the FCU: valves, start permission, refill
choice, stops, DIRECT requests. -/

namespace Sys2Proof.Machine

/-! ## Valves of the CCU (R117, R133) -/

/-- A refill valve is commanded. -/
def refillValve (b : Bank) (opened : Bool) (n : Node) : Node :=
  { n with ccu.vr := n.ccu.vr.set b ((n.ccu.vr.get b).command opened n.now) }

/-- The direct valve is commanded. -/
def directValve (opened : Bool) (n : Node) : Node := { n with ccu.vdir := n.ccu.vdir.command opened n.now }

/-- A refill valve is commanded open, unless the quiet hold is set. -/
def openRefill (b : Bank) (n : Node) : Node := n.onlyIf (!n.ccu.hold) (refillValve b true)

/-- The direct valve is commanded open, unless the quiet hold is set. -/
def openDirect (n : Node) : Node := n.onlyIf (!n.ccu.hold) (directValve true)

/-- All refill valves and the direct valve are commanded closed. -/
def closeCompressorValves (n : Node) : Node :=
  { n with ccu.vr := n.ccu.vr.map (·.command false n.now), ccu.vdir := n.ccu.vdir.command false n.now }

/-! ## Start permission (R120) -/

/-- A record holds a value, is OK and not older than 2,000 ms. -/
def Node.soundAndFresh (n : Node) (c : Channel) : Bool := (n.chan c).sound && !n.olderThan c 2000

/-- T_C holds a value below 160.0 °C. -/
def Node.coolEnough (n : Node) : Bool :=
  match (n.chan .tC).value with
  | none => false
  | some t => decide (t < 4332)

def Node.startPermitted (n : Node) : Bool :=
  decide (n.ccu.state = .off) && n.reached n.ccu.offSince 60000 &&
  decide (n.ccu.starts.length < n.stc.cfg.maxStarts) && decide (n.isc.loop = .normal) && !n.ptb.peerLatch &&
  !n.ptb.peerStarting && n.soundAndFresh .pC && n.soundAndFresh .tC && n.coolEnough && !n.level .motorRun &&
  !n.quietAtLeast 1000 && !n.stc.conflict

/-! ## Refill choice (R121, R122) -/

def Node.refillCandidate (n : Node) (b : Bank) : Bool :=
  n.available b && decide (n.pB b + n.stc.cfg.hysteresis < n.stc.cfg.nominal.get b) && (n.bankView b).isEmpty &&
    !n.ptb.refilling b

/-- The order in which banks are taken. -/
def refillOrder (order : RefillOrder) (count : Nat) (pointer : Option Bank) : List Bank :=
  match order, pointer with
  | .descending, _ => (banksUpTo count).reverse
  | .rotating, none => banksUpTo count
  | .rotating, some p =>
    (banksUpTo count).filter (fun b => decide (p.num < b.num)) ++
      (banksUpTo count).filter (fun b => decide (b.num ≤ p.num))

/-- The candidates in the refill order, without a bank passed over (R124). -/
def Node.refillCandidates (n : Node) (skip : Option Bank) : List Bank :=
  (refillOrder n.stc.cfg.order n.stc.cfg.bankCount n.ccu.pointer).filter fun b =>
    n.refillCandidate b && decide (skip ≠ some b)

/-- Requests on the candidates in turn, up to the first that becomes REQUESTED with its CLAIM frame queued (R122, log
60). -/
def ccuTry : List Bank → Node → Node
  | [], n => n
  | b :: bs, n =>
    match bcuRequest b .refill n with
    | (m, true) => { m with ccu.claim := some ⟨b, .pending⟩ }
    | (m, false) => ccuTry bs m

/-- A refill choice, made only with the refill claim absent and the DIRECT request NONE. -/
def ccuChoose (skip : Option Bank) (n : Node) : Node :=
  if n.ccu.claim = none ∧ n.ccu.direct = .none then ccuTry (n.refillCandidates skip) n else n

/-! ## Stopping (R127, R131) -/

/-- The refill claim at a departure from its use: a claim whose valve stands closed is released at once, one whose valve
is open or travelling becomes RELEASING with the valve commanded closed, and a RELEASING one goes on (R117, R127, R128). -/
def ccuGiveClaim (n : Node) : Node :=
  match n.ccu.claim with
  | none => n
  | some c =>
    match c.stage with
    | .releasing => n
    | .pending => bcuRelease c.bank .refill { n with ccu.claim := none }
    | .held =>
      if (n.ccu.vr.get c.bank).closed then bcuRelease c.bank .refill { n with ccu.claim := none }
      else refillValve c.bank false { n with ccu.claim := some ⟨c.bank, .releasing⟩ }

/-- The entry to STOPPING or LOCKOUT (R127, R131). The off timer of a compressor that was already STOPPING runs on. The
report to the FCU is made by the caller. -/
def ccuHalt (st : CompState) (n : Node) : Node :=
  ccuGiveClaim (closeCompressorValves { n with
    ccu.state := st
    ccu.since := n.now
    ccu.direct := .none
    ccu.runSince := none
    ccu.absentSince := none
    ccu.offSince := (match n.ccu.offSince with | some t => some t | none => some n.now)
    ccu.passOver := none })

/-- The test of R126: IDLE_RUN with nothing in hand after the minimum run goes to STOPPING. -/
def ccuIdleTest (n : Node) : Node :=
  if n.ccu.state = .idleRun ∧ n.ccu.claim = none ∧ n.ccu.direct = .none ∧ n.reached n.ccu.runSince 120000 = true then
    ccuHalt .stopping n
  else n

/-- A choice in IDLE_RUN, and the test of R126 after it. -/
def ccuIdleChoice (skip : Option Bank) (n : Node) : Node :=
  if n.ccu.state = .idleRun then ccuIdleTest (ccuChoose skip n) else n

/-! ## Starting (R119, R122) -/

/-- The entry to STARTING. -/
def ccuStart (n : Node) : Node :=
  { n with
    ccu.state := .starting
    ccu.since := n.now
    ccu.runSince := some n.now
    ccu.absentSince := some n.now
    ccu.offSince := none
    ccu.starts := n.ccu.starts ++ [n.now]
    ccu.passOver := none }

/-- A survey tick (R122). -/
def ccuSurvey (n : Node) : Node :=
  match n.ccu.state with
  | .off =>
    if n.refillCandidates none ≠ [] ∧ n.startPermitted = true ∧ n.ccu.claim = none then
      if (ccuChoose none n).ccu.claim.isSome then ccuStart (ccuChoose none n) else ccuChoose none n
    else n
  | .idleRun => ccuIdleChoice none n
  | _ => n

/-- LOADED_REFILL on a bank whose claim is HELD: pointer set, valve commanded open (R124). -/
def ccuLoad (b : Bank) (n : Node) : Node :=
  openRefill b { n with
    ccu.state := .loadedRefill, ccu.since := n.now, ccu.claim := some ⟨b, .held⟩, ccu.pointer := some b }

/-- LOADED_DIRECT with the request PENDING: the direct valve is commanded open (R128). -/
def ccuServe (n : Node) : Node :=
  openDirect { n with ccu.state := .loadedDirect, ccu.since := n.now, ccu.direct := .pending }

/-- The end of STARTING (R123). -/
def ccuStarted (n : Node) : Node :=
  let m := { n with ccu.passOver := none }
  if n.ccu.direct = .pending then ccuServe m
  else
    match n.ccu.claim with
    | some ⟨b, .held⟩ => ccuLoad b m
    | some _ => { m with ccu.state := .idleRun, ccu.since := n.now }
    | none => ccuIdleChoice n.ccu.passOver { m with ccu.state := .idleRun, ccu.since := n.now }

/-- A refill ends in LOADED_REFILL, at the nominal pressure or on an UNAVAILABLE bank (R124, R125): IDLE_RUN, the claim
released at closure, and a choice once it is released. -/
def ccuLeaveRefill (n : Node) : Node :=
  let m := ccuGiveClaim { n with ccu.state := .idleRun, ccu.since := n.now }
  if m.ccu.claim = none then ccuIdleChoice none m else m

/-! ## DIRECT (R128, R129) -/

/-- DIRECT is denied in any state. -/
def Node.directRefused (n : Node) : Bool :=
  !n.stc.cfg.directAllowed || n.stc.conflict || n.quietAtLeast 1000 || decide (n.isc.loop ≠ .normal) || n.ptb.peerLatch

/-- A DIRECT request: true where it is taken PENDING, false where it is answered DENIED (R128). -/
def directRequest (n : Node) : Node × Bool :=
  if n.directRefused then (n, false)
  else
    match n.ccu.state with
    | .off => if n.startPermitted then ({ ccuStart n with ccu.direct := .pending }, true) else (n, false)
    | .starting => ({ ccuGiveClaim n with ccu.direct := .pending }, true)
    | .loadedRefill => (ccuServe (ccuGiveClaim n), true)
    | .idleRun => (ccuServe (ccuGiveClaim n), true)
    | .loadedDirect => (n, false)
    | .stopping => (n, false)
    | .lockout => (n, false)

/-- Hand-back or cancel at the entry of the fill to ENDING (R129). -/
def ccuHandBack (n : Node) : Node :=
  match n.ccu.direct with
  | .none => n
  | _ =>
    if n.ccu.state = .loadedDirect then
      ccuIdleChoice none (directValve false { n with
        ccu.direct := .none, ccu.state := .idleRun, ccu.since := n.now })
    else { n with ccu.direct := .none }

/-! ## The quiet hold (R133) -/

/-- The quiet timer reaches 1,000 ms. -/
def ccuHold (n : Node) : Node := closeCompressorValves { n with ccu.hold := true }

/-- An own STATUS has left the wire: the hold clears and the valve of the present state is commanded open again. -/
def ccuUnhold (n : Node) : Node :=
  if n.ccu.hold then
    let m := { n with ccu.hold := false }
    match n.ccu.state, n.ccu.claim with
    | .loadedRefill, some ⟨b, .held⟩ => openRefill b m
    | .loadedDirect, _ => openDirect m
    | _, _ => m
  else n

/-! ## Motor feedback (R130) -/

/-- The filtered motor-running level has been taken. -/
def ccuMotorLevel (active : Bool) (n : Node) : Node :=
  if n.cmRun then { n with ccu.absentSince := if active then none else some n.now } else n

end Sys2Proof.Machine
end

