-- ==== Sys2Proof/Machine/FillOps.lean ====
section
/-! DEFINITION. The Fill Controller (file 03): valves, pauses, leak check, stages, end of a fill, the control period. -/

namespace Sys2Proof.Machine

/-! ## Valves of the FCU (R30) -/

/-- A bank draw valve is commanded. -/
def drawValve (b : Bank) (opened : Bool) (n : Node) : Node :=
  { n with fcu.vb := n.fcu.vb.set b ((n.fcu.vb.get b).command opened n.now) }

/-- A bank draw valve is commanded open, only with the own draw claim HELD. -/
def openBank (b : Bank) (n : Node) : Node := n.onlyIf (n.drawHeld b) (drawValve b true)

/-- Every bank draw valve is commanded closed. -/
def closeBanks (n : Node) : Node := { n with fcu.vb := n.fcu.vb.map (·.command false n.now) }

/-- The hose vent valve is commanded. -/
def ventValve (opened : Bool) (n : Node) : Node := { n with fcu.vvent := n.fcu.vvent.command opened n.now }

/-- The bank valve is commanded closed, and the draw claim is released once it has closed, at once if it stands closed. -/
def giveBack (b : Bank) (n : Node) : Node :=
  let m := drawValve b false n
  if (m.fcu.vb.get b).closed then bcuRelease b .draw m
  else { m with fcu.relOnClose := m.fcu.relOnClose.set b true }

/-! ## The vehicle link as the FCU acts on it (R25, R60) -/

/-- The link has left VALID: a COMM fill becomes DEGRADED and the RST is told (R60; log 21). -/
def linkLeft (n : Node) : Node :=
  if n.fcu.kind = some .comm ∧
      (n.fcu.phase.ramping = true ∨ n.fcu.phase = .closing ∨ n.fcu.phase = .venting) then
    rstKind .degraded { n with fcu.kind := some .degraded }
  else n

/-- The reject request, taken in VALID (R25). -/
def vlrReject (n : Node) : Node := if n.linkValid then linkLeft { n with vlr.link := .rejected } else n

/-- The highest combined temperature seen while the link is VALID in CHECKING or RAMPING (R60). -/
def fcuPeak (n : Node) : Node :=
  if n.linkValid ∧ n.fcu.phase.filling = true then
    match n.vlr.combined with
    | some c => { n with fcu.peakTv := some (max (n.fcu.peakTv.getD 0) c.temperature) }
    | none => n
  else n

/-! ## Pauses (section 3.7) -/

/-- A leak-check attempt step that a pause abandons (R42). -/
def CheckStep.ofAttempt : CheckStep → Bool
  | .opening => true | .pulse => true | .equalize => true | .hold => true
  | .claimWait => false | .rezero => false

/-- A reason has become active: RAMPING is PAUSED with flow command 0, an attempt in progress is abandoned (R42, R56). The
check step held while the attempt waits is OPENING, also where it will start again at PULSE (the model's choice, log 40). -/
def pauseEffect (n : Node) : Node :=
  if n.fcu.phase.ramping then { n with fcu.phase := .paused, fcu.fCmd := 0 }
  else if n.fcu.phase = .checking ∧ n.fcu.check.ofAttempt = true then
    { n with fcu.check := .opening, fcu.stepSince := none, fcu.awaiting := false, fcu.fCmd := 0 }
  else n

/-- BANK_WAIT is set after a search that found nothing (R38, R46). That the next repeat is due 1 s after the end of this
search is the model's choice (log 59). -/
def setBankWait (n : Node) : Node :=
  pauseEffect { n with
    fcu.pauses.bankWait := (match n.fcu.pauses.bankWait with | some t => some t | none => some n.now)
    fcu.exhausted := true
    fcu.searchAt := some n.now }

/-- LINE_QUIET becomes active: every bank valve is commanded closed (R57). -/
def lineQuietBegin (n : Node) : Node :=
  if n.fcu.phase.filling then
    pauseEffect (closeBanks { n with
      fcu.pauses.lineQuiet := (match n.fcu.pauses.lineQuiet with | some t => some t | none => some n.now) })
  else n

/-! ## Leak check (section 3.3) -/

def banksAbove (count : Nat) (b : Bank) : List Bank := (banksUpTo count).filter fun k => decide (b.num < k.num)

/-- PULSE begins (R39). -/
def beginPulse (n : Node) : Node :=
  { n with fcu.check := .pulse, fcu.stepSince := some n.now, fcu.awaiting := false, fcu.fCmd := n.pulseFlow }

/-- OPENING begins (R39). -/
def beginOpening (b : Bank) (n : Node) : Node :=
  openBank b { n with fcu.check := .opening, fcu.stepSince := some n.now, fcu.awaiting := false, fcu.fCmd := 0 }

/-- An attempt begins at PULSE, or at OPENING if the valve is not open and ready; while any reason is active it waits at
its start (R39, R42). -/
def beginAttempt (n : Node) : Node :=
  match n.fcu.checkBank with
  | none => n
  | some b =>
    if n.fcu.pauses.any then
      { n with fcu.check := .opening, fcu.stepSince := none, fcu.awaiting := false, fcu.fCmd := 0 }
    else if (n.fcu.vb.get b).ready then beginPulse n
    else beginOpening b n

/-- The search for a check bank over the banks given, lowest first (R38). -/
def checkSearch : List Bank → Node → Node
  | [], n => setBankWait n
  | b :: bs, n =>
    if n.available b then
      match bcuRequest b .draw n with
      | (m, true) => { m with fcu.checkBank := some b }
      | (m, false) => checkSearch bs m
    else checkSearch bs n

/-- The check step returns to CLAIM_WAIT and the search goes on above bank `b` (R38). -/
def checkOnward (b : Bank) (n : Node) : Node :=
  checkSearch (banksAbove n.stc.cfg.bankCount b) { n with
    fcu.check := .claimWait, fcu.stepSince := none, fcu.awaiting := false, fcu.fCmd := 0, fcu.checkBank := none }

/-- The check claim has become HELD: the bank is the check bank and the source of the stage entry (R38). -/
def checkHeld (b : Bank) (n : Node) : Node :=
  beginAttempt (rstSetFirstSource b { n with fcu.pauses.bankWait := none, fcu.lastSource := some (.bank b) })

/-- The check claim is given up once HELD; REZERO runs on (R38). -/
def checkForsaken (b : Bank) (n : Node) : Node :=
  if n.fcu.check = .rezero then { n with fcu.givenUp := some b, fcu.checkBank := none } else checkOnward b n

/-- REZERO ends with a hose below 0.50 MPa: attempt 4 starts, or the search goes on (R38, R41). -/
def rezeroEnd (n : Node) : Node :=
  let m := ventValve false { n with fcu.rezeroVent := none, fcu.givenUp := none }
  match n.fcu.givenUp with
  | some b => checkOnward b m
  | none => beginAttempt m

/-! ## Stages (section 3.4) -/

/-- P_ramp is seated (R52). -/
def seat (n : Node) : Node := { n with fcu.pRamp := min n.pH (hoseLimit n.stc.cfg.hose), fcu.rem := 0 }

/-- A switch target becomes present (R44). -/
def setTarget (s : Source) (n : Node) : Node :=
  { n with
    fcu.target := some s, fcu.targetTaken := false, fcu.targetWaits := false, fcu.noTarget := false
    fcu.phase := if n.fcu.phase = .flowing then .switching else n.fcu.phase }

/-- The switch target becomes absent. -/
def clearTarget (n : Node) : Node :=
  { n with
    fcu.target := none, fcu.targetTaken := false, fcu.targetWaits := false
    fcu.phase := if n.fcu.phase = .switching then .flowing else n.fcu.phase }

/-- The current source is a bank with a margin below `m`. -/
def Node.marginBelow (n : Node) (m : Int) : Bool :=
  match n.fcu.source with
  | some (.bank b) => decide (n.margin b < m)
  | _ => false

/-- A search ends without a target: BANK_WAIT at once without a source or with a margin below 50; else the fill stays on its
source, and a margin that falls below 50 later sets BANK_WAIT at step 1 of a period, `Node.bankWaitDue` (R46). The next
repeat under BANK_WAIT is due 1 s after this end either way (the model's choice, log 59). -/
def endSearch (n : Node) : Node :=
  let m := { n with fcu.noTarget := true }
  if n.fcu.source = none ∨ n.marginBelow 50 = true then setBankWait m else { m with fcu.searchAt := some n.now }

/-- The search offers DIRECT after the top bank (R44). -/
def askDirect (n : Node) : Node :=
  if n.stc.cfg.directAllowed then
    match directRequest n with
    | (m, true) => setTarget .direct m
    | (m, false) => endSearch m
  else endSearch n

/-- A bank passes the candidate search. -/
def Node.switchCandidate (n : Node) (b : Bank) : Bool := n.available b && decide (n.pH + 200 ≤ n.pB b)

/-- The candidate search over the banks given, lowest first (R44). -/
def switchSearch : List Bank → Node → Node
  | [], n => askDirect n
  | b :: bs, n =>
    if n.switchCandidate b then
      match bcuRequest b .draw n with
      | (m, true) => setTarget (.bank b) m
      | (m, false) => switchSearch bs m
    else switchSearch bs n

/-- The banks above the current or given-up source; none above DIRECT (log 15). -/
def Node.banksAhead (n : Node) : List Bank :=
  match n.fcu.lastSource with
  | some (.bank b) => banksAbove n.stc.cfg.bankCount b
  | _ => []

/-- The source in use has become open and ready after none was open: P_ramp is seated (R47). -/
def fcuSourceReady (n : Node) : Node :=
  if n.fcu.phase.ramping ∧ n.fcu.noSource = true ∧ n.sourceReady = true then seat { n with fcu.noSource := false } else n

/-- The valves of a switch stand as its completion needs (R45). -/
def Node.switchValvesDone (n : Node) : Bool :=
  match n.fcu.source with
  | some (.bank b) => (n.fcu.vb.get b).ready && n.otherDrawValvesClosed b
  | some .direct => n.drawValvesClosed
  | none => false

/-- A switch completes: the target is absent and BANK_WAIT clears (R45, R46). -/
def fcuSwitchDone (n : Node) : Node :=
  if n.fcu.phase.ramping ∧ n.fcu.targetTaken = true ∧ n.switchValvesDone = true then
    clearTarget { n with fcu.pauses.bankWait := none }
  else n

/-- In RAMPING the flow command is 0 while no source is open and ready (R53). -/
def flowNeedsSource (n : Node) : Node :=
  if n.fcu.phase.ramping ∧ n.sourceReady = false then { n with fcu.fCmd := 0 } else n

/-- The target becomes the current source: the old bank valve is commanded closed, its claim released at closure, and a
stage entry appended (R45); the flow command waits for its valve (R53). -/
def takeSource (s : Source) (n : Node) : Node :=
  let m := match n.fcu.source with
    | some (.bank b) => giveBack b n
    | _ => n
  rstAppend s (flowNeedsSource { m with
    fcu.source := some s, fcu.lastSource := some s, fcu.targetTaken := true, fcu.targetWaits := false })

/-- The target bank's claim is HELD: its valve is commanded open and it is taken (R45). -/
def takeTarget (b : Bank) (n : Node) : Node := takeSource (.bank b) (openBank b n)

/-- A pending target bank is given up and the search goes on above it (R45). -/
def targetOnward (b : Bank) (n : Node) : Node := switchSearch (banksAbove n.stc.cfg.bankCount b) (clearTarget n)

/-- The current source is given up: no source is open and the flow command is 0 (R47). A taken target is the current
source and goes with it. Section 3.1 names no sub-state for RAMPING with no source open, no target present and no pause
reason active: until the search of the next period the fill is left in FLOWING, or returned to it from SWITCHING, which is
what STATUS shows (the model's choice, log 63). The result of an earlier search does not stand for the source given up (log
52). -/
def giveUpSource (n : Node) : Node :=
  let m := { n with fcu.source := none, fcu.noSource := true, fcu.noTarget := false, fcu.fCmd := 0 }
  if n.fcu.targetTaken then clearTarget m else m

/-! ## Ending (section 3.10) -/

/-- VENTING begins (R62). -/
def enterVenting (n : Node) : Node :=
  mpuProject (ventValve true { n with
    fcu.phase := .venting, fcu.pEnd := some n.pH, fcu.tEnd := some n.tD, fcu.ventSince := some n.now })

/-- CLOSING ends when every bank valve has closed (R61). -/
def fcuClosingDone (n : Node) : Node :=
  if n.fcu.phase = .closing ∧ n.drawValvesClosed = true then enterVenting n else n

/-- The fill ends (R61). -/
def endFill (r : EndReason) (n : Node) : Node :=
  let m := { n with
    fcu.phase := .closing, fcu.endReason := some r, fcu.fCmd := 0, fcu.periodNext := none, fcu.pauses := .none
    fcu.stepSince := none, fcu.awaiting := false, fcu.rezeroVent := none, fcu.givenUp := none, fcu.checkBank := none
    fcu.target := none, fcu.targetTaken := false, fcu.targetWaits := false }
  fcuClosingDone (hsuFillEnd (ccuHandBack (Four.all.foldl (fun k b => giveBack b k) m)))

/-- VENTING ends: the vent valve is commanded closed (R62). -/
def ventingEnd (n : Node) : Node := ventValve false n

/-- CLOSING_RECORD begins: figures into the image and a close write asked (R63, file 09 R158). -/
def enterClosingRecord (n : Node) : Node := raiseRecord .close (mpuFinal { n with fcu.phase := .closingRecord })

/-- IDLE: the fill state returns to its start-up values; the valves are as they stand (R64). -/
def fcuIdle (n : Node) : Node :=
  { n with fcu := { Fcu.startUp with vb := n.fcu.vb, vvent := n.fcu.vvent, relOnClose := n.fcu.relOnClose } }

/-- A PROGRESS still queued at the entry to DONE carries phase DONE and the figures of this moment (file 10 R179,
log 38). -/
def progressAtDone (n : Node) : Node :=
  { n with liu.queue := n.liu.queue.map (QFrame.atDone n.progressPayload) }

/-- DONE, at the completion of the close write; IDLE at once if the nozzle is holstered (R63, R64). -/
def fcuDone (slot : Nat) (n : Node) : Node :=
  let m := match n.fcu.auth with
    | some a => offerRecord a.terminal slot n
    | none => n
  let m := progressAtDone { m with fcu.phase := .done, fcu.auth := none, liu.progressNext := none }
  if m.level .holstered then fcuIdle m else m

/-! ## End test (R58) -/

/-- The target SOC of the fill kind (R55). -/
def Node.socTarget (n : Node) : Nat :=
  if n.fcu.kind = some .comm then n.stc.cfg.commTarget else n.stc.cfg.nonCommTarget

/-- Row 11: the combined temperature at 85.0 °C or more. -/
def Node.tempLimit (n : Node) : Bool :=
  n.linkValid && (decide (n.fcu.kind = none) || decide (n.fcu.kind = some .comm)) &&
    match n.vlr.combined with
    | some c => decide (3582 ≤ c.temperature)
    | none => false

/-- The MPU reports its limit by kind (file 08 R146): an amount limit, or a mass limit for the other kinds. -/
def Node.amountKind (n : Node) : Bool :=
  match n.mpu.terms with
  | some t => decide (t.limitKind = .amount)
  | none => false

/-- The conditions of R58 in their order, each with its end reason. -/
def Node.endConditions (n : Node) : List (EndReason × Bool) :=
  let ramp := n.fcu.phase.ramping
  [ (.esd, decide (n.isc.loop = .tripped) && !n.isc.latch.isSome),
    (.breakaway, decide (n.isc.latch = some .breakaway) || n.level .breakaway),
    (.hoseRupture, decide (n.isc.latch = some .hoseRupture)),
    (.overpressure, decide (n.isc.latch = some .overpressure)),
    (.vehicleAbort, decide (n.validCommand = some .abort)),
    (.disconnect, !n.level .coupled && !n.level .breakaway),
    (.sensorFail, n.chanFailed .pH || n.chanFailed .tS || n.chanFailed .tD),
    (.meterFault, n.level .meterFault),
    (.lineFault, n.fcu.lineFault || n.quietAtLeast 1800),
    (.numberConflict, n.stc.conflict),
    (.tempLimit, n.tempLimit),
    (.pressureLimit, decide (hoseLimit n.stc.cfg.hose ≤ n.pH)),
    (.targetSoc, ramp && match n.fcu.lastSoc with | some s => decide (n.socTarget ≤ s) | none => false),
    (.massLimit, ramp && n.mpu.limit && !n.amountKind),
    (.amountLimit, ramp && n.mpu.limit && n.amountKind),
    (.sensorStale, n.sampleOlder 2000 || n.reached n.fcu.pauses.sampleAge 2000),
    (.precoolFail, ramp && n.reached n.fcu.pauses.precoolUnfit 60000),
    (.heatShareTimeout, n.reached n.fcu.pauses.heatShare 120000),
    (.vehicleHalt, n.reached n.fcu.pauses.vehicleHalt 10000),
    (.banksExhausted, n.reached n.fcu.pauses.bankWait 30000) ]

/-- The first condition of R58 that holds. -/
def Node.endReasonNow (n : Node) : Option EndReason := (n.endConditions.find? (·.2)).map (·.1)

/-- The end test, in CHECKING and RAMPING. -/
def endTest (n : Node) : Node :=
  if n.fcu.phase.filling then
    match n.endReasonNow with
    | some r => endFill r n
    | none => n
  else n

/-! ## Readings of the leak check (R39 to R43) -/

/-- HOLD begins. -/
def beginHold (n : Node) : Node := { n with fcu.check := .hold, fcu.stepSince := some n.now, fcu.fCmd := 0 }

/-- The temperature of the SOC at P0 (R40). -/
def Node.p0Temperature (n : Node) : Nat :=
  if n.linkValid then
    match n.vlr.combined with
    | some c => c.temperature
    | none => n.tA
  else n.tA

/-- The vehicle data differs from P0 by more than 200 codes (R40). -/
def Node.p0Implausible (n : Node) (p : Nat) : Bool :=
  n.linkValid &&
    match n.vlr.combined with
    | some c => decide (p + 200 < c.pressure) || decide (c.pressure + 200 < p)
    | none => false

/-- The tests of P0 in the first attempt (R40). -/
def p0Tests (p : Nat) (n : Node) : Node :=
  if p < 50 then endFill .emptyTank n
  else if hoseLimit n.stc.cfg.hose ≤ p then endFill .fullTank n
  else
    let s := soc n.stc.cfg.hose p n.p0Temperature
    let m := { n with fcu.lastSoc := some s }
    if (if n.linkValid then n.stc.cfg.commTarget else n.stc.cfg.nonCommTarget) ≤ s then endFill .fullTank m
    else beginHold m

/-- P0 is read (R39, R40). -/
def readP0 (n : Node) : Node :=
  let m := { n with fcu.p0 := some n.pH, fcu.awaiting := false }
  let m := if n.p0Implausible n.pH then vlrReject m else m
  if n.fcu.attempt = 1 then p0Tests n.pH m else beginHold m

/-- An attempt has passed: RAMPING begins (R41, R43). -/
def enterRamping (n : Node) : Node :=
  let kind : FillKind := if n.linkValid then .comm else .noncomm
  rstKind kind (seat { n with
    fcu.phase := if n.fcu.pauses.any then .paused else .flowing
    fcu.attempt := 0
    fcu.check := .claimWait
    fcu.stepSince := none
    fcu.awaiting := false
    fcu.kind := some kind
    fcu.source := n.fcu.checkBank.map .bank
    fcu.lastSource := n.fcu.checkBank.map .bank
    fcu.checkBank := none
    fcu.rampSince := some n.now })

/-- REZERO begins: the bank valve is commanded closed (R41). -/
def beginRezero (n : Node) : Node :=
  closeBanks { n with
    fcu.attempt := 4, fcu.check := .rezero, fcu.stepSince := some n.now, fcu.awaiting := false, fcu.fCmd := 0
    fcu.rezeroVent := none }

/-- An attempt has failed (R41). -/
def attemptFailed (n : Node) : Node :=
  if n.fcu.attempt = 4 then endFill .leak n
  else if n.fcu.attempt = 3 then beginRezero n
  else beginAttempt { n with fcu.attempt := n.fcu.attempt + 1 }

/-- The attempt is judged on the P_H value at the end of HOLD (R39, R41). -/
def judge (n : Node) : Node :=
  if n.fcu.p0.getD 0 ≤ n.pH + 20 then enterRamping n else attemptFailed n

/-- A reading that waited for an accepted P_H sample is made (R39). -/
def fcuAwaited (n : Node) : Node :=
  if n.fcu.phase = .checking ∧ n.fcu.awaiting = true then
    match n.fcu.check with
    | .equalize => readP0 n
    | .hold => judge { n with fcu.awaiting := false }
    | _ => n
  else n

/-! ## The control period (R50) -/

/-- The current source is open and ready and its margin is 200 or more (R46). -/
def Node.marginBack (n : Node) : Bool :=
  n.sourceReady &&
    match n.fcu.source with
    | some (.bank b) => decide (200 ≤ n.margin b)
    | _ => false

/-- A switch target is present and not yet taken. -/
def Node.targetPending (n : Node) : Bool := n.fcu.target.isSome && !n.fcu.targetTaken

/-- The cause that sets BANK_WAIT at step 1 of a RAMPING period: the last search ended without a target and no source is
open or the margin is below 50 (R46), or a target is pending and the margin is below 50 (R46, R48, log 14). It asks for no
flow, so a PAUSED fill has it too. That it is tested at step 1, and not at the sample, is the model's choice (log 52). -/
def Node.bankWaitDue (n : Node) : Bool :=
  n.fcu.phase.ramping &&
    ((n.fcu.noTarget && (n.fcu.source.isNone || n.marginBelow 50)) || (n.targetPending && n.marginBelow 50))

/-- The cause of a pause reason holds (section 3.7). BANK_WAIT, once set, holds until R38 or R46 clears it; a margin of
2.00 MPa that is back clears it at step 1 of the next period, not at the sample that shows it (the model's choice, log 49). -/
def Node.pauseCause (n : Node) : PauseReason → Bool
  | .precoolUnfit => n.fcu.phase.ramping && decide (n.precoolClass = .unfit)
  | .heatShare => n.hsu.waiting
  | .vehicleHalt => decide (n.validCommand = some .halt)
  | .sampleAge => n.sampleOlder 200
  | .bankWait => if n.fcu.pauses.bankWait.isSome then !(n.fcu.phase.ramping && n.marginBack) else n.bankWaitDue
  | .lineQuiet => n.quietAtLeast 1000

/-- A reason after the test of its cause (R56). -/
def Node.reasonAfter (n : Node) (r : PauseReason) : Option Nat :=
  if n.pauseCause r then
    match n.fcu.pauses.get r with
    | some t => some t
    | none => some n.now
  else none

/-- The test sets BANK_WAIT: it is not active and its cause holds (R46, R56). -/
def Node.bankWaitBegins (n : Node) : Bool := n.fcu.pauses.bankWait.isNone && n.bankWaitDue

/-- The pause reasons after the test of their causes. A BANK_WAIT set here sets BANKS_EXHAUSTED (R46); that its first repeat
of the search is due 1 s from here is the model's choice (log 59). -/
def evaluatePauses (n : Node) : Node :=
  { n with
    fcu.pauses :=
      ⟨n.reasonAfter .precoolUnfit, n.reasonAfter .heatShare, n.reasonAfter .vehicleHalt, n.reasonAfter .sampleAge,
        n.reasonAfter .bankWait, n.reasonAfter .lineQuiet⟩
    fcu.exhausted := n.fcu.exhausted || n.bankWaitBegins
    fcu.searchAt := if n.bankWaitBegins then some n.now else n.fcu.searchAt }

/-- LINE_QUIET has cleared in RAMPING: a target that became HELD is taken, or the valve of the current source is
commanded open again (R57). -/
def quietReopen (n : Node) : Node :=
  if n.fcu.phase.ramping then
    if n.fcu.targetWaits then
      match n.fcu.target with
      | some (.bank b) => takeTarget b n
      | _ => n
    else
      match n.fcu.source with
      | some (.bank b) => openBank b n
      | _ => n
  else n

/-- The fill resumes with no reason active and the source open and ready (R57); a waiting attempt begins (R42). -/
def fcuResume (n : Node) : Node :=
  if n.fcu.phase = .paused then
    if n.sourceReady then
      seat { n with fcu.noSource := false, fcu.phase := if n.fcu.target.isSome then .switching else .flowing }
    else n
  else if n.fcu.phase = .checking ∧ n.fcu.check.ofAttempt = true ∧ n.fcu.stepSince = none then beginAttempt n
  else n

/-- Step 1 of a period. -/
def periodPauses (n : Node) : Node :=
  let m := evaluatePauses n
  let m :=
    if n.fcu.pauses.lineQuiet = none ∧ m.fcu.pauses.lineQuiet.isSome = true then closeBanks m
    else if n.fcu.pauses.lineQuiet.isSome = true ∧ m.fcu.pauses.lineQuiet = none ∧ n.fcu.lineFault = false then
      quietReopen m
    else m
  if m.fcu.pauses.any then pauseEffect m else fcuResume m

/-- APRR of this period (R51). -/
def Node.aprrNow (n : Node) : Nat :=
  aprr n.stc.cfg.hose n.precoolClass (decide (n.fcu.kind = some .comm)) (derating (n.chanFailed .tA) n.tA)

/-- Steps 2 and 3 (R51, R52). -/
def periodRamp (n : Node) : Node :=
  if n.fcu.phase = .paused ∨ n.sourceReady = false ∨ n.sampleOlder 200 = true then n
  else { n with
    fcu.pRamp := min (n.fcu.pRamp + (n.aprrNow + n.fcu.rem) / 600) (hoseLimit n.stc.cfg.hose)
    fcu.rem := (n.aprrNow + n.fcu.rem) % 600 }

/-- Step 4 (R53). -/
def periodFlow (n : Node) : Node :=
  { n with
    fcu.fCmd := n.flowCommand
    fcu.derated := n.fcu.derated || decide (n.hsu.ceiling < n.stc.cfg.peakFlow) }

/-- A switch is needed (R44, R47). -/
def Node.switchNeeded (n : Node) : Bool :=
  match n.fcu.source with
  | some (.bank b) => (n.fcu.vb.get b).ready && decide (n.pH < n.fcu.pRamp) && decide (n.margin b < 200)
  | some .direct => false
  | none => true

/-- The switch test of step 5: no switch is sought while a target is present (R44), and while BANK_WAIT is active only by
BANK_SEARCH_RETRY (log 15). -/
def periodSwitch (n : Node) : Node :=
  if n.fcu.target.isSome ∨ n.fcu.pauses.bankWait.isSome = true then n
  else if n.switchNeeded then switchSearch n.banksAhead n
  else n

/-- The vehicle data test of step 5 (R60). -/
def periodVehicle (n : Node) : Node :=
  if n.fcu.kind = some .comm then
    match n.vlr.combined with
    | some c => if n.pH + 200 < c.pressure then vlrReject n else n
    | none => n
  else n

/-- The SOC of step 5 (R55). -/
def periodSoc (n : Node) : Node :=
  if n.fcu.kind = some .comm then
    match n.vlr.combined with
    | some c => { n with fcu.lastSoc := some (soc n.stc.cfg.hose c.pressure c.temperature) }
    | none => n
  else { n with fcu.lastSoc := some (soc n.stc.cfg.hose n.pH n.tA) }

/-- The six steps of a control period, in order. -/
def controlPeriod (n : Node) : Node :=
  let m := periodPauses n
  if m.fcu.phase.ramping then endTest (periodSoc (periodVehicle (periodSwitch (periodFlow (periodRamp m)))))
  else endTest m

/-! ## Reports of the BCU and the CCU (R38, R45, R47) -/

/-- A draw claim has become HELD. -/
def fcuHeld (b : Bank) (n : Node) : Node :=
  if n.fcu.phase = .checking then
    if n.fcu.check = .claimWait ∧ n.fcu.checkBank = some b then checkHeld b n else n
  else if n.fcu.phase.ramping ∧ n.fcu.target = some (.bank b) ∧ n.fcu.targetTaken = false then
    if n.fcu.pauses.lineQuiet.isSome then { n with fcu.targetWaits := true } else takeTarget b n
  else n

/-- A draw claim has become DENIED after its request. -/
def fcuDenied (b : Bank) (n : Node) : Node :=
  if n.fcu.phase = .checking then
    if n.fcu.check = .claimWait ∧ n.fcu.checkBank = some b then checkOnward b n else n
  else if n.fcu.phase.ramping ∧ n.fcu.target = some (.bank b) ∧ n.fcu.targetTaken = false then targetOnward b n
  else n

/-- A draw claim of the fill is gone or is being given back: the check goes on, the search goes on, or the source is
given up. The table of R45 has no row for a target that is HELD but not opened because LINE_QUIET holds (R57). The model
takes such a target, and the old source beside it, by the rows "before HELD" and "target not yet HELD": a target that is
lost or unavailable is passed by and the search goes on upward from its bank, and a source that is given up leaves the
target present (the model's choice, log 64). -/
def fcuForsaken (b : Bank) (n : Node) : Node :=
  if n.fcu.phase = .checking then
    if n.fcu.checkBank = some b then checkForsaken b n else n
  else if n.fcu.phase.ramping then
    if n.fcu.target = some (.bank b) ∧ n.fcu.targetTaken = false then targetOnward b n
    else if n.fcu.source = some (.bank b) then giveUpSource n
    else n
  else n

/-- A collision counts until the figures of the close are handed (R36; log 21). -/
def Phase.countsCollision (p : Phase) : Bool := p.filling || decide (p = .closing) || decide (p = .venting)

/-- A draw claim has become LOST: its valve is commanded closed at once and the loss is counted (R36, R38, R47). -/
def fcuLost (b : Bank) (n : Node) : Node :=
  let m := drawValve b false { n with fcu.relOnClose := n.fcu.relOnClose.set b false }
  fcuForsaken b (m.onlyIf n.fcu.phase.countsCollision rstCollision)

/-- The bank of an own draw claim has become UNAVAILABLE (R38, R45, R47). -/
def fcuUnavailable (b : Bank) (n : Node) : Node :=
  if n.fcu.phase.filling then fcuForsaken b (giveBack b n) else n

/-- A draw claim has been DROPPED at 1,800 ms of quiet (file 04 R80, R84); its source is then not open (R53). -/
def fcuDropped (b : Bank) (n : Node) : Node :=
  flowNeedsSource (drawValve b false { n with fcu.relOnClose := n.fcu.relOnClose.set b false })

/-- DIRECT is READY (R45). -/
def fcuDirectReady (n : Node) : Node :=
  if n.fcu.phase.ramping ∧ n.fcu.target = some .direct ∧ n.fcu.targetTaken = false then
    fcuSwitchDone (fcuSourceReady (takeSource .direct n))
  else n

/-- A pending DIRECT request is answered DENIED: the search ends without a target (R45). -/
def fcuDirectDenied (n : Node) : Node :=
  if n.fcu.phase.ramping ∧ n.fcu.target = some .direct ∧ n.fcu.targetTaken = false then endSearch (clearTarget n) else n

/-- DIRECT service is withdrawn (R47). -/
def fcuDirectWithdrawn (n : Node) : Node :=
  if n.fcu.phase.ramping ∧ n.fcu.source = some .direct then giveUpSource n else n

/-! ## Authorization and start (R34, R35) -/

/-- AUTHORIZED is left for IDLE, without a record (R34). -/
def authCancel (n : Node) : Node := if n.fcu.phase = .authorized then fcuIdle n else n

/-- A START press starts the fill (R35). -/
def Node.startTaken (n : Node) : Bool :=
  decide (n.fcu.phase = .authorized) && n.level .coupled && !n.level .holstered

/-- The fill starts (R35, R38, file 06 R104, file 08 R138, file 09 R155, file 10 R179; order of the hand-overs log 13). The
mark of row 9 of R58 starts clear, also with the quiet timer at 1,800 ms or more (the model's choice, log 53). -/
def startFill (n : Node) : Node :=
  let m := { n with
    fcu.phase := .checking, fcu.authSince := none, fcu.check := .claimWait, fcu.stepSince := none
    fcu.awaiting := false, fcu.attempt := 1, fcu.pauses := .none, fcu.derated := false, fcu.exhausted := false
    fcu.ventFail := false, fcu.lastSoc := none, fcu.peakTv := none, fcu.endReason := none, fcu.window := []
    fcu.lineFault := false, fcu.startedAt := n.now, fcu.periodNext := some (n.now + 100) }
  let m := offer (.progress ((n.fcu.auth.map (·.terminal)).getD 0)) (hsuFillStart (mpuOpen (rstCreate (fcuPeak m))))
  checkSearch (banksUpTo n.stc.cfg.bankCount) { m with liu.progressNext := some (n.now + 1000) }

/-! ## The trip event and STOP (R34, R37, R59) -/

/-- The trip event reaches the FCU. -/
def fcuTrip (n : Node) : Node := endTest (authCancel n)

/-- A STOP command or a STOP press (R37). -/
def fcuStop (r : EndReason) (n : Node) : Node :=
  if n.fcu.phase.filling then endFill r n else authCancel n

/-! ## Accepted P_H samples (R39, R41, R54, R62) -/

/-- The window of R54 at an accepted sample: the samples of the last 1,000 ms. -/
def Node.windowNow (n : Node) : List (Nat × Nat) := n.fcu.window.filter fun p => decide (n.now - p.2 ≤ 1000)

/-- The drop is more than 5.00 MPa while flow is commanded. -/
def Node.ruptured (n : Node) (v : Nat) : Bool :=
  decide (0 < n.fcu.fCmd) && n.windowNow.any fun p => decide (v + 500 < p.1)

/-- The accepted sample enters the window. -/
def fcuWindow (v : Nat) (n : Node) : Node := { n with fcu.window := n.windowNow ++ [(v, n.now)] }

/-- An accepted sample below 0.50 MPa ends VENTING, or the vent of REZERO (R41, R62). -/
def fcuVentSample (v : Nat) (n : Node) : Node :=
  if v < 50 ∧ n.fcu.vvent.opened = true then
    if n.fcu.phase = .venting then ventingEnd n
    else if n.fcu.phase = .checking ∧ n.fcu.check = .rezero ∧ n.fcu.rezeroVent.isSome = true then rezeroEnd n
    else n
  else n

/-! ## Valve travels (R30, R39, R41, R45, R61, R62) -/

/-- A draw valve has reached its position. -/
def fcuDrawArrived (b : Bank) (n : Node) : Node :=
  let m := { n with fcu.vb := n.fcu.vb.set b (n.fcu.vb.get b).arrive }
  let m :=
    if (m.fcu.vb.get b).closed ∧ m.fcu.relOnClose.get b = true then
      bcuRelease b .draw { m with fcu.relOnClose := m.fcu.relOnClose.set b false }
    else m
  let m :=
    if m.fcu.phase = .checking then
      if m.fcu.check = .opening ∧ m.fcu.stepSince.isSome = true ∧ m.fcu.checkBank = some b ∧
          (m.fcu.vb.get b).ready = true then beginPulse m
      else if m.fcu.check = .rezero ∧ m.fcu.rezeroVent = none ∧ m.drawValvesClosed = true then
        ventValve true { m with fcu.rezeroVent := some m.now }
      else m
    else m
  fcuClosingDone (fcuSwitchDone (fcuSourceReady m))

/-- The vent valve has reached its position: in VENTING, closed, CLOSING_RECORD begins. -/
def fcuVentArrived (n : Node) : Node :=
  let m := { n with fcu.vvent := n.fcu.vvent.arrive }
  if m.fcu.phase = .venting ∧ m.fcu.vvent.closed = true then enterClosingRecord m else m

end Sys2Proof.Machine
end

