-- ==== Sys2Proof/Machine/Reports.lean ====
section
/-! DEFINITION. What one block tells another: the CCU's stops with DIRECT withdrawn or denied (file 07), the BCU's
reports to its requesters (file 04 R82), walks and retests, the loop and its trip event (file 01), NUMBER_CONFLICT
(file 05 R97). -/

namespace Sys2Proof.Machine

/-! ## Stops of the compressor (R127, R129 to R132) -/

/-- The FCU is told what becomes of its DIRECT request (R129). -/
def tellDirect (d : DirectReq) (n : Node) : Node :=
  match d with
  | .none => n
  | .serving => fcuDirectWithdrawn n
  | .pending => fcuDirectDenied n

/-- STOPPING or LOCKOUT is entered, and a DIRECT request is withdrawn or denied. -/
def ccuGo (st : CompState) (n : Node) : Node := tellDirect n.ccu.direct (ccuHalt st n)

/-- A running compressor goes to STOPPING. -/
def ccuStop (n : Node) : Node := n.onlyIf n.cmRun (ccuGo .stopping)

/-- A lockout cause while the compressor runs or stops (R130, R131). -/
def ccuLockout (n : Node) : Node := n.onlyIf (n.cmRun || decide (n.ccu.state = .stopping)) (ccuGo .lockout)

/-! ## Reports to the CCU (R124) -/

/-- The stage of the refill claim on a bank. -/
def Node.claimStage (n : Node) (b : Bank) : Option ClaimStage :=
  match n.ccu.claim with
  | some c => if c.bank = b then some c.stage else none
  | none => none

def ccuHeld (b : Bank) (n : Node) : Node :=
  if n.claimStage b = some .pending then
    match n.ccu.state with
    | .starting => { n with ccu.claim := some ⟨b, .held⟩ }
    | .idleRun => ccuLoad b n
    | _ => n
  else n

def ccuDenied (b : Bank) (n : Node) : Node :=
  if n.claimStage b = some .pending then
    let m := { n with ccu.claim := none }
    if n.ccu.state = .starting then { m with ccu.passOver := some b } else ccuIdleChoice (some b) m
  else n

def ccuLost (b : Bank) (n : Node) : Node :=
  match n.claimStage b with
  | none => n
  | some _ =>
    let m := refillValve b false { n with ccu.claim := none }
    if n.ccu.state = .loadedRefill then ccuIdleChoice none { m with ccu.state := .idleRun, ccu.since := n.now }
    else ccuIdleChoice none m

def ccuUnavailable (b : Bank) (n : Node) : Node :=
  match n.claimStage b with
  | none => n
  | some .releasing => n
  | some .pending => ccuIdleChoice none (ccuGiveClaim n)
  | some .held =>
    if n.ccu.state = .loadedRefill then ccuLeaveRefill n else ccuIdleChoice none (ccuGiveClaim n)

def ccuDropped (b : Bank) (n : Node) : Node :=
  match n.claimStage b with
  | none => n
  | some _ => { n with ccu.claim := none }

/-! ## Reports by kind (file 04 R82) -/

def reportHeld (b : Bank) (k : ClaimKind) (n : Node) : Node :=
  match k with | .draw => fcuHeld b n | .refill => ccuHeld b n

def reportDenied (b : Bank) (k : ClaimKind) (n : Node) : Node :=
  match k with | .draw => fcuDenied b n | .refill => ccuDenied b n

def reportLost (b : Bank) (k : ClaimKind) (n : Node) : Node :=
  match k with | .draw => fcuLost b n | .refill => ccuLost b n

def reportUnavailable (b : Bank) (k : ClaimKind) (n : Node) : Node :=
  match k with | .draw => fcuUnavailable b n | .refill => ccuUnavailable b n

def reportDropped (b : Bank) (k : ClaimKind) (n : Node) : Node :=
  match k with | .draw => fcuDropped b n | .refill => ccuDropped b n

/-! ## Walks with their reports (R68, R71, R78) -/

/-- Walks on banks, then the LOST reports of the own claims they dropped. -/
def walkAndReport (banks : List Bank) (n : Node) : Node :=
  (bcuWalks banks n).2.foldl (fun m p => reportLost p.1 p.2 m) (bcuWalks banks n).1

/-- The walk of a bank that a claim has entered by its own CLAIM frame, then the LOST reports (R72, R76). -/
def walkEntry (c : ViewClaim) (n : Node) : Node :=
  (bcuWalk c.bank (some c) n).2.foldl (fun m k => reportLost c.bank k m) (bcuWalk c.bank (some c) n).1

/-- The retest of one own REQUESTED claim: withdrawn and DENIED where the trial walk does not admit it (R71). -/
def retestOne (c : OwnClaim) (n : Node) : Node :=
  if n.bcu.own.contains c = true ∧
      n.trialAdmits c.bank ((n.bcu.requestedOn c.bank).takeWhile fun o => decide (o ≠ c)) c.kind = false then
    reportDenied c.bank c.kind (bcuWithdraw c.bank c.kind n)
  else n

/-- The retests of the own REQUESTED claims on the banks given. -/
def retest (banks : List Bank) (n : Node) : Node :=
  (n.bcu.own.filter fun o => decide (o.state = .requested) && banks.contains o.bank).foldl
    (fun m c => retestOne c m) n

/-- Claims have entered the view from a peer's frame: walks, reports, retests. -/
def viewChanged (banks : List Bank) (n : Node) : Node := retest banks (walkAndReport banks n)

/-- A claim has entered the view from a peer's CLAIM frame: walk, reports, retests (R76). -/
def claimEntered (c : ViewClaim) (n : Node) : Node := retest [c.bank] (walkEntry c n)

/-- The bank of own claims has become UNAVAILABLE (R66). -/
def bankUnavailable (b : Bank) (n : Node) : Node :=
  (n.bcu.own.filter fun o => decide (o.bank = b)).foldl (fun m o => reportUnavailable o.bank o.kind m) n

/-- Every own claim is dropped (R80). -/
def bcuDropAll (n : Node) : Node :=
  n.bcu.own.foldl (fun m o => reportDropped o.bank o.kind m)
    { n with
      bcu.own := []
      liu.queue := n.bcu.own.foldl (fun q o => queueRemoveClaim o.bank o.kind q) n.liu.queue }

/-! ## The loop (file 01 R10, R12, R13) -/

/-- The trip event: the CCU first, then the FCU (log 13). -/
def tripEvent (n : Node) : Node := fcuTrip (ccuStop n)

/-- The loop state after a change of the drive latch or of the filtered loop input (R12). -/
def loopUpdate (n : Node) : Node :=
  if n.loopOpen then
    match n.isc.loop with
    | .tripped => n
    | _ => tripEvent { n with isc.loop := .tripped }
  else
    match n.isc.loop with
    | .tripped => { n with isc.loop := .recovering n.now }
    | _ => n

/-- A trip request: it sets a clear latch and records its cause (R10). -/
def tripRequest (cause : LatchCause) (n : Node) : Node :=
  match n.isc.latch with
  | some _ => n
  | none => loopUpdate { n with isc.latch := some cause }

/-! ## NUMBER_CONFLICT (file 05 R97) -/

/-- Queued frames other than a STATUS are removed; one on the wire at the end of its attempt (file 10 R180). -/
def conflictQueue (q : List QFrame) : List QFrame :=
  (q.filter fun f => f.onWire || decide (f.body = .status)).map fun f =>
    if f.body = .status then f else { f with doomed := true }

/-- Every own REQUESTED claim is withdrawn and DENIED (file 04 R81). -/
def bcuConflict (n : Node) : Node :=
  (n.bcu.own.filter fun o => decide (o.state = .requested)).foldl
    (fun m o => m.onlyIf (m.bcu.own.contains o) fun k => reportDenied o.bank o.kind (bcuWithdraw o.bank o.kind k)) n

/-- NUMBER_CONFLICT begins; later conflict frames change nothing (R96, R97; order of the blocks log 13). -/
def conflictBegin (n : Node) : Node :=
  if n.stc.conflict then n
  else
    let m := ccuStop (bcuConflict (authCancel { n with stc.conflict := true }))
    { m with liu.queue := conflictQueue m.liu.queue }

end Sys2Proof.Machine
end

