-- ==== Sys2Proof/Machine/PeerOps.lean ====
section
/-! DEFINITION. The Peer Table (file 05): merging of STATUS, CLAIM, RELEASE and HEAT, ageing and forgetting, and the
hand-offs to BCU, HSU and CCU. -/

namespace Sys2Proof.Machine

/-! ## Entries -/

/-- An entry takes its place by node number. -/
def insertPeer (p : Peer) : List Peer → List Peer
  | [] => [p]
  | q :: qs => if p.node ≤ q.node then p :: q :: qs else q :: insertPeer p qs

/-- The table without the entry of a node: that entry is EMPTY. -/
def Ptb.without (t : Ptb) (node : Nat) : Ptb := ⟨t.peers.filter fun e => decide (e.node ≠ node)⟩

/-- The table with an entry put in place of the one of its node. -/
def Ptb.put (t : Ptb) (p : Peer) : Ptb := ⟨insertPeer p (t.without p.node).peers⟩

/-! ## Merging (R89 to R93) -/

/-- The instant an entry holds for a claim of this bank and kind (R90). -/
def Peer.heldInstant (p : Peer) (b : Bank) (k : ClaimKind) : Option Int :=
  (p.claims.find? fun c => decide (c.bank = b) && decide (c.kind = k)).map (·.instant)

/-- The raise instant after a report: absent with a reservation of 0 (R89, R93). -/
def raiseFrom (r reservation age : Nat) (held : Option Int) : Option Int :=
  if reservation = 0 then none else some (instantOf r age held)

/-- The entry after a STATUS received at `r` (R89). Claims on banks above the own bank count are left out. A bank and kind
that the STATUS lists twice stay as two claims (the model's choice, log 41). -/
def mergedStatus (r count node : Nat) (old : Option Peer) (f : StatusFields) : Peer :=
  { node := node, stale := false, last := r, phase := f.phase, waiting := f.waiting,
    claims := (f.claims.filter fun c => decide (c.bank.num ≤ count)).map fun c =>
      ⟨c.bank, c.kind, instantOf r c.age (old.bind (·.heldInstant c.bank c.kind))⟩,
    reservation := f.reservation, raise := raiseFrom r f.reservation f.raiseAge (old.bind (·.raise)),
    comp := f.comp, refillBank := f.refillBank, latch := f.latch }

/-- The entry after a CLAIM received at `r`: a claim of the same bank and kind is removed first; a fifth claim is not
taken (R91). -/
def Peer.withClaim (p : Peer) (r : Nat) (b : Bank) (k : ClaimKind) : Peer :=
  let rest := p.claims.filter fun c => !(decide (c.bank = b) && decide (c.kind = k))
  if 4 ≤ rest.length then p else { p with claims := rest ++ [⟨b, k, (r : Int)⟩] }

/-- The entry after a RELEASE (R92). -/
def Peer.withRelease (p : Peer) (b : Bank) (k : ClaimKind) : Peer :=
  { p with claims := p.claims.filter fun c => !(decide (c.bank = b) && decide (c.kind = k)) }

/-- The entry after a HEAT received at `r` (R93). -/
def Peer.withHeat (p : Peer) (r : Nat) (f : HeatFields) : Peer :=
  { p with reservation := f.reservation, waiting := f.waiting,
           raise := raiseFrom r f.reservation f.raiseAge p.raise }

/-- The banks an entry's claims list names, ascending. -/
def banksOf (p : Option Peer) : List Bank :=
  match p with
  | none => []
  | some p => Four.all.filter fun b => p.claims.any fun c => decide (c.bank = b)

/-- The banks that appear in an old or a new claims list, ascending (file 04 R78). -/
def banksTouched (old new : Option Peer) : List Bank :=
  Four.all.filter fun b => (banksOf old).contains b || (banksOf new).contains b

/-! ## Hand-offs (R94, R95) -/

def reservationOf (p : Option Peer) : Nat := (p.map (·.reservation)).getD 0

def raiseOf (p : Option Peer) : Option Int := p.bind (·.raise)

def countsOf (p : Option Peer) : Bool := (p.map Peer.counts).getD false

/-- A decrease: the sum fell, or a waiting peer stopped counting. -/
def isDecrease (old new : Option Peer) : Bool :=
  decide (reservationOf new < reservationOf old) || (countsOf old && !countsOf new)

/-- A rise: the sum rose, a raise instant changed, or a waiting peer began to count. -/
def isRise (old new : Option Peer) : Bool :=
  decide (reservationOf old < reservationOf new) || decide (raiseOf old ≠ raiseOf new) || (!countsOf old && countsOf new)

/-- The HSU takes the change of one entry, a decrease before a rise (log 33). -/
def handHeat (old new : Option Peer) (n : Node) : Node :=
  (n.onlyIf (isDecrease old new) hsuDecrease).onlyIf (isRise old new) hsuOverCommit

/-- The CCU takes a peer latch indication that has become set (file 07 R132). -/
def handLatch (before : Bool) (n : Node) : Node := n.onlyIf (!before && n.ptb.peerLatch) ccuStop

/-! ## Operations -/

/-- A STATUS is merged and handed on. -/
def ptbStatus (node : Nat) (f : StatusFields) (n : Node) : Node :=
  let old := n.ptb.find node
  let new := mergedStatus n.now n.stc.cfg.bankCount node old f
  let m := viewChanged (banksTouched old (some new)) { n with ptb := n.ptb.put new }
  handLatch n.ptb.peerLatch (handHeat old (some new) m)

/-- A CLAIM is merged (R91, file 04 R76). -/
def ptbClaim (node : Nat) (b : Bank) (k : ClaimKind) (n : Node) : Node :=
  match n.ptb.find node with
  | none => n
  | some p =>
    if n.stc.cfg.bankCount < b.num ∨ p.withClaim n.now b k = p then n
    else claimEntered ⟨(n.now : Int), node, b, k⟩ { n with ptb := n.ptb.put (p.withClaim n.now b k) }

/-- A RELEASE is merged (R92, file 04 R77). -/
def ptbRelease (node : Nat) (b : Bank) (k : ClaimKind) (n : Node) : Node :=
  match n.ptb.find node with
  | none => n
  | some p => { n with ptb := n.ptb.put (p.withRelease b k) }

/-- A HEAT is merged (R93). -/
def ptbHeat (node : Nat) (f : HeatFields) (n : Node) : Node :=
  match n.ptb.find node with
  | none => n
  | some p => handHeat (some p) (some (p.withHeat n.now f)) { n with ptb := n.ptb.put (p.withHeat n.now f) }

/-- A FRESH entry becomes STALE (R87). -/
def ptbStale (node : Nat) (n : Node) : Node :=
  match n.ptb.find node with
  | none => n
  | some p =>
    if p.stale ∨ n.now - p.last < 350 then n
    else handHeat (some p) (some { p with stale := true }) { n with ptb := n.ptb.put { p with stale := true } }

/-- An entry is forgotten (R88). -/
def ptbForget (node : Nat) (n : Node) : Node :=
  match n.ptb.find node with
  | none => n
  | some p => if n.now - p.last < 2000 then n else handHeat (some p) none { n with ptb := n.ptb.without node }

end Sys2Proof.Machine
end

