-- ==== Sys2Proof/Machine/LineOps.lean ====
section
/-! DEFINITION. The Line Interface Unit (file 10): payloads of own frames (file 12 R189), attempts and their ends,
reception and routing of frames. -/

namespace Sys2Proof.Machine

/-! ## Payloads formed at the attempt (R177, R179, file 06 R116) -/

/-- The own raise age: 0 while R_own is 0 (file 06 R108). -/
def Node.raiseAge (n : Node) : Nat :=
  if n.hsu.rOwn = 0 then 0
  else
    match n.hsu.raise with
    | some t => reportedAge n.now t
    | none => 0

/-- The own SETTLING and HELD claims, oldest first (file 04 R82). -/
def Node.listedClaims (n : Node) : List ViewClaim := sortClaims (n.bcu.own.filterMap (·.view n.stc.node))

/-- A claim entry: claim byte and age in 10 ms units, saturating. -/
def claimEntry (now : Nat) (c : ViewClaim) : List Byte :=
  claimByte c.bank c.kind :: bigEndian 2 (min (((now : Int) - c.instant).toNat / 10) 65535)

/-- The four claim entries, zeros beyond the list. -/
def claimEntries (now : Nat) (cs : List ViewClaim) : List Byte :=
  let bytes := (cs.take 4).flatMap (claimEntry now)
  bytes ++ List.replicate (12 - bytes.length) 0

/-- The price row mask (file 08 R150). -/
def Node.rowMask (n : Node) : Nat :=
  n.mpu.prices.one.isSome.toNat + 2 * n.mpu.prices.two.isSome.toNat + 4 * n.mpu.prices.three.isSome.toNat +
    8 * n.mpu.prices.four.isSome.toNat

/-- Byte 4 of a STATUS: the waiting flag and the fault summary. -/
def Node.faultByte (n : Node) : Nat :=
  n.hsu.waiting.toNat + 2 * (decide (n.stc.phase = .startFault)).toNat + 4 * n.stc.conflict.toNat +
    8 * n.mpu.creepFlag.toNat + 16 * (decide (n.ccu.state = .lockout)).toNat + 32 * n.liu.silentEnded.toNat

/-- The refill bank a STATUS carries: present while the state is LOADED_REFILL (file 07 R135). -/
def Node.refillBankCode (n : Node) : Nat :=
  match n.ccu.state, n.ccu.claim with
  | .loadedRefill, some c => c.bank.num
  | _, _ => 0

/-- STATUS (R189). Bits that its table does not name are sent as 0 (the model's choice, log 61). -/
def Node.statusPayload (n : Node) : List Byte :=
  bigEndian 1 (phaseCode n.fcu.phase) ++ bigEndian 1 (pauseShownCode n.fcu.pauses) ++ bigEndian 1 n.stc.hoseCode ++
  bigEndian 1 n.faultByte ++ bigEndian 3 n.hsu.rOwn ++ bigEndian 2 n.raiseAge ++
  bigEndian 1 (16 * compCode n.ccu.state + n.refillBankCode) ++
  bigEndian 1 (loopCode n.isc.loop + 4 * n.isc.latch.isSome.toNat + 16 * latchCode n.isc.latch) ++
  bigEndian 2 n.liu.total ++ bigEndian 1 n.rowMask ++ bigEndian 1 n.rst.freeSlots ++ bigEndian 1 n.rst.uncollected ++
  bigEndian 1 (min n.listedClaims.length 4) ++ claimEntries n.now n.listedClaims

def Node.heatPayload (n : Node) : List Byte :=
  bigEndian 3 n.hsu.rOwn ++ bigEndian 2 n.raiseAge ++ bigEndian 1 n.hsu.waiting.toNat

/-- Kind, destination and payload of a queued frame (R172, R189). The terminal of a PROGRESS is fixed at the offer, its
contents at the attempt (the model's choice, log 45). -/
def Node.formBody (n : Node) : FrameBody → BitVec 6 × Nat × List Byte
  | .status => (kindStatus, 0, n.statusPayload)
  | .heat => (kindHeat, 0, n.heatPayload)
  | .progress t => (kindProgress, t, n.progressPayload)
  | .progressDone t p => (kindProgress, t, p)
  | .claim b k => (kindClaim, 0, [claimByte b k])
  | .release b k => (kindRelease, 0, [claimByte b k])
  | .answer t c r x =>
    (kindAnswer, t, [BitVec.ofNat 8 c.toNat, BitVec.ofNat 8 (resultCode r)] ++ bigEndian 4 x)
  | .recordA t p => (kindRecordA, t, p)
  | .recordB t p => (kindRecordB, t, p)
  | .totals t p => (kindTotals, t, p)

/-- The line frame of a queued frame, formed now. -/
def Node.form (n : Node) (b : FrameBody) : LineFrame :=
  { cls := BitVec.ofNat 2 b.cls, source := BitVec.ofNat 4 n.stc.node,
    destination := BitVec.ofNat 4 (n.formBody b).2.1, kind := (n.formBody b).1, payload := (n.formBody b).2.2 }

/-! ## Attempts (R167, R174) -/

/-- The node may begin a frame: it sends in RUN and in START_FAULT, not in LINE_SILENT, one frame at a time. -/
def Node.maySend (n : Node) : Bool :=
  (decide (n.stc.phase = .run) || decide (n.stc.phase = .startFault)) && n.liu.silentSince.isNone && n.liu.wire.isNone

/-- An attempt begins with the first frame of the queue. -/
def liuAttempt (n : Node) : Node :=
  match n.liu.queue with
  | [] => n
  | f :: fs =>
    if n.maySend then
      { n with liu.wire := some (n.form f.body), liu.queue := { f with onWire := true } :: fs }
    else n

/-- The queue without the frame on the wire. -/
def withoutWire (q : List QFrame) : List QFrame := q.filter fun f => !f.onWire

/-- The frame of the queue that is on the wire. -/
def wireFrame (q : List QFrame) : Option QFrame := q.find? (·.onWire)

/-- The attempt ends with the frame still queued (R174, R175, R180): a frame to be removed leaves; a STATUS or HEAT with
a newer one behind it gives its place to that one; another stays with its fault count. -/
def attemptBack (f : QFrame) (faults : Nat) (q : List QFrame) : List QFrame :=
  if f.doomed then withoutWire q
  else if (f.body = .status ∨ f.body = .heat) ∧ (withoutWire q).any (QFrame.waits f.body) then
    (q.filter fun g => !QFrame.waits f.body g).map fun g => if g.onWire then .fresh g.body else g
  else q.map fun g => if g.onWire then { g with onWire := false, faults := faults } else g

/-- A removed CLAIM that left the wire after all: a RELEASE in its place, except under NUMBER_CONFLICT (R175). -/
def releaseInPlace (conflict : Bool) (f : QFrame) (q : List QFrame) : List QFrame :=
  match f.body with
  | .claim b k =>
    if f.doomed ∧ conflict = false then
      q.map fun g => if g.onWire ∧ g.body = f.body then .fresh (.release b k) else g
    else withoutWire q
  | _ => withoutWire q

/-- The CLAIM of a REQUESTED claim has left the wire: SETTLING, and the walk of its bank (file 04 R72). -/
def claimAnnounced (b : Bank) (k : ClaimKind) (n : Node) : Node :=
  walkEntry ⟨(n.now : Int), n.stc.node, b, k⟩ { n with bcu.own := n.bcu.own.map fun o =>
    if o.bank = b ∧ o.kind = k ∧ o.state = .requested then { o with state := .settling n.now } else o }

/-- A STATUS carries the silent-ended mark (bit 5 of byte 4). -/
def carriesSilent (f : LineFrame) : Bool := (byteAt f.payload 3).getLsbD 5

/-- An own STATUS has left the wire: the quiet timer returns to 0, and the quiet hold ends (R170, R178, file 07 R133). -/
def statusSent (f : LineFrame) (n : Node) : Node :=
  ccuUnhold { n with
    liu.quietSince := if n.liu.quietSince.isSome then some n.now else none
    liu.silentEnded := n.liu.silentEnded && !carriesSilent f }

/-- What follows from the frame that has left the wire. -/
def sentEffect (f : QFrame) (w : LineFrame) (n : Node) : Node :=
  match f.body with
  | .status => statusSent w n
  | .claim b k => if f.doomed then n else claimAnnounced b k n
  | _ => n

/-- The frame on the wire leaves it (R167, R169). -/
def liuSent (n : Node) : Node :=
  match wireFrame n.liu.queue, n.liu.wire with
  | some f, some w =>
    sentEffect f w { n with
      liu.wire := none
      liu.consecutive := 0
      liu.queue := releaseInPlace n.stc.conflict f n.liu.queue }
  | _, _ => n

/-- The arbitration field in the frame as sent: the six bits behind the start symbol (R168, file 12 R188). -/
def inArbitration (position : Nat) : Bool := decide (8 ≤ position) && decide (position < 14)

/-- The bit at a position of a frame on the wire; absent past its end. -/
def wireBit (w : LineFrame) (position : Nat) : Option Bool := (wireBits w)[position]?

/-- A mismatch at this position is a yield: recessive sent in the arbitration field (R168). -/
def isYield (w : LineFrame) (position : Nat) : Bool := inArbitration position && decide (wireBit w position = some true)

/-- A mismatch at this position is a line fault (R168). -/
def isLineFault (w : LineFrame) (position : Nat) : Bool := (wireBit w position).isSome && !isYield w position

/-- A yield (R168). -/
def liuYield (position : Nat) (n : Node) : Node :=
  match wireFrame n.liu.queue, n.liu.wire with
  | some f, some w =>
    if isYield w position then { n with liu.wire := none, liu.queue := attemptBack f f.faults n.liu.queue } else n
  | _, _ => n

/-- The report of a dropped frame (R169, file 04 R73, file 06 R108). The claim of a queued CLAIM is REQUESTED. -/
def dropReport (b : FrameBody) (n : Node) : Node :=
  match b with
  | .claim bank k =>
    if (n.bcu.find bank k).any (fun c => decide (c.state = .requested)) then
      reportDenied bank k { n with bcu := n.bcu.without bank k }
    else n
  | .heat => { n with hsu.resend := true }
  | _ => n

/-- The counts of R169 and the entry to LINE_SILENT of R170. -/
def faultCounts (n : Node) : Node :=
  if 16 ≤ n.liu.consecutive + 1 then
    { n with liu.total := satSucc n.liu.total, liu.consecutive := 0, liu.silentSince := some n.now }
  else { n with liu.total := satSucc n.liu.total, liu.consecutive := n.liu.consecutive + 1 }

/-- A frame is abandoned at its third fault: it is not to be removed anyway, and no newer one takes its place. -/
def abandoned (f : QFrame) (q : List QFrame) : Bool :=
  decide (3 ≤ f.faults + 1) && !f.doomed &&
    !((decide (f.body = .status) || decide (f.body = .heat)) && (withoutWire q).any (QFrame.waits f.body))

/-- A line fault (R169, R170). -/
def liuFault (position : Nat) (n : Node) : Node :=
  match wireFrame n.liu.queue, n.liu.wire with
  | some f, some w =>
    if isLineFault w position then
      let m := faultCounts { n with liu.wire := none }
      if abandoned f n.liu.queue then dropReport f.body { m with liu.queue := withoutWire n.liu.queue }
      else { m with liu.queue := attemptBack f (f.faults + 1) n.liu.queue }
    else n
  | _, _ => n

/-! ## Reception (R171, R172) -/

/-- What a received frame is, by its source and kind (R172): the row its reception belongs to. -/
inductive Arrival where
  /-- Own number as source: the conflict check. -/
  | conflict
  /-- A peer's STATUS, CLAIM, RELEASE or HEAT. -/
  | peer (kind : BitVec 6)
  /-- A terminal's command to this node or to 0. -/
  | command (kind : BitVec 6)
  | ignored
deriving DecidableEq, Repr

/-- Routing of a frame that has passed the reception checks. -/
def arrivalOf (node : Nat) (f : LineFrame) : Arrival :=
  if f.source.toNat = node then .conflict
  else if f.source.toNat ≤ 8 then (if isPeerKind f.kind then .peer f.kind else .ignored)
  else if isCommandKind f.kind ∧ (f.destination.toNat = node ∨ f.destination.toNat = 0) then .command f.kind
  else .ignored

/-- A reception command: frames that the checks discard or the routing ignores change nothing, bits of another row's
frame are refused by name, and otherwise `act` is the effect of the frame (log 7). -/
def State.receive (s : State) (want : Arrival) (bits : Bits) (act : LineFrame → Node → Node) :
    Host.Outcome State Fault Refusal :=
  match Machine.receive bits with
  | none => .next s
  | some f =>
    if arrivalOf s.node.stc.node f = .ignored then .next s
    else if arrivalOf s.node.stc.node f = want then s.act (act f)
    else .refused .otherFrame

/-- A frame of a peer: taken in LISTEN and RUN (R172, file 05 R86). -/
def onPeer (act : LineFrame → Node → Node) (f : LineFrame) (n : Node) : Node := n.onlyIf n.hears (act f)

/-- A payload length that differs from Formats, or address 0 where it is not allowed (R173). -/
def badField (zeroAllowed : Bool) (f : LineFrame) : Bool :=
  decide (kindLength f.kind ≠ some f.payload.length) || (decide (f.destination.toNat = 0) && !zeroAllowed)

/-- The number a command of the RST echoes (log 10). -/
def LineFrame.terminal (f : LineFrame) : Nat := f.source.toNat

/-- A terminal command: answered BAD_FIELD by the LIU, NOT_READY in START_FAULT, handed to its owner in RUN, without
effect before RUN (R173, file 11 R186, R187). -/
def onCommand (zeroAllowed : Bool) (act : LineFrame → Node → Node) (f : LineFrame) (n : Node) : Node :=
  match n.stc.phase with
  | .run => if badField zeroAllowed f then answer f.terminal f.kind .badField 0 n else act f n
  | .startFault =>
    if badField zeroAllowed f then answer f.terminal f.kind .badField 0 n
    else answer f.terminal f.kind .notReady 0 n
  | _ => n

end Sys2Proof.Machine
end

