-- ==== Sys2Proof/Machine/StartUp.lean ====
section
/-! DEFINITION. Meanings of the start-up commands (file 11): START_UP_CAUSE, START_UP, CONFIG_READ_DONE,
SCAN_WRITE_COMPLETE, STORE_SCAN_END, WARM_UP_END, LISTEN_END. -/

namespace Sys2Proof.Machine

/-- Every valve is commanded closed and every block but STC and ISC takes its start-up state; the nonvolatile store is
kept (R181, and the start-up rule of each file). -/
def blocksStartUp (n : Node) : Node :=
  { n with
    vlr := .startUp
    fcu := { Fcu.startUp with vb := n.fcu.vb.map (·.command false n.now), vvent := n.fcu.vvent.command false n.now }
    bcu := .startUp
    ptb := .startUp
    hsu := .startUp
    ccu := { Ccu.startUp n.now with
      vr := n.ccu.vr.map (·.command false n.now), vdir := n.ccu.vdir.command false n.now }
    mpu := .startUp
    rst := .startUp n.rst
    liu := .startUp }

/-- The hold (R181). -/
def holdPart (cause : StartCause) (n : Node) : Node :=
  blocksStartUp { n with
    stc := { phase := .held, causes := if n.stc.causes.contains cause then n.stc.causes else n.stc.causes ++ [cause],
             node := n.stc.node, cfg := .unset, hoseCode := 0, conflict := false, phaseSince := n.now,
             startedAt := n.stc.startedAt }
    isc := .startUp .inactive }

/-- START_UP_CAUSE (R181). -/
def execStartUpCause (cause : StartCause) (s : State) : Host.Outcome State Fault Refusal := s.act (holdPart cause)

/-- The start-up instant (R181, R183, file 01 R15). -/
def beginStartUp (straps : BitVec 3) (levels : Levels) (n : Node) : Node :=
  (blocksStartUp { n with
    stc := { phase := .configRead, causes := [], node := straps.toNat + 1, cfg := .unset, hoseCode := 0,
             conflict := false, phaseSince := n.now, startedAt := n.now }
    isc := .startUp levels }).onlyIf levels.breakaway (tripRequest .breakaway)

/-- START_UP: it ends a hold (R181; log 30). -/
def execStartUp (straps : BitVec 3) (levels : Levels) (s : State) : Host.Outcome State Fault Refusal :=
  s.act fun n => n.onlyIf (decide (n.stc.phase = .held)) (beginStartUp straps levels)

/-- A start phase begins. -/
def Node.enterPhase (n : Node) (p : StartPhase) : Node := { n with stc.phase := p, stc.phaseSince := n.now }

/-- The STATUS grid begins with a first STATUS (file 10 R177). -/
def beginStatusGrid (n : Node) : Node := offer .status { n with liu.statusNext := some (n.now + 100) }

/-- CHECK passes (R185): the values are handed out and the store scan begins; or it fails and START_FAULT is entered
(R184, R186). -/
def checkConfig (block : List Byte) (n : Node) : Node :=
  let m := { n with stc.hoseCode := hoseCodeRead block }
  match readConfig block with
  | some cfg => ({ m with stc.cfg := cfg, rst := m.rst.scanBegin } : Node).enterPhase .storeScan
  | none => beginStatusGrid (m.enterPhase .startFault)

/-- CONFIG_READ_DONE (R184). -/
def execConfigReadDone (block : List Byte) (s : State) : Host.Outcome State Fault Refusal :=
  s.act fun n => n.onlyIf (decide (n.stc.phase = .configRead)) (checkConfig block)

/-- SCAN_WRITE_COMPLETE (file 09 R164, R165). -/
def execScanWriteComplete (s : State) : Host.Outcome State Fault Refusal :=
  s.act fun n => n.onlyIf (decide (n.stc.phase = .storeScan)) fun n => { n with rst := n.rst.scanWriteDone }

/-- A scan cycle starts with the first channel (file 01 R2); its answers are judged from LISTEN on (R7). -/
def startCycle (n : Node) : Node :=
  { n with isc.cycle := some ⟨scanOrder n.stc.cfg.bankCount, n.hears, n.now⟩ }

/-- WARM_UP begins, with the grid of the scan cycles (R182, file 01 R2, R7). -/
def beginWarmUp (n : Node) : Node :=
  startCycle { n.enterPhase .warmUp with isc.gridNext := some (n.now + 20) }

/-- STORE_SCAN_END (R182). -/
def execStoreScanEnd (s : State) : Host.Outcome State Fault Refusal :=
  s.act fun n =>
    n.onlyIf (decide (n.stc.phase = .storeScan) && decide (n.rst.scan = some .complete)) beginWarmUp

/-- WARM_UP_END (R182, file 01 R7). -/
def execWarmUpEnd (s : State) : Host.Outcome State Fault Refusal :=
  s.act fun n => n.onlyIf (decide (n.stc.phase = .warmUp) && decide (500 ≤ n.elapsed n.stc.phaseSince))
    (·.enterPhase .listen)

/-- The decoder as it starts: DISCARDING, its wait for a quiet line running (file 02 R16). -/
def Decoder.started (now : Nat) : Decoder := ⟨.discarding, none, some now⟩

/-- RUN begins (R187). -/
def beginRun (n : Node) : Node :=
  beginStatusGrid { n.enterPhase .run with
    liu.quietSince := some n.now
    ccu.surveyNext := some (n.now + 1000)
    vlr.decoder := if n.level .coupled then some (Decoder.started n.now) else none }

/-- LISTEN_END (R187). -/
def execListenEnd (s : State) : Host.Outcome State Fault Refusal :=
  s.act fun n => n.onlyIf (decide (n.stc.phase = .listen) && decide (1000 ≤ n.elapsed n.stc.phaseSince)) beginRun

end Sys2Proof.Machine
end

