-- ==== Sys2Proof/Machine/Scanner.lean ====
section
/-! DEFINITION. Meanings of the input scanner commands (file 01): SCAN_GRID_INSTANT, CONVERTER_ANSWER, EXCHANGE_TIMEOUT,
CHANNEL_AGE_EXPIRY, DI_LEVEL_TAKEN, RECOVERY_TIMER_EXPIRY, ESD_CLEAR. -/

namespace Sys2Proof.Machine

/-! ## Scan cycles (R2, R3) -/

/-- A grid instant (R2). -/
def gridInstant (n : Node) : Node :=
  let m := { n with isc.gridNext := n.isc.gridNext.map (· + 20) }
  if n.isc.cycle.isSome then { m with isc.pendingCycle := true } else startCycle m

/-- SCAN_GRID_INSTANT (R2). -/
def execScanGridInstant (s : State) : Host.Outcome State Fault Refusal :=
  s.act fun n => n.onlyIf (n.gridDue n.isc.gridNext) gridInstant

/-- The exchange in flight has ended: the next one, or the end of the cycle and a pending cycle (R2). -/
def exchangeEnded (n : Node) : Node :=
  match n.isc.cycle with
  | none => n
  | some c =>
    match c.left.tail with
    | [] =>
      if n.isc.pendingCycle then startCycle { n with isc.pendingCycle := false }
      else { n with isc.cycle := none }
    | rest => { n with isc.cycle := some { c with left := rest, since := n.now } }

/-! ## Judgment (R4) -/

/-- An accepted P_H sample: overpressure mark and trip request (R11), projections (file 08 R145), hose rupture with the
end test (file 03 R54, R59), readings that waited, vents. -/
def sampleP_H (v : Nat) (n : Node) : Node :=
  let high := decide (overThreshold n.stc.cfg.hose < v)
  let m := { n with isc.overMark := high }
  let m := mpuProject (m.onlyIf high (tripRequest .overpressure))
  let m := (fcuWindow v m).onlyIf (m.ruptured v) fun k => endTest (tripRequest .hoseRupture k)
  fcuVentSample v (fcuAwaited m)

/-- An accepted bank sample at or above the nominal pressure ends a refill of that bank (file 07 R125). -/
def sampleP_B (b : Bank) (v : Nat) (n : Node) : Node :=
  if n.ccu.state = .loadedRefill ∧ n.claimStage b = some .held ∧ n.stc.cfg.nominal.get b ≤ v then ccuLeaveRefill n else n

/-- What follows from an accepted sample. -/
def sampleEffect (c : Channel) (v : Nat) (n : Node) : Node :=
  match c with
  | .pH => sampleP_H v n
  | .tD => mpuProject n
  | .pB b => sampleP_B b v n
  | .tC => n.onlyIf (decide (4332 ≤ v)) ccuLockout
  | .tK => hsuCapacity n
  | .tS => n
  | .pC => n
  | .tA => n

/-- What follows from an out-of-range answer, `old` being the record before it (R4, file 04 R66, file 07 R130). -/
def failedEffect (c : Channel) (old : ChannelRec) (n : Node) : Node :=
  match c with
  | .pB b => n.onlyIf old.sound (bankUnavailable b)
  | .pC => n.onlyIf (decide (old.health = .ok)) ccuLockout
  | .tC => n.onlyIf (decide (old.health = .ok)) ccuLockout
  | .tK => hsuCapacity n
  | .pH => n
  | .tS => n
  | .tD => n
  | .tA => n

/-- A taken answer is judged on its loop current, in µA (R4). -/
def judgeAnswer (c : Channel) (i : Nat) (n : Node) : Node :=
  let old := n.chan c
  if currentInRange i then
    sampleEffect c (codeOfCurrent c i)
      { n with isc.channels := n.isc.channels.set c ⟨some (codeOfCurrent c i), some n.now, .ok⟩ }
  else failedEffect c old { n with isc.channels := n.isc.channels.set c { old with health := .failed } }

/-- An answer for the exchange in flight, ready within 2 ms of its request: taken if the echo names its input and the
cycle is judged (R3, R7). A later one is not read. -/
def converterAnswer (echo i : Nat) (n : Node) : Node :=
  match n.isc.cycle with
  | none => n
  | some c =>
    match c.left with
    | [] => n
    | ch :: _ =>
      if n.elapsed c.since ≤ 2 then
        exchangeEnded (n.onlyIf (c.judged && decide (echo = converterInput ch)) (judgeAnswer ch i))
      else n

/-- CONVERTER_ANSWER (R3, R4). -/
def execConverterAnswer (echo : Nat) (microamps : BitVec 16) (s : State) : Host.Outcome State Fault Refusal :=
  s.act (converterAnswer echo microamps.toNat)

/-- The exchange in flight has lasted its 2 ms (R3). -/
def Node.exchangeLate (n : Node) : Bool :=
  match n.isc.cycle with
  | none => false
  | some c => decide (2 ≤ n.elapsed c.since)

/-- EXCHANGE_TIMEOUT (R3). -/
def execExchangeTimeout (s : State) : Host.Outcome State Fault Refusal :=
  s.act fun n => n.onlyIf n.exchangeLate exchangeEnded

/-- The age of P_C or T_C passes 2,000 ms (file 07 R130); the other users test ages themselves (log 29). -/
def channelAged (c : Channel) (n : Node) : Node :=
  match c with
  | .pC => n.onlyIf (n.olderThan .pC 2000) ccuLockout
  | .tC => n.onlyIf (n.olderThan .tC 2000) ccuLockout
  | _ => n

/-- CHANNEL_AGE_EXPIRY (file 07 R130). -/
def execChannelAgeExpiry (channel : Channel) (s : State) : Host.Outcome State Fault Refusal := s.act (channelAged channel)

/-! ## Discrete inputs (R8, R9) -/

/-- Coupling (file 02 R16, R27). -/
def vlrCouple (n : Node) : Node := { n with vlr := { Vlr.startUp with decoder := some (.started n.now) } }

/-- Decoupling (file 02 R16, R27). -/
def vlrDecouple (n : Node) : Node := { n with vlr.decoder := none }

/-- The edge events, delivered in RUN (R9). -/
def edgeEvent (input : Input) (level : Bool) (n : Node) : Node :=
  match input, level with
  | .start, true => n.onlyIf n.startTaken startFill
  | .stop, true => fcuStop .stopLocal n
  | .coupled, true => vlrCouple n
  | .coupled, false => endTest (vlrDecouple n)
  | .holstered, true => n.onlyIf (decide (n.fcu.phase = .done)) fcuIdle
  | .breakaway, true => endTest n
  | _, _ => n

/-- The effects of a level, in every phase. -/
def levelEffect (input : Input) (level : Bool) (n : Node) : Node :=
  match input with
  | .breakaway => n.onlyIf level (tripRequest .breakaway)
  | .loop => loopUpdate n
  | .motorRun => ccuMotorLevel level n
  | _ => n

/-- The filtered level becomes the new level. -/
def setLevel (input : Input) (level : Bool) (n : Node) : Node :=
  { n with isc.inputs := n.isc.inputs.set input ⟨level, level, 0⟩ }

/-- A new filtered level, its effects and its edge event. Not in the hold, where no input is sampled (file 11 R181), and
not for a level that is the filtered one already. -/
def levelTaken (input : Input) (level : Bool) (n : Node) : Node :=
  if n.stc.phase = .held ∨ n.level input = level then n
  else
    let m := levelEffect input level (setLevel input level n)
    m.onlyIf m.inRun (edgeEvent input level)

/-- A START press that would start the fill with no slot to take (log 24). -/
def Node.startWithoutSlot (n : Node) (input : Input) (level : Bool) : Bool :=
  n.inRun && decide (input = .start) && level && !n.level .start && n.startTaken && n.rst.chooseSlot.isNone

/-- DI_LEVEL_TAKEN (R8, R9). -/
def execDiLevelTaken (input : Input) (level : Bool) (s : State) : Host.Outcome State Fault Refusal :=
  if s.node.startWithoutSlot input level then .fault .noSlot else s.act (levelTaken input level)

/-! ## The loop (R12, R14) -/

/-- The recovery timer reaches 5,000 ms (R12). -/
def recovered (n : Node) : Node :=
  match n.isc.loop with
  | .recovering t => if 5000 ≤ n.elapsed t then { n with isc.loop := .normal } else n
  | _ => n

/-- RECOVERY_TIMER_EXPIRY (R12). -/
def execRecoveryTimerExpiry (s : State) : Host.Outcome State Fault Refusal := s.act recovered

/-- ESD-CLEAR in RUN (R14). -/
def esdClear (f : LineFrame) (n : Node) : Node :=
  match n.isc.latch with
  | none => answer f.terminal kindEsdClear .ok 0 n
  | some _ =>
    if n.level .breakaway ∨ n.isc.overMark = true then answer f.terminal kindEsdClear .busy 0 n
    else answer f.terminal kindEsdClear .ok 0 (loopUpdate { n with isc.latch := none })

/-- ESD_CLEAR (R14, file 10 R173). -/
def execEsdClear (frame : Bits) (s : State) : Host.Outcome State Fault Refusal :=
  s.receive (.command kindEsdClear) frame (onCommand false esdClear)

end Sys2Proof.Machine
end

