-- ==== Sys2Proof/Machine/Vehicle.lean ====
section
/-! DEFINITION. Meanings of the vehicle link commands (file 02): VEHICLE_FRAME, SIDE_SILENT_EXPIRY, IR_RISING_EDGE,
QUIET_LINE_SEEN. -/

namespace Sys2Proof.Machine

/-! ## Frames (R20 to R23) -/

def Vlr.side (v : Vlr) : Side → SideRec
  | .a => v.sideA
  | .b => v.sideB

def Vlr.setSide (v : Vlr) (s : Side) (r : SideRec) : Vlr :=
  match s with
  | .a => { v with sideA := r }
  | .b => { v with sideB := r }

/-- The captured tank volume: the sum over the declared sides (R23). -/
def Vlr.volumeSum (v : Vlr) : Nat := (v.declaredSides.map fun r => (r.data.map (·.volume)).getD 0).sum

/-- After a new frame in ABSENT with every declared side fresh the link is VALID and the volume captured (R23). -/
def Vlr.tryValid (v : Vlr) : Vlr :=
  if v.link = .absent ∧ v.allFresh = true then { v with link := .valid, volume := some v.volumeSum } else v

/-- A frame that has passed R20: the declared group count (R21), the side record (R22) and the link (R23). -/
def Vlr.offer (v : Vlr) (f : VehicleFields) : Vlr :=
  let v := { v with declared := some (v.declared.getD f.groups) }
  if v.declared ≠ some f.groups ∨ (v.side f.side).sequence = some f.sequence then v
  else (v.setSide f.side ⟨some f.data, some f.sequence, some 0⟩).tryValid

/-- 112 bits are taken at their frame end (R19, R20, R22). -/
def takeVehicle (bytes : List Byte) (n : Node) : Node :=
  match readVehicle bytes with
  | none => n
  | some f => fcuPeak { n with vlr := n.vlr.offer f }

/-- The decoder after a frame end: IDLE, no burst, no wait. -/
def Decoder.atFrameEnd : Decoder := ⟨.idle, none, none⟩

/-- A whole vehicle frame as one event: a decoder that discards takes nothing (R16, R19; log 8). -/
def vehicleFrame (bytes : List Byte) (n : Node) : Node :=
  match n.vlr.decoder with
  | none => n
  | some d =>
    let m := { n with vlr.decoder := some .atFrameEnd }
    if d.mode = .discarding then m else takeVehicle bytes m

/-- VEHICLE_FRAME (R19 to R23). -/
def execVehicleFrame (bytes : List Byte) (s : State) : Host.Outcome State Fault Refusal := s.act (vehicleFrame bytes)

/-! ## Silence (R24) -/

/-- A side is declared. -/
def Vlr.declares (v : Vlr) : Side → Bool
  | .a => v.declared.isSome
  | .b => decide (v.declared = some 2)

/-- A declared side has gone 1,000 ms without a new frame while the decoder runs. -/
def Vlr.silent (v : Vlr) (s : Side) : Bool :=
  v.decoder.isSome && decide (v.link = .valid) && v.declares s &&
    match (v.side s).age with
    | some a => decide (1000 ≤ a)
    | none => true

/-- SIDE_SILENT_EXPIRY (R24). -/
def execSideSilentExpiry (side : Side) (s : State) : Host.Outcome State Fault Refusal :=
  s.act fun n => n.onlyIf (n.vlr.silent side) fun n => linkLeft { n with vlr.link := .lost }

/-! ## Edges (R17, R18) -/

/-- The carrier window in 0.1 µs. -/
def windowLow (tc : Nat) : Nat := tc - tc / 8

def windowHigh (tc : Nat) : Nat := tc + tc / 8

/-- A burst is a valid mark: 150 µs to 350 µs long, its end one carrier period after its last edge, not spoiled. -/
def Burst.validMark (b : Burst) (tc : Nat) : Bool :=
  decide (1500 ≤ b.span + tc) && decide (b.span + tc ≤ 3500) && !b.spoiled

/-- A burst at its first edge. -/
def Burst.first : Burst := ⟨0, false⟩

/-- The bit a space spells, its length in 0.1 µs; absent for an invalid space (R18). -/
def spaceBit (space : Nat) : Option Bool :=
  if space < 1500 then none
  else if space < 5000 then some false
  else if space < 10000 then some true
  else none

/-- The mode after a valid mark and the space behind it, with the bits received so far: a bit is appended, and an invalid
space or a 113th bit abandons the frame (R18). -/
def afterSpace (bits : Bits) (space : Nat) : DecoderMode :=
  match spaceBit space with
  | none => .discarding
  | some b => if 112 ≤ bits.length then .discarding else .receiving (bits ++ [b])

/-- The mode after a burst and the space behind it (R16, R18). -/
def modeAfter (m : DecoderMode) (valid : Bool) (space : Nat) : DecoderMode :=
  match m with
  | .discarding => .discarding
  | .idle => if valid then afterSpace [] space else .idle
  | .receiving bits => if valid then afterSpace bits space else .discarding

/-- More than 2,000 µs have passed since the decoder's start or its latest edge (R16, R19; in whole ms, log 3). -/
def Node.lineQuiet (n : Node) : Bool :=
  match n.vlr.decoder with
  | none => false
  | some d => n.reached d.quietFrom 3

/-- The line has been quiet for more than 2,000 µs: IDLE, and a frame of 112 bits closed by a valid mark is taken
(R16, R19). -/
def quietSeen (n : Node) : Node :=
  match n.vlr.decoder with
  | none => n
  | some d =>
    let m := { n with vlr.decoder := some .atFrameEnd }
    match d.mode, d.burst with
    | .receiving bits, some b =>
      if bits.length = 112 ∧ b.validMark n.stc.cfg.carrier = true then takeVehicle (bytesOfBits 14 bits) m else m
    | _, _ => m

/-- The decoder at an edge now that ends the burst `b`, the quiet time not reached. -/
def edgeAfterBurst (now : Nat) (d : Decoder) (b : Burst) (tc interval : Nat) : Decoder :=
  ⟨modeAfter d.mode (b.validMark tc) (interval - tc), some .first, some now⟩

/-- The decoder begins a burst in the mode it has. -/
def beginBurst (n : Node) : Node :=
  { n with vlr.decoder := n.vlr.decoder.map fun d => { d with burst := some .first, quietFrom := some n.now } }

/-- A rising edge (R17; sub-µs details log 23). -/
def risingEdge (interval : Nat) (n : Node) : Node :=
  let tc := n.stc.cfg.carrier
  match n.vlr.decoder with
  | none => n
  | some d =>
    match d.burst with
    | none => beginBurst n
    | some b =>
      if interval < windowLow tc then
        { n with vlr.decoder := some ⟨d.mode, some ⟨b.span + interval, true⟩, some n.now⟩ }
      else if interval ≤ windowHigh tc then
        { n with vlr.decoder := some ⟨d.mode, some ⟨b.span + interval, b.spoiled⟩, some n.now⟩ }
      else if 20000 < interval - tc then beginBurst (quietSeen n)
      else { n with vlr.decoder := some (edgeAfterBurst n.now d b tc interval) }

/-- IR_RISING_EDGE (R17, R18). -/
def execIrRisingEdge (interval : Nat) (s : State) : Host.Outcome State Fault Refusal := s.act (risingEdge interval)

/-- QUIET_LINE_SEEN (R16, R19). -/
def execQuietLineSeen (s : State) : Host.Outcome State Fault Refusal := s.act fun n => n.onlyIf n.lineQuiet quietSeen

end Sys2Proof.Machine
end

