-- ==== Sys2Proof/Machine/Fill.lean ====
section
/-! DEFINITION. Meanings of the fill commands (file 03): AUTHORIZE, AUTHORIZATION_TIMEOUT, STOP, VALVE_TRAVEL_END,
BANK_SEARCH_RETRY, PULSE_END, EQUALIZE_END, HOLD_END, REZERO_VENT_TIMEOUT, CONTROL_PERIOD, PAUSE_LIMIT_EXPIRY,
PRECOOL_GRACE_END, VENT_TIMEOUT. -/

namespace Sys2Proof.Machine

/-! ## AUTHORIZE (R31 to R33) -/

/-- The checks of R31 in their order; absent where all pass, and then row, unit price and limit kind are given. -/
def authCheck (a : AuthorizeFields) (n : Node) : Except Result (Four × Nat × LimitKind) :=
  if n.stc.conflict then .error .notReady
  else
    match Four.ofNum a.row, limitKindOf a.limitKind with
    | some row, some kind =>
      if a.number = 0 ∨ (kind ≠ .none ∧ (a.limitValue = 0 ∨ 99999999 < a.limitValue)) then .error .badField
      else
        match n.mpu.prices.get row with
        | none => .error .noPrice
        | some price =>
          if n.rst.freeSlots = 0 then .error .storeFull
          else if n.mpu.creepFlag ∨ n.level .meterFault = true then .error .meterFault
          else if n.isc.loop ≠ .normal then .error .lockedEsd
          else .ok (row, price, kind)
    | _, _ => .error .badField

/-- The authorization of a command taken (R32). -/
def authOf (h : HoseClass) (a : AuthorizeFields) (terminal : Nat) (row : Four) (price : Nat) (kind : LimitKind) : Auth :=
  { number := a.number, terminal := terminal, row := row, unitPrice := price, limitKind := kind,
    limitValue := a.limitValue, limitMass := limitMassOf h kind a.limitValue price }

/-- AUTHORIZE handed to the FCU (R31 to R33). -/
def authorize (f : LineFrame) (n : Node) : Node :=
  let a := readAuthorize f.payload
  let reply := fun (r : Result) (x : Nat) (m : Node) => answer f.terminal kindAuthorize r x m
  match n.fcu.phase with
  | .idle =>
    match authCheck a n with
    | .error r => reply r 0 n
    | .ok (row, price, kind) =>
      let auth := authOf n.stc.cfg.hose a f.terminal row price kind
      reply .ok auth.limitMass { n with
        fcu.phase := .authorized, fcu.auth := some auth, fcu.authSince := some n.now }
  | .authorized =>
    match n.fcu.auth with
    | some held => if held.number = a.number then reply .ok held.limitMass n else reply .busy 0 n
    | none => reply .busy 0 n
  | _ => reply .busy 0 n

/-- AUTHORIZE (R31, file 10 R173). -/
def execAuthorize (frame : Bits) (s : State) : Host.Outcome State Fault Refusal :=
  s.receive (.command kindAuthorize) frame (onCommand false authorize)

/-- AUTHORIZATION_TIMEOUT (R34). -/
def execAuthorizationTimeout (s : State) : Host.Outcome State Fault Refusal :=
  s.act fun n => n.onlyIf (n.reached n.fcu.authSince 120000) authCancel

/-- STOP handed to the FCU: answered OK in every phase (R37). -/
def stopCommand (f : LineFrame) (n : Node) : Node := fcuStop .stopTerminal (answer f.terminal kindStop .ok 0 n)

/-- STOP (R37, file 10 R173). -/
def execStop (frame : Bits) (s : State) : Host.Outcome State Fault Refusal :=
  s.receive (.command kindStop) frame (onCommand false stopCommand)

/-! ## Valve travels (R30, file 07 R117) -/

/-- A refill valve has reached its position; a RELEASING claim whose valve has closed is released, and a choice made. -/
def ccuRefillArrived (b : Bank) (n : Node) : Node :=
  let m := { n with ccu.vr := n.ccu.vr.set b (n.ccu.vr.get b).arrive }
  if n.claimStage b = some .releasing ∧ (m.ccu.vr.get b).closed = true then
    ccuIdleChoice none (bcuRelease b .refill { m with ccu.claim := none })
  else m

/-- The direct valve has reached its position; a PENDING request becomes SERVING with the valve open and ready (file 07
R128). -/
def ccuDirectArrived (n : Node) : Node :=
  let m := { n with ccu.vdir := n.ccu.vdir.arrive }
  if m.ccu.state = .loadedDirect ∧ m.ccu.direct = .pending ∧ m.ccu.vdir.ready = true then
    fcuDirectReady { m with ccu.direct := .serving }
  else m

/-- The record of a valve. -/
def Node.valve (n : Node) : Valve → ValveRec
  | .draw b => n.fcu.vb.get b
  | .refill b => n.ccu.vr.get b
  | .direct => n.ccu.vdir
  | .vent => n.fcu.vvent

def valveArrived (v : Valve) (n : Node) : Node :=
  match v with
  | .draw b => fcuDrawArrived b n
  | .refill b => ccuRefillArrived b n
  | .direct => ccuDirectArrived n
  | .vent => fcuVentArrived n

/-- VALVE_TRAVEL_END (R30). -/
def execValveTravelEnd (valve : Valve) (s : State) : Host.Outcome State Fault Refusal :=
  s.act fun n => n.onlyIf ((n.valve valve).travelEnded n.now) (valveArrived valve)

/-! ## Searches (R38, R46) -/

/-- A repeated search is due: BANK_WAIT holds, nothing is pending, and 1 s has gone since the last search that found
nothing, or since a margin set BANK_WAIT if that is later (R38, R46; the instant it counts from is the model's choice, log
59). -/
def Node.retryDue (n : Node) : Bool :=
  n.fcu.pauses.bankWait.isSome && n.reached n.fcu.searchAt 1000 &&
    ((decide (n.fcu.phase = .checking) && decide (n.fcu.check = .claimWait) && n.fcu.checkBank.isNone) ||
      (n.fcu.phase.ramping && n.fcu.target.isNone && decide (n.fcu.source ≠ some .direct)))

def bankSearchRetry (n : Node) : Node :=
  if n.fcu.phase = .checking then checkSearch (banksUpTo n.stc.cfg.bankCount) n else switchSearch n.banksAhead n

/-- BANK_SEARCH_RETRY (R38, R46). -/
def execBankSearchRetry (s : State) : Host.Outcome State Fault Refusal := s.act fun n => n.onlyIf n.retryDue bankSearchRetry

/-! ## Leak check steps (R39 to R41) -/

/-- A check step has lasted `ms`. -/
def Node.stepEnded (n : Node) (c : CheckStep) (ms : Nat) : Bool :=
  decide (n.fcu.phase = .checking) && decide (n.fcu.check = c) && !n.fcu.awaiting && n.reached n.fcu.stepSince ms

/-- EQUALIZE begins (R39). -/
def beginEqualize (n : Node) : Node :=
  { n with fcu.check := .equalize, fcu.stepSince := some n.now, fcu.fCmd := 0 }

/-- PULSE_END (R39). -/
def execPulseEnd (s : State) : Host.Outcome State Fault Refusal :=
  s.act fun n => n.onlyIf (n.stepEnded .pulse 1000) beginEqualize

/-- A reading of P_H is made now, or waits for the next accepted sample if the value is older than 200 ms (R39). -/
def readingOrWait (reading : Node → Node) (n : Node) : Node :=
  if n.olderThan .pH 200 then { n with fcu.awaiting := true } else reading n

/-- EQUALIZE_END (R39, R40). -/
def execEqualizeEnd (s : State) : Host.Outcome State Fault Refusal :=
  s.act fun n => n.onlyIf (n.stepEnded .equalize 2000) (readingOrWait readP0)

/-- HOLD_END (R39, R41). -/
def execHoldEnd (s : State) : Host.Outcome State Fault Refusal :=
  s.act fun n => n.onlyIf (n.stepEnded .hold 5000) (readingOrWait judge)

/-- The vent of REZERO has been open for 20 s: VENT_FAIL and LEAK (R41). -/
def rezeroTimeout (n : Node) : Node := endFill .leak (ventValve false { n with fcu.ventFail := true })

/-- REZERO_VENT_TIMEOUT (R41). -/
def execRezeroVentTimeout (s : State) : Host.Outcome State Fault Refusal :=
  s.act fun n =>
    n.onlyIf (decide (n.fcu.phase = .checking) && decide (n.fcu.check = .rezero) && n.reached n.fcu.rezeroVent 20000)
      rezeroTimeout

/-! ## Control period and limits (R50, R56, R62) -/

/-- CONTROL_PERIOD (R50). -/
def execControlPeriod (s : State) : Host.Outcome State Fault Refusal :=
  s.act fun n =>
    n.onlyIf (n.fcu.phase.filling && n.gridDue n.fcu.periodNext) fun n =>
      controlPeriod { n with fcu.periodNext := n.fcu.periodNext.map (· + 100) }

/-- PAUSE_LIMIT_EXPIRY: the timer has reached its limit; the end test of the next period acts on it (R56, R58). Nothing
changes at this moment (log 29). -/
def execPauseLimitExpiry (_reason : PauseReason) (s : State) : Host.Outcome State Fault Refusal := s.act id

/-- PRECOOL_GRACE_END: from now on UNFIT is handed out as UNFIT; the class is formed when it is read (file 06 R100).
Nothing changes at this moment (log 29). -/
def execPrecoolGraceEnd (s : State) : Host.Outcome State Fault Refusal := s.act id

/-- VENTING has lasted 20 s with the vent valve still open: VENT_FAIL, and the vent valve is commanded closed (R62). -/
def ventTimeout (n : Node) : Node := ventingEnd { n with fcu.ventFail := true }

/-- VENT_TIMEOUT (R62). -/
def execVentTimeout (s : State) : Host.Outcome State Fault Refusal :=
  s.act fun n =>
    n.onlyIf (decide (n.fcu.phase = .venting) && n.fcu.vvent.opened && n.reached n.fcu.ventSince 20000) ventTimeout

end Sys2Proof.Machine
end

