-- ==== Sys2Proof/Machine/Peers.lean ====
section
/-! DEFINITION. Meanings of the claim, peer and heat commands (files 04, 05, 06): SETTLE_EXPIRY, PEER_STATUS, PEER_CLAIM,
PEER_RELEASE, PEER_HEAT, CONFLICT_FRAME, ENTRY_STALE, ENTRY_FORGOTTEN, EVALUATION_TICK. -/

namespace Sys2Proof.Machine

/-- The settle timer of an own claim has reached 150 ms (file 04 R74). -/
def Node.settled (n : Node) (b : Bank) (k : ClaimKind) : Option Nat :=
  match n.bcu.find b k with
  | some ⟨_, _, .settling t⟩ => if 150 ≤ n.elapsed t then some t else none
  | _ => none

/-- The own claim on a bank of a kind becomes HELD. -/
def Bcu.hold (c : Bcu) (b : Bank) (k : ClaimKind) (t : Nat) : Bcu :=
  ⟨c.own.map fun o => if o.bank = b ∧ o.kind = k then { o with state := .held t } else o⟩

def settleExpiry (b : Bank) (k : ClaimKind) (n : Node) : Node :=
  match n.settled b k with
  | none => n
  | some t => reportHeld b k { n with bcu := n.bcu.hold b k t }

/-- SETTLE_EXPIRY (file 04 R74). -/
def execSettleExpiry (bank : Bank) (kind : ClaimKind) (s : State) : Host.Outcome State Fault Refusal :=
  s.act (settleExpiry bank kind)

/-- A STATUS of a peer; one whose length or codes differ from Formats is not merged (file 12 R189). -/
def peerStatus (f : LineFrame) (n : Node) : Node :=
  match readStatus f.payload with
  | none => n
  | some x => ptbStatus f.source.toNat x n

/-- PEER_STATUS (file 05 R89). -/
def execPeerStatus (frame : Bits) (s : State) : Host.Outcome State Fault Refusal :=
  s.receive (.peer kindStatus) frame (onPeer peerStatus)

def peerClaim (f : LineFrame) (n : Node) : Node :=
  match readClaim f.payload with
  | none => n
  | some (b, k) => ptbClaim f.source.toNat b k n

/-- PEER_CLAIM (file 05 R91). -/
def execPeerClaim (frame : Bits) (s : State) : Host.Outcome State Fault Refusal :=
  s.receive (.peer kindClaim) frame (onPeer peerClaim)

def peerRelease (f : LineFrame) (n : Node) : Node :=
  match readClaim f.payload with
  | none => n
  | some (b, k) => ptbRelease f.source.toNat b k n

/-- PEER_RELEASE (file 05 R92). -/
def execPeerRelease (frame : Bits) (s : State) : Host.Outcome State Fault Refusal :=
  s.receive (.peer kindRelease) frame (onPeer peerRelease)

def peerHeat (f : LineFrame) (n : Node) : Node :=
  match readHeat f.payload with
  | none => n
  | some x => ptbHeat f.source.toNat x n

/-- PEER_HEAT (file 05 R93). -/
def execPeerHeat (frame : Bits) (s : State) : Host.Outcome State Fault Refusal :=
  s.receive (.peer kindHeat) frame (onPeer peerHeat)

/-- CONFLICT_FRAME (file 05 R96, R97). -/
def execConflictFrame (frame : Bits) (s : State) : Host.Outcome State Fault Refusal :=
  s.receive .conflict frame (onPeer fun _ => conflictBegin)

/-- ENTRY_STALE (file 05 R87). -/
def execEntryStale (node : Nat) (s : State) : Host.Outcome State Fault Refusal := s.act (ptbStale node)

/-- ENTRY_FORGOTTEN (file 05 R88). -/
def execEntryForgotten (node : Nat) (s : State) : Host.Outcome State Fault Refusal := s.act (ptbForget node)

/-- EVALUATION_TICK (file 06 R102, R104). -/
def execEvaluationTick (s : State) : Host.Outcome State Fault Refusal :=
  s.act fun n =>
    n.onlyIf (n.gridDue n.hsu.gridNext) fun n =>
      hsuEvaluate (hsuWant { n with hsu.gridNext := n.hsu.gridNext.map (· + 1000) })

end Sys2Proof.Machine
end

