-- ==== Sys2Proof/Machine/Compressor.lean ====
section
/-! DEFINITION. Meanings of the compressor commands (file 07): SURVEY_TICK, STARTING_END, RUN_TIMER_EXPIRY, STOPPING_END,
MOTOR_ABSENT_EXPIRY, LOCKOUT_END, START_LIST_EXPIRY. -/

namespace Sys2Proof.Machine

/-- SURVEY_TICK (R122). -/
def execSurveyTick (s : State) : Host.Outcome State Fault Refusal :=
  s.act fun n =>
    n.onlyIf (n.gridDue n.ccu.surveyNext) fun n => ccuSurvey { n with ccu.surveyNext := n.ccu.surveyNext.map (· + 1000) }

/-- The present state has lasted `ms`. -/
def Node.stateLasted (n : Node) (st : CompState) (ms : Nat) : Bool :=
  decide (n.ccu.state = st) && decide (ms ≤ n.elapsed n.ccu.since)

/-- STARTING_END (R123). -/
def execStartingEnd (s : State) : Host.Outcome State Fault Refusal :=
  s.act fun n => n.onlyIf (n.stateLasted .starting 5000) ccuStarted

/-- RUN_TIMER_EXPIRY (R126). -/
def execRunTimerExpiry (s : State) : Host.Outcome State Fault Refusal := s.act ccuIdleTest

/-- OFF after STOPPING or LOCKOUT (R127, R131). -/
def ccuOff (n : Node) : Node := { n with ccu.state := .off, ccu.since := n.now }

/-- STOPPING_END (R127). -/
def execStoppingEnd (s : State) : Host.Outcome State Fault Refusal :=
  s.act fun n => n.onlyIf (n.stateLasted .stopping 10000) ccuOff

/-- MOTOR_ABSENT_EXPIRY (R130). -/
def execMotorAbsentExpiry (s : State) : Host.Outcome State Fault Refusal :=
  s.act fun n => n.onlyIf (n.reached n.ccu.absentSince 2000) ccuLockout

/-- LOCKOUT_END (R131). -/
def execLockoutEnd (s : State) : Host.Outcome State Fault Refusal :=
  s.act fun n => n.onlyIf (n.stateLasted .lockout 600000) ccuOff

/-- START_LIST_EXPIRY (R119). -/
def execStartListExpiry (s : State) : Host.Outcome State Fault Refusal :=
  s.act fun n => { n with ccu.starts := n.ccu.starts.filter fun t => decide (n.elapsed t < 3600000) }

end Sys2Proof.Machine
end

