-- ==== Sys2Proof/Machine/Meter.lean ====
section
/-! DEFINITION. Meanings of the metering commands (file 08): METER_PULSE, CREEP_WINDOW_CLOSE, CREEP_QUIET_EXPIRY, PRICE. -/

namespace Sys2Proof.Machine

/-- A pulse goes to the open fill or to creep (R137). -/
def meterPulse (n : Node) : Node := if n.mpu.windowOpen then mpuFillPulse n else mpuCreepPulse n

/-- METER_PULSE (R136, R137). -/
def execMeterPulse (s : State) : Host.Outcome State Fault Refusal := s.act fun n => n.onlyIf n.inRun meterPulse

/-- CREEP_WINDOW_CLOSE (R140). -/
def execCreepWindowClose (s : State) : Host.Outcome State Fault Refusal :=
  s.act fun n =>
    match n.mpu.creepWindow with
    | some w => if 60000 ≤ n.elapsed w.openedAt then { n with mpu.creepWindow := none } else n
    | none => n

/-- The meter has been quiet for 60 s (R141). -/
def creepQuiet (n : Node) : Node := mpuAccrue { n with mpu.creepFlag := false, mpu.quietSince := none }

/-- CREEP_QUIET_EXPIRY (R141). -/
def execCreepQuietExpiry (s : State) : Host.Outcome State Fault Refusal :=
  s.act fun n => n.onlyIf (n.reached n.mpu.quietSince 60000) creepQuiet

/-- PRICE handed to the MPU (R149). -/
def price (f : LineFrame) (n : Node) : Node :=
  match Four.ofNum (fieldAt f.payload 0 1) with
  | none => answer f.terminal kindPrice .badField 0 n
  | some row =>
    let p := fieldAt f.payload 1 3
    if 999999 < p then answer f.terminal kindPrice .badField 0 n
    else
      answer f.terminal kindPrice .ok 0
        { n with mpu.prices := n.mpu.prices.set row (if p = 0 then none else some p) }

/-- PRICE (R149, file 10 R173). -/
def execPrice (frame : Bits) (s : State) : Host.Outcome State Fault Refusal :=
  s.receive (.command kindPrice) frame (onCommand true price)

end Sys2Proof.Machine
end

