-- ==== Sys2Proof/Machine/Store.lean ====
section
/-! DEFINITION. Meanings of the record store commands (file 09): the five write completions, QUERY, COLLECT, READ_TOTALS. -/

namespace Sys2Proof.Machine

/-- CREATE_WRITE_COMPLETE (R155, R160). -/
def execCreateWriteComplete (s : State) : Host.Outcome State Fault Refusal :=
  s.act fun n =>
    match n.rst.write with
    | some (.record .create im) => storeKick { n with rst := n.rst.commitCreate im }
    | _ => n

/-- CHECKPOINT_WRITE_COMPLETE (R157, R160). -/
def execCheckpointWriteComplete (s : State) : Host.Outcome State Fault Refusal :=
  s.act fun n =>
    match n.rst.write with
    | some (.record .checkpoint im) => storeKick { n with rst := n.rst.commitCheckpoint im }
    | _ => n

/-- CLOSE_WRITE_COMPLETE: the FCU's fill enters DONE (R158, file 03 R63), then the store takes what waits. -/
def execCloseWriteComplete (s : State) : Host.Outcome State Fault Refusal :=
  s.act fun n =>
    match n.rst.write with
    | some (.record .close im) => storeKick (fcuDone im.slot { n with rst := n.rst.commitClose im })
    | _ => n

/-- CREEP_WRITE_COMPLETE (R159, R160). -/
def execCreepWriteComplete (s : State) : Host.Outcome State Fault Refusal :=
  s.act fun n =>
    match n.rst.write with
    | some (.creep mass) => storeKick { n with rst := n.rst.commitCreep mass }
    | _ => n

/-- COLLECT_WRITE_COMPLETE: answered OK, echoing the number (R162). -/
def execCollectWriteComplete (s : State) : Host.Outcome State Fault Refusal :=
  s.act fun n =>
    match n.rst.write with
    | some (.collect slot txn terminal) =>
      storeKick (answer terminal kindCollect .ok txn { n with rst := n.rst.commitCollect slot txn })
    | _ => n

/-- QUERY handed to the RST (R160, R161). -/
def query (f : LineFrame) (n : Node) : Node := takeRequest .query kindQuery (fieldAt f.payload 0 2) f.terminal n

/-- QUERY (R161, file 10 R173). -/
def execQuery (frame : Bits) (s : State) : Host.Outcome State Fault Refusal :=
  s.receive (.command kindQuery) frame (onCommand false query)

/-- COLLECT handed to the RST (R160, R162). -/
def collect (f : LineFrame) (n : Node) : Node := takeRequest .collect kindCollect (fieldAt f.payload 0 2) f.terminal n

/-- COLLECT (R162, file 10 R173). -/
def execCollect (frame : Bits) (s : State) : Host.Outcome State Fault Refusal :=
  s.receive (.command kindCollect) frame (onCommand false collect)

/-- READ-TOTALS handed to the RST (R160, R163). -/
def readTotals (f : LineFrame) (n : Node) : Node := takeRequest .readTotals kindReadTotals 0 f.terminal n

/-- READ_TOTALS (R163, file 10 R173). -/
def execReadTotals (frame : Bits) (s : State) : Host.Outcome State Fault Refusal :=
  s.receive (.command kindReadTotals) frame (onCommand true readTotals)

end Sys2Proof.Machine
end

