-- ==== Sys2Proof/Machine/Line.lean ====
section
/-! DEFINITION. Meanings of the line commands (file 10): TRANSMIT_ATTEMPT, FRAME_SENT, ARBITRATION_YIELD, LINE_FAULT,
LINE_SILENT_END, STATUS_TICK, PROGRESS_TICK, QUIET_TIMER_1000, QUIET_TIMER_1800. -/

namespace Sys2Proof.Machine

/-- TRANSMIT_ATTEMPT: an idle gap has ended (R167, R174). -/
def execTransmitAttempt (s : State) : Host.Outcome State Fault Refusal := s.act liuAttempt

/-- FRAME_SENT (R167, R169). -/
def execFrameSent (s : State) : Host.Outcome State Fault Refusal := s.act liuSent

/-- ARBITRATION_YIELD (R168). -/
def execArbitrationYield (position : Nat) (s : State) : Host.Outcome State Fault Refusal := s.act (liuYield position)

/-- LINE_FAULT (R169, R170). -/
def execLineFault (position : Nat) (s : State) : Host.Outcome State Fault Refusal := s.act (liuFault position)

/-- LINE_SILENT_END (R170). -/
def execLineSilentEnd (s : State) : Host.Outcome State Fault Refusal :=
  s.act fun n =>
    n.onlyIf (n.reached n.liu.silentSince 1000) fun n => { n with liu.silentSince := none, liu.silentEnded := true }

/-- STATUS_TICK (R177). -/
def execStatusTick (s : State) : Host.Outcome State Fault Refusal :=
  s.act fun n =>
    n.onlyIf (n.gridDue n.liu.statusNext) fun n => offer .status { n with liu.statusNext := n.liu.statusNext.map (· + 100) }

/-- PROGRESS_TICK (R179). -/
def execProgressTick (s : State) : Host.Outcome State Fault Refusal :=
  s.act fun n =>
    n.onlyIf (n.gridDue n.liu.progressNext) fun n =>
      offer (.progress ((n.fcu.auth.map (·.terminal)).getD 0))
        { n with liu.progressNext := n.liu.progressNext.map (· + 1000) }

/-- QUIET_TIMER_1000 (R178, file 03 R57, file 07 R133). -/
def execQuietTimer1000 (s : State) : Host.Outcome State Fault Refusal :=
  s.act fun n => n.onlyIf (n.quietAtLeast 1000) fun n => ccuHold (lineQuietBegin n)

/-- The quiet timer reaches 1,800 ms (R178): BCU, HSU, CCU and FCU in this order (log 13). Of a fill in progress it sets the
mark of row 9 of R58 (log 53). -/
def quiet1800 (n : Node) : Node :=
  let m := ccuStop (hsuQuiet (bcuDropAll n))
  if m.fcu.phase.filling then { m with fcu.lineFault := true } else m

/-- QUIET_TIMER_1800 (R178, file 04 R80, file 06 R114, file 07 R133). -/
def execQuietTimer1800 (s : State) : Host.Outcome State Fault Refusal :=
  s.act fun n => n.onlyIf (n.quietAtLeast 1800) quiet1800

end Sys2Proof.Machine
end

