-- ==== Sys2Proof/Machine/Dispatch.lean ====
section
/-! DEFINITION. One arm per command, each a direct call of its meaning. -/

namespace Sys2Proof.Machine

def exec (i : Instr) (s : State) : Host.Outcome State Fault Refusal :=
  match i with
  | .startUpCause cause => Sys2Proof.Machine.execStartUpCause cause s
  | .startUp straps levels => Sys2Proof.Machine.execStartUp straps levels s
  | .configReadDone block => Sys2Proof.Machine.execConfigReadDone block s
  | .scanWriteComplete => Sys2Proof.Machine.execScanWriteComplete s
  | .storeScanEnd => Sys2Proof.Machine.execStoreScanEnd s
  | .warmUpEnd => Sys2Proof.Machine.execWarmUpEnd s
  | .listenEnd => Sys2Proof.Machine.execListenEnd s
  | .scanGridInstant => Sys2Proof.Machine.execScanGridInstant s
  | .converterAnswer echo microamps => Sys2Proof.Machine.execConverterAnswer echo microamps s
  | .exchangeTimeout => Sys2Proof.Machine.execExchangeTimeout s
  | .channelAgeExpiry channel => Sys2Proof.Machine.execChannelAgeExpiry channel s
  | .diLevelTaken input level => Sys2Proof.Machine.execDiLevelTaken input level s
  | .recoveryTimerExpiry => Sys2Proof.Machine.execRecoveryTimerExpiry s
  | .esdClear frame => Sys2Proof.Machine.execEsdClear frame s
  | .vehicleFrame bytes => Sys2Proof.Machine.execVehicleFrame bytes s
  | .sideSilentExpiry side => Sys2Proof.Machine.execSideSilentExpiry side s
  | .authorize frame => Sys2Proof.Machine.execAuthorize frame s
  | .authorizationTimeout => Sys2Proof.Machine.execAuthorizationTimeout s
  | .stop frame => Sys2Proof.Machine.execStop frame s
  | .valveTravelEnd valve => Sys2Proof.Machine.execValveTravelEnd valve s
  | .bankSearchRetry => Sys2Proof.Machine.execBankSearchRetry s
  | .pulseEnd => Sys2Proof.Machine.execPulseEnd s
  | .equalizeEnd => Sys2Proof.Machine.execEqualizeEnd s
  | .holdEnd => Sys2Proof.Machine.execHoldEnd s
  | .rezeroVentTimeout => Sys2Proof.Machine.execRezeroVentTimeout s
  | .controlPeriod => Sys2Proof.Machine.execControlPeriod s
  | .pauseLimitExpiry reason => Sys2Proof.Machine.execPauseLimitExpiry reason s
  | .precoolGraceEnd => Sys2Proof.Machine.execPrecoolGraceEnd s
  | .ventTimeout => Sys2Proof.Machine.execVentTimeout s
  | .settleExpiry bank kind => Sys2Proof.Machine.execSettleExpiry bank kind s
  | .peerStatus frame => Sys2Proof.Machine.execPeerStatus frame s
  | .peerClaim frame => Sys2Proof.Machine.execPeerClaim frame s
  | .peerRelease frame => Sys2Proof.Machine.execPeerRelease frame s
  | .peerHeat frame => Sys2Proof.Machine.execPeerHeat frame s
  | .conflictFrame frame => Sys2Proof.Machine.execConflictFrame frame s
  | .entryStale node => Sys2Proof.Machine.execEntryStale node s
  | .entryForgotten node => Sys2Proof.Machine.execEntryForgotten node s
  | .evaluationTick => Sys2Proof.Machine.execEvaluationTick s
  | .surveyTick => Sys2Proof.Machine.execSurveyTick s
  | .startingEnd => Sys2Proof.Machine.execStartingEnd s
  | .runTimerExpiry => Sys2Proof.Machine.execRunTimerExpiry s
  | .stoppingEnd => Sys2Proof.Machine.execStoppingEnd s
  | .motorAbsentExpiry => Sys2Proof.Machine.execMotorAbsentExpiry s
  | .lockoutEnd => Sys2Proof.Machine.execLockoutEnd s
  | .startListExpiry => Sys2Proof.Machine.execStartListExpiry s
  | .meterPulse => Sys2Proof.Machine.execMeterPulse s
  | .creepWindowClose => Sys2Proof.Machine.execCreepWindowClose s
  | .creepQuietExpiry => Sys2Proof.Machine.execCreepQuietExpiry s
  | .price frame => Sys2Proof.Machine.execPrice frame s
  | .createWriteComplete => Sys2Proof.Machine.execCreateWriteComplete s
  | .checkpointWriteComplete => Sys2Proof.Machine.execCheckpointWriteComplete s
  | .closeWriteComplete => Sys2Proof.Machine.execCloseWriteComplete s
  | .creepWriteComplete => Sys2Proof.Machine.execCreepWriteComplete s
  | .collectWriteComplete => Sys2Proof.Machine.execCollectWriteComplete s
  | .query frame => Sys2Proof.Machine.execQuery frame s
  | .collect frame => Sys2Proof.Machine.execCollect frame s
  | .readTotals frame => Sys2Proof.Machine.execReadTotals frame s
  | .transmitAttempt => Sys2Proof.Machine.execTransmitAttempt s
  | .frameSent => Sys2Proof.Machine.execFrameSent s
  | .arbitrationYield position => Sys2Proof.Machine.execArbitrationYield position s
  | .lineFault position => Sys2Proof.Machine.execLineFault position s
  | .lineSilentEnd => Sys2Proof.Machine.execLineSilentEnd s
  | .statusTick => Sys2Proof.Machine.execStatusTick s
  | .progressTick => Sys2Proof.Machine.execProgressTick s
  | .quietTimer1000 => Sys2Proof.Machine.execQuietTimer1000 s
  | .quietTimer1800 => Sys2Proof.Machine.execQuietTimer1800 s
  | .irRisingEdge interval => Sys2Proof.Machine.execIrRisingEdge interval s
  | .quietLineSeen => Sys2Proof.Machine.execQuietLineSeen s

end Sys2Proof.Machine
end

