-- ==== Sys2Proof/Machine/Time.lean ====
section
/-! DEFINITION. The passing of 1 ms (log 1): the node's clock, the sampling of the discrete inputs (file 01 R8), the ages
of the side records (file 02 R22), and the timer commands that fall due. -/

namespace Sys2Proof.Machine

/-! ## Sampling and ageing -/

/-- One sample of an input; true where the run count reaches 10 and the new level is to be taken (file 01 R8). -/
def InputRec.sample (r : InputRec) : InputRec × Bool :=
  if r.raw = r.filtered then ({ r with run := 0 }, false)
  else if 9 ≤ r.run then ({ r with run := 0 }, true)
  else ({ r with run := r.run + 1 }, false)

/-- The levels taken at this sample. -/
def Node.levelsTaken (n : Node) : List Instr :=
  (Input.all.filter fun i => (n.isc.inputs.get i).sample.2).map fun i => .diLevelTaken i (n.isc.inputs.get i).raw

/-- Every input is sampled; in the hold none is (file 11 R181). -/
def sampleInputs (n : Node) : Node :=
  if n.stc.phase = .held then n else { n with isc.inputs := n.isc.inputs.map fun r => r.sample.1 }

/-- The age of a side record 1 ms later, saturating (file 02 R22). -/
def SideRec.older (r : SideRec) : SideRec := { r with age := r.age.map fun a => min (a + 1) 65535 }

/-- The ages grow while the decoder runs. -/
def Vlr.older (v : Vlr) : Vlr :=
  if v.decoder.isSome then { v with sideA := v.sideA.older, sideB := v.sideB.older } else v

/-! ## Timer commands due at this instant, in the order of the table -/

/-- A timer stands at exactly `ms`. -/
def Node.at (n : Node) (since : Option Nat) (ms : Nat) : Bool :=
  match since with
  | none => false
  | some t => decide (n.now = t + ms)

/-- One command where the condition holds. -/
def dueIf (c : Bool) (i : Instr) : List Instr := if c then [i] else []

def Node.phaseAt (n : Node) (p : StartPhase) (ms : Nat) : Bool :=
  decide (n.stc.phase = p) && decide (n.now = n.stc.phaseSince + ms)

def Node.valveDue (n : Node) (v : Valve) : List Instr := dueIf (n.at (n.valve v).since 400) (.valveTravelEnd v)

def Node.sideDue (n : Node) (s : Side) : List Instr :=
  dueIf (n.vlr.silent s && decide ((n.vlr.side s).age = some 1000)) (.sideSilentExpiry s)

def Node.channelDue (n : Node) (c : Channel) : List Instr :=
  dueIf (n.at (n.chan c).acceptedAt 2001) (.channelAgeExpiry c)

/-- The limit of a pause reason, in ms (file 03 section 3.7). LINE_QUIET's is that of the quiet timer. -/
def pauseLimit : PauseReason → Nat
  | .precoolUnfit => 60000 | .heatShare => 120000 | .vehicleHalt => 10000 | .sampleAge => 2000
  | .bankWait => 30000 | .lineQuiet => 1800

def Node.pauseTimer (n : Node) (r : PauseReason) : Option Nat :=
  if r = .lineQuiet then n.liu.quietSince else n.fcu.pauses.get r

def Node.pauseDue (n : Node) (r : PauseReason) : List Instr :=
  dueIf ((n.fcu.pauses.get r).isSome && n.at (n.pauseTimer r) (pauseLimit r)) (.pauseLimitExpiry r)

def Node.checkAt (n : Node) (c : CheckStep) (ms : Nat) : Bool :=
  decide (n.fcu.phase = .checking) && decide (n.fcu.check = c) && n.at n.fcu.stepSince ms

def Node.settleDue (n : Node) : List Instr :=
  n.bcu.own.filterMap fun c =>
    match c.state with
    | .settling t => if n.now = t + 150 then some (.settleExpiry c.bank c.kind) else none
    | _ => none

def Node.staleDue (n : Node) : List Instr :=
  (n.ptb.peers.filter fun p => !p.stale && decide (n.now = p.last + 350)).map fun p => .entryStale p.node

def Node.forgetDue (n : Node) : List Instr :=
  (n.ptb.peers.filter fun p => decide (n.now = p.last + 2000)).map fun p => .entryForgotten p.node

def Node.recoveryDue (n : Node) : Bool :=
  match n.isc.loop with
  | .recovering t => decide (n.now = t + 5000)
  | _ => false

def Node.stateAt (n : Node) (st : CompState) (ms : Nat) : Bool :=
  decide (n.ccu.state = st) && decide (n.now = n.ccu.since + ms)

def Node.creepDue (n : Node) : Bool :=
  match n.mpu.creepWindow with
  | some w => decide (n.now = w.openedAt + 60000)
  | none => false

/-- The exchange in flight stands at the end of its 2 ms (file 01 R3). -/
def Node.exchangeDue (n : Node) : Bool := n.at (n.isc.cycle.map (·.since)) 2

/-- The first whole ms at which the line has been quiet for more than 2,000 µs (file 02 R16, R19; log 3). -/
def Node.quietLineDue (n : Node) : Bool := n.at (n.vlr.decoder.bind (·.quietFrom)) 3

/-- Timers of files 11, 01 and 02. -/
def Node.dueStart (n : Node) : List Instr :=
  dueIf (n.phaseAt .warmUp 500) .warmUpEnd ++ dueIf (n.phaseAt .listen 1000) .listenEnd ++
  dueIf (n.gridDue n.isc.gridNext) .scanGridInstant ++ dueIf n.exchangeDue .exchangeTimeout ++ n.channelDue .pC ++
  n.channelDue .tC ++ dueIf n.recoveryDue .recoveryTimerExpiry ++ n.sideDue .a ++ n.sideDue .b ++
  dueIf n.quietLineDue .quietLineSeen

/-- Timers of file 03. -/
def Node.dueFill (n : Node) : List Instr :=
  dueIf (n.at n.fcu.authSince 120000) .authorizationTimeout ++
  (Four.all.map Valve.draw ++ Four.all.map Valve.refill ++ [Valve.direct, Valve.vent]).flatMap n.valveDue ++
  dueIf n.retryDue .bankSearchRetry ++ dueIf (n.checkAt .pulse 1000) .pulseEnd ++
  dueIf (n.checkAt .equalize 2000) .equalizeEnd ++ dueIf (n.checkAt .hold 5000) .holdEnd ++
  dueIf (n.at n.fcu.rezeroVent 20000) .rezeroVentTimeout ++
  dueIf (n.fcu.phase.filling && n.gridDue n.fcu.periodNext) .controlPeriod ++
  PauseReason.all.flatMap n.pauseDue ++
  dueIf (n.fcu.phase.ramping && n.at n.fcu.rampSince 30000) .precoolGraceEnd ++
  dueIf (decide (n.fcu.phase = .venting) && n.at n.fcu.ventSince 20000) .ventTimeout

/-- Timers of files 04 to 08. -/
def Node.dueSharing (n : Node) : List Instr :=
  n.settleDue ++ n.staleDue ++ n.forgetDue ++ dueIf (n.gridDue n.hsu.gridNext) .evaluationTick ++
  dueIf (n.gridDue n.ccu.surveyNext) .surveyTick ++ dueIf (n.stateAt .starting 5000) .startingEnd ++
  dueIf (n.at n.ccu.runSince 120000) .runTimerExpiry ++ dueIf (n.stateAt .stopping 10000) .stoppingEnd ++
  dueIf (n.at n.ccu.absentSince 2000) .motorAbsentExpiry ++ dueIf (n.stateAt .lockout 600000) .lockoutEnd ++
  dueIf (n.ccu.starts.any fun t => decide (n.now = t + 3600000)) .startListExpiry ++
  dueIf n.creepDue .creepWindowClose ++ dueIf (n.at n.mpu.quietSince 60000) .creepQuietExpiry

/-- Timers of file 10. -/
def Node.dueLine (n : Node) : List Instr :=
  dueIf (n.at n.liu.silentSince 1000) .lineSilentEnd ++ dueIf (n.gridDue n.liu.statusNext) .statusTick ++
  dueIf (n.gridDue n.liu.progressNext) .progressTick ++ dueIf (n.at n.liu.quietSince 1000) .quietTimer1000 ++
  dueIf (n.at n.liu.quietSince 1800) .quietTimer1800

/-- Every timer command due at this instant. -/
def Node.due (n : Node) : List Instr := n.dueStart ++ n.dueFill ++ n.dueSharing ++ n.dueLine

/-- The node 1 ms later. -/
def Node.later (n : Node) : Node := sampleInputs { n with now := n.now + 1, vlr := n.vlr.older }

/-- 1 ms passes: the levels taken and the timer commands due at the new instant wait (log 1). -/
def tick (s : State) : State :=
  { node := s.node.later,
    pending := s.pending ++ (if s.node.stc.phase = .held then [] else s.node.levelsTaken) ++ s.node.later.due }

end Sys2Proof.Machine
end

