-- ==== Sys2Proof/Safety.lean ====
section
/-! DEFINITION. What counts as a safe state and a safe run, in the terms the statements use. -/

namespace Sys2Proof.Machine

/-- The transmit queue holds at most 10 frames, at most 5 of them urgent (file 10 R174, R176). -/
abbrev Node.queueBounded (n : Node) : Prop := n.liu.queue.length ≤ 10 ∧ urgentCount n.liu.queue ≤ 5

/-- At most two draw claims and one refill claim, no two on one bank of one kind (file 04 R70). -/
abbrev Node.claimsBounded (n : Node) : Prop :=
  n.bcu.count .draw ≤ 2 ∧ n.bcu.count .refill ≤ 1 ∧ (n.bcu.own.map fun c => (c.bank, c.kind)).Nodup

/-- The store has 64 slots, the slot table is empty or lists all of them, and the request list holds at most 4 requests
(file 09 section 9.1, R151, R160). -/
abbrev Node.storeShaped (n : Node) : Prop :=
  n.rst.slots.length = 64 ∧ (n.rst.table.length = 0 ∨ n.rst.table.length = 64) ∧ n.rst.requests.length ≤ 4

/-- A reservation is 0 or at least the least reservation, 4,000 W (file 06 R106, R110). -/
abbrev Node.reservationLegal (n : Node) : Prop := n.hsu.rOwn = 0 ∨ 4000 ≤ n.hsu.rOwn

/-- The bounds that every operation on the node keeps. -/
structure Node.Bounds (n : Node) : Prop where
  queue : n.queueBounded
  claims : n.claimsBounded
  store : n.storeShaped
  reservation : n.reservationLegal

/-- A draw valve that is commanded open has its own draw claim HELD (file 03 R30). -/
abbrev Node.drawClaimed (n : Node) (b : Bank) : Prop := (n.fcu.vb.get b).opened = true → n.drawHeld b = true

/-- Every draw valve that is commanded open has its own draw claim HELD. -/
abbrev Node.drawsClaimed (n : Node) : Prop := ∀ b : Bank, n.drawClaimed b

/-- The target pressure does not lie above the pressure limit of the hose (file 03 R52). -/
abbrev Node.rampBounded (n : Node) : Prop := n.fcu.pRamp ≤ hoseLimit n.stc.cfg.hose

/-- The counts of line faults stay within their ranges (file 10 R169, R170). -/
abbrev Node.faultCountsBounded (n : Node) : Prop := n.liu.consecutive < 16 ∧ n.liu.total ≤ 65535

/-- The run counts of the input filters (file 01 R8). -/
abbrev Node.runsBounded (n : Node) : Prop := ∀ i : Input, (n.isc.inputs.get i).run ≤ 9

/-- A frame in reception on the vehicle link holds at most 112 bits (file 02 R18). -/
abbrev Decoder.bounded (d : Decoder) : Prop :=
  match d.mode with
  | .receiving bits => bits.length ≤ 112
  | _ => True

abbrev Node.decoderBounded (n : Node) : Prop := ∀ d, n.vlr.decoder = some d → d.bounded

/-- A safe node: every bound of the spec on what the node holds, and every open draw valve with its claim. -/
structure Node.Safe (n : Node) : Prop where
  bounds : n.Bounds
  draws : n.drawsClaimed
  counts : n.faultCountsBounded
  runs : n.runsBounded
  decoder : n.decoderBounded

/-- The request for a claim is taken: it passes the request check and its CLAIM frame enters the queue (file 04 R70,
R73). -/
abbrev Node.grants (n : Node) (b : Bank) (k : ClaimKind) : Prop :=
  n.requestRefused b k = false ∧ (queueOffer (.claim b k) n.liu.queue).2 = true

/-- The node with that claim REQUESTED and its CLAIM frame queued. -/
def Node.requesting (n : Node) (b : Bank) (k : ClaimKind) : Node :=
  { n with bcu.own := n.bcu.own ++ [⟨b, k, .requested⟩], liu.queue := (queueOffer (.claim b k) n.liu.queue).1 }

/-- What a terminal command meets before its owner has it: BAD_FIELD for a wrong length or for address 0 where that is not
taken, NOT_READY in START_FAULT, no answer and no effect before RUN (file 10 R173, file 11 R186, R187). -/
def CommandGate (kind : BitVec 6) (zeroTaken : Bool) (command : Bits → Instr) : Prop :=
  ∀ (s : State) (bits : Bits) (f : LineFrame), receive bits = some f → arrivalOf s.node.stc.node f = .command kind →
    (kindLength kind ≠ some f.payload.length ∨ (f.destination.toNat = 0 ∧ zeroTaken = false) →
      s.node.stc.phase = .run ∨ s.node.stc.phase = .startFault → exec (command bits) s =
        .next { s with node := offer (.answer f.source.toNat kind .badField 0) s.node }) ∧
    (kindLength kind = some f.payload.length → f.destination.toNat ≠ 0 ∨ zeroTaken = true →
      s.node.stc.phase = .startFault → exec (command bits) s =
        .next { s with node := offer (.answer f.source.toNat kind .notReady 0) s.node }) ∧
    (s.node.stc.phase ≠ .run → s.node.stc.phase ≠ .startFault → exec (command bits) s = .next s)

/-- The exchange in flight is the one of this channel, in a judged cycle, and its answer is in time (file 01 R3, R7). -/
def State.awaits (s : State) (c : Channel) : Prop :=
  ∃ rest since, s.node.isc.cycle = some ⟨c :: rest, true, since⟩ ∧ s.node.now - since ≤ 2

/-- The step goes on: no fault and no refusal. -/
def completes (o : Host.Outcome State Fault Refusal) : Prop := ∃ t, o = .next t

end Sys2Proof.Machine
end

