-- ==== Sys2Proof/Certificates/Slice0/Obligations.lean ====
section
/-! DEFINITION. The statements for the provers. "log n" is notes/assumptions/n.md. -/

open Sys2Proof Sys2Proof.Machine

/-! ## The machine -/

/-- A step with a command at the front of the queue is that command's effect, with the queue's rest waiting. -/
def Obligations.StepRunsTheFrontCommand : Prop :=
  ∀ (c : Instr) (s : State), step { s with pending := c :: s.pending } = exec c s

/-- On an empty queue 1 ms passes: clock, input runs and side ages move on, timer commands wait (the model's choice,
log 1). -/
def Obligations.EmptyQueueLetsOneMillisecondPass : Prop :=
  ∀ s : State, s.pending = [] → ∃ t, step s = .next t ∧
    t.node.now = s.node.now + 1 ∧
    t.pending = (if s.node.stc.phase = .held then [] else s.node.levelsTaken) ++ s.node.later.due ∧
    t.node.stc = s.node.stc ∧ t.node.fcu = s.node.fcu ∧ t.node.bcu = s.node.bcu ∧ t.node.ptb = s.node.ptb ∧
    t.node.hsu = s.node.hsu ∧ t.node.ccu = s.node.ccu ∧ t.node.mpu = s.node.mpu ∧ t.node.rst = s.node.rst ∧
    t.node.liu = s.node.liu ∧ t.node.isc = { s.node.isc with inputs := t.node.isc.inputs } ∧
    t.node.vlr = { s.node.vlr with sideA := t.node.vlr.sideA, sideB := t.node.vlr.sideB } ∧
    t.node.vlr.sideA.data = s.node.vlr.sideA.data ∧ t.node.vlr.sideB.data = s.node.vlr.sideB.data ∧
    (∀ a, s.node.vlr.decoder.isSome = true → s.node.vlr.sideA.age = some a →
      t.node.vlr.sideA.age = some (min (a + 1) 65535)) ∧
    (∀ a, s.node.vlr.decoder.isSome = true → s.node.vlr.sideB.age = some a →
      t.node.vlr.sideB.age = some (min (a + 1) 65535))

/-- File 01 R8: one sample each millisecond, 10 consecutive different samples take the new level, and a start-up sets
the level to the first sample. That the sample is the step on the empty queue (log 1), and that the tenth one takes the
level by the command DI_LEVEL_TAKEN (log 28), is the model's choice. -/
def Obligations.InputsAreTakenAfterTenSamples : Prop :=
  (∀ (s : State) (i : Input), s.pending = [] → s.node.stc.phase ≠ .held → ∃ t, step s = .next t ∧
    (t.node.isc.inputs.get i).raw = (s.node.isc.inputs.get i).raw ∧
    (t.node.isc.inputs.get i).filtered = (s.node.isc.inputs.get i).filtered ∧
    ((s.node.isc.inputs.get i).raw = (s.node.isc.inputs.get i).filtered → (t.node.isc.inputs.get i).run = 0) ∧
    ((s.node.isc.inputs.get i).raw ≠ (s.node.isc.inputs.get i).filtered → (s.node.isc.inputs.get i).run + 1 < 10 →
      (t.node.isc.inputs.get i).run = (s.node.isc.inputs.get i).run + 1) ∧
    ((s.node.isc.inputs.get i).raw ≠ (s.node.isc.inputs.get i).filtered → (s.node.isc.inputs.get i).run + 1 = 10 →
      (t.node.isc.inputs.get i).run = 0 ∧ .diLevelTaken i (s.node.isc.inputs.get i).raw ∈ t.pending)) ∧
  (∀ (s t : State) (i : Input) (level : Bool), s.node.stc.phase ≠ .held → s.node.level i ≠ level →
    exec (.diLevelTaken i level) s = .next t → t.node.level i = level ∧ (t.node.isc.inputs.get i).run = 0) ∧
  (∀ (s t : State) (straps : BitVec 3) (levels : Levels) (i : Input), s.node.stc.phase = .held →
    exec (.startUp straps levels) s = .next t → t.node.level i = levels.get i ∧ (t.node.isc.inputs.get i).run = 0)

/-- No command touches the queue or the node's clock. Queue and clock are the model's own (log 1), and that a start-up
keeps the clock is the model's choice (log 25). -/
def Obligations.CommandsLeaveQueueAndClock : Prop :=
  ∀ (c : Instr) (s t : State), exec c s = .next t → t.pending = s.pending ∧ t.node.now = s.node.now

/-- The configuration values, the node number, the hose class code and the start-up instant hold until the next start-up
(file 11 R181, R183, R185). -/
def Obligations.ConfigurationHoldsUntilStartUp : Prop :=
  ∀ (c : Instr) (s t : State), (∀ k, c ≠ .startUpCause k) → (∀ a b, c ≠ .startUp a b) → (∀ a, c ≠ .configReadDone a) →
    exec c s = .next t →
    t.node.stc.cfg = s.node.stc.cfg ∧ t.node.stc.node = s.node.stc.node ∧
    t.node.stc.hoseCode = s.node.stc.hoseCode ∧ t.node.stc.startedAt = s.node.stc.startedAt

/-- The price table changes only by PRICE and at a start-up (file 08 R149). -/
def Obligations.PricesChangeOnlyByPrice : Prop :=
  ∀ (c : Instr) (s t : State), (∀ k, c ≠ .startUpCause k) → (∀ a b, c ≠ .startUp a b) → (∀ f, c ≠ .price f) →
    exec c s = .next t → t.node.mpu.prices = s.node.mpu.prices

/-- The nonvolatile store changes only at the completion of a write (file 09 R152); start-ups keep it too. -/
def Obligations.StoreChangesOnlyAtWriteCompletions : Prop :=
  ∀ (c : Instr) (s t : State), c ≠ .scanWriteComplete → c ≠ .createWriteComplete → c ≠ .checkpointWriteComplete →
    c ≠ .closeWriteComplete → c ≠ .creepWriteComplete → c ≠ .collectWriteComplete → exec c s = .next t →
    t.node.rst.slots = s.node.rst.slots ∧ t.node.rst.copy1 = s.node.rst.copy1 ∧ t.node.rst.copy2 = s.node.rst.copy2

/-- A set drive latch keeps its cause until an ESD-CLEAR or a start-up (file 01 R10, R14, R15). -/
def Obligations.LatchClearsOnlyByEsdClearOrStartUp : Prop :=
  ∀ (c : Instr) (s t : State) (cause : LatchCause), (∀ k, c ≠ .startUpCause k) → (∀ a b, c ≠ .startUp a b) →
    (∀ f, c ≠ .esdClear f) → exec c s = .next t → s.node.isc.latch = some cause → t.node.isc.latch = some cause

/-- But for start-ups, channel records change only by answers of the converter, input records only by DI_LEVEL_TAKEN, the
side records, group count and captured volume of the vehicle link only by its frames and a coupling, and the frame on the
wire and the fault counts only by the commands of an attempt (file 01 R4 to R8, file 02 R21 to R27, file 10 R167 to R170). -/
def Obligations.RecordsChangeOnlyByTheirCommands : Prop :=
  ∀ (c : Instr) (s t : State), (∀ k, c ≠ .startUpCause k) → (∀ a b, c ≠ .startUp a b) → exec c s = .next t →
    ((∀ e i, c ≠ .converterAnswer e i) → t.node.isc.channels = s.node.isc.channels) ∧
    ((∀ i l, c ≠ .diLevelTaken i l) → t.node.isc.inputs = s.node.isc.inputs) ∧
    ((∀ p, c ≠ .vehicleFrame p) → (∀ i, c ≠ .irRisingEdge i) → c ≠ .quietLineSeen → c ≠ .diLevelTaken .coupled true →
      t.node.vlr.sideA = s.node.vlr.sideA ∧ t.node.vlr.sideB = s.node.vlr.sideB ∧
      t.node.vlr.declared = s.node.vlr.declared ∧ t.node.vlr.volume = s.node.vlr.volume) ∧
    (c ≠ .transmitAttempt → c ≠ .frameSent → (∀ p, c ≠ .arbitrationYield p) → (∀ p, c ≠ .lineFault p) →
      t.node.liu.wire = s.node.liu.wire ∧ t.node.liu.consecutive = s.node.liu.consecutive ∧
      t.node.liu.total = s.node.liu.total)

/-- A timer command that finds its timer stopped, or its time not come, changes nothing (the model's choice, log 2): every
timer row of the table, one ms before its limit too. The 1 s of BANK_SEARCH_RETRY counts from the last search that found
nothing, or from the setting of BANK_WAIT by a margin if that is later (the model's choice, log 59). The valves' travel is in ValvesArriveAfterTheirTravel; the rows that
change nothing at all are in LimitsActWhenTheyAreRead. -/
def Obligations.EarlyTimersChangeNothing : Prop :=
  ∀ s : State,
    (s.node.stc.phase ≠ .warmUp ∨ s.node.now - s.node.stc.phaseSince < 500 → exec .warmUpEnd s = .next s) ∧
    (s.node.stc.phase ≠ .listen ∨ s.node.now - s.node.stc.phaseSince < 1000 → exec .listenEnd s = .next s) ∧
    (s.node.isc.gridNext = none → exec .scanGridInstant s = .next s) ∧
    (∀ g, s.node.isc.gridNext = some g → s.node.now < g → exec .scanGridInstant s = .next s) ∧
    (s.node.isc.cycle = none → exec .exchangeTimeout s = .next s) ∧
    (∀ c, s.node.isc.cycle = some c → s.node.now - c.since < 2 → exec .exchangeTimeout s = .next s) ∧
    (∀ c, s.node.olderThan c 2000 = false → exec (.channelAgeExpiry c) s = .next s) ∧
    (s.node.isc.loop = .normal ∨ s.node.isc.loop = .tripped → exec .recoveryTimerExpiry s = .next s) ∧
    (∀ a, s.node.isc.loop = .recovering a → s.node.now - a < 5000 → exec .recoveryTimerExpiry s = .next s) ∧
    (s.node.vlr.decoder = none → exec .quietLineSeen s = .next s) ∧
    (∀ d, s.node.vlr.decoder = some d → d.quietFrom = none → exec .quietLineSeen s = .next s) ∧
    (∀ d a, s.node.vlr.decoder = some d → d.quietFrom = some a → s.node.now - a ≤ 2 →
      exec .quietLineSeen s = .next s) ∧
    (∀ x, s.node.vlr.link ≠ .valid ∨ s.node.vlr.decoder = none ∨ s.node.vlr.declares x = false →
      exec (.sideSilentExpiry x) s = .next s) ∧
    (∀ x a, (s.node.vlr.side x).age = some a → a < 1000 → exec (.sideSilentExpiry x) s = .next s) ∧
    (s.node.fcu.authSince = none → exec .authorizationTimeout s = .next s) ∧
    (∀ a, s.node.fcu.authSince = some a → s.node.now - a < 120000 → exec .authorizationTimeout s = .next s) ∧
    (s.node.fcu.phase ≠ .checking →
      exec .pulseEnd s = .next s ∧ exec .equalizeEnd s = .next s ∧ exec .holdEnd s = .next s ∧
      exec .rezeroVentTimeout s = .next s) ∧
    (s.node.fcu.stepSince = none →
      exec .pulseEnd s = .next s ∧ exec .equalizeEnd s = .next s ∧ exec .holdEnd s = .next s) ∧
    (∀ a, s.node.fcu.stepSince = some a →
      (s.node.now - a < 1000 → exec .pulseEnd s = .next s) ∧ (s.node.now - a < 2000 → exec .equalizeEnd s = .next s) ∧
      (s.node.now - a < 5000 → exec .holdEnd s = .next s)) ∧
    (s.node.fcu.rezeroVent = none → exec .rezeroVentTimeout s = .next s) ∧
    (∀ a, s.node.fcu.rezeroVent = some a → s.node.now - a < 20000 → exec .rezeroVentTimeout s = .next s) ∧
    (s.node.fcu.phase ≠ .venting → exec .ventTimeout s = .next s) ∧
    (∀ a, s.node.fcu.ventSince = some a → s.node.now - a < 20000 → exec .ventTimeout s = .next s) ∧
    (s.node.fcu.phase.filling = false → exec .controlPeriod s = .next s) ∧
    (∀ g, s.node.fcu.periodNext = some g → s.node.now < g → exec .controlPeriod s = .next s) ∧
    (s.node.fcu.pauses.bankWait = none → exec .bankSearchRetry s = .next s) ∧
    (∀ a, s.node.fcu.searchAt = some a → s.node.now - a < 1000 → exec .bankSearchRetry s = .next s) ∧
    (∀ b k, s.node.bcu.find b k = none → exec (.settleExpiry b k) s = .next s) ∧
    (∀ b k a, s.node.bcu.find b k = some ⟨b, k, .settling a⟩ → s.node.now - a < 150 →
      exec (.settleExpiry b k) s = .next s) ∧
    (∀ x, s.node.ptb.find x = none → exec (.entryStale x) s = .next s ∧ exec (.entryForgotten x) s = .next s) ∧
    (∀ x p, s.node.ptb.find x = some p →
      (p.stale = true ∨ s.node.now - p.last < 350 → exec (.entryStale x) s = .next s) ∧
      (s.node.now - p.last < 2000 → exec (.entryForgotten x) s = .next s)) ∧
    (s.node.hsu.gridNext = none → exec .evaluationTick s = .next s) ∧
    (∀ g, s.node.hsu.gridNext = some g → s.node.now < g → exec .evaluationTick s = .next s) ∧
    (s.node.ccu.surveyNext = none → exec .surveyTick s = .next s) ∧
    (∀ g, s.node.ccu.surveyNext = some g → s.node.now < g → exec .surveyTick s = .next s) ∧
    (s.node.ccu.state = .off →
      exec .startingEnd s = .next s ∧ exec .stoppingEnd s = .next s ∧ exec .lockoutEnd s = .next s ∧
      exec .runTimerExpiry s = .next s) ∧
    (s.node.now - s.node.ccu.since < 5000 → exec .startingEnd s = .next s) ∧
    (s.node.now - s.node.ccu.since < 10000 → exec .stoppingEnd s = .next s) ∧
    (s.node.now - s.node.ccu.since < 600000 → exec .lockoutEnd s = .next s) ∧
    (s.node.ccu.runSince = none → exec .runTimerExpiry s = .next s) ∧
    (∀ a, s.node.ccu.runSince = some a → s.node.now - a < 120000 → exec .runTimerExpiry s = .next s) ∧
    (s.node.ccu.absentSince = none → exec .motorAbsentExpiry s = .next s) ∧
    (∀ a, s.node.ccu.absentSince = some a → s.node.now - a < 2000 → exec .motorAbsentExpiry s = .next s) ∧
    ((∀ a ∈ s.node.ccu.starts, s.node.now - a < 3600000) → exec .startListExpiry s = .next s) ∧
    (s.node.mpu.creepWindow = none → exec .creepWindowClose s = .next s) ∧
    (∀ w, s.node.mpu.creepWindow = some w → s.node.now - w.openedAt < 60000 → exec .creepWindowClose s = .next s) ∧
    (s.node.mpu.quietSince = none → exec .creepQuietExpiry s = .next s) ∧
    (∀ a, s.node.mpu.quietSince = some a → s.node.now - a < 60000 → exec .creepQuietExpiry s = .next s) ∧
    (s.node.liu.silentSince = none → exec .lineSilentEnd s = .next s) ∧
    (∀ a, s.node.liu.silentSince = some a → s.node.now - a < 1000 → exec .lineSilentEnd s = .next s) ∧
    (s.node.liu.statusNext = none → exec .statusTick s = .next s) ∧
    (∀ g, s.node.liu.statusNext = some g → s.node.now < g → exec .statusTick s = .next s) ∧
    (s.node.liu.progressNext = none → exec .progressTick s = .next s) ∧
    (∀ g, s.node.liu.progressNext = some g → s.node.now < g → exec .progressTick s = .next s) ∧
    (s.node.liu.quietSince = none → exec .quietTimer1000 s = .next s ∧ exec .quietTimer1800 s = .next s) ∧
    (∀ a, s.node.liu.quietSince = some a →
      (s.node.now - a < 1000 → exec .quietTimer1000 s = .next s) ∧
      (s.node.now - a < 1800 → exec .quietTimer1800 s = .next s))

/-- Every step keeps the bounds of queues, claims, store, requests, reservation, counts and filters, and every draw
valve that is commanded open has its own draw claim HELD (file 03 R30, file 04 R70, R84, file 06 R106, R110, file 09 R151,
R160, file 10 R169, R170, R174, R176). -/
def Obligations.EveryStepKeepsTheNodeSafe : Prop :=
  ∀ s t : State, s.node.Safe → step s = .next t → t.node.Safe

/-- The node is safe at reset. -/
def Obligations.ResetIsSafe : Prop := State.reset.node.Safe

/-- The target pressure stays within the pressure limit of the hose (file 03 R52). CONFIG_READ_DONE, which hands out the
hose class, acts only in CONFIG_READ, where the target pressure is 0. -/
def Obligations.RampStaysWithinTheHoseLimit : Prop :=
  ∀ (c : Instr) (s t : State), (s.node.stc.phase = .configRead → s.node.fcu.pRamp = 0) → s.node.rampBounded →
    exec c s = .next t → t.node.rampBounded

/-- Reception reads from the line the frame that was sent, fill bits and check included; and a frame whose end field a
start symbol cuts short is discarded for the frame that this symbol begins (file 12 R188, file 10 R171). That a fill bit
also follows the last bit of the CRC-16 where a run of six ends there is the model's reading (log 27). -/
def Obligations.ReceptionReadsWhatWasSent : Prop :=
  ∀ f : LineFrame, 1 ≤ f.source.toNat → f.source.toNat ≤ 12 → f.destination.toNat ≤ 12 → f.payload.length ≤ 32 →
    receive (wireBits f) = some f ∧
    ∀ (cut : LineFrame) (k : Nat), cut.payload.length ≤ 32 → 1 ≤ k → k < 8 →
      receive (startSymbol ++ stuff true 1 (checkedBits cut ++ bitsOf (crc16 (checkedBits cut))) ++
        List.replicate k true ++ wireBits f) = some f

/-- A step stops only by a name of its own: the fault noSlot, for a START press with no slot to take (log 24), and the
refusal otherFrame, for bits of another row's frame (log 7). The model's choice, both. -/
def Obligations.CommandsStopOnlyByName : Prop :=
  ∀ (c : Instr) (s : State), completes (exec c s) ∨
    (exec c s = .fault .noSlot ∧ c = .diLevelTaken .start true ∧ s.node.inRun = true ∧ s.node.startTaken = true ∧
      s.node.rst.chooseSlot = none) ∨
    (exec c s = .refused .otherFrame ∧ ∃ bits f, receive bits = some f ∧
      c ∈ [Instr.esdClear bits, .authorize bits, .stop bits, .peerStatus bits, .peerClaim bits, .peerRelease bits,
        .peerHeat bits, .conflictFrame bits, .price bits, .query bits, .collect bits, .readTotals bits])

/-! ## Start-up (file 11) -/

/-- START_UP_CAUSE holds the part: valves commanded closed, every block at its start-up values, the store kept (R181). That
the blocks take those values at the cause (log 30), that the inputs count as inactive through the hold, and that clock and
valve travels go on through it (log 25), is the model's choice. -/
def Obligations.StartUpCauseHoldsThePart : Prop :=
  ∀ (cause : StartCause) (s : State), ∃ t, exec (.startUpCause cause) s = .next t ∧
    t.node.stc.phase = .held ∧ cause ∈ t.node.stc.causes ∧ (∀ c ∈ s.node.stc.causes, c ∈ t.node.stc.causes) ∧
    (∀ v : Valve, (t.node.valve v).opened = false) ∧ t.node.fcu.phase = .idle ∧ t.node.fcu.auth = none ∧
    t.node.isc = .startUp .inactive ∧ t.node.esDrive = false ∧ t.node.cmRun = false ∧
    t.node.fcu = { Fcu.startUp with vb := t.node.fcu.vb, vvent := t.node.fcu.vvent } ∧
    t.node.vlr = .startUp ∧ t.node.bcu = .startUp ∧ t.node.ptb = .startUp ∧ t.node.hsu = .startUp ∧
    t.node.ccu = { Ccu.startUp s.node.now with vr := t.node.ccu.vr, vdir := t.node.ccu.vdir } ∧
    t.node.ccu.state = .off ∧ t.node.ccu.starts = [] ∧ t.node.mpu = .startUp ∧ t.node.rst = .startUp s.node.rst ∧
    t.node.liu = .startUp ∧ t.node.now = s.node.now ∧ t.pending = s.pending

/-- File 01 R15, at the START_UP that ends the hold, and the node number of the straps: with no breakaway the latch is
clear, ES_DRV releases the loop, and the loop state is that of the first raw sample. An active breakaway level sets the
latch at once (R10). START_UP without a hold has no effect (the model's choice, log 30). -/
def Obligations.StartUpTakesStrapsAndInputs : Prop :=
  (∀ (straps : BitVec 3) (levels : Levels) (s : State), s.node.stc.phase = .held →
    ∃ t, exec (.startUp straps levels) s = .next t ∧
      t.node.stc.phase = .configRead ∧ t.node.stc.causes = [] ∧ t.node.stc.node = straps.toNat + 1 ∧
      t.node.stc.startedAt = s.node.now ∧ t.node.stc.conflict = false ∧
      (∀ i, t.node.isc.inputs.get i = ⟨levels.get i, levels.get i, 0⟩) ∧
      t.node.isc.channels = .startUp ∧ t.node.isc.cycle = none ∧ t.node.isc.overMark = false ∧
      (levels.breakaway = false → t.node.isc.latch = none ∧ t.node.esDrive = false ∧
        t.node.isc.loop = if levels.loop then .tripped else .normal) ∧
      (levels.breakaway = true → t.node.isc.latch = some .breakaway ∧ t.node.esDrive = true ∧
        t.node.isc.loop = .tripped) ∧
      t.node.rst.slots = s.node.rst.slots ∧ t.node.now = s.node.now) ∧
  (∀ (straps : BitVec 3) (levels : Levels) (s : State), s.node.stc.phase ≠ .held →
    exec (.startUp straps levels) s = .next s)

/-- CHECK passes: the values are handed out and the store scan begins; it fails: START_FAULT with a first STATUS (R184 to
R186). -/
def Obligations.ConfigurationIsChecked : Prop :=
  ∀ (block : List Byte) (s : State), s.node.stc.phase = .configRead →
    (∀ cfg, readConfig block = some cfg →
      exec (.configReadDone block) s = .next { s with node := { s.node with
        stc := { s.node.stc with
          phase := .storeScan, cfg := cfg, hoseCode := configByte block 0 / 16, phaseSince := s.node.now }
        rst := s.node.rst.scanBegin } }) ∧
    (readConfig block = none →
      exec (.configReadDone block) s = .next { s with node := offer .status { s.node with
        stc := { s.node.stc with
          phase := .startFault, hoseCode := configByte block 0 / 16, phaseSince := s.node.now }
        liu.statusNext := some (s.node.now + 100) } })

/-- A block that passes CHECK satisfies the four tests of R184, and every value handed out lies in its range (R185). -/
def Obligations.ConfigurationValuesAreInRange : Prop :=
  ∀ (block : List Byte) (c : Cfg), readConfig block = some c →
    ((List.range 32).map (configByte block)).sum % 256 = 0 ∧
    (configByte block 0 / 16 = 1 ∧ c.hose = .car70 ∨ configByte block 0 / 16 = 2 ∧ c.hose = .bus35) ∧
    2 ≤ c.bankCount ∧ c.bankCount ≤ 4 ∧
    (∀ b : Bank, b.num ≤ c.bankCount → 2000 ≤ c.nominal.get b ∧ c.nominal.get b ≤ 9500) ∧
    (∀ a b : Bank, a.num < b.num → b.num ≤ c.bankCount → c.nominal.get a < c.nominal.get b) ∧
    (∀ b : Bank, 1 ≤ c.drawLimit.get b ∧ c.drawLimit.get b ≤ 3) ∧
    100 ≤ c.hysteresis ∧ c.hysteresis ≤ 1000 ∧ 1 ≤ c.maxStarts ∧ c.maxStarts ≤ 12 ∧
    10 ≤ c.directFlow ∧ c.directFlow ≤ 400 ∧ 10000 ≤ c.capacity ∧ c.capacity ≤ 250000 ∧
    (c.hose = .car70 → 50 ≤ c.peakFlow ∧ c.peakFlow ≤ 600) ∧
    (c.hose = .bus35 → 100 ≤ c.peakFlow ∧ c.peakFlow ≤ 1500) ∧
    800 ≤ c.commTarget ∧ c.commTarget ≤ 1000 ∧ 700 ≤ c.nonCommTarget ∧ c.nonCommTarget ≤ 950 ∧
    2332 ≤ c.tSet ∧ c.tSet ≤ 2532 ∧ 1 ≤ c.pulseWeight ∧ c.pulseWeight ≤ 100 ∧
    5 ≤ c.deadVolume ∧ c.deadVolume ≤ 200 ∧ 200 ≤ c.carrier ∧ c.carrier ≤ 333

/-- STORE_SCAN_END, WARM_UP_END and LISTEN_END lead to WARM_UP with a first scan cycle that is not judged, to LISTEN, and
to RUN with its grids, the quiet timer and a first STATUS (R182, R187). That the first survey comes one period after the
start of RUN is the model's reading (log 12). -/
def Obligations.StartPhasesFollowOneAnother : Prop :=
  (∀ s : State, s.node.stc.phase = .storeScan → s.node.rst.scan = some .complete →
    exec .storeScanEnd s = .next { s with node := { s.node with
      stc := { s.node.stc with phase := .warmUp, phaseSince := s.node.now }
      isc := { s.node.isc with
        gridNext := some (s.node.now + 20)
        cycle := some ⟨scanOrder s.node.stc.cfg.bankCount, false, s.node.now⟩ } } }) ∧
  (∀ s : State, s.node.stc.phase = .warmUp → 500 ≤ s.node.now - s.node.stc.phaseSince →
    exec .warmUpEnd s = .next { s with node := { s.node with
      stc := { s.node.stc with phase := .listen, phaseSince := s.node.now } } }) ∧
  (∀ s : State, s.node.stc.phase = .listen → 1000 ≤ s.node.now - s.node.stc.phaseSince →
    exec .listenEnd s = .next { s with node := offer .status { s.node with
      stc := { s.node.stc with phase := .run, phaseSince := s.node.now }
      vlr := { s.node.vlr with
        decoder := if s.node.level .coupled then some ⟨.discarding, none, some s.node.now⟩ else none }
      ccu := { s.node.ccu with surveyNext := some (s.node.now + 1000) }
      liu := { s.node.liu with quietSince := some s.node.now, statusNext := some (s.node.now + 100) } } })

/-- SCAN_WRITE_COMPLETE writes what the scan asked for: a repaired totals area, a slot FREE with the lost count raised, a
slot DAMAGED, an OPEN record CLOSED with its end reason INTERRUPTED, or the last number issued; and nothing else of the
slots (file 09 R164, R165). The header of a slot made FREE holds number 0 and count 0, and its body stays (the model's
choice, log 39). The scan then goes on behind that slot: the first slot from there on whose header fails is made FREE next,
a CLOSED or OPEN one with a failed body DAMAGED, an OPEN one with a sound body is closed, the others keep their state; after
slot 64 the last number is written where the totals restarted, and the table is built. The scan begins with the totals copy
written last, with the one sound copy, which a write copies over the other, or with totals of 0. That the repair copies the
write count too and comes before the slots (log 17), and that after a restart the write count goes on from 0 (log 51), is
the model's choice. -/
def Obligations.ScanWritesTakeEffect : Prop :=
  (∀ s : State, s.node.stc.phase = .storeScan →
    (∀ c, s.node.rst.write = some (.scanTotals c) → ∃ t, exec .scanWriteComplete s = .next t ∧
      t.node.rst.copy1 = c ∧ t.node.rst.copy2 = c ∧ t.node.rst.slots = s.node.rst.slots ∧
      t.node.rst = Rst.scanFrom { s.node.rst with copy1 := c, copy2 := c, write := none } 0) ∧
    (∀ i, s.node.rst.write = some (.scanFree i) → ∃ t, exec .scanWriteComplete s = .next t ∧
      t.node.rst.slots = s.node.rst.slots.modify i (fun x => x.withHeader .free 0 0) ∧
      t.node.rst.lost = s.node.rst.lost + 1 ∧
      t.node.rst = Rst.scanFrom { s.node.rst with
        slots := t.node.rst.slots, lost := s.node.rst.lost + 1, write := none } (i + 1)) ∧
    (∀ i, s.node.rst.write = some (.scanDamaged i) → ∃ t, exec .scanWriteComplete s = .next t ∧
      t.node.rst.slots = s.node.rst.slots.modify i (fun x => x.withHeader .damaged x.txn x.count) ∧
      t.node.rst.lost = s.node.rst.lost ∧
      t.node.rst = Rst.scanFrom { s.node.rst with slots := t.node.rst.slots, write := none } (i + 1)) ∧
    (∀ i txn count body, s.node.rst.write = some (.scanClose i) →
      s.node.rst.slots[i]? = some (.make .opened txn count body) → body.gross < 16777216 → body.unitPrice < 16777216 →
      ∃ t, exec .scanWriteComplete s = .next t ∧
        t.node.rst.slots = s.node.rst.slots.set i (.make .closed txn (min (count + 1) 65535)
          { body with
            endReason := some .interrupted, flags := { body.flags with interrupted := true }, vent := 0,
            net := body.gross, amount := (body.gross * body.unitPrice + 500000) / 1000000 }) ∧
        t.node.rst.copy1 = t.node.rst.copy2 ∧ t.node.rst.copy1.sums.gross = s.node.rst.totals.sums.gross ∧
        t.node.rst.copy1.sums.net = (s.node.rst.totals.sums.net + body.gross) % 1000000000000 ∧
        t.node.rst.copy1.sums.amount = (s.node.rst.totals.sums.amount +
          (body.gross * body.unitPrice + 500000) / 1000000) % 1000000000000 ∧
        t.node.rst = Rst.scanFrom { s.node.rst with
          slots := t.node.rst.slots, copy1 := t.node.rst.copy1, copy2 := t.node.rst.copy1,
          totals := t.node.rst.copy1, write := none } (i + 1)) ∧
    (s.node.rst.write = some .scanLast → ∃ t, exec .scanWriteComplete s = .next t ∧
      t.node.rst.copy1.last = highestNumber s.node.rst.slots ∧ t.node.rst.slots = s.node.rst.slots ∧
      (∀ x ∈ s.node.rst.slots, x.state ≠ .free → x.txn ≤ t.node.rst.copy1.last) ∧
      (t.node.rst.copy1.last = 0 ∨ ∃ x ∈ s.node.rst.slots, x.state ≠ .free ∧ x.txn = t.node.rst.copy1.last) ∧
      (s.node.rst.scan = some (.atSlot 65) → t.node.rst = { s.node.rst with
        copy1 := t.node.rst.copy1, copy2 := t.node.rst.copy1, totals := t.node.rst.copy1, write := none
        table := s.node.rst.slots.map fun x => ⟨x.state, x.txn⟩
        lastIssued := t.node.rst.copy1.last, scan := some .complete }))) ∧
  (∀ (r : Rst) (i : Nat),
    let kept := fun x : StoredSlot => x.headerSound = true ∧
      (x.state = .free ∨ x.state = .collected ∨ x.state = .damaged ∨ (x.state = .closed ∧ x.bodySound = true))
    (∀ j x, i ≤ j → r.slots[j]? = some x → (∀ k y, i ≤ k → k < j → r.slots[k]? = some y → kept y) →
      (x.headerSound = false → r.scanFrom i = { r with write := some (.scanFree j), scan := some (.atSlot j) }) ∧
      (x.headerSound = true → x.state = .closed ∨ x.state = .opened → x.bodySound = false →
        r.scanFrom i = { r with write := some (.scanDamaged j), scan := some (.atSlot j) }) ∧
      (x.headerSound = true → x.state = .opened → x.bodySound = true →
        r.scanFrom i = { r with write := some (.scanClose j), scan := some (.atSlot j) })) ∧
    ((∀ k y, i ≤ k → r.slots[k]? = some y → kept y) →
      (r.restarted = true → r.write = none → r.scan ≠ some (.atSlot 65) →
        r.scanFrom i = { r with write := some .scanLast, scan := some (.atSlot 65) }) ∧
      (r.restarted = false → r.scanFrom i = { r with
        table := r.slots.map fun x => ⟨x.state, x.txn⟩, lastIssued := r.totals.last, scan := some .complete }))) ∧
  (∀ r : Rst,
    (r.copy1.sound = true → r.copy2.sound = true → r.scanBegin = Rst.scanFrom { r with
      totals := if r.copy2.writes = (r.copy1.writes + 1) % 65536 then r.copy2 else r.copy1
      lost := 0, restarted := false } 0) ∧
    (r.copy1.sound = true → r.copy2.sound = false → r.scanBegin = { r with
      totals := r.copy1, lost := 0, restarted := false, write := some (.scanTotals r.copy1)
      scan := some (.atSlot 0) }) ∧
    (r.copy1.sound = false → r.copy2.sound = true → r.scanBegin = { r with
      totals := r.copy2, lost := 0, restarted := false, write := some (.scanTotals r.copy2)
      scan := some (.atSlot 0) }) ∧
    (r.copy1.sound = false → r.copy2.sound = false → ∃ c : TotalsCopy, c.sums = ⟨0, 0, 0, 0⟩ ∧ c.writes = 0 ∧
      r.scanBegin = Rst.scanFrom { r with totals := c, lost := 0, restarted := true } 0))

/-! ## Input scanner (file 01) -/

/-- A grid instant starts a cycle or marks one as pending, and stays on the grid; an exchange without an answer for 2 ms is
followed by the next one, by the pending cycle, or by none (R2, R3). That an EXCHANGE_TIMEOUT before the 2 ms changes
nothing, the last clause, is the model's choice (log 2). -/
def Obligations.ScanCyclesRunOnTheGrid : Prop :=
  (∀ (s : State) (g : Nat), s.node.isc.gridNext = some g → g ≤ s.node.now → s.node.isc.cycle.isSome = true →
    exec .scanGridInstant s = .next { s with node := { s.node with
      isc := { s.node.isc with gridNext := some (g + 20), pendingCycle := true } } }) ∧
  (∀ (s : State) (g : Nat), s.node.isc.gridNext = some g → g ≤ s.node.now → s.node.isc.cycle = none →
    exec .scanGridInstant s = .next { s with node := { s.node with
      isc := { s.node.isc with
        gridNext := some (g + 20)
        cycle := some ⟨scanOrder s.node.stc.cfg.bankCount, s.node.hears, s.node.now⟩ } } }) ∧
  (∀ (s : State) (a b : Channel) (rest : List Channel) (j : Bool) (r : Nat),
    s.node.isc.cycle = some ⟨a :: b :: rest, j, r⟩ → 2 ≤ s.node.now - r →
    exec .exchangeTimeout s = .next { s with node := { s.node with
      isc := { s.node.isc with cycle := some ⟨b :: rest, j, s.node.now⟩ } } }) ∧
  (∀ (s : State) (a : Channel) (j : Bool) (r : Nat), s.node.isc.cycle = some ⟨[a], j, r⟩ → 2 ≤ s.node.now - r →
    exec .exchangeTimeout s = .next { s with node := { s.node with
      isc := { s.node.isc with
        pendingCycle := false
        cycle := if s.node.isc.pendingCycle then
            some ⟨scanOrder s.node.stc.cfg.bankCount, s.node.hears, s.node.now⟩
          else none } } }) ∧
  (∀ (s : State) (c : Cycle), s.node.isc.cycle = some c → s.node.now - c.since < 2 →
    exec .exchangeTimeout s = .next s)

/-- File 01 R4: an in-range answer sets value, age 0 and health OK; one outside the band sets health FAILED and leaves
value and age. No other record changes, and an answer with another echo, or in a cycle that began in WARM_UP, changes no
record (R3, R7). An answer that comes later than 2 ms after its request is not read (R3). -/
def Obligations.AnswersAreJudgedOnTheirCurrent : Prop :=
  (∀ (s : State) (ch : Channel) (rest : List Channel) (echo : Nat) (i : BitVec 16) (r : Nat),
    s.node.isc.cycle = some ⟨ch :: rest, true, r⟩ → s.node.now - r ≤ 2 → ∃ t, exec (.converterAnswer echo i) s = .next t ∧
      (∀ d, d ≠ ch → t.node.chan d = s.node.chan d) ∧
      (echo ≠ converterInput ch → t.node.chan ch = s.node.chan ch) ∧
      (echo = converterInput ch → 3600 ≤ i.toNat → i.toNat ≤ 21000 →
        t.node.chan ch =
          ⟨some ((span ch).1 +
              ((max 4000 (min i.toNat 20000) - 4000) * ((span ch).2 - (span ch).1) + 8000) / 16000),
            some s.node.now, .ok⟩) ∧
      (echo = converterInput ch → i.toNat < 3600 ∨ 21000 < i.toNat →
        t.node.chan ch = { s.node.chan ch with health := .failed })) ∧
  (∀ (s : State) (left : List Channel) (echo : Nat) (i : BitVec 16) (r : Nat),
    s.node.isc.cycle = some ⟨left, false, r⟩ → ∃ t, exec (.converterAnswer echo i) s = .next t ∧
      t.node.isc.channels = s.node.isc.channels) ∧
  (∀ (s : State) (c : Cycle) (echo : Nat) (i : BitVec 16), s.node.isc.cycle = some c → 2 < s.node.now - c.since →
    exec (.converterAnswer echo i) s = .next s)

/-- P_C or T_C older than 2,000 ms, becoming FAILED, a T_C sample of 160.0 °C or more, and a motor absent for 2,000 ms lock
a running or stopping compressor out, with its valves commanded closed (file 07 R130, R131). That the age expiry of another
channel changes nothing by itself, the last clause, is the model's choice (log 29). -/
def Obligations.LockoutCausesLockTheCompressorOut : Prop :=
  (∀ (s : State) (c : Channel), c = .pC ∨ c = .tC → s.node.olderThan c 2000 = true →
    s.node.cmRun = true ∨ s.node.ccu.state = .stopping → ∃ t, exec (.channelAgeExpiry c) s = .next t ∧
      t.node.ccu.state = .lockout ∧ t.node.ccu.since = s.node.now ∧ t.node.ccu.runSince = none ∧
      t.node.ccu.absentSince = none ∧ t.node.ccu.direct = .none ∧ t.node.ccu.vdir.opened = false ∧
      (∀ b : Bank, (t.node.ccu.vr.get b).opened = false) ∧ t.node.ccu.starts = s.node.ccu.starts) ∧
  (∀ (s : State) (a : Nat), s.node.ccu.absentSince = some a → 2000 ≤ s.node.now - a →
    s.node.cmRun = true ∨ s.node.ccu.state = .stopping → ∃ t, exec .motorAbsentExpiry s = .next t ∧
      t.node.ccu.state = .lockout ∧ t.node.ccu.since = s.node.now ∧ t.node.ccu.runSince = none ∧
      t.node.ccu.absentSince = none ∧ t.node.ccu.direct = .none ∧ t.node.ccu.vdir.opened = false ∧
      (∀ b : Bank, (t.node.ccu.vr.get b).opened = false) ∧ t.node.ccu.starts = s.node.ccu.starts) ∧
  (∀ (s : State) (c : Channel) (i : BitVec 16), s.awaits c → s.node.cmRun = true ∨ s.node.ccu.state = .stopping →
    (c = .tC ∧ 3600 ≤ i.toNat ∧ i.toNat ≤ 21000 ∧ 4332 ≤ codeOfCurrent .tC i.toNat) ∨
      ((c = .pC ∨ c = .tC) ∧ (i.toNat < 3600 ∨ 21000 < i.toNat) ∧ (s.node.chan c).health = .ok) →
    ∃ t, exec (.converterAnswer (converterInput c) i) s = .next t ∧
      t.node.ccu.state = .lockout ∧ t.node.ccu.since = s.node.now ∧ t.node.ccu.direct = .none ∧
      t.node.ccu.vdir.opened = false ∧ (∀ b : Bank, (t.node.ccu.vr.get b).opened = false)) ∧
  (∀ (s : State) (c : Channel), c ≠ .pC → c ≠ .tC → exec (.channelAgeExpiry c) s = .next s)

/-- DI_LEVEL_TAKEN: the input's level, with the trip of an active breakaway (R8, R10, R12) and the link reset of a
coupling in RUN (file 02 R27). The loop input opens and closes the loop (R12), with the trip event for compressor and fill
(R13, file 03 R34, R59); in RUN a STOP press ends a fill or an authorization (file 03 R37), holstering leads from DONE to
IDLE (file 03 R64), decoupling stops the decoder and ends a fill (file 02 R16, file 03 R59), a breakaway ends a fill
(R59); a trip stops the compressor (file 07 R132), the motor-running level starts and stops the motor-absent timer
(file 07 R130); and every other level has no effect but itself. -/
def Obligations.LevelsAreTakenWithTheirEffects : Prop :=
  ∀ (s : State) (i : Input) (level : Bool), s.node.stc.phase ≠ .held → s.node.level i ≠ level →
    (i = .start → level = true → s.node.startTaken = true → s.node.rst.chooseSlot.isSome = true) →
    let m : Node := { s.node with isc := { s.node.isc with inputs := s.node.isc.inputs.set i ⟨level, level, 0⟩ } }
    let idle : Fcu := { Fcu.startUp with
      vb := s.node.fcu.vb, vvent := s.node.fcu.vvent, relOnClose := s.node.fcu.relOnClose }
    let ended := fun (n : Node) => (n.fcu.phase = .closing ∨ n.fcu.phase = .venting) ∧ n.fcu.fCmd = 0 ∧
      n.fcu.periodNext = none ∧ ∀ b : Bank, (n.fcu.vb.get b).opened = false
    ∃ t, exec (.diLevelTaken i level) s = .next t ∧
      t.node.isc.inputs.get i = ⟨level, level, 0⟩ ∧
      (∀ j, j ≠ i → t.node.isc.inputs.get j = s.node.isc.inputs.get j) ∧
      (i = .breakaway → level = true → s.node.isc.latch = none →
        t.node.isc.latch = some .breakaway ∧ t.node.isc.loop = .tripped) ∧
      (i = .breakaway → level = true → ∀ c, s.node.isc.latch = some c → t.node.isc = m.isc) ∧
      (i = .breakaway → level = true → s.node.inRun = true → s.node.fcu.phase.filling = true →
        ended t.node ∧ t.node.fcu.endReason = some .breakaway) ∧
      (i = .coupled → level = true → s.node.inRun = true →
        t.node.vlr = ⟨some ⟨.discarding, none, some s.node.now⟩, ⟨none, none, none⟩, ⟨none, none, none⟩, none, none, .absent⟩ ∧
        t.node = { m with vlr := t.node.vlr }) ∧
      (i = .coupled → level = false → s.node.inRun = true →
        t.node.vlr = { s.node.vlr with decoder := none } ∧
        (s.node.fcu.phase.filling = false → t.node = { m with vlr := t.node.vlr }) ∧
        (s.node.fcu.phase.filling = true → ended t.node ∧
          (s.node.isc.loop ≠ .tripped → s.node.isc.latch = none → s.node.level .breakaway = false →
            s.node.validCommand ≠ some .abort → t.node.fcu.endReason = some .disconnect))) ∧
      (i = .start → level = true → s.node.inRun = true → s.node.startTaken = true →
        t.node.fcu.phase = .checking ∧ t.node.fcu.attempt = 1 ∧ t.node.fcu.startedAt = s.node.now ∧
        t.node.mpu.windowOpen = true ∧ t.node.mpu.gross = 0) ∧
      (i = .stop → level = true → s.node.inRun = true →
        (s.node.fcu.phase.filling = true → t.node = endFill .stopLocal m ∧ ended t.node ∧
          t.node.fcu.endReason = some .stopLocal) ∧
        (s.node.fcu.phase = .authorized → t.node = { m with fcu := idle }) ∧
        (s.node.fcu.phase.filling = false → s.node.fcu.phase ≠ .authorized → t.node = m)) ∧
      (i = .holstered → level = true → s.node.inRun = true → s.node.fcu.phase = .done →
        t.node = { m with fcu := idle }) ∧
      (i = .loop → level = true ∨ s.node.isc.latch.isSome = true → s.node.isc.loop ≠ .tripped →
        t.node.isc = { m.isc with loop := .tripped } ∧
        t.node.ccu.state = (if s.node.cmRun = true then .stopping else s.node.ccu.state) ∧
        (s.node.fcu.phase = .authorized → t.node.fcu = idle) ∧
        (s.node.fcu.phase.filling = true → ended t.node ∧
          (s.node.isc.latch = none → t.node.fcu.endReason = some .esd)) ∧
        (s.node.fcu.phase.filling = false → s.node.fcu.phase ≠ .authorized → t.node.fcu = s.node.fcu)) ∧
      (i = .loop → level = false → s.node.isc.loop = .tripped → s.node.isc.latch = none →
        t.node = { m with isc := { m.isc with loop := .recovering s.node.now } }) ∧
      (i = .motorRun → s.node.cmRun = true →
        t.node = { m with ccu := { s.node.ccu with absentSince := if level then none else some s.node.now } }) ∧
      ((i = .loop ∧ (level = true ∨ s.node.isc.latch.isSome = true) ∧ s.node.isc.loop = .tripped) ∨
          (i = .loop ∧ level = false ∧ s.node.isc.latch = none ∧ s.node.isc.loop ≠ .tripped) ∨
          (i = .motorRun ∧ s.node.cmRun = false) ∨ (i = .breakaway ∧ level = false) ∨ i = .meterFault ∨
          (i = .start ∧ (level = false ∨ s.node.inRun = false ∨ s.node.startTaken = false)) ∨
          (i = .stop ∧ (level = false ∨ s.node.inRun = false)) ∨ (i = .coupled ∧ s.node.inRun = false) ∨
          (i = .holstered ∧ (level = false ∨ s.node.inRun = false ∨ s.node.fcu.phase ≠ .done)) →
        t.node = m)

/-- RECOVERY_TIMER_EXPIRY ends RECOVERING after 5,000 ms (R12); an accepted P_H sample above the threshold sets the
overpressure mark and trips the loop (R11), and one that fell by more than 5.00 MPa within 1,000 ms with flow commanded
trips it as a rupture (file 03 R54); ESD-CLEAR clears the latch unless the breakaway level or the overpressure mark holds
it, and answers OK or BUSY (R14), or the LIU answers it (file 10 R173, file 11 R186, R187). -/
def Obligations.LoopRecoversAndLatchClears : Prop :=
  (∀ (s : State) (a : Nat), s.node.isc.loop = .recovering a → 5000 ≤ s.node.now - a →
    exec .recoveryTimerExpiry s = .next { s with node := { s.node with isc := { s.node.isc with loop := .normal } } }) ∧
  (∀ (s : State) (i : BitVec 16) (v : Nat), s.awaits .pH → 3600 ≤ i.toNat → i.toNat ≤ 21000 →
    v = codeOfCurrent .pH i.toNat → ∃ t, exec (.converterAnswer 0 i) s = .next t ∧
      (hoseLimit s.node.stc.cfg.hose + 200 < v → t.node.isc.overMark = true ∧
        (s.node.isc.latch = none → t.node.isc.latch = some .overpressure ∧ t.node.isc.loop = .tripped)) ∧
      (v ≤ hoseLimit s.node.stc.cfg.hose + 200 → t.node.isc.overMark = false ∧
        (s.node.isc.latch = none → 0 < s.node.fcu.fCmd →
          (∃ p ∈ s.node.fcu.window, s.node.now - p.2 ≤ 1000 ∧ v + 500 < p.1) →
          t.node.isc.latch = some .hoseRupture ∧ t.node.isc.loop = .tripped ∧
            (s.node.fcu.phase.filling = true → t.node.fcu.phase.filling = false)) ∧
        (s.node.fcu.fCmd = 0 ∨ (∀ p ∈ s.node.fcu.window, 1000 < s.node.now - p.2 ∨ p.1 ≤ v + 500) →
          t.node.isc.latch = s.node.isc.latch ∧ t.node.isc.loop = s.node.isc.loop))) ∧
  (∀ (s : State) (bits : Bits) (f : LineFrame), receive bits = some f →
    arrivalOf s.node.stc.node f = .command kindEsdClear → s.node.stc.phase = .run → badField false f = false →
    (s.node.isc.latch = none → exec (.esdClear bits) s =
      .next { s with node := offer (.answer f.source.toNat kindEsdClear .ok 0) s.node }) ∧
    (s.node.isc.latch.isSome = true → s.node.level .breakaway = true ∨ s.node.isc.overMark = true →
      exec (.esdClear bits) s =
        .next { s with node := offer (.answer f.source.toNat kindEsdClear .busy 0) s.node }) ∧
    (s.node.isc.latch.isSome = true → s.node.level .breakaway = false → s.node.isc.overMark = false →
      s.node.isc.loop = .tripped → exec (.esdClear bits) s =
        .next { s with node := offer (.answer f.source.toNat kindEsdClear .ok 0) { s.node with
          isc := { s.node.isc with
            latch := none
            loop := if s.node.level .loop then .tripped else .recovering s.node.now } } })) ∧
  CommandGate kindEsdClear false .esdClear

/-! ## Vehicle link (file 02) -/

/-- A vehicle frame that passes the checks: a new one replaces the data of its side with age 0, a repeat or another group
count changes no record; the other side stays (R20 to R22). A new frame in ABSENT that leaves every declared side fresh
makes the link VALID and captures the tank volume (R23). A decoder in DISCARDING goes to IDLE and takes no frame given to
it whole (the model's choice, log 8). -/
def Obligations.VehicleFramesUpdateTheirSide : Prop :=
  ∀ (s : State) (bytes : List Byte) (f : VehicleFields) (d : Decoder), s.node.vlr.decoder = some d →
    readVehicle bytes = some f → ∃ t, exec (.vehicleFrame bytes) s = .next t ∧
      t.node.vlr.decoder = some ⟨.idle, none, none⟩ ∧
      (d.mode ≠ .discarding → s.node.vlr.declared = none ∨ s.node.vlr.declared = some f.groups →
        (s.node.vlr.side f.side).sequence ≠ some f.sequence →
        t.node.vlr.side f.side = ⟨some f.data, some f.sequence, some 0⟩ ∧ t.node.vlr.declared = some f.groups ∧
        (∀ x, x ≠ f.side → t.node.vlr.side x = s.node.vlr.side x) ∧
        (s.node.vlr.link = .absent → t.node.vlr.allFresh = true → t.node.vlr.link = .valid ∧
          t.node.vlr.volume =
            some ((t.node.vlr.declaredSides.map fun r => (r.data.map (·.volume)).getD 0).sum)) ∧
        (s.node.vlr.link ≠ .absent ∨ t.node.vlr.allFresh = false →
          t.node.vlr.link = s.node.vlr.link ∧ t.node.vlr.volume = s.node.vlr.volume)) ∧
      (d.mode = .discarding ∨ (s.node.vlr.declared ≠ none ∧ s.node.vlr.declared ≠ some f.groups) ∨
          (s.node.vlr.side f.side).sequence = some f.sequence →
        t.node.vlr.sideA = s.node.vlr.sideA ∧ t.node.vlr.sideB = s.node.vlr.sideB ∧
        t.node.vlr.link = s.node.vlr.link)

/-- File 02 R20: exactly the frames with the start byte, a sound CRC-8, version 1, a known side that the group count
allows, a volume in range and a command code (its complement matching) pass, whatever P_v and T_v they carry; what they
carry is taken as sent. A discarded frame has no effect on records, ages or link state. -/
def Obligations.VehicleFramesAreChecked : Prop :=
  (∀ p : List Byte, (readVehicle p).isSome = true ↔
    p.length = 14 ∧ fieldAt p 0 1 = 0xA5 ∧ byteAt p 13 = crc8 (bitsOfBytes (p.take 13)) ∧ fieldAt p 4 1 = 1 ∧
    (fieldAt p 1 1 = 0x41 ∨ fieldAt p 1 1 = 0x42) ∧ (fieldAt p 2 1 = 1 ∨ fieldAt p 2 1 = 2) ∧
    ¬(fieldAt p 1 1 = 0x42 ∧ fieldAt p 2 1 = 1) ∧ fieldAt p 5 2 ≠ 0 ∧ fieldAt p 5 2 ≤ 9999 ∧
    (fieldAt p 11 1 = 1 ∨ fieldAt p 11 1 = 2 ∨ fieldAt p 11 1 = 3) ∧ byteAt p 12 = ~~~(byteAt p 11)) ∧
  (∀ (p : List Byte) (f : VehicleFields), readVehicle p = some f →
    (f.side = .a ↔ fieldAt p 1 1 = 0x41) ∧ f.groups = fieldAt p 2 1 ∧ f.sequence = fieldAt p 3 1 % 16 ∧
    f.data.volume = fieldAt p 5 2 ∧ f.data.pressure = fieldAt p 7 2 ∧ f.data.temperature = fieldAt p 9 2 ∧
    (f.data.command = .run ↔ fieldAt p 11 1 = 1) ∧ (f.data.command = .halt ↔ fieldAt p 11 1 = 2)) ∧
  (∀ (s : State) (p : List Byte), readVehicle p = none → ∃ d, exec (.vehicleFrame p) s =
    .next { s with node := { s.node with vlr := { s.node.vlr with decoder := d } } })

/-- SIDE_SILENT_EXPIRY: a VALID link whose declared side has gone 1,000 ms without a new frame is LOST, and a COMM fill in
RAMPING becomes DEGRADED (R24, file 03 R60). A reject request makes a VALID link REJECTED and is ignored otherwise (R25);
the control period of a COMM fill sends it when the combined pressure lies more than 2.00 MPa above P_H (file 03 R60). -/
def Obligations.SilentSideLosesTheLink : Prop :=
  (∀ (s : State) (x : Side) (a : Nat), s.node.vlr.decoder.isSome = true → s.node.vlr.link = .valid →
    s.node.vlr.declares x = true → (s.node.vlr.side x).age = some a → 1000 ≤ a →
    ∃ t, exec (.sideSilentExpiry x) s = .next t ∧ t.node.vlr = { s.node.vlr with link := .lost } ∧
      (s.node.fcu.kind = some .comm → s.node.fcu.phase.ramping = true →
        t.node.fcu = { s.node.fcu with kind := some .degraded }) ∧
      (s.node.fcu.kind ≠ some .comm → t.node.fcu = s.node.fcu) ∧
      t.node.isc = s.node.isc ∧ t.node.bcu = s.node.bcu ∧ t.node.liu = s.node.liu ∧ t.node.mpu = s.node.mpu) ∧
  (∀ n : Node, n.vlr.link = .valid →
    (vlrReject n).vlr = { n.vlr with link := .rejected } ∧
    (n.fcu.kind = some .comm → n.fcu.phase.ramping = true → (vlrReject n).fcu = { n.fcu with kind := some .degraded })) ∧
  (∀ n : Node, n.vlr.link ≠ .valid → vlrReject n = n) ∧
  (∀ (n : Node) (c : Combined), n.fcu.kind = some .comm → n.vlr.combined = some c →
    periodVehicle n = if n.pH + 200 < c.pressure then vlrReject n else n) ∧
  (∀ n : Node, n.fcu.kind ≠ some .comm ∨ n.vlr.combined = none → periodVehicle n = n)

/-- A rising edge by its interval: inside the carrier window the burst goes on, below it the burst is spoiled, above it the
burst has ended. An edge that ends a valid mark begins a frame in IDLE and appends the bit its space spells in RECEIVING;
an invalid mark or space or a 113th bit abandons the frame; in IDLE an invalid mark is ignored. A quiet line of more than
2,000 µs takes a frame of 112 bits closed by a valid mark, takes no other, and leads to IDLE (R16 to R19). Bounds in 0.1 µs
between the whole microseconds of the rules (log 23) and the 2,000 µs in whole ms of the clock (log 3) are the model's
choice. -/
def Obligations.EdgesSpellBits : Prop :=
  (∀ (s : State) (bits : Bits) (b : Burst) (q : Option Nat) (interval : Nat),
    s.node.vlr.decoder = some ⟨.receiving bits, some b, q⟩ → b.validMark s.node.stc.cfg.carrier = true →
    s.node.stc.cfg.carrier + s.node.stc.cfg.carrier / 8 < interval → interval - s.node.stc.cfg.carrier ≤ 20000 →
    ∃ t, exec (.irRisingEdge interval) s = .next t ∧
      (bits.length < 112 → 1500 ≤ interval - s.node.stc.cfg.carrier → interval - s.node.stc.cfg.carrier < 5000 →
        t.node.vlr.decoder = some ⟨.receiving (bits ++ [false]), some ⟨0, false⟩, some s.node.now⟩) ∧
      (bits.length < 112 → 5000 ≤ interval - s.node.stc.cfg.carrier → interval - s.node.stc.cfg.carrier < 10000 →
        t.node.vlr.decoder = some ⟨.receiving (bits ++ [true]), some ⟨0, false⟩, some s.node.now⟩) ∧
      (112 ≤ bits.length ∨ interval - s.node.stc.cfg.carrier < 1500 ∨ 10000 ≤ interval - s.node.stc.cfg.carrier →
        t.node.vlr.decoder = some ⟨.discarding, some ⟨0, false⟩, some s.node.now⟩) ∧
      t.node.vlr.sideA = s.node.vlr.sideA ∧ t.node.vlr.sideB = s.node.vlr.sideB) ∧
  (∀ (s : State) (m : DecoderMode) (b : Burst) (q : Option Nat) (interval : Nat),
    s.node.vlr.decoder = some ⟨m, some b, q⟩ →
    s.node.stc.cfg.carrier + s.node.stc.cfg.carrier / 8 < interval → interval - s.node.stc.cfg.carrier ≤ 20000 →
    let after := fun d => exec (.irRisingEdge interval) s =
      .next { s with node := { s.node with vlr := { s.node.vlr with decoder := some ⟨d, some ⟨0, false⟩, some s.node.now⟩ } } }
    (m = .discarding → after .discarding) ∧
    (m = .idle → b.validMark s.node.stc.cfg.carrier = false → after .idle) ∧
    (m = .idle → b.validMark s.node.stc.cfg.carrier = true → 1500 ≤ interval - s.node.stc.cfg.carrier →
      interval - s.node.stc.cfg.carrier < 10000 →
      after (.receiving [decide (5000 ≤ interval - s.node.stc.cfg.carrier)])) ∧
    (∀ bits, m = .receiving bits → b.validMark s.node.stc.cfg.carrier = false → after .discarding)) ∧
  (∀ (s : State) (m : DecoderMode) (b : Burst) (q : Option Nat) (interval : Nat),
    s.node.vlr.decoder = some ⟨m, some b, q⟩ → interval ≤ s.node.stc.cfg.carrier + s.node.stc.cfg.carrier / 8 →
    exec (.irRisingEdge interval) s = .next { s with node := { s.node with vlr := { s.node.vlr with
      decoder := some ⟨m, some ⟨b.span + interval,
        b.spoiled || decide (interval < s.node.stc.cfg.carrier - s.node.stc.cfg.carrier / 8)⟩, some s.node.now⟩ } } }) ∧
  (∀ (b : Burst) (tc : Nat), b.validMark tc = true ↔ 1500 ≤ b.span + tc ∧ b.span + tc ≤ 3500 ∧ b.spoiled = false) ∧
  (∀ (s : State) (d : Decoder) (q : Nat), s.node.vlr.decoder = some d → d.quietFrom = some q → 2 < s.node.now - q →
    ∃ t, exec .quietLineSeen s = .next t ∧ t.node.vlr.decoder = some ⟨.idle, none, none⟩ ∧
    (∀ bits b, d.mode = .receiving bits → d.burst = some b → bits.length = 112 →
      b.validMark s.node.stc.cfg.carrier = true →
      exec .quietLineSeen s =
        exec (.vehicleFrame (bytesOfBits 14 bits)) { s with node := { s.node with
          vlr := { s.node.vlr with decoder := some ⟨.idle, none, none⟩ } } }) ∧
    ((∀ bits, d.mode = .receiving bits → bits.length ≠ 112 ∨
        ∀ b, d.burst = some b → b.validMark s.node.stc.cfg.carrier = false) →
      t = { s with node := { s.node with vlr := { s.node.vlr with decoder := some ⟨.idle, none, none⟩ } } }))

/-! ## Fill control (file 03) -/

/-- File 03 R31 and R33: AUTHORIZE in IDLE is answered by the first check that fails, in the table's order, with nothing
taken; where all pass the authorization is held with its limit mass, which is echoed. In AUTHORIZED the number held is
answered OK and another one BUSY, and in the later phases every AUTHORIZE is answered BUSY, with no effect. Before its owner
has it, the LIU answers it (file 10 R173, file 11 R186, R187). -/
def Obligations.AuthorizeIsCheckedInOrder : Prop :=
  (∀ (s : State) (bits : Bits) (f : LineFrame) (a : AuthorizeFields), receive bits = some f →
    arrivalOf s.node.stc.node f = .command kindAuthorize → s.node.stc.phase = .run → badField false f = false →
    a = readAuthorize f.payload →
    let answered := fun r x => exec (.authorize bits) s =
      .next { s with node := offer (.answer f.source.toNat kindAuthorize r x) s.node }
    (s.node.fcu.phase = .idle →
      (s.node.stc.conflict = true → answered .notReady 0) ∧
      (s.node.stc.conflict = false →
        (a.row < 1 ∨ 4 < a.row ∨ 2 < a.limitKind ∨ a.number = 0 ∨
          (a.limitKind ≠ 0 ∧ (a.limitValue = 0 ∨ 99999999 < a.limitValue)) → answered .badField 0) ∧
        (∀ row kind, Four.ofNum a.row = some row → limitKindOf a.limitKind = some kind → a.number ≠ 0 →
          (kind ≠ .none → 1 ≤ a.limitValue ∧ a.limitValue ≤ 99999999) →
          (s.node.mpu.prices.get row = none → answered .noPrice 0) ∧
          (∀ price, s.node.mpu.prices.get row = some price →
            (s.node.rst.freeSlots = 0 → answered .storeFull 0) ∧
            (s.node.rst.freeSlots ≠ 0 →
              (s.node.mpu.creepFlag = true ∨ s.node.level .meterFault = true → answered .meterFault 0) ∧
              (s.node.mpu.creepFlag = false → s.node.level .meterFault = false →
                (s.node.isc.loop ≠ .normal → answered .lockedEsd 0) ∧
                (s.node.isc.loop = .normal → ∀ mass,
                  mass = (match kind with
                    | .none => hoseCap s.node.stc.cfg.hose
                    | .mass => min a.limitValue (hoseCap s.node.stc.cfg.hose)
                    | .amount => min (a.limitValue * 1000000 / price) (hoseCap s.node.stc.cfg.hose)) →
                  exec (.authorize bits) s = .next { s with
                    node := (offer (.answer f.source.toNat kindAuthorize .ok mass) { s.node with
                      fcu := { s.node.fcu with
                        phase := .authorized
                        auth := some ⟨a.number, f.source.toNat, row, price, kind, a.limitValue, mass⟩
                        authSince := some s.node.now } }) }))))))) ∧
    (∀ held, s.node.fcu.phase = .authorized → s.node.fcu.auth = some held →
      (a.number = held.number → answered .ok held.limitMass) ∧ (a.number ≠ held.number → answered .busy 0)) ∧
    (s.node.fcu.phase ≠ .idle → s.node.fcu.phase ≠ .authorized → answered .busy 0)) ∧
  CommandGate kindAuthorize false .authorize

/-- AUTHORIZATION_TIMEOUT leaves AUTHORIZED for IDLE after 120,000 ms: the fill state at its start-up values, the valves
as they are, nothing else changed (R34, R64). -/
def Obligations.AuthorizationTimesOut : Prop :=
  ∀ (s : State) (a : Nat), s.node.fcu.phase = .authorized → s.node.fcu.authSince = some a →
    120000 ≤ s.node.now - a → exec .authorizationTimeout s = .next { s with node := { s.node with
      fcu := { Fcu.startUp with
        vb := s.node.fcu.vb, vvent := s.node.fcu.vvent, relOnClose := s.node.fcu.relOnClose } } }

/-- STOP is answered OK in every phase: in CHECKING and RAMPING it ends the fill with STOP_TERMINAL, in AUTHORIZED it leads
to IDLE with the fill state at its start-up values, and in the others it has no further effect (R37, R61). The LIU answers
it in the phases before (file 10 R173, file 11 R186, R187). That STOP is answered before it acts, so that the fill ends with
the ANSWER already offered, is the model's choice (log 13). -/
def Obligations.StopEndsTheFill : Prop :=
  (∀ (s : State) (bits : Bits) (f : LineFrame), receive bits = some f →
    arrivalOf s.node.stc.node f = .command kindStop → s.node.stc.phase = .run → badField false f = false →
    ∃ t, exec (.stop bits) s = .next t ∧
      (s.node.fcu.phase.filling = true →
        t = { s with node := endFill .stopTerminal (offer (.answer f.source.toNat kindStop .ok 0) s.node) } ∧
        (t.node.fcu.phase = .closing ∨ t.node.fcu.phase = .venting) ∧ t.node.fcu.endReason = some .stopTerminal ∧
        t.node.fcu.fCmd = 0 ∧ t.node.fcu.periodNext = none ∧ t.node.fcu.pauses = .none ∧
        (∀ b : Bank, (t.node.fcu.vb.get b).opened = false)) ∧
      (s.node.fcu.phase = .authorized →
        t = { s with node := { offer (.answer f.source.toNat kindStop .ok 0) s.node with
          fcu := { Fcu.startUp with
            vb := s.node.fcu.vb, vvent := s.node.fcu.vvent, relOnClose := s.node.fcu.relOnClose } } }) ∧
      (s.node.fcu.phase.filling = false → s.node.fcu.phase ≠ .authorized →
        t = { s with node := offer (.answer f.source.toNat kindStop .ok 0) s.node })) ∧
  CommandGate kindStop false .stop

/-- VALVE_TRAVEL_END 400 ms after the latest command: the valve stands in its commanded position, and the draw claim that
waited for a closure is released (R30). A travel end of a valve at rest, or before the 400 ms, changes nothing (the model's
choice, log 2). -/
def Obligations.ValvesArriveAfterTheirTravel : Prop :=
  (∀ (s : State) (v : Valve) (a : Nat), (s.node.valve v).since = some a → 400 ≤ s.node.now - a →
    ∃ t, exec (.valveTravelEnd v) s = .next t ∧ t.node.valve v = ⟨(s.node.valve v).opened, none⟩ ∧
      (∀ b : Bank, v = .draw b → (s.node.valve v).opened = false → s.node.fcu.relOnClose.get b = true →
        t.node.bcu.find b .draw = none)) ∧
  (∀ (s : State) (v : Valve), (s.node.valve v).since = none → exec (.valveTravelEnd v) s = .next s) ∧
  (∀ (s : State) (v : Valve) (a : Nat), (s.node.valve v).since = some a → s.node.now - a < 400 →
    exec (.valveTravelEnd v) s = .next s)

/-- BANK_SEARCH_RETRY, 1 s after the last search that found nothing, or after the setting of BANK_WAIT by a margin if that is
later; that it counts from there is the model's choice (log 59). In CHECKING the lowest bank whose draw claim is
granted becomes the bank of the check claim; where none is, BANK_WAIT goes on and the next repeat counts from now (R38). In
RAMPING, with no target and a source other than DIRECT, the lowest bank above the last source that is granted and stands
2.00 MPa above P_H becomes the target, with BANK_WAIT set until the switch completes; after the top bank DIRECT is asked
where it is allowed; where nothing is found the next repeat counts from now and the result is kept, and with no source, or a
margin below 0.50 MPa, the fill is PAUSED without flow (R44, R46). -/
def Obligations.CheckBankSearchIsRepeated : Prop :=
  (∀ (s : State) (a : Nat), s.node.fcu.phase = .checking → s.node.fcu.check = .claimWait →
    s.node.fcu.checkBank = none → s.node.fcu.pauses.bankWait.isSome = true → s.node.fcu.searchAt = some a →
    1000 ≤ s.node.now - a →
    (∀ b : Bank, s.node.grants b .draw → (∀ c : Bank, c.num < b.num → ¬ s.node.grants c .draw) →
      exec .bankSearchRetry s = .next { s with node := { s.node.requesting b .draw with
        fcu := { s.node.fcu with checkBank := some b } } }) ∧
    ((∀ b : Bank, ¬ s.node.grants b .draw) →
      exec .bankSearchRetry s = .next { s with node := { s.node with
        fcu := { s.node.fcu with exhausted := true, searchAt := some s.node.now } } })) ∧
  (∀ (s : State) (a : Nat) (k : Bank), s.node.fcu.phase.ramping = true → s.node.fcu.target = none →
    s.node.fcu.source ≠ some .direct → s.node.fcu.lastSource = some (.bank k) →
    s.node.fcu.pauses.bankWait.isSome = true → s.node.fcu.searchAt = some a → 1000 ≤ s.node.now - a →
    let fits := fun b : Bank => k.num < b.num ∧ s.node.pH + 200 ≤ s.node.pB b ∧ s.node.grants b .draw
    let ends := fun n : Node =>
      ((s.node.fcu.source = none ∨ ∃ b, s.node.fcu.source = some (.bank b) ∧ s.node.pB b < s.node.pH + 50) →
        exec .bankSearchRetry s = .next { s with node := { n with fcu := { s.node.fcu with
          phase := .paused, fCmd := 0, exhausted := true, noTarget := true, searchAt := some s.node.now } } }) ∧
      (∀ b, s.node.fcu.source = some (.bank b) → s.node.pH + 50 ≤ s.node.pB b →
        exec .bankSearchRetry s = .next { s with node := { n with fcu := { s.node.fcu with
          noTarget := true, searchAt := some s.node.now } } })
    let aims := fun (n : Node) (x : Source) => exec .bankSearchRetry s = .next { s with node := { n with
      fcu := { s.node.fcu with
        target := some x, targetTaken := false, targetWaits := false, noTarget := false
        phase := if s.node.fcu.phase = .flowing then .switching else s.node.fcu.phase } } }
    (∀ b, fits b → (∀ c : Bank, c.num < b.num → ¬ fits c) → aims (s.node.requesting b .draw) (.bank b)) ∧
    ((∀ b, ¬ fits b) →
      (s.node.stc.cfg.directAllowed = false → ends s.node) ∧
      (s.node.stc.cfg.directAllowed = true →
        ((directRequest s.node).2 = true → aims (directRequest s.node).1 .direct) ∧
        ((directRequest s.node).2 = false → ends s.node))))

/-- PULSE_END, EQUALIZE_END and HOLD_END (R39 to R41, R43): EQUALIZE after PULSE; P0 read, or awaited if P_H is older
than 200 ms; the first attempt's P0 tested, on the vehicle data where the link is VALID and they agree within 2.00 MPa, and
on T_A where they are absent or rejected; the attempt judged by a fall of at most 0.20 MPa. An awaited reading is made at
the next accepted P_H sample. -/
def Obligations.CheckStepsEnd : Prop :=
  (∀ (s : State) (a : Nat), s.node.fcu.phase = .checking → s.node.fcu.check = .pulse → s.node.fcu.awaiting = false →
    s.node.fcu.stepSince = some a → 1000 ≤ s.node.now - a →
    exec .pulseEnd s = .next { s with node := { s.node with
      fcu := { s.node.fcu with check := .equalize, stepSince := some s.node.now, fCmd := 0 } } }) ∧
  (∀ (s : State) (a : Nat), s.node.fcu.phase = .checking → s.node.fcu.check = .equalize → s.node.fcu.awaiting = false →
    s.node.fcu.stepSince = some a → 2000 ≤ s.node.now - a →
    (s.node.olderThan .pH 200 = true →
      exec .equalizeEnd s = .next { s with node := { s.node with fcu := { s.node.fcu with awaiting := true } } }) ∧
    (s.node.olderThan .pH 200 = false → ∃ t, exec .equalizeEnd s = .next t ∧ t.node.fcu.p0 = some s.node.pH ∧
      (s.node.fcu.attempt ≠ 1 → t.node.fcu.check = .hold ∧ t.node.fcu.stepSince = some s.node.now) ∧
      (s.node.fcu.attempt = 1 → s.node.pH < 50 → t.node.fcu.endReason = some .emptyTank) ∧
      (s.node.fcu.attempt = 1 → hoseLimit s.node.stc.cfg.hose ≤ s.node.pH →
        t.node.fcu.endReason = some .fullTank) ∧
      (∀ c, s.node.vlr.link = .valid → s.node.vlr.combined = some c →
        (s.node.pH + 200 < c.pressure ∨ c.pressure + 200 < s.node.pH → t.node.vlr.link = .rejected) ∧
        (c.pressure ≤ s.node.pH + 200 → s.node.pH ≤ c.pressure + 200 → t.node.vlr = s.node.vlr)) ∧
      (s.node.vlr.link ≠ .valid → t.node.vlr = s.node.vlr) ∧
      (∀ σ goal, s.node.fcu.attempt = 1 → 50 ≤ s.node.pH → s.node.pH < hoseLimit s.node.stc.cfg.hose →
        (∃ c, s.node.vlr.link = .valid ∧ s.node.vlr.combined = some c ∧ c.pressure ≤ s.node.pH + 200 ∧
            s.node.pH ≤ c.pressure + 200 ∧ σ = soc s.node.stc.cfg.hose s.node.pH c.temperature ∧
            goal = s.node.stc.cfg.commTarget) ∨
          ((s.node.vlr.link ≠ .valid ∨ ∃ c, s.node.vlr.combined = some c ∧
              (s.node.pH + 200 < c.pressure ∨ c.pressure + 200 < s.node.pH)) ∧
            σ = soc s.node.stc.cfg.hose s.node.pH s.node.tA ∧ goal = s.node.stc.cfg.nonCommTarget) →
        t.node.fcu.lastSoc = some σ ∧ (goal ≤ σ → t.node.fcu.endReason = some .fullTank) ∧
        (σ < goal → t.node.fcu.phase = .checking ∧ t.node.fcu.check = .hold ∧
          t.node.fcu.stepSince = some s.node.now ∧ t.node.fcu.fCmd = 0)))) ∧
  (∀ (s : State) (a : Nat), s.node.fcu.phase = .checking → s.node.fcu.check = .hold → s.node.fcu.awaiting = false →
    s.node.fcu.stepSince = some a → 5000 ≤ s.node.now - a →
    (s.node.olderThan .pH 200 = true →
      exec .holdEnd s = .next { s with node := { s.node with fcu := { s.node.fcu with awaiting := true } } }) ∧
    (s.node.olderThan .pH 200 = false → ∃ t, exec .holdEnd s = .next t ∧
      (s.node.fcu.p0.getD 0 ≤ s.node.pH + 20 →
        t.node.fcu.phase = (if s.node.fcu.pauses.any then .paused else .flowing) ∧
        t.node.fcu.pRamp = min s.node.pH (hoseLimit s.node.stc.cfg.hose) ∧ t.node.fcu.rem = 0 ∧
        t.node.fcu.source = s.node.fcu.checkBank.map .bank ∧ t.node.fcu.rampSince = some s.node.now ∧
        t.node.fcu.kind = some (if s.node.linkValid then .comm else .noncomm)) ∧
      (s.node.pH + 20 < s.node.fcu.p0.getD 0 → s.node.fcu.attempt = 3 →
        t.node.fcu.check = .rezero ∧ t.node.fcu.attempt = 4 ∧ ∀ b : Bank, (t.node.fcu.vb.get b).opened = false) ∧
      (s.node.pH + 20 < s.node.fcu.p0.getD 0 → s.node.fcu.attempt = 4 → t.node.fcu.endReason = some .leak) ∧
      (s.node.pH + 20 < s.node.fcu.p0.getD 0 → s.node.fcu.attempt < 3 →
        t.node.fcu.phase = .checking ∧ t.node.fcu.attempt = s.node.fcu.attempt + 1))) ∧
  (∀ (s : State) (i : BitVec 16) (v : Nat), s.awaits .pH → 3600 ≤ i.toNat → i.toNat ≤ 21000 →
    v = codeOfCurrent .pH i.toNat → v ≤ hoseLimit s.node.stc.cfg.hose + 200 → s.node.fcu.fCmd = 0 →
    s.node.fcu.phase = .checking → s.node.fcu.awaiting = true → ∃ t, exec (.converterAnswer 0 i) s = .next t ∧
      (s.node.fcu.check = .equalize → t.node.fcu.p0 = some v ∧ t.node.fcu.awaiting = false ∧
        (s.node.fcu.attempt ≠ 1 → t.node.fcu.check = .hold ∧ t.node.fcu.stepSince = some s.node.now) ∧
        (s.node.fcu.attempt = 1 → v < 50 → t.node.fcu.endReason = some .emptyTank)) ∧
      (s.node.fcu.check = .hold →
        (s.node.fcu.p0.getD 0 ≤ v + 20 →
          t.node.fcu.phase = (if s.node.fcu.pauses.any then .paused else .flowing) ∧
          t.node.fcu.pRamp = min v (hoseLimit s.node.stc.cfg.hose)) ∧
        (v + 20 < s.node.fcu.p0.getD 0 → s.node.fcu.attempt = 4 → t.node.fcu.endReason = some .leak)))

/-- REZERO_VENT_TIMEOUT ends the fill LEAK with VENT_FAIL, VENT_TIMEOUT sets VENT_FAIL and commands the vent valve closed
(R41, R62); that the 20 s of REZERO count from the command that opens the vent valve is the model's choice (log 32). VENTING
begins with P_end and T_end once the last draw valve has closed (R61, R62), an accepted P_H sample below 0.50 MPa commands
the vent valve closed (R62), and with its travel over the figures of the close go into the working image and the close write
begins, or waits for the store (R63, file 08 R147, R148). -/
def Obligations.VentsTimeOut : Prop :=
  (∀ (s : State) (a : Nat), s.node.fcu.phase = .checking → s.node.fcu.check = .rezero →
    s.node.fcu.rezeroVent = some a → 20000 ≤ s.node.now - a → ∃ t, exec .rezeroVentTimeout s = .next t ∧
      (t.node.fcu.phase = .closing ∨ t.node.fcu.phase = .venting) ∧ t.node.fcu.endReason = some .leak ∧
      t.node.fcu.ventFail = true ∧ t.node.fcu.fCmd = 0 ∧ ∀ b : Bank, (t.node.fcu.vb.get b).opened = false) ∧
  (∀ (s : State) (a : Nat), s.node.fcu.phase = .venting → s.node.fcu.vvent.opened = true →
    s.node.fcu.ventSince = some a → 20000 ≤ s.node.now - a →
    exec .ventTimeout s = .next { s with node := { s.node with
      fcu := { s.node.fcu with ventFail := true, vvent := ⟨false, some s.node.now⟩ } } }) ∧
  (∀ (s : State) (b : Bank) (a : Nat), s.node.fcu.phase = .closing → s.node.fcu.vb.get b = ⟨false, some a⟩ →
    400 ≤ s.node.now - a → (∀ c : Bank, c ≠ b → s.node.fcu.vb.get c = ⟨false, none⟩) →
    ∃ t, exec (.valveTravelEnd (.draw b)) s = .next t ∧ t.node.fcu.phase = .venting ∧
      t.node.fcu.pEnd = some s.node.pH ∧ t.node.fcu.tEnd = some s.node.tD ∧
      t.node.fcu.ventSince = some s.node.now ∧ t.node.fcu.vvent.opened = true) ∧
  (∀ (s : State) (i : BitVec 16), s.awaits .pH → 3600 ≤ i.toNat → i.toNat ≤ 21000 → codeOfCurrent .pH i.toNat < 50 →
    s.node.fcu.phase = .venting → s.node.fcu.vvent.opened = true → s.node.fcu.fCmd = 0 →
    ∃ t, exec (.converterAnswer 0 i) s = .next t ∧ t.node.fcu.phase = .venting ∧
      t.node.fcu.vvent = ⟨false, some s.node.now⟩ ∧ t.node.fcu.ventFail = s.node.fcu.ventFail) ∧
  (∀ (s : State) (a p q gross : Nat) (tm : Terms) (im closed : Image), s.node.fcu.phase = .venting →
    s.node.fcu.vvent = ⟨false, some a⟩ → 400 ≤ s.node.now - a → s.node.fcu.pEnd = some p → s.node.fcu.tEnd = some q →
    s.node.mpu.terms = some tm → s.node.mpu.gross = gross → s.node.rst.image = some im →
    (let vent := ventMass s.node.stc.cfg.deadVolume p q
     let amount := ((gross - vent) * tm.unitPrice + 500000) / 1000000
     let kind := s.node.fcu.kind.getD .noncomm
     closed = { im with body := { im.body with
       endReason := s.node.fcu.endReason, kind := kind
       flags := { derated := s.node.fcu.derated, exhausted := s.node.fcu.exhausted, ventFail := s.node.fcu.ventFail,
                  overshoot := if tm.limitKind = .amount then tm.limitValue < amount else tm.limitMass < gross - vent,
                  interrupted := im.body.flags.interrupted }
       soc := s.node.fcu.lastSoc.getD 0, finalPH := p
       peakTv := if kind = .noncomm then none else s.node.fcu.peakTv
       volume := s.node.vlr.volume, duration := (s.node.now - s.node.fcu.startedAt) / 1000
       gross := gross, vent := vent, net := gross - vent, amount := amount } }) →
    ∃ t, exec (.valveTravelEnd .vent) s = .next t ∧ t.node.fcu.phase = .closingRecord ∧
      t.node.mpu.windowOpen = false ∧ t.node.rst.image = some closed ∧
      (s.node.rst.write = none → s.node.rst.recordMark = none → s.node.rst.creepMark = none →
        s.node.rst.requests = [] → t.node.rst.write = some (.record .close closed)) ∧
      (s.node.rst.write.isSome = true → t.node.rst.write = s.node.rst.write ∧
        ∃ k, t.node.rst.recordMark = some ⟨.close, k⟩))

/-- CONTROL_PERIOD: the fill goes on with the next period 100 ms later on the grid, or ends with an end reason and no flow
(R50, R61); an active meter fault always ends it (R58); a PAUSED fill has no flow (R57). Its steps run in the order of R50:
pauses; in RAMPING the ramp, the flow, the switch test, the vehicle data test and the SOC; the end test. -/
def Obligations.ControlPeriodsRunOrEndTheFill : Prop :=
  ∀ (s : State) (g : Nat), s.node.fcu.phase.filling = true → s.node.fcu.periodNext = some g → g ≤ s.node.now →
    ∃ t, exec .controlPeriod s = .next t ∧
      ((t.node.fcu.phase.filling = true ∧ t.node.fcu.periodNext = some (g + 100)) ∨
        ((t.node.fcu.phase = .closing ∨ t.node.fcu.phase = .venting) ∧ t.node.fcu.endReason.isSome = true ∧
          t.node.fcu.periodNext = none ∧ t.node.fcu.fCmd = 0)) ∧
      (s.node.level .meterFault = true → t.node.fcu.phase.filling = false) ∧
      (t.node.fcu.phase = .paused → t.node.fcu.fCmd = 0) ∧
      (∀ n, n = periodPauses { s.node with fcu := { s.node.fcu with periodNext := some (g + 100) } } →
        (n.fcu.phase = .checking → t = { s with node := endTest n }) ∧
        (n.fcu.phase.ramping = true →
          t = { s with node := endTest (periodSoc (periodVehicle (periodSwitch (periodFlow (periodRamp n))))) }))

/-- The causes of the pause reasons and what step 1 of a period makes of them: a reason whose cause holds is active with
the timer it has or one from 0, the others are cleared; a fill in RAMPING with an active reason is PAUSED without flow, one
with none resumes seated once its source is open and ready (R56, R57). BANK_WAIT is set in RAMPING, with
BANKS_EXHAUSTED, by a margin below 0.50 MPa after a search that ended without a target, whether or not the ramp calls for
flow, and with a target pending (R46, R48); that step 1 tests the margin, and that the result stands until a target is
present or the source is given up, is the model's choice (log 52), that a pending target is no bar is read from R48 (log
14). The limits of R56 act at the end test: a fill whose timer has reached its limit ends, and no end reason of a limit is given before. The precool class is the grade of T_D, with
UNFIT handed out as WARM in the first 30,000 ms of RAMPING (file 06 R100). That PAUSE_LIMIT_EXPIRY and PRECOOL_GRACE_END
change nothing by themselves, the timers being read where they act, is the model's choice (log 29). -/
def Obligations.LimitsActWhenTheyAreRead : Prop :=
  (∀ (s : State) (r : PauseReason), exec (.pauseLimitExpiry r) s = .next s) ∧
  (∀ s : State, exec .precoolGraceEnd s = .next s) ∧
  (∀ (n : Node) (a : Nat), n.fcu.pauses.bankWait = some a → 30000 ≤ n.now - a → n.fcu.phase.filling = true →
    (endTest n).fcu.phase.filling = false) ∧
  (∀ (n : Node) (r : PauseReason), (evaluatePauses n).fcu.pauses.get r =
    if n.pauseCause r then some ((n.fcu.pauses.get r).getD n.now) else none) ∧
  (∀ n : Node,
    (n.pauseCause .precoolUnfit = true ↔ n.fcu.phase.ramping = true ∧ n.precoolClass = .unfit) ∧
    (n.pauseCause .heatShare = true ↔ n.hsu.waiting = true) ∧
    (n.pauseCause .vehicleHalt = true ↔
      n.vlr.link = .valid ∧ ∃ c, n.vlr.combined = some c ∧ c.command = .halt) ∧
    (n.pauseCause .sampleAge = true ↔
      n.olderThan .pH 200 = true ∨ n.olderThan .tS 200 = true ∨ n.olderThan .tD 200 = true) ∧
    (n.fcu.pauses.bankWait.isSome = true → (n.pauseCause .bankWait = true ↔
      ¬(n.fcu.phase.ramping = true ∧ n.sourceReady = true ∧
        ∃ b, n.fcu.source = some (.bank b) ∧ n.pH + 200 ≤ n.pB b))) ∧
    (n.fcu.pauses.bankWait = none → (n.pauseCause .bankWait = true ↔ n.fcu.phase.ramping = true ∧
      ((n.fcu.noTarget = true ∧ n.fcu.source = none) ∨
        ((n.fcu.noTarget = true ∨ (n.fcu.target.isSome = true ∧ n.fcu.targetTaken = false)) ∧
          ∃ b, n.fcu.source = some (.bank b) ∧ n.pB b < n.pH + 50)))) ∧
    (n.pauseCause .lineQuiet = true ↔ ∃ a, n.liu.quietSince = some a ∧ 1000 ≤ n.now - a)) ∧
  (∀ n : Node, n.fcu.phase.ramping = true → (evaluatePauses n).fcu.pauses.any = true →
    (periodPauses n).fcu.phase = .paused ∧ (periodPauses n).fcu.fCmd = 0 ∧
      (periodPauses n).fcu.pauses = (evaluatePauses n).fcu.pauses) ∧
  (∀ (n : Node) (b : Bank), n.fcu.phase.ramping = true → n.fcu.pauses.bankWait = none →
    n.fcu.source = some (.bank b) → n.pB b < n.pH + 50 →
    (n.fcu.noTarget = true ∨ (n.fcu.target.isSome = true ∧ n.fcu.targetTaken = false)) →
    (periodPauses n).fcu.pauses.bankWait = some n.now ∧ (periodPauses n).fcu.exhausted = true ∧
      (periodPauses n).fcu.phase = .paused ∧ (periodPauses n).fcu.fCmd = 0) ∧
  (∀ n : Node, n.fcu.phase = .paused → (evaluatePauses n).fcu.pauses.any = false → n.fcu.pauses.lineQuiet = none →
    (n.sourceReady = true → (periodPauses n).fcu.phase = (if n.fcu.target.isSome then .switching else .flowing) ∧
      (periodPauses n).fcu.pRamp = min n.pH (hoseLimit n.stc.cfg.hose) ∧ (periodPauses n).fcu.rem = 0) ∧
    (n.sourceReady = false → periodPauses n = evaluatePauses n)) ∧
  (∀ n : Node, n.fcu.phase.filling = true →
    ((n.fcu.phase.ramping = true ∧ ∃ a, n.fcu.pauses.precoolUnfit = some a ∧ 60000 ≤ n.now - a) ∨
      (∃ a, n.fcu.pauses.heatShare = some a ∧ 120000 ≤ n.now - a) ∨
      (∃ a, n.fcu.pauses.vehicleHalt = some a ∧ 10000 ≤ n.now - a) ∨
      (∃ a, n.fcu.pauses.sampleAge = some a ∧ 2000 ≤ n.now - a) ∨
      (∃ a, n.liu.quietSince = some a ∧ 1800 ≤ n.now - a) →
      (endTest n).fcu.phase.filling = false) ∧
    (n.endReasonNow = some .precoolFail → n.fcu.phase.ramping = true ∧
      ∃ a, n.fcu.pauses.precoolUnfit = some a ∧ 60000 ≤ n.now - a) ∧
    (n.endReasonNow = some .heatShareTimeout → ∃ a, n.fcu.pauses.heatShare = some a ∧ 120000 ≤ n.now - a) ∧
    (n.endReasonNow = some .vehicleHalt → ∃ a, n.fcu.pauses.vehicleHalt = some a ∧ 10000 ≤ n.now - a) ∧
    (n.endReasonNow = some .sensorStale → (∃ a, n.fcu.pauses.sampleAge = some a ∧ 2000 ≤ n.now - a) ∨
      n.sampleOlder 2000 = true) ∧
    (n.endReasonNow = some .banksExhausted → ∃ a, n.fcu.pauses.bankWait = some a ∧ 30000 ≤ n.now - a) ∧
    (n.endReasonNow = some .lineFault → n.fcu.lineFault = true ∨ ∃ a, n.liu.quietSince = some a ∧ 1800 ≤ n.now - a)) ∧
  (∀ (n : Node) (a : Nat) (grade : PrecoolClass),
    grade = (match (n.chan .tD).value with
      | none => .unfit
      | some v => if v ≤ 2432 then .cold else if v ≤ 2532 then .mid else if v ≤ 2682 then .warm else .unfit) →
    n.fcu.rampSince = some a →
    (grade ≠ .unfit ∨ n.fcu.phase.ramping = false ∨ 30000 ≤ n.now - a → n.precoolClass = grade) ∧
    (grade = .unfit → n.fcu.phase.ramping = true → n.now - a < 30000 → n.precoolClass = .warm))

/-- The end test takes the first condition that holds, in the order of R58: the first rows one by one, and where the first
eight do not hold, the first of rows 9 to 20; where none holds the node stays as it is. -/
def Obligations.EndTestTakesTheFirstReason : Prop :=
  ∀ n : Node, n.fcu.phase.filling = true →
    (n.isc.loop = .tripped → n.isc.latch = none → (endTest n).fcu.endReason = some .esd) ∧
    (n.isc.latch = some .breakaway → (endTest n).fcu.endReason = some .breakaway) ∧
    (n.isc.loop ≠ .tripped ∨ n.isc.latch.isSome = true → n.level .breakaway = true →
      (endTest n).fcu.endReason = some .breakaway) ∧
    (n.level .breakaway = false → n.isc.latch = some .hoseRupture → (endTest n).fcu.endReason = some .hoseRupture) ∧
    (n.level .breakaway = false → n.isc.latch = some .overpressure → (endTest n).fcu.endReason = some .overpressure) ∧
    (n.isc.loop ≠ .tripped → n.isc.latch = none → n.level .breakaway = false →
      (n.validCommand = some .abort → (endTest n).fcu.endReason = some .vehicleAbort) ∧
      (n.validCommand ≠ some .abort →
        (n.level .coupled = false → (endTest n).fcu.endReason = some .disconnect) ∧
        (n.level .coupled = true → n.chanFailed .pH = true ∨ n.chanFailed .tS = true ∨ n.chanFailed .tD = true →
          (endTest n).fcu.endReason = some .sensorFail) ∧
        (n.level .coupled = true → n.chanFailed .pH = false → n.chanFailed .tS = false → n.chanFailed .tD = false →
          (n.level .meterFault = true → (endTest n).fcu.endReason = some .meterFault) ∧
          (n.level .meterFault = false → ∀ r : Option EndReason, r =
            (if n.fcu.lineFault = true ∨ n.quietAtLeast 1800 = true then some .lineFault
             else if n.stc.conflict = true then some .numberConflict
             else if n.vlr.link = .valid ∧ (n.fcu.kind = none ∨ n.fcu.kind = some .comm) ∧
                3582 ≤ ((n.vlr.combined.map (·.temperature)).getD 0) then some .tempLimit
             else if hoseLimit n.stc.cfg.hose ≤ n.pH then some .pressureLimit
             else if n.fcu.phase.ramping = true ∧ n.fcu.lastSoc.isSome = true ∧
                (if n.fcu.kind = some .comm then n.stc.cfg.commTarget else n.stc.cfg.nonCommTarget) ≤
                  n.fcu.lastSoc.getD 0 then some .targetSoc
             else if n.fcu.phase.ramping = true ∧ n.mpu.limit = true then
               some (if n.mpu.terms.map (·.limitKind) = some .amount then .amountLimit else .massLimit)
             else if n.sampleOlder 2000 = true ∨ n.reached n.fcu.pauses.sampleAge 2000 = true then some .sensorStale
             else if n.fcu.phase.ramping = true ∧ n.reached n.fcu.pauses.precoolUnfit 60000 = true then some .precoolFail
             else if n.reached n.fcu.pauses.heatShare 120000 = true then some .heatShareTimeout
             else if n.reached n.fcu.pauses.vehicleHalt 10000 = true then some .vehicleHalt
             else if n.reached n.fcu.pauses.bankWait 30000 = true then some .banksExhausted
             else none) →
            (∀ x, r = some x → (endTest n).fcu.endReason = some x ∧ (endTest n).fcu.phase.filling = false) ∧
            (r = none → endTest n = n)))))

/-- The figures of a fill: state of charge and vent mass as their formulas give them, with their bounds (file 03 R55, file
08 R144), a net mass priced in cents (file 08 R145); the allowed ramp rate by hose class, precool class, fill kind and
derating (file 03 R51); a ramp step loses no remainder and stands still while the fill is paused, has no source or no fresh
sample (file 03 R52); the flow command is F_max times the pressure error over 50, and 0 while the fill is paused or has no
source open and ready, and keeps to its limits (file 03 R53, file 06 R112). -/
def Obligations.FiguresFollowTheirFormulas : Prop :=
  (∀ (h : HoseClass) (p t : Nat), soc h p t ≤ 1200 ∧ soc h 0 t = 0) ∧
  (∀ t, 2132 ≤ t → t ≤ 3832 → ∀ p, 1 ≤ p → p ≤ 10000 →
    soc .car70 p t = min ((1000 * p * 4247 + (7000 * (t + (p * 39 + 100) / 200)) / 2) /
      (7000 * (t + (p * 39 + 100) / 200))) 1200 ∧
    soc .bus35 p t = min ((1000 * p * 3565 + (3500 * (t + (p * 39 + 100) / 200)) / 2) /
      (3500 * (t + (p * 39 + 100) / 200))) 1200) ∧
  (∀ vh t, ventMass vh 0 t = 0) ∧
  (∀ vh p t, 1 ≤ p → 2132 ≤ t →
    ventMass vh p t = (vh * 2425 * p + (100 * (t + (p * 39 + 100) / 200)) / 2) / (100 * (t + (p * 39 + 100) / 200)) ∧
    (vh ≤ 200 → p ≤ 10000 → ventMass vh p t ≤ 11881)) ∧
  (∀ net price, priced net price = (net * price + 500000) / 1000000) ∧
  (∀ (n : Node) (base k : Nat),
    base = (match n.stc.cfg.hose, n.precoolClass with
      | .car70, .cold => 2800 | .car70, .mid => 2000 | .car70, .warm => 800
      | .bus35, .cold => 1200 | .bus35, .mid => 900 | .bus35, .warm => 400
      | _, .unfit => 0) →
    k = (if n.chanFailed .tA = true then 16
      else if 3032 < ((n.chan .tA).value.getD 2132) then min ((((n.chan .tA).value.getD 2132) - 3032) / 10) 16 else 0) →
    n.aprrNow = (if n.fcu.kind = some .comm then base else base * 3 / 4) * (32 - k) / 32) ∧
  (∀ n : Node, n.fcu.phase ≠ .paused → n.sourceReady = true → n.sampleOlder 200 = false →
    600 * (periodRamp n).fcu.pRamp + (periodRamp n).fcu.rem ≤ 600 * n.fcu.pRamp + n.aprrNow + n.fcu.rem ∧
    (periodRamp n).fcu.rem < 600 ∧
    (n.fcu.pRamp + (n.aprrNow + n.fcu.rem) / 600 ≤ hoseLimit n.stc.cfg.hose →
      600 * (periodRamp n).fcu.pRamp + (periodRamp n).fcu.rem = 600 * n.fcu.pRamp + n.aprrNow + n.fcu.rem)) ∧
  (∀ n : Node, n.fcu.phase = .paused ∨ n.sourceReady = false ∨ n.sampleOlder 200 = true → periodRamp n = n) ∧
  (∀ n : Node, n.hsu.ceiling = 1000 * n.hsu.rOwn / (143 * n.hsu.dT10) ∧
    (n.fcu.phase = .paused ∨ n.sourceReady = false → (periodFlow n).fcu.fCmd = 0) ∧
    (n.fcu.phase ≠ .paused → n.sourceReady = true → ∀ fmax,
      fmax = min (min n.hsu.ceiling n.stc.cfg.peakFlow)
        (min (if n.fcu.source = some .direct then n.stc.cfg.directFlow else n.stc.cfg.peakFlow)
          (if n.mpu.slow = true then 50 else n.stc.cfg.peakFlow)) →
      (periodFlow n).fcu.fCmd = fmax * min (n.fcu.pRamp - n.pH) 50 / 50)) ∧
  (∀ n : Node, (periodFlow n).fcu.fCmd ≤ n.stc.cfg.peakFlow ∧ (periodFlow n).fcu.fCmd ≤ n.hsu.ceiling ∧
    (n.mpu.slow = true → (periodFlow n).fcu.fCmd ≤ 50) ∧
    (n.fcu.source = some .direct → (periodFlow n).fcu.fCmd ≤ n.stc.cfg.directFlow))

/-! ## Claims (file 04) -/

/-- SETTLE_EXPIRY 150 ms after the announcement: the claim is HELD, and the valve of a check bank is commanded open with
no pause reason but BANK_WAIT active (R74, file 03 R38). The target of a switch is taken: its valve commanded open, the old
bank valve commanded closed, a stage entry appended, no flow until its valve is open and ready; while LINE_QUIET holds it
waits (file 03 R45, R53, R57). The switch completes when the old valve has closed with the new one open and ready (R45,
R46). A bank whose P_B answer falls out of range is UNAVAILABLE, and a source on it is given up (R66, file 03 R47). -/
def Obligations.SettledClaimsAreHeld : Prop :=
  (∀ (s : State) (b : Bank) (k : ClaimKind) (a : Nat), s.node.bcu.find b k = some ⟨b, k, .settling a⟩ →
    150 ≤ s.node.now - a → (k = .draw → s.node.fcu.source ≠ some (.bank b)) →
    ∃ t, exec (.settleExpiry b k) s = .next t ∧ t.node.bcu.find b k = some ⟨b, k, .held a⟩ ∧
      (k = .draw → s.node.fcu.phase = .checking → s.node.fcu.check = .claimWait → s.node.fcu.checkBank = some b →
        ({ s.node.fcu.pauses with bankWait := none } : Pauses).any = false →
        (t.node.fcu.vb.get b).opened = true ∧ t.node.fcu.pauses.bankWait = none) ∧
      (k = .draw → s.node.fcu.phase.ramping = true → s.node.fcu.target = some (.bank b) →
        s.node.fcu.targetTaken = false →
        (s.node.fcu.pauses.lineQuiet = none →
          t.node.fcu.source = some (.bank b) ∧ t.node.fcu.lastSource = some (.bank b) ∧
          t.node.fcu.target = some (.bank b) ∧ t.node.fcu.targetTaken = true ∧
          (t.node.fcu.vb.get b).opened = true ∧
          (∀ o : Bank, s.node.fcu.source = some (.bank o) → (t.node.fcu.vb.get o).opened = false) ∧
          (t.node.fcu.vb.get b ≠ ⟨true, none⟩ → t.node.fcu.fCmd = 0) ∧
          (∀ im, s.node.rst.image = some im → ∃ im', t.node.rst.image = some im' ∧
            im'.body.stages = im.body.stages ++ [⟨some (.bank b), 0, 0⟩])) ∧
        (s.node.fcu.pauses.lineQuiet.isSome = true →
          t.node.fcu = { s.node.fcu with targetWaits := true }))) ∧
  (∀ (s : State) (b o : Bank) (a : Nat), s.node.fcu.phase.ramping = true → s.node.fcu.source = some (.bank b) →
    s.node.fcu.targetTaken = true → s.node.fcu.vb.get b = ⟨true, none⟩ → s.node.fcu.vb.get o = ⟨false, some a⟩ →
    400 ≤ s.node.now - a → (∀ c : Bank, c ≠ b → c ≠ o → s.node.fcu.vb.get c = ⟨false, none⟩) →
    ∃ t, exec (.valveTravelEnd (.draw o)) s = .next t ∧ t.node.fcu.target = none ∧ t.node.fcu.targetTaken = false ∧
      t.node.fcu.pauses.bankWait = none ∧ t.node.fcu.source = some (.bank b) ∧
      (s.node.fcu.phase = .switching → t.node.fcu.phase = .flowing) ∧
      (s.node.fcu.relOnClose.get o = true → t.node.bcu.find o .draw = none)) ∧
  (∀ (s : State) (b : Bank) (i : BitVec 16) (st : ClaimState), s.awaits (.pB b) → i.toNat < 3600 ∨ 21000 < i.toNat →
    (s.node.chan (.pB b)).sound = true → (s.node.bcu.own.filter fun o => decide (o.bank = b)) = [⟨b, .draw, st⟩] →
    ∃ t, exec (.converterAnswer (converterInput (.pB b)) i) s = .next t ∧ t.node.available b = false ∧
      (s.node.fcu.phase.ramping = true → s.node.fcu.source = some (.bank b) →
        (s.node.fcu.target ≠ some (.bank b) ∨ s.node.fcu.targetTaken = true) →
        t.node.fcu.source = none ∧ t.node.fcu.noSource = true ∧ t.node.fcu.fCmd = 0 ∧
        (t.node.fcu.vb.get b).opened = false))

/-- The admission walk admits no more draws than the limit, no refill beside another claim, and drops exactly the rest
(R68). A claim that enters as the youngest makes no other claim lose (R76). Claim by claim, in the order given: a draw is
admitted where only draws, and fewer than the limit, were admitted before it, a refill where nothing was, and a claim that
does not fit so is dropped and leaves the walk as it was. The walk of a bank takes the peers' claims on it and the own
SETTLING and HELD ones by instant, then by holder, then draws before refills (R68 step 1), the claim that has just entered
by its own frame last (R72, R76). -/
def Obligations.WalkAdmitsWithinTheLimit : Prop :=
  (∀ (limit : Nat) (cs : List ViewClaim),
    ((walk limit 0 false cs).1.filter fun c => decide (c.kind = .draw)).length ≤ limit ∧
    (∀ c ∈ (walk limit 0 false cs).1, c.kind = .refill → (walk limit 0 false cs).1 = [c]) ∧
    (walk limit 0 false cs).1.Sublist cs ∧
    ((walk limit 0 false cs).1 ++ (walk limit 0 false cs).2).Perm cs ∧
    (∀ c rest, cs = c :: rest → 1 ≤ limit → c ∈ (walk limit 0 false cs).1) ∧
    (∀ c, (walk limit 0 false cs).2 = [] → ∀ d ∈ (walk limit 0 false (enteredLast c (cs ++ [c]))).2, d = c)) ∧
  (∀ (limit : Nat) (xs : List ViewClaim) (c : ViewClaim),
    let before := walk limit 0 false xs
    let fits := (c.kind = .draw ∧ (∀ a ∈ before.1, a.kind = .draw) ∧ before.1.length < limit) ∨
      (c.kind = .refill ∧ before.1 = [])
    (fits → walk limit 0 false (xs ++ [c]) = (before.1 ++ [c], before.2)) ∧
    (¬fits → walk limit 0 false (xs ++ [c]) = (before.1, before.2 ++ [c]))) ∧
  (∀ (n : Node) (b : Bank),
    (n.bankView b).Pairwise (fun x y => x.instant < y.instant ∨ (x.instant = y.instant ∧ (x.holder < y.holder ∨
      (x.holder = y.holder ∧ (x.kind = .draw ∨ y.kind = .refill))))) ∧
    (∀ x, x ∈ n.bankView b ↔
      (∃ p ∈ n.ptb.peers, ∃ c ∈ p.claims, c.bank = b ∧ x = ⟨c.instant, p.node, b, c.kind⟩) ∨
      (∃ c ∈ n.bcu.own, c.bank = b ∧ ∃ t : Nat, (c.state = .settling t ∨ c.state = .held t) ∧
        x = ⟨(t : Int), n.stc.node, b, c.kind⟩)) ∧
    n.dropped b none = (walk (n.stc.cfg.drawLimit.get b) 0 false (n.bankView b)).2 ∧
    (∀ c ∈ n.bankView b, n.dropped b (some c) = (walk (n.stc.cfg.drawLimit.get b) 0 false
      (((n.bankView b).filter fun d => decide (d ≠ c)) ++ [c])).2))

/-! ## Peer Table (file 05) -/

/-- PEER_STATUS opens or renews the sender's entry, FRESH from now, with the fields it carries; claims of the entry are
claims the STATUS lists (R86, R89). One that does not fit Formats changes nothing (file 12 R189). The raise instant and the
instant of each listed claim are the held ones where the reported age agrees with them, and else the oldest the age allows
(R90). The entry keeps every listed claim on a bank of the site but for those that the walk of their bank drops (R78); that
two equal entries of one list leave together is the model's choice (log 41). -/
def Obligations.StatusIsMerged : Prop :=
  (∀ (s : State) (bits : Bits) (f : LineFrame), receive bits = some f →
    arrivalOf s.node.stc.node f = .peer kindStatus →
    (s.node.hears = true → ∀ x, readStatus f.payload = some x → ∃ t p, exec (.peerStatus bits) s = .next t ∧
      t.node.ptb.find f.source.toNat = some p ∧ p.stale = false ∧ p.last = s.node.now ∧ p.phase = x.phase ∧
      p.waiting = x.waiting ∧ p.reservation = x.reservation ∧ p.comp = x.comp ∧ p.refillBank = x.refillBank ∧
      p.latch = x.latch ∧
      (∀ c ∈ p.claims, c.bank.num ≤ s.node.stc.cfg.bankCount ∧ ∃ l ∈ x.claims, l.bank = c.bank ∧ l.kind = c.kind) ∧
      (let old := s.node.ptb.find f.source.toNat
       let held := fun (b : Bank) (k : ClaimKind) => old.bind fun e =>
         (e.claims.find? fun c => decide (c.bank = b) && decide (c.kind = k)).map (·.instant)
       let listed := (x.claims.filter fun l => decide (l.bank.num ≤ s.node.stc.cfg.bankCount)).map fun l =>
         (⟨l.bank, l.kind, instantOf s.node.now l.age (held l.bank l.kind)⟩ : PeerClaim)
       let merged : Node := { s.node with ptb := s.node.ptb.put { p with claims := listed } }
       p.raise = (if x.reservation = 0 then none
         else some (instantOf s.node.now x.raiseAge (old.bind (·.raise)))) ∧
       p.claims = listed.filter fun c : PeerClaim =>
         decide ((⟨c.instant, f.source.toNat, c.bank, c.kind⟩ : ViewClaim) ∉ merged.dropped c.bank none))) ∧
    (readStatus f.payload = none ∨ s.node.hears = false → exec (.peerStatus bits) s = .next s)) ∧
  (∀ (r a : Nat) (h : Int),
    (a < 65535 → instantOf r a none = (r : Int) - 10 * ((a : Int) + 1)) ∧
    (a = 65535 → instantOf r a none = (r : Int) - 655360) ∧
    (a < 65535 → 10 * (a : Int) ≤ (r : Int) - h → (r : Int) - h ≤ 10 * ((a : Int) + 1) → instantOf r a (some h) = h) ∧
    (a < 65535 → (r : Int) - h < 10 * (a : Int) ∨ 10 * ((a : Int) + 1) < (r : Int) - h →
      instantOf r a (some h) = instantOf r a none) ∧
    (a = 65535 → 655350 ≤ (r : Int) - h → instantOf r a (some h) = h) ∧
    (a = 65535 → (r : Int) - h < 655350 → instantOf r a (some h) = instantOf r a none))

/-- PEER_CLAIM enters the claim as the youngest of its holder's entry, in place of an older one of the same bank and kind;
on a bank with no claim it is admitted. It is ignored for an EMPTY entry, a bank above the bank count, and a list of four
claims with none of its bank and kind. It changes nothing but the claims on its bank: where the view of the bank stood
whole and no own claim on it is REQUESTED, nothing but the claims of its holder; so no own SETTLING or HELD claim loses.
PEER_RELEASE removes the claim and nothing else (R91, R92, file 04 R76, R77). -/
def Obligations.PeerClaimsComeAndGo : Prop :=
  ∀ (s : State) (bits : Bits) (f : LineFrame) (b : Bank) (k : ClaimKind), receive bits = some f →
    s.node.hears = true → readClaim f.payload = some (b, k) →
    let rest := fun p : Peer => p.claims.filter fun c => !(decide (c.bank = b) && decide (c.kind = k))
    (arrivalOf s.node.stc.node f = .peer kindClaim →
      (s.node.ptb.find f.source.toNat = none ∨ s.node.stc.cfg.bankCount < b.num ∨
          (∃ p, s.node.ptb.find f.source.toNat = some p ∧ 4 ≤ (rest p).length) →
        exec (.peerClaim bits) s = .next s) ∧
      (∀ p, s.node.ptb.find f.source.toNat = some p → b.num ≤ s.node.stc.cfg.bankCount → (rest p).length < 4 →
        ∃ t q, exec (.peerClaim bits) s = .next t ∧ t.node.ptb.find f.source.toNat = some q ∧
          q = { p with claims := q.claims } ∧
          (∀ c ∈ q.claims, c.bank = b → c.kind = k → c.instant = (s.node.now : Int)) ∧
          (∀ c : PeerClaim, c.bank ≠ b → (c ∈ q.claims ↔ c ∈ p.claims)) ∧
          (∀ c ∈ q.claims, c.bank = b → c.kind ≠ k → c ∈ p.claims) ∧
          (s.node.bankView b = [] → 1 ≤ s.node.stc.cfg.drawLimit.get b → ⟨b, k, (s.node.now : Int)⟩ ∈ q.claims) ∧
          (∀ y e, y ≠ f.source.toNat → s.node.ptb.find y = some e → ∃ e', t.node.ptb.find y = some e' ∧
            e' = { e with claims := e'.claims } ∧ ∀ c : PeerClaim, c.bank ≠ b → (c ∈ e'.claims ↔ c ∈ e.claims)) ∧
          (∀ y, s.node.ptb.find y = none → t.node.ptb.find y = none) ∧
          ((walk (s.node.stc.cfg.drawLimit.get b) 0 false (s.node.bankView b)).2 = [] →
            (∀ o ∈ s.node.bcu.own, o.bank = b → o.state ≠ .requested) →
            t.node = { s.node with ptb := t.node.ptb } ∧
            (∀ y, y ≠ f.source.toNat → t.node.ptb.find y = s.node.ptb.find y) ∧
            (q.claims = rest p ∨ q.claims = rest p ++ [⟨b, k, (s.node.now : Int)⟩])))) ∧
    (arrivalOf s.node.stc.node f = .peer kindRelease →
      (s.node.ptb.find f.source.toNat = none → exec (.peerRelease bits) s = .next s) ∧
      (∀ p, s.node.ptb.find f.source.toNat = some p →
        exec (.peerRelease bits) s = .next { s with node := { s.node with
          ptb := s.node.ptb.put { p with claims := rest p } } }))

/-- PEER_HEAT sets reservation, raise instant and waiting flag of the sender's entry and nothing else of it; for an EMPTY
entry it changes nothing (R93). -/
def Obligations.HeatIsMerged : Prop :=
  ∀ (s : State) (bits : Bits) (f : LineFrame) (x : HeatFields), receive bits = some f →
    arrivalOf s.node.stc.node f = .peer kindHeat → s.node.hears = true → readHeat f.payload = some x →
    (∀ p, s.node.ptb.find f.source.toNat = some p → ∃ t, exec (.peerHeat bits) s = .next t ∧
      t.node.ptb = s.node.ptb.put { p with
        reservation := x.reservation, waiting := x.waiting
        raise := if x.reservation = 0 then none else some (instantOf s.node.now x.raiseAge p.raise) } ∧
      t.node.bcu = s.node.bcu ∧ t.node.ccu = s.node.ccu ∧ t.node.isc = s.node.isc ∧ t.node.mpu = s.node.mpu) ∧
    (s.node.ptb.find f.source.toNat = none → exec (.peerHeat bits) s = .next s)

/-- CONFLICT_FRAME sets NUMBER_CONFLICT: an authorization is cancelled, the compressor stops, and only STATUS frames stay
to be sent. A later one changes nothing (R96, R97, file 10 R180). -/
def Obligations.ConflictSilencesTheNode : Prop :=
  ∀ (s : State) (bits : Bits) (f : LineFrame), receive bits = some f →
    arrivalOf s.node.stc.node f = .conflict → s.node.hears = true →
    (s.node.stc.conflict = false → ∃ t, exec (.conflictFrame bits) s = .next t ∧
      t.node.stc = { s.node.stc with conflict := true } ∧ t.node.fcu.phase ≠ .authorized ∧
      t.node.ccu.state.running = false ∧
      (∀ q ∈ t.node.liu.queue, q.body = .status ∨ q.onWire = true ∧ q.doomed = true)) ∧
    (s.node.stc.conflict = true → exec (.conflictFrame bits) s = .next s)

/-- ENTRY_STALE marks an entry STALE after 350 ms without a STATUS, ENTRY_FORGOTTEN empties it after 2,000 ms; the other
entries stay, and no own claim changes (R87, R88). -/
def Obligations.EntriesAgeAndAreForgotten : Prop :=
  ∀ (s : State) (x : Nat) (p : Peer), s.node.ptb.find x = some p →
    (p.stale = false → 350 ≤ s.node.now - p.last → ∃ t, exec (.entryStale x) s = .next t ∧
      t.node.ptb = s.node.ptb.put { p with stale := true } ∧ t.node.bcu = s.node.bcu) ∧
    (2000 ≤ s.node.now - p.last → ∃ t, exec (.entryForgotten x) s = .next t ∧ t.node.ptb.find x = none ∧
      (∀ y, y ≠ x → t.node.ptb.find y = s.node.ptb.find y) ∧ t.node.bcu = s.node.bcu)

/-! ## Heat share (file 06) -/

/-- EVALUATION_TICK forms ΔT10 and the want, and leaves a reservation that is 0 or at least 4,000 W, not above the want,
and that fits beside the counted peers (R102, R104 to R106): the target is the want or what the counted peers leave of
C_eff, capped at the fair share while a waiting peer counts (R105); a target of 4,000 W or more is reserved, a lower one
gives 0 with the waiting flag, and a want of 0 gives 0 without it (R106), as 1,800 ms of quiet does (R114); a raise is
dated now, a decrease keeps its date, and a fall to 0 takes it away (R107). That the target under NUMBER_CONFLICT is the
lower of it and the own reservation, the flag following R106 from there, is the model's choice (logs 35 and 42). A T_K answer forms C_eff (R101). A fall of C_eff and a peer's
reservation that rose bring the over-commit test: the reservations above 0 are walked by raise instant and node number,
each with the lower of its amount and what is left of C_eff, and the own one falls to its portion, or to 0 with the waiting
flag where that is below 4,000 W (R109, R110). -/
def Obligations.EvaluationReservesWithinTheShare : Prop :=
  (∀ (s : State) (g : Nat), s.node.hsu.gridNext = some g → g ≤ s.node.now →
    let want := (s.node.stc.cfg.peakFlow * 143 * max (s.node.tS - s.node.stc.cfg.tSet) 100 + 999) / 1000
    let waiting := fun p : Peer => !p.stale && p.waiting && (decide (p.phase = .checking) || decide (p.phase = .ramping))
    let sharers := 1 + (s.node.ptb.peers.filter fun p => decide (0 < p.reservation) || waiting p).length
    let room := min want (s.node.hsu.cEff - s.node.countedPeerSum)
    let share := if s.node.ptb.peers.any waiting then min room (s.node.hsu.cEff / sharers) else room
    let target := if s.node.stc.conflict then min share s.node.hsu.rOwn else share
    ∃ t, exec .evaluationTick s = .next t ∧
    (s.node.quietAtLeast 1800 = false → want ≠ 0 → 4000 ≤ target →
      t.node.hsu.rOwn = target ∧ t.node.hsu.waiting = false) ∧
    (s.node.quietAtLeast 1800 = false → want ≠ 0 → target < 4000 →
      t.node.hsu.rOwn = 0 ∧ t.node.hsu.waiting = true) ∧
    (want = 0 → t.node.hsu.rOwn = 0 ∧ t.node.hsu.waiting = false) ∧
    (s.node.hsu.rOwn < t.node.hsu.rOwn → t.node.hsu.raise = some s.node.now) ∧
    (0 < t.node.hsu.rOwn → t.node.hsu.rOwn ≤ s.node.hsu.rOwn → t.node.hsu.raise = s.node.hsu.raise) ∧
    (0 < s.node.hsu.rOwn → t.node.hsu.rOwn = 0 → t.node.hsu.raise = none) ∧
    t.node.hsu.gridNext = some (g + 1000) ∧
    t.node.hsu.dT10 = max (s.node.tS - s.node.stc.cfg.tSet) 100 ∧
    t.node.hsu.rWant = want ∧
    (t.node.hsu.rOwn = 0 ∨
      4000 ≤ t.node.hsu.rOwn ∧ t.node.hsu.rOwn ≤ t.node.hsu.rWant ∧
        t.node.hsu.rOwn + s.node.countedPeerSum ≤ s.node.hsu.cEff) ∧
    (s.node.quietAtLeast 1800 = true → t.node.hsu.rOwn = 0 ∧ t.node.hsu.waiting = false) ∧
    t.node.hsu.cEff = s.node.hsu.cEff ∧ t.node.ptb = s.node.ptb ∧ t.node.bcu = s.node.bcu) ∧
  (∀ (s : State) (i : BitVec 16) (v c : Nat), s.awaits .tK → v = codeOfCurrent .tK i.toNat →
    c = (if 3600 ≤ i.toNat ∧ i.toNat ≤ 21000 then
        (if v ≤ 2332 then s.node.stc.cfg.capacity
         else if v ≤ 2481 then s.node.stc.cfg.capacity * (2482 - v) / 150 else 0)
      else 0) →
    ∃ t, exec (.converterAnswer 9 i) s = .next t ∧ t.node.hsu.cEff = c ∧
      (s.node.hsu.cEff ≤ c → t.node.hsu = { s.node.hsu with cEff := c }) ∧
      (c < s.node.hsu.cEff → t.node.hsu = (hsuOverCommit { s.node with hsu.cEff := c }).hsu)) ∧
  (∀ (s : State) (bits : Bits) (f : LineFrame) (x : HeatFields) (p : Peer), receive bits = some f →
    arrivalOf s.node.stc.node f = .peer kindHeat → s.node.hears = true → readHeat f.payload = some x →
    s.node.ptb.find f.source.toNat = some p → p.reservation < x.reservation → p.waiting = x.waiting →
    ∃ t, exec (.peerHeat bits) s = .next t ∧ t.node.hsu = (hsuOverCommit { s.node with ptb := t.node.ptb }).hsu) ∧
  (∀ n : Node,
    (n.hsu.rOwn + (n.ptb.peers.map (·.reservation)).sum ≤ n.hsu.cEff → hsuOverCommit n = n) ∧
    (n.ownPortion = n.hsu.rOwn → hsuOverCommit n = n) ∧
    (n.hsu.cEff < n.hsu.rOwn + (n.ptb.peers.map (·.reservation)).sum → n.ownPortion < n.hsu.rOwn →
      (4000 ≤ n.ownPortion → (hsuOverCommit n).hsu.rOwn = n.ownPortion ∧
        (hsuOverCommit n).hsu.waiting = n.hsu.waiting ∧ (hsuOverCommit n).hsu.raise = n.hsu.raise) ∧
      (n.ownPortion < 4000 → 0 < n.hsu.rWant → (hsuOverCommit n).hsu.rOwn = 0 ∧
        (hsuOverCommit n).hsu.waiting = true ∧ (hsuOverCommit n).hsu.raise = none)) ∧
    n.countedPeerSum =
      (((portions n.hsu.cEff n.reservations).filter fun p => decide (p.1 ≠ n.stc.node)).map (·.2)).sum ∧
    n.ownPortion =
      (((portions n.hsu.cEff n.reservations).filter fun p => decide (p.1 = n.stc.node)).map (·.2)).sum ∧
    n.ptb.reservations =
      ((n.ptb.peers.filter fun e => decide (0 < e.reservation)).map fun e => ⟨e.raise.getD 0, e.node, e.reservation⟩) ∧
    n.reservations.Perm (n.ptb.reservations ++
      (if 0 < n.hsu.rOwn then [⟨((n.hsu.raise.getD 0 : Nat) : Int), n.stc.node, n.hsu.rOwn⟩] else [])) ∧
    n.reservations.Pairwise (fun a b => a.instant < b.instant ∨ a.instant = b.instant ∧ a.holder ≤ b.holder)) ∧
  (∀ (left : Nat) (rs : List Reservation),
    ((portions left rs).map (·.2)).sum ≤ left ∧ (portions left rs).length = rs.length ∧
    (∀ (i : Nat) (r : Reservation), rs[i]? = some r → (portions left rs)[i]? =
      some (r.holder, min r.amount (left - (((portions left rs).take i).map (·.2)).sum))) ∧
    ((rs.map (·.amount)).sum ≤ left → portions left rs = rs.map fun r => (r.holder, r.amount)))

/-! ## Compressor (file 07) -/

/-- SURVEY_TICK in OFF: with no candidate or without permission only the grid moves on; with both, the candidates are asked
for in their order, one that is refused at once passing on to the next, and with the first that becomes REQUESTED the
compressor starts, with the claim PENDING and the start on the list; where each is refused it stays OFF (R119, R122). The
permission is the table of R120, and the candidates are those of R121, in the refill order, without a bank passed over
(R124). -/
def Obligations.SurveyStartsTheCompressor : Prop :=
  (∀ (s : State) (g : Nat), s.node.ccu.surveyNext = some g → g ≤ s.node.now → s.node.ccu.state = .off →
    (s.node.refillCandidates none = [] ∨ s.node.startPermitted = false ∨
        (∀ b ∈ s.node.refillCandidates none, s.node.requestRefused b .refill = true) →
      exec .surveyTick s = .next { s with node := { s.node with
        ccu := { s.node.ccu with surveyNext := some (g + 1000) } } }) ∧
    (∀ as b bs, s.node.refillCandidates none = as ++ b :: bs → s.node.startPermitted = true →
      s.node.ccu.claim = none → s.node.ccu.direct = .none → (∀ a ∈ as, s.node.requestRefused a .refill = true) →
      s.node.requestRefused b .refill = false → urgentCount s.node.liu.queue < 5 →
      s.node.liu.queue.length < 10 → ∃ t, exec .surveyTick s = .next t ∧
        t.node.ccu = { s.node.ccu with
          state := .starting, since := s.node.now, claim := some ⟨b, .pending⟩, runSince := some s.node.now
          offSince := none, absentSince := some s.node.now, starts := s.node.ccu.starts ++ [s.node.now]
          passOver := none, surveyNext := some (g + 1000) } ∧
        t.node.bcu.own = s.node.bcu.own ++ [⟨b, .refill, .requested⟩] ∧ t.node.fcu = s.node.fcu)) ∧
  (∀ n : Node, n.startPermitted = true ↔
    n.ccu.state = .off ∧ (∃ a, n.ccu.offSince = some a ∧ 60000 ≤ n.now - a) ∧
    n.ccu.starts.length < n.stc.cfg.maxStarts ∧ n.isc.loop = .normal ∧
    (∀ p ∈ n.ptb.peers, p.latch = false) ∧ (∀ p ∈ n.ptb.peers, p.stale = false → p.comp ≠ .starting) ∧
    (∀ c : Channel, c = .pC ∨ c = .tC → (n.chan c).value.isSome = true ∧ (n.chan c).health = .ok ∧
      ∃ a, (n.chan c).acceptedAt = some a ∧ n.now - a ≤ 2000) ∧
    (∀ v, (n.chan .tC).value = some v → v < 4332) ∧ n.level .motorRun = false ∧
    (∀ a, n.liu.quietSince = some a → n.now - a < 1000) ∧ n.stc.conflict = false) ∧
  (∀ (n : Node) (skip : Option Bank),
    (∀ b, b ∈ n.refillCandidates skip ↔ b.num ≤ n.stc.cfg.bankCount ∧ skip ≠ some b ∧
      (n.chan (.pB b)).health = .ok ∧
      (∃ v, (n.chan (.pB b)).value = some v ∧ v + n.stc.cfg.hysteresis < n.stc.cfg.nominal.get b) ∧
      n.bankView b = [] ∧
      (∀ p ∈ n.ptb.peers, p.stale = false → p.comp = .loadedRefill → p.refillBank ≠ some b)) ∧
    (n.stc.cfg.order = .descending → (n.refillCandidates skip).Pairwise (fun a b => b.num < a.num)) ∧
    (n.stc.cfg.order = .rotating → n.ccu.pointer = none →
      (n.refillCandidates skip).Pairwise (fun a b => a.num < b.num)) ∧
    (∀ p, n.stc.cfg.order = .rotating → n.ccu.pointer = some p → (n.refillCandidates skip).Pairwise (fun a b =>
      (p.num < a.num ∧ (a.num < b.num ∨ b.num ≤ p.num)) ∨ (a.num < b.num ∧ b.num ≤ p.num))))

/-- The timers of the compressor: the end of STARTING loads a HELD claim or a DIRECT request, the minimum run ends an idle
run, STOPPING and LOCKOUT lead to OFF, and a start leaves the list after 60 minutes (R119, R123, R124, R126 to R128,
R131). The end of a refill: a P_B answer at or above the nominal pressure commands the valve closed in IDLE_RUN with the
claim RELEASING, and at the end of the travel the claim is released; where no bank needs gas the compressor then runs on
until its minimum run is over (R125). -/
def Obligations.CompressorTimersAct : Prop :=
  (∀ (s : State) (b : Bank), s.node.ccu.state = .starting → 5000 ≤ s.node.now - s.node.ccu.since →
    s.node.ccu.direct ≠ .pending → s.node.ccu.claim = some ⟨b, .held⟩ → s.node.ccu.hold = false →
    ∃ t, exec .startingEnd s = .next t ∧ t.node.ccu.state = .loadedRefill ∧ t.node.ccu.since = s.node.now ∧
      t.node.ccu.pointer = some b ∧ (t.node.ccu.vr.get b).opened = true ∧ t.node.ccu.starts = s.node.ccu.starts) ∧
  (∀ s : State, s.node.ccu.state = .starting → 5000 ≤ s.node.now - s.node.ccu.since →
    s.node.ccu.direct = .pending → s.node.ccu.hold = false → ∃ t, exec .startingEnd s = .next t ∧
      t.node.ccu.state = .loadedDirect ∧ t.node.ccu.vdir.opened = true ∧ t.node.ccu.claim = s.node.ccu.claim) ∧
  (∀ (s : State) (a : Nat), s.node.ccu.state = .idleRun → s.node.ccu.claim = none → s.node.ccu.direct = .none →
    s.node.ccu.runSince = some a → 120000 ≤ s.node.now - a → ∃ t, exec .runTimerExpiry s = .next t ∧
      t.node.ccu.state = .stopping ∧ t.node.ccu.since = s.node.now ∧ t.node.cmRun = false ∧
      t.node.ccu.runSince = none ∧ t.node.ccu.absentSince = none ∧ t.node.fcu = s.node.fcu) ∧
  (∀ s : State, s.node.ccu.state = .stopping → 10000 ≤ s.node.now - s.node.ccu.since →
    exec .stoppingEnd s = .next { s with node := { s.node with
      ccu := { s.node.ccu with state := .off, since := s.node.now } } }) ∧
  (∀ s : State, s.node.ccu.state = .lockout → 600000 ≤ s.node.now - s.node.ccu.since →
    exec .lockoutEnd s = .next { s with node := { s.node with
      ccu := { s.node.ccu with state := .off, since := s.node.now } } }) ∧
  (∀ s : State, ∃ l, exec .startListExpiry s = .next { s with node := { s.node with
      ccu := { s.node.ccu with starts := l } } } ∧
    ∀ a, a ∈ l ↔ a ∈ s.node.ccu.starts ∧ s.node.now - a < 3600000) ∧
  (∀ (s : State) (b : Bank) (i : BitVec 16), s.awaits (.pB b) → 3600 ≤ i.toNat → i.toNat ≤ 21000 →
    s.node.stc.cfg.nominal.get b ≤ codeOfCurrent (.pB b) i.toNat → s.node.ccu.state = .loadedRefill →
    s.node.ccu.claim = some ⟨b, .held⟩ → (s.node.ccu.vr.get b).opened = true →
    ∃ t, exec (.converterAnswer (converterInput (.pB b)) i) s = .next t ∧
      t.node.ccu = { s.node.ccu with
        state := .idleRun, since := s.node.now, claim := some ⟨b, .releasing⟩
        vr := s.node.ccu.vr.set b ⟨false, some s.node.now⟩ } ∧
      t.node.cmLoad = false ∧ t.node.bcu = s.node.bcu ∧ t.node.fcu = s.node.fcu) ∧
  (∀ (s : State) (b : Bank) (i : BitVec 16), s.awaits (.pB b) → 3600 ≤ i.toNat → i.toNat ≤ 21000 →
    codeOfCurrent (.pB b) i.toNat < s.node.stc.cfg.nominal.get b →
    ∃ t, exec (.converterAnswer (converterInput (.pB b)) i) s = .next t ∧ t.node.ccu = s.node.ccu) ∧
  (∀ (s : State) (b : Bank) (a r : Nat), s.node.ccu.state = .idleRun → s.node.ccu.direct = .none →
    s.node.ccu.claim = some ⟨b, .releasing⟩ → s.node.ccu.vr.get b = ⟨false, some a⟩ → 400 ≤ s.node.now - a →
    s.node.ccu.runSince = some r → s.node.now - r < 120000 →
    (∀ c : Bank, s.node.stc.cfg.nominal.get c ≤ s.node.pB c + s.node.stc.cfg.hysteresis) →
    ∃ t, exec (.valveTravelEnd (.refill b)) s = .next t ∧
      t.node.ccu = { s.node.ccu with claim := none, vr := s.node.ccu.vr.set b ⟨false, none⟩ } ∧
      t.node.bcu.find b .refill = none)

/-! ## Metering (file 08) -/

/-- METER_PULSE in RUN: in an OPEN window the gross of the fill grows by the pulse weight; in a CLOSED one pending creep,
the creep window and the quiet timer take it, and METER_CREEP is set above 1,000 cg in a window (R137, R139, R140). Before
RUN it has no effect (R136). -/
def Obligations.PulsesGoToFillOrCreep : Prop :=
  (∀ s : State, s.node.inRun = true → s.node.mpu.windowOpen = true → ∃ t, exec .meterPulse s = .next t ∧
    t.node.mpu.gross = s.node.mpu.gross + s.node.stc.cfg.pulseWeight ∧
    t.node.mpu.ventEst = s.node.ventEstimate ∧
    t.node.mpu.projNet = s.node.mpu.gross + s.node.stc.cfg.pulseWeight - s.node.ventEstimate ∧
    t.node.mpu.pending = s.node.mpu.pending ∧ t.node.mpu.windowOpen = true ∧ t.node.fcu = s.node.fcu) ∧
  (∀ (s : State) (w : CreepWindow), s.node.inRun = true → s.node.mpu.windowOpen = false →
    s.node.mpu.pending + s.node.stc.cfg.pulseWeight < 20000 →
    w = (match s.node.mpu.creepWindow with
      | none => ⟨s.node.now, s.node.stc.cfg.pulseWeight⟩
      | some c => ⟨c.openedAt, c.mass + s.node.stc.cfg.pulseWeight⟩) →
    exec .meterPulse s = .next { s with node := { s.node with
      mpu := { s.node.mpu with
        pending := s.node.mpu.pending + s.node.stc.cfg.pulseWeight
        quietSince := some s.node.now
        creepWindow := some w
        creepFlag := s.node.mpu.creepFlag || decide (1000 < w.mass) } } }) ∧
  (∀ s : State, s.node.inRun = false → exec .meterPulse s = .next s)

/-- CREEP_WINDOW_CLOSE closes a creep window after 60,000 ms; CREEP_QUIET_EXPIRY clears METER_CREEP, stops the quiet timer
and hands pending creep on (R140 to R142). -/
def Obligations.CreepTimersAct : Prop :=
  (∀ (s : State) (w : CreepWindow), s.node.mpu.creepWindow = some w → 60000 ≤ s.node.now - w.openedAt →
    exec .creepWindowClose s = .next { s with node := { s.node with
      mpu := { s.node.mpu with creepWindow := none } } }) ∧
  (∀ (s : State) (a : Nat), s.node.mpu.quietSince = some a → 60000 ≤ s.node.now - a →
    ∃ t, exec .creepQuietExpiry s = .next t ∧
      t.node.mpu = { s.node.mpu with creepFlag := false, quietSince := none, pending := 0 } ∧
      (s.node.mpu.pending = 0 → t.node.rst = s.node.rst) ∧
      (0 < s.node.mpu.pending → s.node.rst.write = none → s.node.rst.recordMark = none → s.node.rst.requests = [] →
        s.node.rst.creepMark = none → t.node.rst.write = some (.creep s.node.mpu.pending)))

/-- PRICE in RUN sets or unsets its row and is answered OK, or is answered BAD_FIELD with no effect (R149); one sent to all
stations is taken too. Before its owner has it, the LIU answers it (file 10 R173, file 11 R186, R187). -/
def Obligations.PriceSetsItsRow : Prop :=
  (∀ (s : State) (bits : Bits) (f : LineFrame) (row p : Nat), receive bits = some f →
    arrivalOf s.node.stc.node f = .command kindPrice → s.node.stc.phase = .run → f.payload.length = 4 →
    row = fieldAt f.payload 0 1 → p = fieldAt f.payload 1 3 →
    (∀ r : Four, row = r.num → p ≤ 999999 → exec (.price bits) s =
      .next { s with node := offer (.answer f.source.toNat kindPrice .ok 0) { s.node with
        mpu := { s.node.mpu with prices := s.node.mpu.prices.set r (if p = 0 then none else some p) } } }) ∧
    (row < 1 ∨ 4 < row ∨ 999999 < p → exec (.price bits) s =
      .next { s with node := offer (.answer f.source.toNat kindPrice .badField 0) s.node })) ∧
  CommandGate kindPrice true .price

/-! ## Record store (file 09) -/

/-- The write completions of RUN: what each leaves in the slots, in both copies of the totals area and in the working
image, the OK of a collect, and the record frames and the DONE or IDLE of a close, from which on no PROGRESS waits that is
yet to be formed (R155 to R159, R162, file 03 R63, file 10 R179). The new last number that a create stores (log 18), the
payload a queued PROGRESS takes at DONE (log 38), end reason 0 while a record is OPEN (log 48), and both totals copies
written by a checkpoint that gained no gross (log 56) are the model's reading. -/
def Obligations.WritesTakeEffect : Prop :=
  (∀ (s : State) (im : Image), s.node.rst.write = some (.record .create im) →
    ∃ t, exec .createWriteComplete s = .next t ∧
      t.node.rst.slots = s.node.rst.slots.set im.slot (.make .opened im.txn im.count im.body) ∧
      t.node.rst.copy1 = t.node.rst.copy2 ∧ t.node.rst.copy1.sums = s.node.rst.totals.sums ∧
      t.node.rst.copy1.last = im.txn ∧ t.node.rst.copy1.writes = (s.node.rst.totals.writes + 1) % 65536 ∧
      (s.node.rst.recordMark = none → t.node.rst.image = s.node.rst.image)) ∧
  (∀ (s : State) (im : Image), s.node.rst.write = some (.record .checkpoint im) →
    ∃ t, exec .checkpointWriteComplete s = .next t ∧
      t.node.rst.slots = s.node.rst.slots.set im.slot (.make .opened im.txn (min (im.count + 1) 65535) im.body) ∧
      t.node.rst.copy1 = t.node.rst.copy2 ∧
      t.node.rst.copy1.sums = { s.node.rst.totals.sums with
        gross := (s.node.rst.totals.sums.gross + (im.body.gross - im.written)) % 1000000000000 } ∧
      (∀ cur, s.node.rst.image = some cur → ∃ next, t.node.rst.image = some next ∧
        next.count = min (im.count + 1) 65535 ∧ next.written = im.body.gross ∧ next.slot = cur.slot ∧
        next.txn = cur.txn ∧ next.body.gross = cur.body.gross ∧ next.body.stages = cur.body.stages ∧
        (s.node.rst.recordMark = none → next.body = cur.body))) ∧
  (∀ (s : State) (im : Image), s.node.rst.write = some (.record .close im) →
    ∃ t, exec .closeWriteComplete s = .next t ∧
      t.node.rst.slots = s.node.rst.slots.set im.slot (.make .closed im.txn (min (im.count + 1) 65535) im.body) ∧
      t.node.rst.copy1 = t.node.rst.copy2 ∧
      t.node.rst.copy1.sums =
        { gross := (s.node.rst.totals.sums.gross + (im.body.gross - im.written)) % 1000000000000
          net := (s.node.rst.totals.sums.net + im.body.net) % 1000000000000
          amount := (s.node.rst.totals.sums.amount + im.body.amount) % 1000000000000
          creep := s.node.rst.totals.sums.creep } ∧
      t.node.rst.table = s.node.rst.table.set im.slot ⟨.closed, im.txn⟩ ∧ t.node.rst.image = none ∧
      t.node.fcu.phase = (if s.node.level .holstered then .idle else .done) ∧ t.node.fcu.auth = none ∧
      t.node.liu.progressNext = none ∧ (∀ q ∈ t.node.liu.queue, ∀ x, q.body ≠ .progress x) ∧
      (∀ a, s.node.fcu.auth = some a → im.slot < s.node.rst.slots.length → im.slot < s.node.rst.table.length →
        s.node.rst.creepMark = none → s.node.rst.requests = [] → s.node.rst.recordMark = none →
        t.node.liu.queue =
          (offer (.recordB a.terminal (recordBPayload .closed im.txn im.body.bytes))
            (offer (.recordA a.terminal
              (recordAPayload .closed im.txn (min (im.count + 1) 65535) im.body.bytes)) s.node)).liu.queue.map
            (QFrame.atDone ({ s.node with fcu := { s.node.fcu with phase := .done } } : Node).progressPayload))) ∧
  (∀ (s : State) (mass : Nat), s.node.rst.write = some (.creep mass) → ∃ t, exec .creepWriteComplete s = .next t ∧
      t.node.rst.slots = s.node.rst.slots ∧ t.node.rst.copy1 = t.node.rst.copy2 ∧
      t.node.rst.copy1.sums = { s.node.rst.totals.sums with
        gross := (s.node.rst.totals.sums.gross + mass) % 1000000000000
        creep := (s.node.rst.totals.sums.creep + mass) % 1000000000000 } ∧ t.node.fcu = s.node.fcu ∧
      (s.node.rst.recordMark = none → t.node.rst.image = s.node.rst.image)) ∧
  (∀ (s : State) (i txn terminal : Nat), s.node.rst.write = some (.collect i txn terminal) →
    ∃ t, exec .collectWriteComplete s = .next t ∧
      t.node.rst.slots = s.node.rst.slots.modify i (fun x => x.withHeader .collected x.txn x.count) ∧
      t.node.rst.table = s.node.rst.table.set i ⟨.collected, txn⟩ ∧ t.node.rst.copy1 = s.node.rst.copy1 ∧
      t.node.rst.copy2 = s.node.rst.copy2 ∧ t.node.fcu = s.node.fcu ∧
      (s.node.rst.recordMark = none → t.node.rst.image = s.node.rst.image) ∧
      (s.node.rst.recordMark = none → s.node.rst.creepMark = none → s.node.rst.requests = [] →
        t.node.liu = (offer (.answer terminal kindCollect .ok txn) s.node).liu))

/-- QUERY, COLLECT and READ-TOTALS: BUSY at a full request list, a place in the list while a write is in progress, and at
an idle store their answer at once: the two record frames (of an OPEN record from its working image), an ANSWER, the
collect write, the totals, these to address 0 too (R160 to R163). Before their owner has them, the LIU answers them (file
10 R173, file 11 R186, R187). The model's choice: what an ANSWER echoes where R189 leaves it open (log 10: the BUSY to
READ-TOTALS echoes 0, those to QUERY and COLLECT the number asked, and the BAD_FIELD and NOT_READY that the LIU forms to
QUERY and COLLECT echo 0, the number not being read), that a frame of an OPEN record carries end reason 0 (log 48), the
bits that the record tables do not name (log 62), and that COLLECT begins its write under NUMBER_CONFLICT too (log 55). -/
def Obligations.RequestsAreServed : Prop :=
  (∀ (s : State) (bits : Bits) (f : LineFrame) (x : Nat), receive bits = some f → s.node.stc.phase = .run →
    kindLength f.kind = some f.payload.length → x = fieldAt f.payload 0 2 →
    let full := fun (command : Instr) (number : Nat) => 4 ≤ s.node.rst.requests.length → exec command s =
      .next { s with node := offer (.answer f.source.toNat f.kind .busy number) s.node }
    let kept := fun (command : Instr) (kind : RequestKind) (number : Nat) =>
      s.node.rst.requests.length < 4 → s.node.rst.write.isSome = true → exec command s =
        .next { s with node := { s.node with rst := { s.node.rst with
          requests := s.node.rst.requests ++ [⟨kind, number, f.source.toNat, s.node.rst.ticket⟩]
          ticket := s.node.rst.ticket + 1 } } }
    let idle := s.node.rst.requests = [] ∧ s.node.rst.write = none ∧ s.node.rst.recordMark = none ∧
      s.node.rst.creepMark = none
    (arrivalOf s.node.stc.node f = .command kindQuery → f.destination.toNat ≠ 0 →
      full (.query bits) x ∧ kept (.query bits) .query x ∧
      (idle → ∃ t, exec (.query bits) s = .next t ∧ t.node.rst.requests = [] ∧ t.node.rst.write = none ∧
        t.node.rst.slots = s.node.rst.slots ∧ t.node.rst.table = s.node.rst.table ∧
        (s.node.rst.queried x = none →
          t.node.liu = (offer (.answer f.source.toNat kindQuery .unknownRecord x) s.node).liu) ∧
        (∀ i txn st r, s.node.rst.queried x = some i → s.node.rst.table[i]? = some ⟨st, txn⟩ →
          s.node.rst.slots[i]? = some r →
          (st ≠ .opened → t.node.liu =
            (offer (.recordB f.source.toNat (recordBPayload st txn r.body))
              (offer (.recordA f.source.toNat (recordAPayload st txn r.count r.body)) s.node)).liu) ∧
          (∀ im, st = .opened → s.node.rst.image = some im → t.node.liu =
            (offer (.recordB f.source.toNat (recordBPayload .opened txn im.body.bytes))
              (offer (.recordA f.source.toNat (recordAPayload .opened txn im.count im.body.bytes)) s.node)).liu)))) ∧
    (arrivalOf s.node.stc.node f = .command kindCollect → f.destination.toNat ≠ 0 →
      full (.collect bits) x ∧ kept (.collect bits) .collect x ∧
      (idle → ∃ t, exec (.collect bits) s = .next t ∧ t.node.rst.requests = [] ∧
          (x = 0 → t.node.liu = (offer (.answer f.source.toNat kindCollect .badField 0) s.node).liu ∧
            t.node.rst.write = none) ∧
          (x ≠ 0 → s.node.rst.slotOf x = none →
            t.node.liu = (offer (.answer f.source.toNat kindCollect .unknownRecord x) s.node).liu) ∧
          (∀ i st, x ≠ 0 → s.node.rst.slotOf x = some i → s.node.rst.table[i]? = some ⟨st, x⟩ →
            (st = .closed ∨ st = .damaged →
              t.node.rst.write = some (.collect i x f.source.toNat) ∧ t.node.liu = s.node.liu) ∧
            (st = .opened → t.node.rst.write = none ∧
              t.node.liu = (offer (.answer f.source.toNat kindCollect .busy x) s.node).liu) ∧
            (st = .collected → t.node.rst.write = none ∧
              t.node.liu = (offer (.answer f.source.toNat kindCollect .ok x) s.node).liu)))) ∧
    (arrivalOf s.node.stc.node f = .command kindReadTotals →
      full (.readTotals bits) 0 ∧ kept (.readTotals bits) .readTotals 0 ∧
      (idle → ∃ t, exec (.readTotals bits) s = .next t ∧ t.node.rst.requests = [] ∧
          t.node.liu = (offer (.totals f.source.toNat s.node.rst.totalsPayload) s.node).liu))) ∧
  CommandGate kindQuery false .query ∧ CommandGate kindCollect false .collect ∧
  CommandGate kindReadTotals true .readTotals

/-! ## Line (file 10) -/

/-- The transmit queue stays in class order, urgent before normal before bulk, a frame taking its place behind those of its
class; a waiting STATUS or HEAT is replaced in its place; with five urgent frames an urgent one is refused. With ten frames
a bulk one is refused; a normal or urgent one displaces the youngest bulk frame that waits, an urgent one without such a
frame the youngest normal one, and one that finds neither is refused. Ten frames and five urgent ones stay the most (R174
to R176). The youngest frame being the one that stands last (log 44), and a PROGRESS beside one on the wire being queued
(log 43), are the model's choice. -/
def Obligations.QueueKeepsClassOrder : Prop :=
  ∀ (b : FrameBody) (q : List QFrame),
    (q.Pairwise (fun x y => x.body.cls ≤ y.body.cls) →
      (queueOffer b q).1.Pairwise (fun x y => x.body.cls ≤ y.body.cls)) ∧
    (q.length ≤ 10 → (queueOffer b q).1.length ≤ 10) ∧
    (urgentCount q ≤ 5 → urgentCount (queueOffer b q).1 ≤ 5) ∧
    (b = .status ∨ b = .heat → q.any (QFrame.waits b) = true →
      queueOffer b q = (q.map fun f => if QFrame.waits b f then .fresh b else f, true)) ∧
    (b.isProgress = true → (∃ x ∈ q, x.body.isProgress = true ∧ x.onWire = false) → queueOffer b q = (q, true)) ∧
    ((b.isProgress = true → ∀ x ∈ q, x.body.isProgress = true → x.onWire = true) →
      (b = .status ∨ b = .heat → q.any (QFrame.waits b) = false) →
      (b.cls = 0 → 5 ≤ urgentCount q → queueOffer b q = (q, false)) ∧
      ((b.cls = 0 → urgentCount q < 5) → q.length < 10 → (queueOffer b q).2 = true ∧
        (q.Pairwise (fun x y => x.body.cls ≤ y.body.cls) → (queueOffer b q).1 =
          (q.filter fun x => decide (x.body.cls ≤ b.cls)) ++ .fresh b ::
            (q.filter fun x => decide (b.cls < x.body.cls)))) ∧
      ((b.cls = 0 → urgentCount q < 5) → 10 ≤ q.length →
        (b.cls = 2 → queueOffer b q = (q, false)) ∧
        (∀ xs y ys, b.cls ≠ 2 → q = xs ++ y :: ys → y.body.cls = 2 → y.onWire = false →
          (∀ z ∈ ys, z.body.cls = 2 → z.onWire = true) →
          queueOffer b q = (queueInsert (.fresh b) (xs ++ ys), true)) ∧
        ((∀ z ∈ q, z.body.cls = 2 → z.onWire = true) →
          (b.cls = 1 → queueOffer b q = (q, false)) ∧
          (∀ xs y ys, b.cls = 0 → q = xs ++ y :: ys → y.body.cls = 1 → y.onWire = false →
            (∀ z ∈ ys, z.body.cls = 1 → z.onWire = true) →
            queueOffer b q = (queueInsert (.fresh b) (xs ++ ys), true)) ∧
          (b.cls = 0 → (∀ z ∈ q, z.body.cls = 1 → z.onWire = true) → queueOffer b q = (q, false)))))

/-- TRANSMIT_ATTEMPT puts the first frame of the queue on the wire, FRAME_SENT takes it off, with the quiet timer back to
0 after a STATUS and the claim SETTLING after a CLAIM, and ARBITRATION_YIELD gives it back to its place (R167, R168, R174,
R178, file 04 R72). A STATUS and a PROGRESS are formed at the attempt, with the contents of R177, R179 and file 12 R189. The
model's choice: in every state a PROGRESS carries the source of the stage last in use and the number last issued (log 26),
and it goes to the terminal that the fill had when the PROGRESS was offered (log 45); bits of a STATUS or claim byte that
their tables do not name are sent as 0 (log 61). -/
def Obligations.AttemptsBeginAndEnd : Prop :=
  (∀ (s : State) (q : QFrame) (qs : List QFrame), s.node.liu.queue = q :: qs →
    s.node.stc.phase = .run ∨ s.node.stc.phase = .startFault → s.node.liu.silentSince = none →
    s.node.liu.wire = none → exec .transmitAttempt s = .next { s with node := { s.node with
      liu := { s.node.liu with wire := some (s.node.form q.body), queue := { q with onWire := true } :: qs } } }) ∧
  (∀ (s : State) (q : QFrame) (qs : List QFrame) (w : LineFrame) (a : Nat), s.node.liu.queue = q :: qs →
    q.onWire = true → q.body = .status → s.node.liu.wire = some w → s.node.liu.quietSince = some a →
    s.node.ccu.hold = false → (∀ r ∈ qs, r.onWire = false) → exec .frameSent s = .next { s with node := { s.node with
      liu := { s.node.liu with
        wire := none, consecutive := 0, queue := qs, quietSince := some s.node.now
        silentEnded := s.node.liu.silentEnded && !(byteAt w.payload 3).getLsbD 5 } } }) ∧
  (∀ (s : State) (q : QFrame) (qs : List QFrame) (w : LineFrame) (b : Bank) (k : ClaimKind),
    s.node.liu.queue = q :: qs → q.onWire = true → q.doomed = false → q.body = .claim b k →
    s.node.liu.wire = some w → s.node.claimsBounded → s.node.bcu.find b k = some ⟨b, k, .requested⟩ →
    s.node.bankView b = [] →
    1 ≤ s.node.stc.cfg.drawLimit.get b → ∃ t, exec .frameSent s = .next t ∧
      t.node.bcu.find b k = some ⟨b, k, .settling s.node.now⟩ ∧ t.node.liu.wire = none ∧ t.node.liu.consecutive = 0) ∧
  (∀ (s : State) (q : QFrame) (qs : List QFrame) (w : LineFrame) (p : Nat), s.node.liu.queue = q :: qs →
    q.onWire = true → q.doomed = false → s.node.liu.wire = some w → 8 ≤ p → p < 14 → (wireBits w)[p]? = some true →
    (∀ r ∈ qs, r.onWire = false ∧ r.body ≠ q.body) → exec (.arbitrationYield p) s = .next { s with node := { s.node with
      liu := { s.node.liu with wire := none, queue := { q with onWire := false } :: qs } } }) ∧
  (∀ (n : Node) (p : List Byte), p = (n.form .status).payload →
    n.form .status = ⟨1, BitVec.ofNat 4 n.stc.node, 0, kindStatus, p⟩ ∧ p.length = 29 ∧
    fieldAt p 0 1 = phaseCode n.fcu.phase ∧ fieldAt p 1 1 = (n.fcu.pauses.shown.map pauseCode).getD 0 ∧
    fieldAt p 2 1 = min n.stc.hoseCode 255 ∧
    (byteAt p 3).getLsbD 0 = n.hsu.waiting ∧ (byteAt p 3).getLsbD 1 = decide (n.stc.phase = .startFault) ∧
    (byteAt p 3).getLsbD 2 = n.stc.conflict ∧ (byteAt p 3).getLsbD 3 = n.mpu.creepFlag ∧
    (byteAt p 3).getLsbD 4 = decide (n.ccu.state = .lockout) ∧ (byteAt p 3).getLsbD 5 = n.liu.silentEnded ∧
    fieldAt p 4 3 = min n.hsu.rOwn 16777215 ∧
    (n.hsu.rOwn = 0 → fieldAt p 7 2 = 0) ∧
    (∀ r, 0 < n.hsu.rOwn → n.hsu.raise = some r → fieldAt p 7 2 = min ((n.now - r) / 10) 65535) ∧
    fieldAt p 9 1 / 16 = compCode n.ccu.state ∧
    (∀ c, n.ccu.state = .loadedRefill → n.ccu.claim = some c → fieldAt p 9 1 % 16 = c.bank.num) ∧
    (n.ccu.state ≠ .loadedRefill → fieldAt p 9 1 % 16 = 0) ∧
    fieldAt p 10 1 % 4 = loopCode n.isc.loop ∧ (byteAt p 10).getLsbD 2 = n.isc.latch.isSome ∧
    fieldAt p 10 1 / 16 = latchCode n.isc.latch ∧ fieldAt p 11 2 = min n.liu.total 65535 ∧
    (∀ r : Four, (byteAt p 13).getLsbD (r.num - 1) = (n.mpu.prices.get r).isSome) ∧
    fieldAt p 14 1 = min (n.rst.table.filter Slot.takable).length 255 ∧
    fieldAt p 15 1 = min (n.rst.table.filter Slot.uncollected).length 255 ∧
    fieldAt p 16 1 = min n.listedClaims.length 4 ∧
    (∀ (i : Nat) (c : ViewClaim), i < 4 → n.listedClaims[i]? = some c →
      byteAt p (17 + 3 * i) = claimByte c.bank c.kind ∧
      fieldAt p (18 + 3 * i) 2 = min (((n.now : Int) - c.instant).toNat / 10) 65535) ∧
    (∀ i, i < 4 → n.listedClaims.length ≤ i → fieldAt p (17 + 3 * i) 3 = 0) ∧
    n.listedClaims.Perm (n.bcu.own.filterMap (·.view n.stc.node)) ∧
    n.listedClaims.Pairwise (fun a b => a.instant ≤ b.instant)) ∧
  (∀ (n : Node) (x : Nat) (p : List Byte), p = (n.form (.progress x)).payload →
    n.form (.progress x) = ⟨2, BitVec.ofNat 4 n.stc.node, BitVec.ofNat 4 x, kindProgress, p⟩ ∧ p.length = 19 ∧
    fieldAt p 0 2 = min n.rst.lastIssued 65535 ∧ fieldAt p 2 1 = phaseCode n.fcu.phase ∧
    fieldAt p 3 1 = sourceCode n.fcu.lastSource ∧ fieldAt p 4 4 = min n.mpu.gross 4294967295 ∧
    fieldAt p 8 4 = min n.mpu.projNet 4294967295 ∧ fieldAt p 12 4 = min n.mpu.projAmount 4294967295 ∧
    (n.fcu.lastSoc = none → fieldAt p 16 2 = 65535) ∧
    (∀ v, n.fcu.lastSoc = some v → fieldAt p 16 2 = min v 65535) ∧
    fieldAt p 18 1 = (n.fcu.pauses.shown.map pauseCode).getD 0)

/-- LINE_FAULT raises the frame's fault count, the total and the consecutive count; the third fault of a frame drops it
and the sixteenth consecutive one brings LINE_SILENT, which LINE_SILENT_END ends after 1,000 ms with the mark set (R169,
R170). -/
def Obligations.LineFaultsAreCounted : Prop :=
  (∀ (s : State) (q : QFrame) (qs : List QFrame) (w : LineFrame) (p : Nat), s.node.liu.queue = q :: qs →
    q.onWire = true → q.doomed = false → s.node.liu.wire = some w → p < (wireBits w).length →
    (p < 8 ∨ 14 ≤ p ∨ (wireBits w)[p]? = some false) → (∀ r ∈ qs, r.onWire = false ∧ r.body ≠ q.body) →
    ∃ t, exec (.lineFault p) s = .next t ∧ t.node.liu.wire = none ∧
      t.node.liu.total = min (s.node.liu.total + 1) 65535 ∧
      (s.node.liu.consecutive < 15 →
        t.node.liu.consecutive = s.node.liu.consecutive + 1 ∧ t.node.liu.silentSince = s.node.liu.silentSince) ∧
      (15 ≤ s.node.liu.consecutive → t.node.liu.consecutive = 0 ∧ t.node.liu.silentSince = some s.node.now) ∧
      (q.faults < 2 → t.node.liu.queue = { q with onWire := false, faults := q.faults + 1 } :: qs) ∧
      (2 ≤ q.faults → (∀ b k, q.body ≠ .claim b k) → t.node.liu.queue = qs) ∧
      (2 ≤ q.faults → q.body = .heat → t.node.hsu.resend = true)) ∧
  (∀ (s : State) (a : Nat), s.node.liu.silentSince = some a → 1000 ≤ s.node.now - a →
    exec .lineSilentEnd s = .next { s with node := { s.node with
      liu := { s.node.liu with silentSince := none, silentEnded := true } } })

/-- STATUS_TICK and PROGRESS_TICK offer their frame and stay on their grid; the quiet timer at 1,000 ms closes the valves
and pauses the fill, at 1,800 ms it drops every claim and the reservation and stops the compressor (R177 to R179, file 03
R57, file 04 R80, file 06 R114, file 07 R133). -/
def Obligations.GridsAndQuietTimerAct : Prop :=
  (∀ (s : State) (g : Nat), s.node.liu.statusNext = some g → g ≤ s.node.now →
    exec .statusTick s = .next { s with node := offer .status { s.node with
      liu := { s.node.liu with statusNext := some (g + 100) } } }) ∧
  (∀ (s : State) (g : Nat) (a : Auth), s.node.liu.progressNext = some g → g ≤ s.node.now →
    s.node.fcu.auth = some a → exec .progressTick s = .next { s with node := offer (.progress a.terminal) { s.node with
      liu := { s.node.liu with progressNext := some (g + 1000) } } }) ∧
  (∀ (s : State) (a : Nat), s.node.liu.quietSince = some a → 1000 ≤ s.node.now - a →
    ∃ t, exec .quietTimer1000 s = .next t ∧ t.node.ccu.hold = true ∧ t.node.ccu.vdir.opened = false ∧
      (∀ b : Bank, (t.node.ccu.vr.get b).opened = false) ∧ t.node.bcu = s.node.bcu ∧
      (s.node.fcu.phase.filling = true →
        t.node.fcu.pauses.lineQuiet.isSome = true ∧ ∀ b : Bank, (t.node.fcu.vb.get b).opened = false) ∧
      (s.node.fcu.phase.filling = false → t.node.fcu = s.node.fcu)) ∧
  (∀ (s : State) (a : Nat), s.node.liu.quietSince = some a → 1800 ≤ s.node.now - a →
    ∃ t, exec .quietTimer1800 s = .next t ∧ t.node.bcu.own = [] ∧ t.node.hsu.rOwn = 0 ∧
      t.node.hsu.waiting = false ∧ t.node.hsu.raise = none ∧ t.node.ccu.state.running = false ∧
      (s.node.fcu.phase.filling = true → t.node.fcu.lineFault = true))
end

