-- ==== Sys2Proof/Laws/State.lean ====
section
/-! SUPPORT. One small lemma for each field of each shared update, so that no later proof unfolds a record update. -/

namespace Sys2Proof

/-! ## Things there are four of -/

@[simp] theorem Quad.get_const {α : Type} (x : α) (i : Four) : (Quad.const x).get i = x := by cases i <;> rfl

@[simp] theorem Quad.get_map {α β : Type} (f : α → β) (q : Quad α) (i : Four) : (q.map f).get i = f (q.get i) := by
  cases i <;> rfl

@[simp] theorem Quad.get_set_same {α : Type} (q : Quad α) (i : Four) (x : α) : (q.set i x).get i = x := by
  cases i <;> rfl

theorem Quad.get_set {α : Type} (q : Quad α) (i j : Four) (x : α) :
    (q.set i x).get j = if j = i then x else q.get j := by
  cases i <;> cases j <;> rfl

@[simp] theorem Quad.set_get {α : Type} (q : Quad α) (i : Four) : q.set i (q.get i) = q := by cases i <;> rfl

@[simp] theorem PerInput.get_set_same {α : Type} (p : PerInput α) (i : Input) (x : α) : (p.set i x).get i = x := by
  cases i <;> rfl

theorem PerInput.get_set {α : Type} (p : PerInput α) (i j : Input) (x : α) :
    (p.set i x).get j = if j = i then x else p.get j := by
  cases i <;> cases j <;> rfl

@[simp] theorem PerInput.get_map {α β : Type} (f : α → β) (p : PerInput α) (i : Input) :
    (p.map f).get i = f (p.get i) := by
  cases i <;> rfl

theorem Four.num_pos (b : Four) : 1 ≤ b.num ∧ b.num ≤ 4 := by cases b <;> decide

@[simp] theorem Four.ofNum_num (b : Four) : Four.ofNum b.num = some b := by cases b <;> rfl

namespace Machine

@[simp] theorem Channels.get_set_same (r : Channels) (c : Channel) (x : ChannelRec) : (r.set c x).get c = x := by
  cases c <;> simp [Channels.get, Channels.set]

theorem Channels.get_set_other (r : Channels) (c d : Channel) (x : ChannelRec) (h : d ≠ c) :
    (r.set c x).get d = r.get d := by
  cases c <;> cases d <;> simp_all [Channels.get, Channels.set, Quad.get_set]

/-! ## How a meaning acts -/

@[simp] theorem State.act_eq (s : State) (f : Node → Node) :
    s.act f = .next { node := f s.node, pending := s.pending } := rfl

@[simp] theorem Node.onlyIf_true (n : Node) (f : Node → Node) : n.onlyIf true f = f n := rfl

@[simp] theorem Node.onlyIf_false (n : Node) (f : Node → Node) : n.onlyIf false f = n := rfl

/-! ## Valves -/

@[simp] theorem ValveRec.command_opened (v : ValveRec) (o : Bool) (t : Nat) : (v.command o t).opened = o := by
  unfold ValveRec.command
  split
  · assumption
  · rfl

theorem ValveRec.command_same (v : ValveRec) (t : Nat) : v.command v.opened t = v := by simp [ValveRec.command]

theorem ValveRec.command_new (v : ValveRec) (o : Bool) (t : Nat) (h : v.opened ≠ o) : v.command o t = ⟨o, some t⟩ := by
  simp [ValveRec.command, h]

@[simp] theorem ValveRec.arrive_opened (v : ValveRec) : v.arrive.opened = v.opened := rfl

@[simp] theorem ValveRec.arrive_since (v : ValveRec) : v.arrive.since = none := rfl

@[simp] theorem drawValve_vb (b c : Bank) (o : Bool) (n : Node) :
    (drawValve b o n).fcu.vb.get c = if c = b then (n.fcu.vb.get b).command o n.now else n.fcu.vb.get c := by
  simp only [drawValve, Quad.get_set]

@[simp] theorem drawValve_bcu (b : Bank) (o : Bool) (n : Node) : (drawValve b o n).bcu = n.bcu := rfl

@[simp] theorem closeBanks_vb (n : Node) (b : Bank) :
    (closeBanks n).fcu.vb.get b = (n.fcu.vb.get b).command false n.now := by
  simp only [closeBanks, Quad.get_map]

@[simp] theorem closeBanks_bcu (n : Node) : (closeBanks n).bcu = n.bcu := rfl

@[simp] theorem ventValve_vvent (o : Bool) (n : Node) : (ventValve o n).fcu.vvent = n.fcu.vvent.command o n.now := rfl

@[simp] theorem refillValve_vr (b c : Bank) (o : Bool) (n : Node) :
    (refillValve b o n).ccu.vr.get c = if c = b then (n.ccu.vr.get b).command o n.now else n.ccu.vr.get c := by
  simp only [refillValve, Quad.get_set]

@[simp] theorem directValve_vdir (o : Bool) (n : Node) : (directValve o n).ccu.vdir = n.ccu.vdir.command o n.now := rfl

/-! ## Pauses -/

@[simp] theorem Pauses.get_set_same (p : Pauses) (r : PauseReason) (x : Option Nat) : (p.set r x).get r = x := by
  cases r <;> rfl

theorem Pauses.get_set_other (p : Pauses) (r q : PauseReason) (x : Option Nat) (h : q ≠ r) :
    (p.set r x).get q = p.get q := by
  cases r <;> cases q <;> first | rfl | exact absurd rfl h

@[simp] theorem Pauses.none_any : Pauses.none.any = false := rfl

@[simp] theorem Pauses.none_get (r : PauseReason) : Pauses.none.get r = .none := by cases r <;> rfl

/-! ## The result of a search for a switch target (R46) -/

@[simp] theorem setTarget_noTarget (s : Source) (n : Node) : (setTarget s n).fcu.noTarget = false := rfl

@[simp] theorem clearTarget_noTarget (n : Node) : (clearTarget n).fcu.noTarget = n.fcu.noTarget := rfl

@[simp] theorem pauseEffect_noTarget (n : Node) : (pauseEffect n).fcu.noTarget = n.fcu.noTarget := by
  unfold pauseEffect
  split
  · rfl
  · split <;> rfl

@[simp] theorem setBankWait_noTarget (n : Node) : (setBankWait n).fcu.noTarget = n.fcu.noTarget :=
  pauseEffect_noTarget _

@[simp] theorem endSearch_noTarget (n : Node) : (endSearch n).fcu.noTarget = true := by
  unfold endSearch
  split
  · exact setBankWait_noTarget _
  · rfl

@[simp] theorem giveUpSource_noTarget (n : Node) : (giveUpSource n).fcu.noTarget = false := by
  unfold giveUpSource
  split <;> rfl

@[simp] theorem evaluatePauses_noTarget (n : Node) : (evaluatePauses n).fcu.noTarget = n.fcu.noTarget := rfl

@[simp] theorem evaluatePauses_exhausted (n : Node) :
    (evaluatePauses n).fcu.exhausted = (n.fcu.exhausted || n.bankWaitBegins) := rfl

@[simp] theorem evaluatePauses_searchAt (n : Node) :
    (evaluatePauses n).fcu.searchAt = if n.bankWaitBegins then some n.now else n.fcu.searchAt := rfl

@[simp] theorem evaluatePauses_bankWait (n : Node) :
    (evaluatePauses n).fcu.pauses.bankWait = n.reasonAfter .bankWait := rfl

@[simp] theorem pauseEffect_searchAt (n : Node) : (pauseEffect n).fcu.searchAt = n.fcu.searchAt := by
  unfold pauseEffect
  split
  · rfl
  · split <;> rfl

/-- The next repeat of the search counts from the setting of BANK_WAIT (R46). -/
@[simp] theorem setBankWait_searchAt (n : Node) : (setBankWait n).fcu.searchAt = some n.now :=
  pauseEffect_searchAt _

end Machine
end Sys2Proof
end

