-- ==== Sys2Proof/Laws/Frames.lean ====
section
/-! SUPPORT. Which blocks each shared operation may change: every other block, and the clock, stays as it was. -/

namespace Sys2Proof.Machine

/- The declarations are elaborated one after another: they are many and short. -/
set_option Elab.async false

/-- The blocks of a node. -/
inductive Block where
  | stc | isc | vlr | fcu | bcu | ptb | hsu | ccu | mpu | rst | liu
deriving DecidableEq, Repr

/-- Only the blocks listed may differ. -/
structure Only (x : List Block) (n m : Node) : Prop where
  now : m.now = n.now
  stc : .stc ∉ x → m.stc = n.stc
  isc : .isc ∉ x → m.isc = n.isc
  vlr : .vlr ∉ x → m.vlr = n.vlr
  fcu : .fcu ∉ x → m.fcu = n.fcu
  bcu : .bcu ∉ x → m.bcu = n.bcu
  ptb : .ptb ∉ x → m.ptb = n.ptb
  hsu : .hsu ∉ x → m.hsu = n.hsu
  ccu : .ccu ∉ x → m.ccu = n.ccu
  mpu : .mpu ∉ x → m.mpu = n.mpu
  rst : .rst ∉ x → m.rst = n.rst
  liu : .liu ∉ x → m.liu = n.liu

namespace Only

variable {x y : List Block} {n k m : Node}

theorem refl (x : List Block) (n : Node) : Only x n n := by constructor <;> first | rfl | exact fun _ => rfl

theorem trans (h : Only x n k) (g : Only x k m) : Only x n m where
  now := g.now.trans h.now
  stc := fun i => (g.stc i).trans (h.stc i)
  isc := fun i => (g.isc i).trans (h.isc i)
  vlr := fun i => (g.vlr i).trans (h.vlr i)
  fcu := fun i => (g.fcu i).trans (h.fcu i)
  bcu := fun i => (g.bcu i).trans (h.bcu i)
  ptb := fun i => (g.ptb i).trans (h.ptb i)
  hsu := fun i => (g.hsu i).trans (h.hsu i)
  ccu := fun i => (g.ccu i).trans (h.ccu i)
  mpu := fun i => (g.mpu i).trans (h.mpu i)
  rst := fun i => (g.rst i).trans (h.rst i)
  liu := fun i => (g.liu i).trans (h.liu i)

theorem mono (h : Only x n m) (s : x ⊆ y) : Only y n m where
  now := h.now
  stc := fun i => h.stc fun j => i (s j)
  isc := fun i => h.isc fun j => i (s j)
  vlr := fun i => h.vlr fun j => i (s j)
  fcu := fun i => h.fcu fun j => i (s j)
  bcu := fun i => h.bcu fun j => i (s j)
  ptb := fun i => h.ptb fun j => i (s j)
  hsu := fun i => h.hsu fun j => i (s j)
  ccu := fun i => h.ccu fun j => i (s j)
  mpu := fun i => h.mpu fun j => i (s j)
  rst := fun i => h.rst fun j => i (s j)
  liu := fun i => h.liu fun j => i (s j)

theorem within {a : List Block} (h : Only a n m) (ha : a.all (x.contains ·) = true := by rfl) : Only x n m :=
  h.mono fun b hb => by simpa using List.all_eq_true.mp ha b hb

/-- The last operation first, each within the blocks of the whole. -/
theorem after {a b : List Block} (g : Only a k m) (h : Only b n k) (ha : a.all (x.contains ·) = true := by rfl)
    (hb : b.all (x.contains ·) = true := by rfl) : Only x n m := (h.within hb).trans (g.within ha)

theorem onlyIf {c : Bool} {f : Node → Node} (h : c = true → Only x n (f n)) : Only x n (n.onlyIf c f) := by
  cases c
  · exact refl x n
  · exact h rfl

theorem foldl {α : Type} {f : Node → α → Node} (hf : ∀ n a, Only x n (f n a)) (as : List α) (n : Node) :
    Only x n (as.foldl f n) := by
  induction as generalizing n with
  | nil => exact refl x n
  | cons a as ih => exact (hf n a).trans (ih _)

end Only

/-! ## One block -/

theorem isc_only {n : Node} {v : Isc} : Only [.isc] n { n with isc := v } := by
  constructor <;> first | rfl | exact fun _ => rfl | exact fun h => absurd (by decide) h

theorem vlr_only {n : Node} {v : Vlr} : Only [.vlr] n { n with vlr := v } := by
  constructor <;> first | rfl | exact fun _ => rfl | exact fun h => absurd (by decide) h

theorem fcu_only {n : Node} {v : Fcu} : Only [.fcu] n { n with fcu := v } := by
  constructor <;> first | rfl | exact fun _ => rfl | exact fun h => absurd (by decide) h

theorem bcu_only {n : Node} {v : Bcu} : Only [.bcu] n { n with bcu := v } := by
  constructor <;> first | rfl | exact fun _ => rfl | exact fun h => absurd (by decide) h

theorem ptb_only {n : Node} {v : Ptb} : Only [.ptb] n { n with ptb := v } := by
  constructor <;> first | rfl | exact fun _ => rfl | exact fun h => absurd (by decide) h

theorem hsu_only {n : Node} {v : Hsu} : Only [.hsu] n { n with hsu := v } := by
  constructor <;> first | rfl | exact fun _ => rfl | exact fun h => absurd (by decide) h

theorem ccu_only {n : Node} {v : Ccu} : Only [.ccu] n { n with ccu := v } := by
  constructor <;> first | rfl | exact fun _ => rfl | exact fun h => absurd (by decide) h

theorem mpu_only {n : Node} {v : Mpu} : Only [.mpu] n { n with mpu := v } := by
  constructor <;> first | rfl | exact fun _ => rfl | exact fun h => absurd (by decide) h

theorem rst_only {n : Node} {v : Rst} : Only [.rst] n { n with rst := v } := by
  constructor <;> first | rfl | exact fun _ => rfl | exact fun h => absurd (by decide) h

theorem liu_only {n : Node} {v : Liu} : Only [.liu] n { n with liu := v } := by
  constructor <;> first | rfl | exact fun _ => rfl | exact fun h => absurd (by decide) h

theorem bcu_liu_only {n : Node} {v : Bcu} {w : Liu} : Only [.bcu, .liu] n { n with bcu := v, liu := w } := by
  constructor <;> first | rfl | exact fun _ => rfl | exact fun h => absurd (by decide) h

/-! ## Line, claims -/

theorem liuOffer_only (b : FrameBody) (n : Node) : Only [.liu] n (liuOffer b n).1 := by
  unfold liuOffer
  split
  · exact .refl _ n
  · exact liu_only

theorem offer_only (b : FrameBody) (n : Node) : Only [.liu] n (offer b n) := liuOffer_only b n

theorem answer_only (t : Nat) (c : BitVec 6) (r : Result) (x : Nat) (n : Node) : Only [.liu] n (answer t c r x n) :=
  offer_only _ n

theorem bcuRequest_only (b : Bank) (k : ClaimKind) (n : Node) : Only [.bcu, .liu] n (bcuRequest b k n).1 := by
  unfold bcuRequest
  split
  · exact .refl _ n
  · have h : Only [.bcu, .liu] n (liuOffer (.claim b k) { n with bcu.own := n.bcu.own ++ [⟨b, k, .requested⟩] }).1 :=
      (liuOffer_only _ _).after bcu_only
    split
    · rename_i m e
      rw [e] at h
      exact h
    · rename_i m e
      rw [e] at h
      exact h.trans bcu_only.within

theorem bcuRelease_only (b : Bank) (k : ClaimKind) (n : Node) : Only [.bcu, .liu] n (bcuRelease b k n) := by
  unfold bcuRelease
  split
  · exact .refl _ n
  · split
    · exact bcu_liu_only
    · exact (offer_only _ _).after bcu_only

theorem bcuWithdraw_only (b : Bank) (k : ClaimKind) (n : Node) : Only [.bcu, .liu] n (bcuWithdraw b k n) := bcu_liu_only

/-! ## Record store (file 09) -/

theorem offerRecord_only (t i : Nat) (n : Node) : Only [.liu] n (offerRecord t i n) := by
  unfold offerRecord
  split
  · split <;> exact (offer_only _ _).after (offer_only _ _)
  · exact .refl _ n

theorem serveRequest_only (q : LineRequest) (n : Node) : Only [.rst, .liu] n (serveRequest q n) := by
  unfold serveRequest
  split
  · unfold serveQuery
    split
    · exact (offerRecord_only _ _ n).within
    · exact (answer_only _ _ _ _ n).within
  · exact (offer_only _ n).within
  · unfold serveCollect
    split
    · exact (answer_only _ _ _ _ n).within
    · split
      · exact (answer_only _ _ _ _ n).within
      · split
        · exact rst_only.within
        · exact rst_only.within
        · exact (answer_only _ _ _ _ n).within
        · exact (answer_only _ _ _ _ n).within

theorem beginRecordWrite_only (k : RecordWrite) (n : Node) : Only [.rst] n (beginRecordWrite k n) := by
  unfold beginRecordWrite
  split <;> exact rst_only

theorem storeTake_only (fuel : Nat) (n : Node) : Only [.rst, .liu] n (storeTake fuel n) := by
  induction fuel generalizing n with
  | zero => exact .refl _ n
  | succ fuel ih =>
    unfold storeTake
    split
    · exact .refl _ n
    · split
      · exact .refl _ n
      · exact (beginRecordWrite_only _ n).within
      · exact rst_only.within
      · exact (ih _).after ((serveRequest_only _ _).after (x := [.rst, .liu]) rst_only)

theorem storeKick_only (n : Node) : Only [.rst, .liu] n (storeKick n) := storeTake_only _ n

theorem raiseRecord_only (k : RecordWrite) (n : Node) : Only [.rst, .liu] n (raiseRecord k n) :=
  (storeKick_only _).after rst_only

theorem raiseCreep_only (m : Nat) (n : Node) : Only [.rst, .liu] n (raiseCreep m n) :=
  (storeKick_only _).after rst_only

theorem takeRequest_only (k : RequestKind) (c : BitVec 6) (x t : Nat) (n : Node) :
    Only [.rst, .liu] n (takeRequest k c x t n) := by
  unfold takeRequest
  split
  · exact (answer_only _ _ _ _ n).within
  · exact (storeKick_only _).after rst_only

theorem onImage_only (f : RecordBody → RecordBody) (n : Node) : Only [.rst] n (onImage f n) := rst_only

theorem rstAppend_only (s : Source) (n : Node) : Only [.rst, .liu] n (rstAppend s n) :=
  (raiseRecord_only _ _).after (onImage_only _ n)

theorem rstCreate_only (n : Node) : Only [.rst, .liu] n (rstCreate n) := by
  unfold rstCreate
  split
  · exact (raiseRecord_only _ _).after rst_only
  · exact .refl _ n

/-! ## Meter (file 08) -/

theorem mpuMarks_only (n : Node) : Only [.mpu] n (mpuMarks n) := by
  unfold mpuMarks
  split
  · exact .refl _ n
  · split
    · exact mpu_only
    · exact .refl _ n

theorem mpuProject_only (n : Node) : Only [.mpu] n (mpuProject n) := by
  unfold mpuProject
  split
  · exact (mpuMarks_only _).after mpu_only
  · exact .refl _ n

theorem mpuAccrue_only (n : Node) : Only [.mpu, .rst, .liu] n (mpuAccrue n) := by
  unfold mpuAccrue
  split
  · exact (raiseCreep_only _ _).after mpu_only
  · exact .refl _ n

theorem mpuFillPulse_only (n : Node) : Only [.mpu, .rst, .liu] n (mpuFillPulse n) := by
  unfold mpuFillPulse
  refine (mpuProject_only _).after (b := [.mpu, .rst, .liu]) ?_
  dsimp only
  split
  · exact (raiseRecord_only _ _).after ((onImage_only _ _).after (x := [.mpu, .rst]) mpu_only)
  · exact (onImage_only _ _).after mpu_only

theorem mpuCreepPulse_only (n : Node) : Only [.mpu, .rst, .liu] n (mpuCreepPulse n) := by
  unfold mpuCreepPulse
  dsimp only
  split
  · exact (mpuAccrue_only _).after mpu_only
  · exact mpu_only.within

theorem mpuOpen_only (n : Node) : Only [.mpu, .rst, .liu] n (mpuOpen n) :=
  (mpuProject_only _).after (Only.after (x := [.mpu, .rst, .liu]) mpu_only (mpuAccrue_only n))

theorem mpuFinal_only (n : Node) : Only [.mpu, .rst] n (mpuFinal n) := by
  unfold mpuFinal
  exact (onImage_only _ _).after mpu_only

/-! ## Heat share (file 06). Of the FCU only the flow command changes, and nothing of it outside a fill. -/

/-- Of the FCU only the flow command may differ, and nothing outside CHECKING and RAMPING. -/
def FlowOnly (n m : Node) : Prop :=
  (∃ f, m.fcu = { n.fcu with fCmd := f }) ∧ (n.fcu.phase.filling = false → m.fcu = n.fcu)

theorem FlowOnly.same {n m : Node} (h : m.fcu = n.fcu) : FlowOnly n m := ⟨⟨n.fcu.fCmd, h⟩, fun _ => h⟩

theorem FlowOnly.trans {n k m : Node} (h : FlowOnly n k) (g : FlowOnly k m) : FlowOnly n m := by
  obtain ⟨⟨f, hf⟩, h2⟩ := h
  obtain ⟨⟨g', hg⟩, g2⟩ := g
  refine ⟨⟨g', by rw [hg, hf]⟩, fun e => ?_⟩
  rw [g2 (by rw [h2 e]; exact e), h2 e]

theorem fcuCeiling_only (n : Node) : Only [.fcu] n (fcuCeiling n) := by
  unfold fcuCeiling
  split
  · exact fcu_only
  · split
    · exact fcu_only
    · exact .refl _ n

theorem fcuCeiling_flow (n : Node) : FlowOnly n (fcuCeiling n) := by
  unfold fcuCeiling
  split
  · rename_i h
    refine ⟨⟨_, rfl⟩, fun e => ?_⟩
    cases hp : n.fcu.phase <;> rw [hp] at h e <;> simp [Phase.ramping, Phase.filling] at h e
  · split
    · rename_i h
      refine ⟨⟨_, rfl⟩, fun e => ?_⟩
      rw [h.1] at e; cases e
    · exact .same rfl

theorem hsuOffer_only (n : Node) : Only [.hsu, .liu] n (hsuOffer n) := by
  unfold hsuOffer
  split
  · exact .refl _ n
  · exact (hsu_only).after (liuOffer_only _ n)

theorem hsuOffer_flow (n : Node) : FlowOnly n (hsuOffer n) := .same ((hsuOffer_only n).fcu (by decide))

theorem hsuSet_only (r : Nat) (w : Bool) (n : Node) : Only [.fcu, .hsu, .liu] n (hsuSet r w n) := by
  unfold hsuSet
  split
  · exact .refl _ n
  · exact (hsuOffer_only _).after ((fcuCeiling_only _).after (x := [.fcu, .hsu]) hsu_only)

theorem hsuSet_flow (r : Nat) (w : Bool) (n : Node) : FlowOnly n (hsuSet r w n) := by
  unfold hsuSet
  split
  · exact .same rfl
  · refine FlowOnly.trans ?_ (hsuOffer_flow _)
    exact FlowOnly.trans (.same rfl) (fcuCeiling_flow _)

theorem hsuEvaluate_only (n : Node) : Only [.fcu, .hsu, .liu] n (hsuEvaluate n) := by
  unfold hsuEvaluate
  split
  · split
    · exact (hsuOffer_only n).within
    · exact .refl _ n
  · exact hsuSet_only _ _ n

theorem hsuEvaluate_flow (n : Node) : FlowOnly n (hsuEvaluate n) := by
  unfold hsuEvaluate
  split
  · split
    · exact hsuOffer_flow n
    · exact .same rfl
  · exact hsuSet_flow _ _ n

theorem hsuOverCommit_only (n : Node) : Only [.fcu, .hsu, .liu] n (hsuOverCommit n) := by
  unfold hsuOverCommit
  split
  · exact .refl _ n
  · split
    · exact hsuSet_only _ _ n
    · split
      · exact hsuSet_only _ _ n
      · exact .refl _ n

theorem hsuOverCommit_flow (n : Node) : FlowOnly n (hsuOverCommit n) := by
  unfold hsuOverCommit
  split
  · exact .same rfl
  · split
    · exact hsuSet_flow _ _ n
    · split
      · exact hsuSet_flow _ _ n
      · exact .same rfl

theorem hsuWant_only (n : Node) : Only [.fcu, .hsu] n (hsuWant n) := (fcuCeiling_only _).after hsu_only

theorem hsuWant_flow (n : Node) : FlowOnly n (hsuWant n) := FlowOnly.trans (.same rfl) (fcuCeiling_flow _)

theorem hsuFillStart_only (n : Node) : Only [.fcu, .hsu, .liu] n (hsuFillStart n) :=
  (hsuEvaluate_only _).after ((hsuWant_only _).after (x := [.fcu, .hsu]) hsu_only)

theorem hsuFillStart_flow (n : Node) : FlowOnly n (hsuFillStart n) := by
  refine FlowOnly.trans ?_ (hsuEvaluate_flow _)
  exact FlowOnly.trans (.same rfl) (hsuWant_flow _)

theorem hsuFillEnd_only (n : Node) : Only [.fcu, .hsu, .liu] n (hsuFillEnd n) := (hsuEvaluate_only _).after hsu_only

theorem hsuFillEnd_flow (n : Node) : FlowOnly n (hsuFillEnd n) := FlowOnly.trans (.same rfl) (hsuEvaluate_flow _)

theorem hsuDecrease_only (n : Node) : Only [.fcu, .hsu, .liu] n (hsuDecrease n) := .onlyIf fun _ => hsuEvaluate_only n

theorem hsuCapacity_only (n : Node) : Only [.fcu, .hsu, .liu] n (hsuCapacity n) := by
  unfold hsuCapacity
  dsimp only
  split
  · exact (hsuOverCommit_only _).after hsu_only
  · exact hsu_only.within

theorem hsuQuiet_only (n : Node) : Only [.fcu, .hsu, .liu] n (hsuQuiet n) :=
  (hsuOffer_only _).after ((fcuCeiling_only _).after (x := [.fcu, .hsu]) hsu_only)

/-! ## Compressor (file 07) -/

theorem ccuTry_only (bs : List Bank) (n : Node) : Only [.bcu, .ccu, .liu] n (ccuTry bs n) := by
  induction bs generalizing n with
  | nil => exact .refl _ n
  | cons b bs ih =>
    unfold ccuTry
    have h := bcuRequest_only b .refill n
    split
    · rename_i m hm
      rw [hm] at h
      exact Only.after ccu_only h
    · rename_i m hm
      rw [hm] at h
      exact (ih m).after h

theorem ccuChoose_only (s : Option Bank) (n : Node) : Only [.bcu, .ccu, .liu] n (ccuChoose s n) := by
  unfold ccuChoose
  split
  · exact ccuTry_only _ n
  · exact .refl _ n

theorem refillValve_only (b : Bank) (o : Bool) (n : Node) : Only [.ccu] n (refillValve b o n) := ccu_only

theorem openRefill_only (b : Bank) (n : Node) : Only [.ccu] n (openRefill b n) := .onlyIf fun _ => ccu_only

theorem openDirect_only (n : Node) : Only [.ccu] n (openDirect n) := .onlyIf fun _ => ccu_only

theorem ccuGiveClaim_only (n : Node) : Only [.bcu, .ccu, .liu] n (ccuGiveClaim n) := by
  unfold ccuGiveClaim
  split
  · exact .refl _ n
  · split
    · exact .refl _ n
    · exact (bcuRelease_only _ _ _).after ccu_only
    · split
      · exact (bcuRelease_only _ _ _).after ccu_only
      · exact Only.after (refillValve_only _ _ _) ccu_only

theorem ccuHalt_only (st : CompState) (n : Node) : Only [.bcu, .ccu, .liu] n (ccuHalt st n) :=
  (ccuGiveClaim_only _).after (Only.after (x := [.ccu]) ccu_only ccu_only)

theorem ccuIdleTest_only (n : Node) : Only [.bcu, .ccu, .liu] n (ccuIdleTest n) := by
  unfold ccuIdleTest
  split
  · exact ccuHalt_only _ n
  · exact .refl _ n

theorem ccuIdleChoice_only (s : Option Bank) (n : Node) : Only [.bcu, .ccu, .liu] n (ccuIdleChoice s n) := by
  unfold ccuIdleChoice
  split
  · exact (ccuIdleTest_only _).after (ccuChoose_only s n)
  · exact .refl _ n

theorem ccuSurvey_only (n : Node) : Only [.bcu, .ccu, .liu] n (ccuSurvey n) := by
  unfold ccuSurvey
  split
  · split
    · split
      · exact Only.after ccu_only (ccuChoose_only _ n)
      · exact ccuChoose_only _ n
    · exact .refl _ n
  · exact ccuIdleChoice_only _ n
  · exact .refl _ n

theorem ccuLoad_only (b : Bank) (n : Node) : Only [.ccu] n (ccuLoad b n) := (openRefill_only _ _).after ccu_only

theorem ccuServe_only (n : Node) : Only [.ccu] n (ccuServe n) := (openDirect_only _).after ccu_only

theorem ccuStarted_only (n : Node) : Only [.bcu, .ccu, .liu] n (ccuStarted n) := by
  unfold ccuStarted
  dsimp only
  split
  · exact (ccuServe_only _).after ccu_only
  · split
    · exact (ccuLoad_only _ _).after ccu_only
    · exact ccu_only.within
    · exact (ccuIdleChoice_only _ _).after ccu_only

theorem ccuLeaveRefill_only (n : Node) : Only [.bcu, .ccu, .liu] n (ccuLeaveRefill n) := by
  unfold ccuLeaveRefill
  dsimp only
  split
  · exact (ccuIdleChoice_only _ _).after ((ccuGiveClaim_only _).after (x := [.bcu, .ccu, .liu]) ccu_only)
  · exact (ccuGiveClaim_only _).after ccu_only

theorem directRequest_only (n : Node) : Only [.bcu, .ccu, .liu] n (directRequest n).1 := by
  unfold directRequest
  split
  · exact .refl _ n
  · split
    · split
      · exact ccu_only.within
      · exact .refl _ n
    · exact Only.after ccu_only (ccuGiveClaim_only n)
    · exact (ccuServe_only _).after (ccuGiveClaim_only n)
    · exact (ccuServe_only _).after (ccuGiveClaim_only n)
    all_goals exact .refl _ n

theorem ccuHandBack_only (n : Node) : Only [.bcu, .ccu, .liu] n (ccuHandBack n) := by
  unfold ccuHandBack
  split
  · exact .refl _ n
  · split
    · exact (ccuIdleChoice_only _ _).after (Only.after (x := [.ccu]) ccu_only ccu_only)
    · exact ccu_only.within

theorem ccuUnhold_only (n : Node) : Only [.ccu] n (ccuUnhold n) := by
  unfold ccuUnhold
  split
  · dsimp only
    split
    · exact (openRefill_only _ _).after ccu_only
    · exact (openDirect_only _).after ccu_only
    · exact ccu_only
  · exact .refl _ n

/-! ## Fill control (file 03) -/

theorem giveBack_only (b : Bank) (n : Node) : Only [.fcu, .bcu, .liu] n (giveBack b n) := by
  unfold giveBack
  dsimp only
  split
  · exact (bcuRelease_only _ _ _).after fcu_only
  · exact Only.after (x := [.fcu, .bcu, .liu]) fcu_only fcu_only

theorem linkLeft_only (n : Node) : Only [.fcu, .rst] n (linkLeft n) := by
  unfold linkLeft
  split
  · exact (onImage_only _ _).after fcu_only
  · exact .refl _ n

theorem vlrReject_only (n : Node) : Only [.vlr, .fcu, .rst] n (vlrReject n) := by
  unfold vlrReject
  split
  · exact (linkLeft_only _).after vlr_only
  · exact .refl _ n

theorem fcuPeak_only (n : Node) : Only [.fcu] n (fcuPeak n) := by
  unfold fcuPeak
  split
  · split
    · exact fcu_only
    · exact .refl _ n
  · exact .refl _ n

theorem pauseEffect_only (n : Node) : Only [.fcu] n (pauseEffect n) := by
  unfold pauseEffect
  split
  · exact fcu_only
  · split
    · exact fcu_only
    · exact .refl _ n

theorem setBankWait_only (n : Node) : Only [.fcu] n (setBankWait n) := (pauseEffect_only _).after fcu_only

theorem openBank_only (b : Bank) (n : Node) : Only [.fcu] n (openBank b n) := .onlyIf fun _ => fcu_only

theorem beginAttempt_only (n : Node) : Only [.fcu] n (beginAttempt n) := by
  unfold beginAttempt
  split
  · exact .refl _ n
  · split
    · exact fcu_only
    · split
      · exact fcu_only
      · exact (openBank_only _ _).after fcu_only

theorem checkSearch_only (bs : List Bank) (n : Node) : Only [.fcu, .bcu, .liu] n (checkSearch bs n) := by
  induction bs generalizing n with
  | nil => exact (setBankWait_only n).within
  | cons b bs ih =>
    unfold checkSearch
    split
    · have h := bcuRequest_only b .draw n
      split
      · rename_i m hm
        rw [hm] at h
        exact Only.after fcu_only h
      · rename_i m hm
        rw [hm] at h
        exact (ih m).after h
    · exact ih n

theorem endSearch_only (n : Node) : Only [.fcu] n (endSearch n) := by
  unfold endSearch
  split
  · exact (setBankWait_only _).after fcu_only
  · exact fcu_only

theorem askDirect_only (n : Node) : Only [.fcu, .bcu, .ccu, .liu] n (askDirect n) := by
  unfold askDirect
  split
  · have h := directRequest_only n
    split
    · rename_i m hm
      rw [hm] at h
      exact Only.after fcu_only h
    · rename_i m hm
      rw [hm] at h
      exact (endSearch_only m).after h
  · exact (endSearch_only n).within

theorem switchSearch_only (bs : List Bank) (n : Node) : Only [.fcu, .bcu, .ccu, .liu] n (switchSearch bs n) := by
  induction bs generalizing n with
  | nil => exact askDirect_only n
  | cons b bs ih =>
    unfold switchSearch
    split
    · have h := bcuRequest_only b .draw n
      split
      · rename_i m hm
        rw [hm] at h
        exact Only.after fcu_only h
      · rename_i m hm
        rw [hm] at h
        exact (ih m).after h
    · exact ih n

theorem fcuSourceReady_only (n : Node) : Only [.fcu] n (fcuSourceReady n) := by
  unfold fcuSourceReady
  split
  · exact Only.after (x := [.fcu]) fcu_only fcu_only
  · exact .refl _ n

theorem fcuSwitchDone_only (n : Node) : Only [.fcu] n (fcuSwitchDone n) := by
  unfold fcuSwitchDone
  split
  · exact Only.after (x := [.fcu]) fcu_only fcu_only
  · exact .refl _ n

theorem flowNeedsSource_only (n : Node) : Only [.fcu] n (flowNeedsSource n) := by
  unfold flowNeedsSource
  split
  · exact fcu_only
  · exact .refl _ n

theorem takeSource_only (s : Source) (n : Node) : Only [.fcu, .bcu, .rst, .liu] n (takeSource s n) := by
  unfold takeSource
  refine (rstAppend_only _ _).after ((flowNeedsSource_only _).after (x := [.fcu, .bcu, .liu])
    (Only.after (x := [.fcu, .bcu, .liu]) (b := [.fcu, .bcu, .liu]) fcu_only ?_))
  split
  · exact giveBack_only _ n
  · exact .refl _ n

theorem enterVenting_only (n : Node) : Only [.fcu, .mpu] n (enterVenting n) :=
  (mpuProject_only _).after (Only.after (x := [.fcu]) fcu_only fcu_only)

theorem fcuClosingDone_only (n : Node) : Only [.fcu, .mpu] n (fcuClosingDone n) := by
  unfold fcuClosingDone
  split
  · exact enterVenting_only n
  · exact .refl _ n

theorem endFill_only (r : EndReason) (n : Node) : Only [.fcu, .bcu, .hsu, .ccu, .mpu, .liu] n (endFill r n) := by
  unfold endFill
  refine (fcuClosingDone_only _).after ((hsuFillEnd_only _).after (x := [.fcu, .bcu, .hsu, .ccu, .liu])
    ((ccuHandBack_only _).after (x := [.fcu, .bcu, .ccu, .liu])
      (Only.after (x := [.fcu, .bcu, .liu]) (Only.foldl (fun k b => giveBack_only b k) _ _) fcu_only)))

theorem enterClosingRecord_only (n : Node) : Only [.fcu, .mpu, .rst, .liu] n (enterClosingRecord n) :=
  (raiseRecord_only _ _).after ((mpuFinal_only _).after (x := [.fcu, .mpu, .rst]) fcu_only)

theorem fcuIdle_only (n : Node) : Only [.fcu] n (fcuIdle n) := fcu_only

theorem authCancel_only (n : Node) : Only [.fcu] n (authCancel n) := by
  unfold authCancel
  split
  · exact fcuIdle_only n
  · exact .refl _ n

theorem endTest_only (n : Node) : Only [.fcu, .bcu, .hsu, .ccu, .mpu, .liu] n (endTest n) := by
  unfold endTest
  split
  · split
    · exact endFill_only _ n
    · exact .refl _ n
  · exact .refl _ n

end Sys2Proof.Machine
end

