-- ==== Sys2Proof/Laws/Ending.lean ====
section
/-! SUPPORT. What the end of a fill leaves in the FCU (file 03 R61, R62), and that the end test ends a fill or leaves the
node as it is (R58). -/

namespace Sys2Proof.Machine

/-- The FCU of an ended fill. -/
structure Ended (r : EndReason) (n m : Node) : Prop where
  phase : m.fcu.phase = .closing ∨ m.fcu.phase = .venting
  reason : m.fcu.endReason = some r
  flow : m.fcu.fCmd = 0
  period : m.fcu.periodNext = none
  pauses : m.fcu.pauses = .none
  shut : ∀ b : Bank, (m.fcu.vb.get b).opened = false
  ventFail : m.fcu.ventFail = n.fcu.ventFail
  kind : m.fcu.kind = n.fcu.kind
  source : m.fcu.source = n.fcu.source
  auth : m.fcu.auth = n.fcu.auth
  soc : m.fcu.lastSoc = n.fcu.lastSoc
  p0 : m.fcu.p0 = n.fcu.p0

/-- A bank valve given back: commanded closed, its release perhaps waiting for the closure; the FCU is else the same. -/
theorem giveBack_fcu (b : Bank) (n : Node) :
    ∃ q, (giveBack b n).fcu = { n.fcu with vb := n.fcu.vb.set b ((n.fcu.vb.get b).command false n.now), relOnClose := q } := by
  unfold giveBack
  dsimp only
  split
  · exact ⟨n.fcu.relOnClose, by rw [(bcuRelease_only _ _ _).fcu (by decide)]; rfl⟩
  · exact ⟨n.fcu.relOnClose.set b true, rfl⟩

/-- Bank valves given back: those commanded closed, no valve commanded open, and the FCU else the same. -/
theorem giveBacks_fcu (bs : List Bank) (n : Node) :
    ∃ v q, (bs.foldl (fun k b => giveBack b k) n).fcu = { n.fcu with vb := v, relOnClose := q } ∧
      (∀ b ∈ bs, (v.get b).opened = false) ∧ ∀ b, (n.fcu.vb.get b).opened = false → (v.get b).opened = false := by
  induction bs generalizing n with
  | nil => exact ⟨n.fcu.vb, n.fcu.relOnClose, rfl, by simp, fun _ h => h⟩
  | cons b bs ih =>
    obtain ⟨q, hq⟩ := giveBack_fcu b n
    obtain ⟨v, q', h1, h2, h3⟩ := ih (giveBack b n)
    have hb : ∀ c, (n.fcu.vb.get c).opened = false ∨ c = b → ((giveBack b n).fcu.vb.get c).opened = false := by
      intro c hc
      rw [hq]
      dsimp only
      rw [Quad.get_set]
      split
      · simp
      · exact hc.resolve_right (by assumption)
    refine ⟨v, q', ?_, ?_, fun c hc => h3 c (hb c (.inl hc))⟩
    · rw [List.foldl_cons, h1, hq]
    · intro c hc
      rcases List.mem_cons.mp hc with rfl | hc
      · exact h3 c (hb c (.inr rfl))
      · exact h2 c hc

/-- The closing of a fill goes on to VENTING or stays; of the FCU only phase, frozen figures and vent valve may differ. -/
theorem fcuClosingDone_fcu (n : Node) :
    (fcuClosingDone n).fcu = n.fcu ∨
      n.fcu.phase = .closing ∧ (fcuClosingDone n).fcu =
        { n.fcu with
          phase := .venting, pEnd := some n.pH, tEnd := some n.tD, ventSince := some n.now
          vvent := n.fcu.vvent.command true n.now } := by
  unfold fcuClosingDone
  split
  · rename_i h
    refine .inr ⟨h.1, ?_⟩
    unfold enterVenting
    rw [(mpuProject_only _).fcu (by decide)]
    rfl
  · exact .inl rfl

theorem endFill_ended (r : EndReason) (n : Node) : Ended r n (endFill r n) := by
  unfold endFill
  dsimp only
  obtain ⟨v, q, h1, h2, -⟩ := giveBacks_fcu Four.all { n with
      fcu.phase := .closing, fcu.endReason := some r, fcu.fCmd := 0, fcu.periodNext := none, fcu.pauses := .none
      fcu.stepSince := none, fcu.awaiting := false, fcu.rezeroVent := none, fcu.givenUp := none, fcu.checkBank := none
      fcu.target := none, fcu.targetTaken := false, fcu.targetWaits := false }
  generalize hk : List.foldl (fun k b => giveBack b k) _ Four.all = k at h1 ⊢
  have h3 : (hsuFillEnd (ccuHandBack k)).fcu = k.fcu := by
    have h4 := (ccuHandBack_only k).fcu (by decide)
    rw [(hsuFillEnd_flow _).2 (by rw [h4, h1]; rfl), h4]
  have hall : ∀ b : Bank, (v.get b).opened = false := fun b => h2 b (by cases b <;> decide)
  rcases fcuClosingDone_fcu (hsuFillEnd (ccuHandBack k)) with e | ⟨-, e⟩ <;> rw [h3, h1] at e
  · constructor <;> rw [e] <;> first | exact .inl rfl | rfl | exact hall
  · constructor <;> rw [e] <;> first | exact .inr rfl | rfl | exact hall

/-- The first condition that holds ends the fill (R58). -/
theorem endTest_first {n : Node} {r : EndReason} (h : n.fcu.phase.filling = true) (e : n.endReasonNow = some r) :
    endTest n = endFill r n := by
  simp only [endTest, h, if_true, e]

/-- The end test leaves the node as it is or ends the fill with the first condition that holds. -/
theorem endTest_cases (n : Node) :
    endTest n = n ∧ (n.fcu.phase.filling = false ∨ n.endReasonNow = none) ∨
      ∃ r, n.fcu.phase.filling = true ∧ n.endReasonNow = some r ∧ endTest n = endFill r n := by
  unfold endTest
  split
  · rename_i h
    cases e : n.endReasonNow with
    | none => exact .inl ⟨rfl, .inr rfl⟩
    | some r => exact .inr ⟨r, h, rfl, rfl⟩
  · exact .inl ⟨rfl, .inl (Bool.eq_false_iff.mpr (by assumption))⟩

theorem Ended.notFilling {r : EndReason} {n m : Node} (h : Ended r n m) : m.fcu.phase.filling = false := by
  rcases h.phase with e | e <;> rw [e] <;> rfl

/-- A condition of R58 that holds ends the fill, by it or by an earlier one. -/
theorem endReasonNow_some {n : Node} {r : EndReason} (h : (r, true) ∈ n.endConditions) :
    ∃ r', n.endReasonNow = some r' := by
  have : (n.endConditions.find? (·.2)).isSome := List.find?_isSome.mpr ⟨_, h, rfl⟩
  obtain ⟨x, hx⟩ := Option.isSome_iff_exists.mp this
  exact ⟨x.1, by simp [Node.endReasonNow, hx]⟩

end Sys2Proof.Machine
end

