-- ==== Sys2Proof/Laws/FramesReports.lean ====
section
/-! SUPPORT. Which blocks the reports between blocks may change: claims lost or denied, walks, retests, trips, the
hand-offs of the Peer Table. -/

namespace Sys2Proof.Machine

/- The declarations are elaborated one after another: they are many and short. -/
set_option Elab.async false

/-! ## Compressor -/

theorem giveUpSource_only (n : Node) : Only [.fcu] n (giveUpSource n) := by
  unfold giveUpSource
  dsimp only
  split
  · exact Only.after (x := [.fcu]) fcu_only fcu_only
  · exact fcu_only

theorem tellDirect_only (d : DirectReq) (n : Node) : Only [.fcu] n (tellDirect d n) := by
  unfold tellDirect
  split
  · exact .refl _ n
  · unfold fcuDirectWithdrawn
    split
    · exact giveUpSource_only n
    · exact .refl _ n
  · unfold fcuDirectDenied
    split
    · exact (endSearch_only _).after fcu_only
    · exact .refl _ n

theorem ccuGo_only (st : CompState) (n : Node) : Only [.fcu, .bcu, .ccu, .liu] n (ccuGo st n) :=
  (tellDirect_only _ _).after (ccuHalt_only st n)

theorem ccuStop_only (n : Node) : Only [.fcu, .bcu, .ccu, .liu] n (ccuStop n) := .onlyIf fun _ => ccuGo_only _ n

theorem ccuLockout_only (n : Node) : Only [.fcu, .bcu, .ccu, .liu] n (ccuLockout n) := .onlyIf fun _ => ccuGo_only _ n

theorem ccuHeld_only (b : Bank) (n : Node) : Only [.ccu] n (ccuHeld b n) := by
  unfold ccuHeld
  split
  · split
    · exact ccu_only
    · exact ccuLoad_only _ n
    · exact .refl _ n
  · exact .refl _ n

theorem ccuDenied_only (b : Bank) (n : Node) : Only [.bcu, .ccu, .liu] n (ccuDenied b n) := by
  unfold ccuDenied
  dsimp only
  split
  · split
    · exact Only.after (x := [.bcu, .ccu, .liu]) (b := [.ccu]) ccu_only ccu_only
    · exact (ccuIdleChoice_only _ _).after ccu_only
  · exact .refl _ n

theorem ccuLost_only (b : Bank) (n : Node) : Only [.bcu, .ccu, .liu] n (ccuLost b n) := by
  unfold ccuLost
  dsimp only
  split
  · exact .refl _ n
  · have h : Only [.bcu, .ccu, .liu] n (refillValve b false { n with ccu.claim := none }) :=
      Only.after (refillValve_only _ _ _) ccu_only
    split
    · exact (ccuIdleChoice_only _ _).after (x := [.bcu, .ccu, .liu]) (Only.after (x := [.bcu, .ccu, .liu]) ccu_only h)
    · exact (ccuIdleChoice_only _ _).after h

theorem ccuUnavailable_only (b : Bank) (n : Node) : Only [.bcu, .ccu, .liu] n (ccuUnavailable b n) := by
  unfold ccuUnavailable
  split
  · exact .refl _ n
  · exact .refl _ n
  · exact (ccuIdleChoice_only _ _).after (ccuGiveClaim_only n)
  · split
    · exact ccuLeaveRefill_only n
    · exact (ccuIdleChoice_only _ _).after (ccuGiveClaim_only n)

theorem ccuDropped_only (b : Bank) (n : Node) : Only [.ccu] n (ccuDropped b n) := by
  unfold ccuDropped
  split
  · exact .refl _ n
  · exact ccu_only

/-! ## Fill control -/

theorem checkHeld_only (b : Bank) (n : Node) : Only [.fcu, .rst] n (checkHeld b n) :=
  (beginAttempt_only _).after ((onImage_only _ _).after (x := [.fcu, .rst]) fcu_only)

theorem checkOnward_only (b : Bank) (n : Node) : Only [.fcu, .bcu, .liu] n (checkOnward b n) :=
  (checkSearch_only _ _).after fcu_only

theorem targetOnward_only (b : Bank) (n : Node) : Only [.fcu, .bcu, .ccu, .liu] n (targetOnward b n) :=
  (switchSearch_only _ _).after (b := [.fcu]) fcu_only

theorem takeTarget_only (b : Bank) (n : Node) : Only [.fcu, .bcu, .rst, .liu] n (takeTarget b n) :=
  (takeSource_only _ _).after (openBank_only b n)

theorem fcuHeld_only (b : Bank) (n : Node) : Only [.fcu, .bcu, .rst, .liu] n (fcuHeld b n) := by
  unfold fcuHeld
  split
  · split
    · exact (checkHeld_only _ n).within
    · exact .refl _ n
  · split
    · split
      · exact fcu_only.within
      · exact takeTarget_only _ n
    · exact .refl _ n

theorem fcuDenied_only (b : Bank) (n : Node) : Only [.fcu, .bcu, .ccu, .liu] n (fcuDenied b n) := by
  unfold fcuDenied
  split
  · split
    · exact (checkOnward_only _ n).within
    · exact .refl _ n
  · split
    · exact targetOnward_only _ n
    · exact .refl _ n

theorem fcuForsaken_only (b : Bank) (n : Node) : Only [.fcu, .bcu, .ccu, .liu] n (fcuForsaken b n) := by
  unfold fcuForsaken
  split
  · split
    · unfold checkForsaken
      split
      · exact fcu_only.within
      · exact (checkOnward_only _ n).within
    · exact .refl _ n
  · split
    · split
      · exact targetOnward_only _ n
      · split
        · exact (giveUpSource_only n).within
        · exact .refl _ n
    · exact .refl _ n

theorem fcuLost_only (b : Bank) (n : Node) : Only [.fcu, .bcu, .ccu, .rst, .liu] n (fcuLost b n) := by
  unfold fcuLost
  exact (fcuForsaken_only _ _).after ((Only.onlyIf (x := [.rst]) fun _ => onImage_only _ _).after
    (x := [.fcu, .rst]) (b := [.fcu]) fcu_only)

theorem fcuUnavailable_only (b : Bank) (n : Node) : Only [.fcu, .bcu, .ccu, .liu] n (fcuUnavailable b n) := by
  unfold fcuUnavailable
  split
  · exact (fcuForsaken_only _ _).after (giveBack_only b n)
  · exact .refl _ n

theorem fcuDropped_only (b : Bank) (n : Node) : Only [.fcu] n (fcuDropped b n) :=
  (flowNeedsSource_only _).after (x := [.fcu]) (Only.after (x := [.fcu]) fcu_only fcu_only)

/-! ## Reports, walks, retests -/

theorem reportDenied_only (b : Bank) (k : ClaimKind) (n : Node) : Only [.fcu, .bcu, .ccu, .liu] n (reportDenied b k n) := by
  cases k
  · exact fcuDenied_only b n
  · exact (ccuDenied_only b n).within

theorem reportLost_only (b : Bank) (k : ClaimKind) (n : Node) :
    Only [.fcu, .bcu, .ccu, .rst, .liu] n (reportLost b k n) := by
  cases k
  · exact fcuLost_only b n
  · exact (ccuLost_only b n).within

theorem reportUnavailable_only (b : Bank) (k : ClaimKind) (n : Node) :
    Only [.fcu, .bcu, .ccu, .liu] n (reportUnavailable b k n) := by
  cases k
  · exact fcuUnavailable_only b n
  · exact (ccuUnavailable_only b n).within

theorem reportDropped_only (b : Bank) (k : ClaimKind) (n : Node) : Only [.fcu, .ccu] n (reportDropped b k n) := by
  cases k
  · exact (fcuDropped_only b n).within
  · exact (ccuDropped_only b n).within

theorem retestOne_only (c : OwnClaim) (n : Node) : Only [.fcu, .bcu, .ccu, .liu] n (retestOne c n) := by
  unfold retestOne
  split
  · exact (reportDenied_only _ _ _).after (bcuWithdraw_only _ _ n)
  · exact .refl _ n

theorem retest_only (banks : List Bank) (n : Node) : Only [.fcu, .bcu, .ccu, .liu] n (retest banks n) :=
  Only.foldl (fun n c => retestOne_only c n) _ n

theorem bcuWalk_only (b : Bank) (last : Option ViewClaim) (n : Node) : Only [.bcu, .ptb] n (bcuWalk b last n).1 :=
  Only.after (x := [.bcu, .ptb]) (k := { n with bcu.own := (bcuWalk b last n).1.bcu.own }) ptb_only bcu_only

theorem bcuWalks_only (bs : List Bank) (n : Node) : Only [.bcu, .ptb] n (bcuWalks bs n).1 := by
  induction bs generalizing n with
  | nil => exact .refl _ n
  | cons b bs ih => exact (bcuWalk_only b none n).trans (ih _)

/-- The LOST reports of own claims in turn. -/
theorem reportsLost_only (ps : List (Bank × ClaimKind)) (n : Node) :
    Only [.fcu, .bcu, .ccu, .rst, .liu] n (ps.foldl (fun m p => reportLost p.1 p.2 m) n) :=
  Only.foldl (fun n p => reportLost_only p.1 p.2 n) ps n

theorem walkAndReport_only (bs : List Bank) (n : Node) :
    Only [.fcu, .bcu, .ptb, .ccu, .rst, .liu] n (walkAndReport bs n) :=
  (reportsLost_only _ _).after (bcuWalks_only bs n)

theorem walkEntry_only (c : ViewClaim) (n : Node) :
    Only [.fcu, .bcu, .ptb, .ccu, .rst, .liu] n (walkEntry c n) :=
  (Only.foldl (fun n k => reportLost_only c.bank k n) _ _).after (bcuWalk_only c.bank (some c) n)

theorem claimEntered_only (c : ViewClaim) (n : Node) :
    Only [.fcu, .bcu, .ptb, .ccu, .rst, .liu] n (claimEntered c n) :=
  (retest_only _ _).after (walkEntry_only c n)

/-- The walk of an entered claim with its reports and retests leaves the Peer Table as the walk leaves it. -/
theorem claimEntered_ptb (c : ViewClaim) (n : Node) :
    (claimEntered c n).ptb = (bcuWalk c.bank (some c) n).1.ptb := by
  unfold claimEntered walkEntry
  rw [(retest_only _ _).ptb (by decide),
    (Only.foldl (fun n k => reportLost_only c.bank k n) _ _).ptb (by decide)]

theorem viewChanged_only (bs : List Bank) (n : Node) :
    Only [.fcu, .bcu, .ptb, .ccu, .rst, .liu] n (viewChanged bs n) :=
  (retest_only _ _).after (walkAndReport_only bs n)

/-- Walks with their reports leave the Peer Table as the walks leave it. -/
theorem viewChanged_ptb (bs : List Bank) (n : Node) : (viewChanged bs n).ptb = (bcuWalks bs n).1.ptb := by
  unfold viewChanged walkAndReport
  rw [(retest_only _ _).ptb (by decide), (reportsLost_only _ _).ptb (by decide)]

/-! ## Trips and hand-offs -/

theorem tripEvent_only (n : Node) : Only [.fcu, .bcu, .hsu, .ccu, .mpu, .liu] n (tripEvent n) :=
  (endTest_only _).after ((authCancel_only _).after (x := [.fcu, .bcu, .ccu, .liu]) (ccuStop_only n))

theorem handHeat_only (old new : Option Peer) (n : Node) : Only [.fcu, .hsu, .liu] n (handHeat old new n) := by
  unfold handHeat
  exact (Only.onlyIf fun _ => hsuDecrease_only n).trans (Only.onlyIf fun _ => hsuOverCommit_only _)

theorem handLatch_only (b : Bool) (n : Node) : Only [.fcu, .bcu, .ccu, .liu] n (handLatch b n) :=
  .onlyIf fun _ => ccuStop_only n

theorem bcuConflict_only (n : Node) : Only [.fcu, .bcu, .ccu, .liu] n (bcuConflict n) := by
  refine Only.foldl (fun m o => ?_) _ n
  refine .onlyIf fun _ => ?_
  exact (reportDenied_only _ _ _).after (bcuWithdraw_only _ _ _)

end Sys2Proof.Machine
end

