-- ==== Sys2Proof/Laws/Queue.lean ====
section
/-! SUPPORT. The transmit queue: every change keeps its bounds (file 10 R174, R176). -/

namespace Sys2Proof.Machine

/-- At most 10 frames, at most 5 of them urgent. -/
abbrev queueFits (q : List QFrame) : Prop := q.length ≤ 10 ∧ urgentCount q ≤ 5

@[simp] theorem urgentCount_nil : urgentCount [] = 0 := rfl

@[simp] theorem urgentCount_cons (f : QFrame) (q : List QFrame) :
    urgentCount (f :: q) = (if f.body.cls = 0 then 1 else 0) + urgentCount q := by
  unfold urgentCount
  by_cases h : f.body.cls = 0 <;> simp [h]; omega

theorem urgentCount_filter (p : QFrame → Bool) (q : List QFrame) : urgentCount (q.filter p) ≤ urgentCount q := by
  induction q with
  | nil => simp
  | cons f q ih => by_cases h : p f = true <;> simp [h] <;> omega

theorem urgentCount_map (g : QFrame → QFrame) (hg : ∀ f, (g f).body.cls = f.body.cls) (q : List QFrame) :
    urgentCount (q.map g) = urgentCount q := by
  induction q with
  | nil => rfl
  | cons f q ih => simp [hg, ih]

theorem queueFits_filter {q : List QFrame} (p : QFrame → Bool) (h : queueFits q) : queueFits (q.filter p) :=
  ⟨(List.length_filter_le p q).trans h.1, (urgentCount_filter p q).trans h.2⟩

theorem queueFits_map {q : List QFrame} (g : QFrame → QFrame) (hg : ∀ f, (g f).body.cls = f.body.cls)
    (h : queueFits q) : queueFits (q.map g) :=
  ⟨by simpa using h.1, by rw [urgentCount_map g hg]; exact h.2⟩

@[simp] theorem queueInsert_length (f : QFrame) (q : List QFrame) : (queueInsert f q).length = q.length + 1 := by
  induction q with
  | nil => rfl
  | cons g q ih => simp only [queueInsert]; split <;> simp [ih]

@[simp] theorem urgentCount_queueInsert (f : QFrame) (q : List QFrame) :
    urgentCount (queueInsert f q) = (if f.body.cls = 0 then 1 else 0) + urgentCount q := by
  induction q with
  | nil => simp [queueInsert]
  | cons g q ih => simp only [queueInsert]; split <;> simp [ih]; omega

theorem dropYoungest_counts (c : Nat) (q r : List QFrame) (h : dropYoungest c q = some r) :
    r.length + 1 = q.length ∧ urgentCount r ≤ urgentCount q := by
  induction q generalizing r with
  | nil => simp [dropYoungest] at h
  | cons f q ih =>
    simp only [dropYoungest] at h
    split at h
    · rename_i gs hg
      cases h
      have := ih gs hg
      simp; omega
    · split at h
      · cases h; simp
      · cases h

theorem makeRoom_counts (c : Nat) (q r : List QFrame) (h : makeRoom c q = some r) :
    r.length + 1 = q.length ∧ urgentCount r ≤ urgentCount q := by
  simp only [makeRoom] at h
  split at h
  · rename_i hx
    cases h
    exact dropYoungest_counts 2 q _ hx
  · split at h
    · exact dropYoungest_counts 1 q r h
    · cases h

theorem QFrame.waits_body {b : FrameBody} {f : QFrame} (h : QFrame.waits b f = true) : f.body = b := by
  simp [QFrame.waits] at h; exact h.2

/-- An offer keeps the bounds of the queue. -/
theorem queueOffer_fits (b : FrameBody) {q : List QFrame} (h : queueFits q) : queueFits (queueOffer b q).1 := by
  unfold queueOffer
  split
  · refine queueFits_map _ (fun f => ?_) h
    split
    · rename_i hw; rw [QFrame.waits_body hw]; rfl
    · rfl
  · split
    · exact h
    · split
      · exact h
      · rename_i hu
        split
        · refine ⟨by simp; omega, ?_⟩
          simp only [urgentCount_queueInsert, QFrame.fresh]
          have := h.2
          split <;> omega
        · split
          · exact h
          · split
            · rename_i r hr
              have hc := makeRoom_counts _ _ _ hr
              have := h.1
              have := h.2
              refine ⟨by simp; omega, ?_⟩
              simp only [urgentCount_queueInsert, QFrame.fresh]
              split <;> omega
            · exact h

/-- Removal of a CLAIM keeps the bounds of the queue. -/
theorem queueRemoveClaim_fits (b : Bank) (k : ClaimKind) {q : List QFrame} (h : queueFits q) :
    queueFits (queueRemoveClaim b k q) :=
  queueFits_map _ (fun f => by split <;> rfl) (queueFits_filter _ h)

@[simp] theorem QFrame.atDone_cls (p : List Byte) (f : QFrame) : (f.atDone p).body.cls = f.body.cls := by
  unfold QFrame.atDone
  split
  · rename_i h; rw [h]; rfl
  · rfl

theorem atDone_fits (p : List Byte) {q : List QFrame} (h : queueFits q) : queueFits (q.map (QFrame.atDone p)) :=
  queueFits_map _ (QFrame.atDone_cls p) h

/-- The queue of NUMBER_CONFLICT keeps the bounds. -/
theorem conflictQueue_fits {q : List QFrame} (h : queueFits q) : queueFits (conflictQueue q) :=
  queueFits_map _ (fun f => by split <;> rfl) (queueFits_filter _ h)

theorem withoutWire_fits {q : List QFrame} (h : queueFits q) : queueFits (withoutWire q) := queueFits_filter _ h

theorem attemptBack_fits (f : QFrame) (faults : Nat) {q : List QFrame} (h : queueFits q) :
    queueFits (attemptBack f faults q) := by
  unfold attemptBack
  split
  · exact withoutWire_fits h
  · split
    · exact queueFits_map _ (fun g => by split <;> rfl) (queueFits_filter _ h)
    · exact queueFits_map _ (fun g => by split <;> rfl) h

theorem releaseInPlace_fits (c : Bool) (f : QFrame) {q : List QFrame} (h : queueFits q) :
    queueFits (releaseInPlace c f q) := by
  unfold releaseInPlace
  split
  · rename_i b k hb
    split
    · refine queueFits_map _ (fun g => ?_) h
      split
      · rename_i hg; simp [QFrame.fresh, hg.2, hb, FrameBody.cls]
      · rfl
    · exact withoutWire_fits h
  · exact withoutWire_fits h

end Sys2Proof.Machine
end

