-- ==== Sys2Proof/Laws/Kept.lean ====
section
/-! SUPPORT. What every operation inside a command keeps: the clock, the configuration, the channel records, the input
levels, the prices, the nonvolatile store, a set drive latch, the bounds of Safety.lean and the claims behind open draw
valves. One lemma per shared operation; later proofs cite these and never unfold an operation for them. -/

namespace Sys2Proof.Machine

/-- What the operations of the blocks on one another leave alone, and what they keep, but for the claims behind open
draw valves. -/
structure KeptCore (n m : Node) : Prop where
  now : m.now = n.now
  stc : m.stc = n.stc
  channels : m.isc.channels = n.isc.channels
  inputs : m.isc.inputs = n.isc.inputs
  cycle : m.isc.cycle = n.isc.cycle
  pendingCycle : m.isc.pendingCycle = n.isc.pendingCycle
  gridNext : m.isc.gridNext = n.isc.gridNext
  overMark : m.isc.overMark = n.isc.overMark
  decoder : m.vlr.decoder = n.vlr.decoder
  sideA : m.vlr.sideA = n.vlr.sideA
  sideB : m.vlr.sideB = n.vlr.sideB
  declared : m.vlr.declared = n.vlr.declared
  volume : m.vlr.volume = n.vlr.volume
  prices : m.mpu.prices = n.mpu.prices
  slots : m.rst.slots = n.rst.slots
  copy1 : m.rst.copy1 = n.rst.copy1
  copy2 : m.rst.copy2 = n.rst.copy2
  totals : m.rst.totals = n.rst.totals
  wire : m.liu.wire = n.liu.wire
  consecutive : m.liu.consecutive = n.liu.consecutive
  total : m.liu.total = n.liu.total
  latch : n.isc.latch.isSome = true → m.isc.latch = n.isc.latch
  bounds : n.Bounds → m.Bounds
  ramp : n.rampBounded → m.rampBounded

/-- The same, with the claims behind open draw valves. -/
structure Kept (n m : Node) : Prop extends KeptCore n m where
  draw : n.Bounds → ∀ b, n.drawClaimed b → m.drawClaimed b

/-- Two nodes that agree on every field that `Kept` speaks of. -/
structure Alike (n m : Node) : Prop where
  now : m.now = n.now
  stc : m.stc = n.stc
  channels : m.isc.channels = n.isc.channels
  inputs : m.isc.inputs = n.isc.inputs
  cycle : m.isc.cycle = n.isc.cycle
  pendingCycle : m.isc.pendingCycle = n.isc.pendingCycle
  gridNext : m.isc.gridNext = n.isc.gridNext
  overMark : m.isc.overMark = n.isc.overMark
  decoder : m.vlr.decoder = n.vlr.decoder
  sideA : m.vlr.sideA = n.vlr.sideA
  sideB : m.vlr.sideB = n.vlr.sideB
  declared : m.vlr.declared = n.vlr.declared
  volume : m.vlr.volume = n.vlr.volume
  prices : m.mpu.prices = n.mpu.prices
  slots : m.rst.slots = n.rst.slots
  copy1 : m.rst.copy1 = n.rst.copy1
  copy2 : m.rst.copy2 = n.rst.copy2
  totals : m.rst.totals = n.rst.totals
  wire : m.liu.wire = n.liu.wire
  consecutive : m.liu.consecutive = n.liu.consecutive
  total : m.liu.total = n.liu.total
  latch : m.isc.latch = n.isc.latch
  queue : m.liu.queue = n.liu.queue
  own : m.bcu.own = n.bcu.own
  tableLength : m.rst.table.length = n.rst.table.length
  requests : m.rst.requests = n.rst.requests
  reservation : m.hsu.rOwn = n.hsu.rOwn
  valves : m.fcu.vb = n.fcu.vb
  pRamp : m.fcu.pRamp = n.fcu.pRamp

theorem drawClaimed_congr {n m : Node} {b : Bank} (hv : m.fcu.vb = n.fcu.vb) (ho : m.bcu.own = n.bcu.own)
    (h : n.drawClaimed b) : m.drawClaimed b := by
  simp only [Node.drawClaimed, Node.drawHeld, Bcu.find, hv, ho] at h ⊢
  exact h

theorem bounds_congr {n m : Node} (hq : n.queueBounded → m.queueBounded) (ho : m.bcu.own = n.bcu.own)
    (hs : m.rst.slots = n.rst.slots) (ht : m.rst.table.length = n.rst.table.length)
    (hr : n.rst.requests.length ≤ 4 → m.rst.requests.length ≤ 4)
    (hh : n.reservationLegal → m.reservationLegal) (h : n.Bounds) : m.Bounds where
  queue := hq h.queue
  claims := by have := h.claims; simp only [Node.claimsBounded, Bcu.count, ho] at this ⊢; exact this
  store := ⟨by rw [hs]; exact h.store.1, by rw [ht]; exact h.store.2.1, hr h.store.2.2⟩
  reservation := hh h.reservation

theorem KeptCore.trans {n k m : Node} (h : KeptCore n k) (g : KeptCore k m) : KeptCore n m where
  now := g.now.trans h.now
  stc := g.stc.trans h.stc
  channels := g.channels.trans h.channels
  inputs := g.inputs.trans h.inputs
  cycle := g.cycle.trans h.cycle
  pendingCycle := g.pendingCycle.trans h.pendingCycle
  gridNext := g.gridNext.trans h.gridNext
  overMark := g.overMark.trans h.overMark
  decoder := g.decoder.trans h.decoder
  sideA := g.sideA.trans h.sideA
  sideB := g.sideB.trans h.sideB
  declared := g.declared.trans h.declared
  volume := g.volume.trans h.volume
  prices := g.prices.trans h.prices
  slots := g.slots.trans h.slots
  copy1 := g.copy1.trans h.copy1
  copy2 := g.copy2.trans h.copy2
  totals := g.totals.trans h.totals
  wire := g.wire.trans h.wire
  consecutive := g.consecutive.trans h.consecutive
  total := g.total.trans h.total
  latch := fun x => (g.latch (by rw [h.latch x]; exact x)).trans (h.latch x)
  bounds := fun x => g.bounds (h.bounds x)
  ramp := fun x => g.ramp (h.ramp x)

namespace Kept

theorem refl (n : Node) : Kept n n where
  toKeptCore := by constructor <;> first | rfl | exact fun _ => rfl | exact fun h => h
  draw := fun _ _ h => h

theorem trans {n k m : Node} (h : Kept n k) (g : Kept k m) : Kept n m where
  toKeptCore := h.toKeptCore.trans g.toKeptCore
  draw := fun x b y => g.draw (h.bounds x) b (h.draw x b y)

/-- The last operation first. -/
theorem after {n k m : Node} (g : Kept k m) (h : Kept n k) : Kept n m := h.trans g

/-- A change of fields that `Kept` does not speak of. -/
theorem alike {n m : Node} (h : Alike n m) : Kept n m where
  now := h.now
  stc := h.stc
  channels := h.channels
  inputs := h.inputs
  cycle := h.cycle
  pendingCycle := h.pendingCycle
  gridNext := h.gridNext
  overMark := h.overMark
  decoder := h.decoder
  sideA := h.sideA
  sideB := h.sideB
  declared := h.declared
  volume := h.volume
  prices := h.prices
  slots := h.slots
  copy1 := h.copy1
  copy2 := h.copy2
  totals := h.totals
  wire := h.wire
  consecutive := h.consecutive
  total := h.total
  latch := fun _ => h.latch
  bounds := bounds_congr (fun x => by rw [Node.queueBounded, h.queue]; exact x) h.own h.slots h.tableLength
    (fun x => by rw [h.requests]; exact x) (fun x => by rw [Node.reservationLegal, h.reservation]; exact x)
  draw := fun _ _ => drawClaimed_congr h.valves h.own
  ramp := fun x => by rw [Node.rampBounded, h.pRamp, h.stc]; exact x

theorem onlyIf {n : Node} {c : Bool} {f : Node → Node} (h : c = true → Kept n (f n)) : Kept n (n.onlyIf c f) := by
  cases c
  · exact refl n
  · exact h rfl

theorem foldl {α : Type} (f : Node → α → Node) (hf : ∀ n x, Kept n (f n x)) (xs : List α) (n : Node) :
    Kept n (xs.foldl f n) := by
  induction xs generalizing n with
  | nil => exact refl n
  | cons x xs ih => exact (hf n x).trans (ih _)

end Kept

/-! ## The transmit queue -/

theorem queue_kept {n : Node} {q : List QFrame} (h : queueFits n.liu.queue → queueFits q) :
    Kept n { n with liu.queue := q } where
  now := rfl
  stc := rfl
  channels := rfl
  inputs := rfl
  cycle := rfl
  pendingCycle := rfl
  gridNext := rfl
  overMark := rfl
  decoder := rfl
  sideA := rfl
  sideB := rfl
  declared := rfl
  volume := rfl
  prices := rfl
  slots := rfl
  copy1 := rfl
  copy2 := rfl
  totals := rfl
  wire := rfl
  consecutive := rfl
  total := rfl
  latch := fun _ => rfl
  bounds := bounds_congr h rfl rfl rfl id id
  draw := fun _ _ x => x
  ramp := id

theorem liuOffer_kept (b : FrameBody) (n : Node) : Kept n (liuOffer b n).1 := by
  unfold liuOffer
  split
  · exact .refl n
  · exact queue_kept (queueOffer_fits b)

@[simp] theorem liuOffer_bcu (b : FrameBody) (n : Node) : (liuOffer b n).1.bcu = n.bcu := by
  unfold liuOffer
  split <;> rfl

@[simp] theorem offer_bcu (b : FrameBody) (n : Node) : (offer b n).bcu = n.bcu := liuOffer_bcu b n

theorem offer_kept (b : FrameBody) (n : Node) : Kept n (offer b n) := liuOffer_kept b n

theorem answer_kept (t : Nat) (c : BitVec 6) (r : Result) (x : Nat) (n : Node) : Kept n (answer t c r x n) :=
  offer_kept _ n

/-! ## Own claims -/

/-- Own claims change, everything else does not. -/
theorem own_kept {n : Node} {o : List OwnClaim} (hb : n.claimsBounded → ({ n with bcu.own := o } : Node).claimsBounded)
    (hd : n.Bounds → ∀ b, n.drawClaimed b → ({ n with bcu.own := o } : Node).drawClaimed b) :
    Kept n { n with bcu.own := o } where
  now := rfl
  stc := rfl
  channels := rfl
  inputs := rfl
  cycle := rfl
  pendingCycle := rfl
  gridNext := rfl
  overMark := rfl
  decoder := rfl
  sideA := rfl
  sideB := rfl
  declared := rfl
  volume := rfl
  prices := rfl
  slots := rfl
  copy1 := rfl
  copy2 := rfl
  totals := rfl
  wire := rfl
  consecutive := rfl
  total := rfl
  latch := fun _ => rfl
  bounds := fun h => ⟨h.queue, hb h.claims, h.store, h.reservation⟩
  draw := hd
  ramp := id

theorem claimsBounded_filter {n : Node} (p : OwnClaim → Bool) (h : n.claimsBounded) :
    ({ n with bcu.own := n.bcu.own.filter p } : Node).claimsBounded := by
  obtain ⟨h1, h2, h3⟩ := h
  refine ⟨le_trans ?_ h1, le_trans ?_ h2, ?_⟩
  · simp only [Bcu.count]
    exact (((List.filter_sublist (l := n.bcu.own) (p := p)).filter _).length_le)
  · simp only [Bcu.count]
    exact (((List.filter_sublist (l := n.bcu.own) (p := p)).filter _).length_le)
  · exact h3.sublist ((List.filter_sublist (l := n.bcu.own) (p := p)).map _)

/-- The draw claim of a bank that is HELD, as a claim on the list. -/
theorem drawHeld_iff {n : Node} (h : (n.bcu.own.map fun c => (c.bank, c.kind)).Nodup) (b : Bank) :
    n.drawHeld b = true ↔ ∃ c ∈ n.bcu.own, c.bank = b ∧ c.kind = .draw ∧ c.state.isHeld = true := by
  unfold Node.drawHeld Bcu.find
  constructor
  · intro hd
    split at hd
    · cases hd
    · rename_i c hc
      have := List.find?_some hc
      simp only [Bool.and_eq_true, decide_eq_true_eq] at this
      exact ⟨c, List.mem_of_find?_eq_some hc, this.1, this.2, hd⟩
  · rintro ⟨c, hc, hb, hk, hs⟩
    split
    · rename_i hf
      have := List.find?_eq_none.mp hf c hc
      simp [hb, hk] at this
    · rename_i d hf
      have hd := List.find?_some hf
      simp only [Bool.and_eq_true, decide_eq_true_eq] at hd
      have hm := List.mem_of_find?_eq_some hf
      have : d = c := by
        have := List.inj_on_of_nodup_map h hm hc (by rw [hd.1, hd.2, hb, hk])
        exact this
      rw [this]; exact hs

/-- Own claims are removed; none of them is a HELD draw claim on a bank whose draw valve is commanded open. -/
theorem removal_kept {n : Node} (p : OwnClaim → Bool)
    (hp : n.Bounds → ∀ c ∈ n.bcu.own, p c = false → c.kind = .draw → c.state.isHeld = true →
      (n.fcu.vb.get c.bank).opened = false) :
    Kept n { n with bcu.own := n.bcu.own.filter p } := by
  refine own_kept (claimsBounded_filter p) (fun hB b hd ho => ?_)
  have hN := hB.claims.2.2
  have hN' := (claimsBounded_filter p hB.claims).2.2
  obtain ⟨c, hc, hb, hk, hs⟩ := (drawHeld_iff hN b).mp (hd ho)
  refine (drawHeld_iff hN' b).mpr ⟨c, ?_, hb, hk, hs⟩
  refine List.mem_filter.mpr ⟨hc, ?_⟩
  by_contra hne
  have := hp hB c hc (by simpa using hne) hk hs
  rw [hb] at this
  rw [this] at ho
  cases ho

theorem bcuRequest_kept (b : Bank) (k : ClaimKind) (n : Node) : Kept n (bcuRequest b k n).1 := by
  unfold bcuRequest
  split
  · exact .refl n
  · rename_i hr
    have hcnt : k = .draw ∧ n.bcu.count .draw < 2 ∨ k = .refill ∧ n.bcu.count .refill < 1 := by
      simp only [Node.requestRefused, Bool.or_eq_true, not_or] at hr
      have := hr.1.1.2
      cases k <;> simp at this
      · exact .inl ⟨rfl, by omega⟩
      · exact .inr ⟨rfl, by omega⟩
    have hnew : ∀ c ∈ n.bcu.own, ¬ (c.bank = b ∧ c.kind = k) := by
      simp only [Node.requestRefused, Bool.or_eq_true, not_or] at hr
      have := hr.1.2
      simpa [Bcu.find] using this
    have hadd : Kept n { n with bcu.own := n.bcu.own ++ [⟨b, k, .requested⟩] } := by
      refine own_kept ?_ ?_
      · rintro ⟨h1, h2, h3⟩
        simp only [Node.claimsBounded, Bcu.count, List.filter_append, List.length_append] at hcnt h1 h2 ⊢
        refine ⟨?_, ?_, ?_⟩
        · obtain ⟨rfl, h⟩ | ⟨rfl, h⟩ := hcnt
          · simpa using h
          · simpa using h1
        · obtain ⟨rfl, h⟩ | ⟨rfl, h⟩ := hcnt
          · simpa using h2
          · simpa using h
        · rw [List.map_append, List.nodup_append]
          refine ⟨h3, by simp, ?_⟩
          rintro x hx y hy rfl
          simp only [List.map_cons, List.map_nil, List.mem_singleton] at hy
          obtain ⟨c, hc, rfl⟩ := List.mem_map.mp hx
          exact hnew c hc ⟨congrArg Prod.fst hy, congrArg Prod.snd hy⟩
      · intro hB d hd ho
        have hh := hd ho
        simp only [Node.drawHeld, Bcu.find] at hh ⊢
        rw [List.find?_append]
        split at hh
        · cases hh
        · rename_i c hc
          rw [hc]; exact hh
    split
    · rename_i m h
      have h := congrArg Prod.fst h
      simp only at h
      rw [← h]
      exact hadd.trans (liuOffer_kept _ _)
    · rename_i m h
      have h := congrArg Prod.fst h
      simp only at h
      rw [← h]
      refine (hadd.trans (liuOffer_kept _ _)).trans (removal_kept _ ?_)
      rintro - c hc hp hk hs
      rw [liuOffer_bcu] at hc
      simp only [List.mem_append, List.mem_singleton] at hc
      obtain hc | rfl := hc
      · simp at hp
        exact absurd hp (hnew c hc)
      · cases hs

/-- A withdrawn claim is not HELD. -/
theorem bcuWithdraw_kept {b : Bank} {k : ClaimKind} {n : Node}
    (h : ∀ c ∈ n.bcu.own, c.bank = b → c.kind = k → k = .draw → c.state.isHeld = true →
      (n.fcu.vb.get b).opened = false) :
    Kept n { n with bcu := n.bcu.without b k } := by
  refine removal_kept _ ?_
  rintro - c hc hp hk hs
  simp at hp
  rw [hp.1]
  exact h c hc hp.1 hp.2 (hp.2 ▸ hk) hs

/-- A release gives back a claim whose draw valve is not commanded open, or a refill claim. -/
theorem bcuRelease_kept {b : Bank} {k : ClaimKind} {n : Node}
    (h : k = .draw → (n.fcu.vb.get b).opened = false) : Kept n (bcuRelease b k n) := by
  have hw : Kept n { n with bcu := n.bcu.without b k } :=
    bcuWithdraw_kept fun c _ _ _ hk _ => h hk
  unfold bcuRelease
  split
  · exact .refl n
  · split
    · exact hw.trans (queue_kept (queueRemoveClaim_fits b k))
    · exact hw.trans (offer_kept _ _)

end Sys2Proof.Machine
end

