-- ==== Sys2Proof/Laws/KeptBlocks.lean ====
section
/-! SUPPORT. What the operations of the record store, the meter, the heat share and the compressor keep. -/

namespace Sys2Proof.Machine

/-! ## Record store (file 09) -/

/-- The working memory of the store changes; the table keeps its length and the request list its bound. -/
theorem rst_kept {n : Node} {r : Rst} (h1 : r.slots = n.rst.slots) (h2 : r.copy1 = n.rst.copy1)
    (h3 : r.copy2 = n.rst.copy2) (h4 : r.totals = n.rst.totals) (ht : r.table.length = n.rst.table.length)
    (hr : n.rst.requests.length ≤ 4 → r.requests.length ≤ 4) : Kept n { n with rst := r } where
  now := rfl
  stc := rfl
  channels := rfl
  inputs := rfl
  cycle := rfl
  pendingCycle := rfl
  gridNext := rfl
  overMark := rfl
  decoder := rfl
  sideA := rfl
  sideB := rfl
  declared := rfl
  volume := rfl
  prices := rfl
  slots := h1
  copy1 := h2
  copy2 := h3
  totals := h4
  wire := rfl
  consecutive := rfl
  total := rfl
  latch := fun _ => rfl
  bounds := bounds_congr id rfl h1 ht hr id
  draw := fun _ _ x => x
  ramp := id

theorem offerRecord_kept (t i : Nat) (n : Node) : Kept n (offerRecord t i n) := by
  unfold offerRecord
  split
  · split <;> exact (offer_kept _ _).trans (offer_kept _ _)
  · exact .refl n

theorem serveRequest_kept (q : LineRequest) (n : Node) : Kept n (serveRequest q n) := by
  unfold serveRequest
  split
  · unfold serveQuery
    split
    · exact offerRecord_kept _ _ n
    · exact answer_kept _ _ _ _ n
  · exact offer_kept _ n
  · unfold serveCollect
    split
    · exact answer_kept _ _ _ _ n
    · split
      · exact answer_kept _ _ _ _ n
      · split
        · exact rst_kept rfl rfl rfl rfl rfl id
        · exact rst_kept rfl rfl rfl rfl rfl id
        · exact answer_kept _ _ _ _ n
        · exact answer_kept _ _ _ _ n

theorem beginRecordWrite_kept (k : RecordWrite) (n : Node) : Kept n (beginRecordWrite k n) := by
  unfold beginRecordWrite
  split <;> exact rst_kept rfl rfl rfl rfl rfl id

theorem storeTake_kept (fuel : Nat) (n : Node) : Kept n (storeTake fuel n) := by
  induction fuel generalizing n with
  | zero => exact .refl n
  | succ fuel ih =>
    unfold storeTake
    split
    · exact .refl n
    · split
      · exact .refl n
      · exact beginRecordWrite_kept _ n
      · exact rst_kept rfl rfl rfl rfl rfl id
      · refine (ih _).after ((serveRequest_kept _ _).after (rst_kept rfl rfl rfl rfl rfl ?_))
        intro h
        simp only [List.length_tail]
        omega

theorem storeKick_kept (n : Node) : Kept n (storeKick n) := storeTake_kept _ n

theorem raiseRecord_kept (k : RecordWrite) (n : Node) : Kept n (raiseRecord k n) :=
  (storeKick_kept _).after (rst_kept rfl rfl rfl rfl rfl id)

theorem raiseCreep_kept (m : Nat) (n : Node) : Kept n (raiseCreep m n) :=
  (storeKick_kept _).after (rst_kept rfl rfl rfl rfl rfl id)

theorem takeRequest_kept (k : RequestKind) (c : BitVec 6) (x t : Nat) (n : Node) : Kept n (takeRequest k c x t n) := by
  unfold takeRequest
  split
  · exact answer_kept _ _ _ _ n
  · refine (storeKick_kept _).after (rst_kept rfl rfl rfl rfl rfl ?_)
    intro _
    simp
    omega

theorem onImage_kept (f : RecordBody → RecordBody) (n : Node) : Kept n (onImage f n) :=
  rst_kept rfl rfl rfl rfl rfl id

theorem rstSetFirstSource_kept (b : Bank) (n : Node) : Kept n (rstSetFirstSource b n) := onImage_kept _ n

theorem rstCollision_kept (n : Node) : Kept n (rstCollision n) := onImage_kept _ n

theorem rstKind_kept (k : FillKind) (n : Node) : Kept n (rstKind k n) := onImage_kept _ n

theorem rstAppend_kept (s : Source) (n : Node) : Kept n (rstAppend s n) := (onImage_kept _ n).trans (raiseRecord_kept _ _)

theorem rstCreate_kept (n : Node) : Kept n (rstCreate n) := by
  unfold rstCreate
  split
  · exact (raiseRecord_kept _ _).after (rst_kept rfl rfl rfl rfl (by simp) id)
  · exact .refl n

/-! ## Meter (file 08) -/

theorem mpuMarks_kept (n : Node) : Kept n (mpuMarks n) := by
  unfold mpuMarks
  split
  · exact .refl n
  · split
    · exact .alike (by constructor <;> rfl)
    · exact .refl n

theorem mpuProject_kept (n : Node) : Kept n (mpuProject n) := by
  unfold mpuProject
  split
  · exact (mpuMarks_kept _).after (.alike (by constructor <;> rfl))
  · exact .refl n

theorem mpuAccrue_kept (n : Node) : Kept n (mpuAccrue n) := by
  unfold mpuAccrue
  split
  · exact (raiseCreep_kept _ _).after (.alike (by constructor <;> rfl))
  · exact .refl n

theorem mpuFillPulse_kept (n : Node) : Kept n (mpuFillPulse n) := by
  unfold mpuFillPulse
  refine (mpuProject_kept _).after ?_
  dsimp only
  split
  · exact (raiseRecord_kept _ _).after ((onImage_kept _ _).after (.alike (by constructor <;> rfl)))
  · exact (onImage_kept _ _).after (.alike (by constructor <;> rfl))

theorem mpuCreepPulse_kept (n : Node) : Kept n (mpuCreepPulse n) := by
  unfold mpuCreepPulse
  dsimp only
  split
  · exact (mpuAccrue_kept _).after (.alike (by constructor <;> rfl))
  · exact .alike (by constructor <;> rfl)

theorem mpuOpen_kept (n : Node) : Kept n (mpuOpen n) :=
  (mpuProject_kept _).after (Kept.after (.alike (by constructor <;> rfl)) (mpuAccrue_kept n))

theorem mpuFinal_kept (n : Node) : Kept n (mpuFinal n) := by
  unfold mpuFinal
  exact (onImage_kept _ _).after (.alike (by constructor <;> rfl))

/-! ## Heat share (file 06) -/

/-- The heat share figures change, the reservation to a legal one. -/
theorem hsu_kept {n : Node} {h : Hsu} (hl : n.reservationLegal → h.rOwn = 0 ∨ 4000 ≤ h.rOwn) :
    Kept n { n with hsu := h } where
  now := rfl
  stc := rfl
  channels := rfl
  inputs := rfl
  cycle := rfl
  pendingCycle := rfl
  gridNext := rfl
  overMark := rfl
  decoder := rfl
  sideA := rfl
  sideB := rfl
  declared := rfl
  volume := rfl
  prices := rfl
  slots := rfl
  copy1 := rfl
  copy2 := rfl
  totals := rfl
  wire := rfl
  consecutive := rfl
  total := rfl
  latch := fun _ => rfl
  bounds := bounds_congr id rfl rfl rfl id hl
  draw := fun _ _ x => x
  ramp := id

theorem fcuCeiling_kept (n : Node) : Kept n (fcuCeiling n) := by
  unfold fcuCeiling
  split
  · exact .alike (by constructor <;> rfl)
  · split
    · exact .alike (by constructor <;> rfl)
    · exact .refl n

theorem hsuOffer_kept (n : Node) : Kept n (hsuOffer n) := by
  unfold hsuOffer
  split
  · exact .refl n
  · exact (liuOffer_kept _ n).trans (.alike (by constructor <;> rfl))

theorem hsuSet_kept {r : Nat} (w : Bool) {n : Node} (hr : r = 0 ∨ 4000 ≤ r) : Kept n (hsuSet r w n) := by
  unfold hsuSet
  split
  · exact .refl n
  · exact (hsuOffer_kept _).after ((fcuCeiling_kept _).after (hsu_kept fun _ => hr))

/-- An evaluation reserves nothing or at least 4,000 W (R106). -/
theorem evaluation_legal (n : Node) : n.evaluation.1 = 0 ∨ 4000 ≤ n.evaluation.1 := by
  unfold Node.evaluation
  split
  · exact .inl rfl
  · split
    · exact .inl rfl
    · exact .inr (by simp; omega)

theorem hsuEvaluate_kept (n : Node) : Kept n (hsuEvaluate n) := by
  unfold hsuEvaluate
  split
  · split
    · exact hsuOffer_kept n
    · exact .refl n
  · exact hsuSet_kept _ (evaluation_legal n)

theorem hsuOverCommit_kept (n : Node) : Kept n (hsuOverCommit n) := by
  unfold hsuOverCommit
  split
  · exact .refl n
  · split
    · exact hsuSet_kept _ (.inr (by assumption))
    · split
      · exact hsuSet_kept _ (.inl rfl)
      · exact .refl n

theorem hsuWant_kept (n : Node) : Kept n (hsuWant n) :=
  (fcuCeiling_kept _).after (hsu_kept id)

theorem hsuFillStart_kept (n : Node) : Kept n (hsuFillStart n) :=
  (hsuEvaluate_kept _).after ((hsuWant_kept _).after (hsu_kept id))

theorem hsuFillEnd_kept (n : Node) : Kept n (hsuFillEnd n) := (hsuEvaluate_kept _).after (hsu_kept id)

theorem hsuDecrease_kept (n : Node) : Kept n (hsuDecrease n) := .onlyIf fun _ => hsuEvaluate_kept n

theorem hsuCapacity_kept (n : Node) : Kept n (hsuCapacity n) := by
  unfold hsuCapacity
  dsimp only
  split
  · exact (hsuOverCommit_kept _).after (hsu_kept id)
  · exact hsu_kept id

theorem hsuQuiet_kept (n : Node) : Kept n (hsuQuiet n) :=
  (hsuOffer_kept _).after ((fcuCeiling_kept _).after (hsu_kept fun _ => .inl rfl))

/-! ## Compressor (file 07) -/

/-- Any change of the compressor's own part. -/
theorem ccu_kept {n : Node} {c : Ccu} : Kept n { n with ccu := c } := .alike (by constructor <;> rfl)

theorem refillRelease_kept (b : Bank) (n : Node) : Kept n (bcuRelease b .refill n) :=
  bcuRelease_kept fun h => by cases h

theorem refillValve_kept (b : Bank) (o : Bool) (n : Node) : Kept n (refillValve b o n) := ccu_kept

theorem directValve_kept (o : Bool) (n : Node) : Kept n (directValve o n) := ccu_kept

theorem openRefill_kept (b : Bank) (n : Node) : Kept n (openRefill b n) := .onlyIf fun _ => refillValve_kept _ _ n

theorem openDirect_kept (n : Node) : Kept n (openDirect n) := .onlyIf fun _ => directValve_kept _ n

theorem ccuTry_kept (bs : List Bank) (n : Node) : Kept n (ccuTry bs n) := by
  induction bs generalizing n with
  | nil => exact .refl n
  | cons b bs ih =>
    unfold ccuTry
    have h := bcuRequest_kept b .refill n
    split
    · rename_i m hm
      rw [hm] at h
      exact h.trans ccu_kept
    · rename_i m hm
      rw [hm] at h
      exact h.trans (ih m)

theorem ccuChoose_kept (s : Option Bank) (n : Node) : Kept n (ccuChoose s n) := by
  unfold ccuChoose
  split
  · exact ccuTry_kept _ n
  · exact .refl n

theorem ccuGiveClaim_kept (n : Node) : Kept n (ccuGiveClaim n) := by
  unfold ccuGiveClaim
  split
  · exact .refl n
  · split
    · exact .refl n
    · exact Kept.trans ccu_kept (refillRelease_kept _ _)
    · split
      · exact Kept.trans ccu_kept (refillRelease_kept _ _)
      · exact Kept.trans ccu_kept (refillValve_kept _ _ _)

theorem ccuHalt_kept (st : CompState) (n : Node) : Kept n (ccuHalt st n) :=
  Kept.trans ccu_kept (Kept.trans ccu_kept (ccuGiveClaim_kept _))

theorem ccuIdleTest_kept (n : Node) : Kept n (ccuIdleTest n) := by
  unfold ccuIdleTest
  split
  · exact ccuHalt_kept _ n
  · exact .refl n

theorem ccuIdleChoice_kept (s : Option Bank) (n : Node) : Kept n (ccuIdleChoice s n) := by
  unfold ccuIdleChoice
  split
  · exact (ccuChoose_kept s n).trans (ccuIdleTest_kept _)
  · exact .refl n

theorem ccuSurvey_kept (n : Node) : Kept n (ccuSurvey n) := by
  unfold ccuSurvey
  split
  · split
    · split
      · exact (ccuChoose_kept _ n).trans ccu_kept
      · exact ccuChoose_kept _ n
    · exact .refl n
  · exact ccuIdleChoice_kept _ n
  · exact .refl n

theorem ccuLoad_kept (b : Bank) (n : Node) : Kept n (ccuLoad b n) := Kept.trans ccu_kept (openRefill_kept _ _)

theorem ccuServe_kept (n : Node) : Kept n (ccuServe n) := Kept.trans ccu_kept (openDirect_kept _)

theorem ccuStarted_kept (n : Node) : Kept n (ccuStarted n) := by
  unfold ccuStarted
  split
  · exact Kept.trans ccu_kept (ccuServe_kept _)
  · split
    · exact Kept.trans ccu_kept (ccuLoad_kept _ _)
    · exact ccu_kept
    · exact Kept.trans ccu_kept (ccuIdleChoice_kept _ _)

theorem ccuLeaveRefill_kept (n : Node) : Kept n (ccuLeaveRefill n) := by
  unfold ccuLeaveRefill
  dsimp only
  split
  · exact (Kept.trans ccu_kept (ccuGiveClaim_kept _)).trans (ccuIdleChoice_kept _ _)
  · exact Kept.trans ccu_kept (ccuGiveClaim_kept _)

theorem directRequest_kept (n : Node) : Kept n (directRequest n).1 := by
  unfold directRequest
  split
  · exact .refl n
  · split
    · split
      · exact ccu_kept
      · exact .refl n
    · exact (ccuGiveClaim_kept n).trans ccu_kept
    · exact (ccuGiveClaim_kept n).trans (ccuServe_kept _)
    · exact (ccuGiveClaim_kept n).trans (ccuServe_kept _)
    all_goals exact .refl n

theorem ccuHandBack_kept (n : Node) : Kept n (ccuHandBack n) := by
  unfold ccuHandBack
  split
  · exact .refl n
  · split
    · exact Kept.trans ccu_kept (Kept.trans (directValve_kept _ _) (ccuIdleChoice_kept _ _))
    · exact ccu_kept

theorem ccuHold_kept (n : Node) : Kept n (ccuHold n) := ccu_kept

theorem ccuUnhold_kept (n : Node) : Kept n (ccuUnhold n) := by
  unfold ccuUnhold
  split
  · split
    · exact Kept.trans ccu_kept (openRefill_kept _ _)
    · exact Kept.trans ccu_kept (openDirect_kept _)
    · exact ccu_kept
  · exact .refl n

theorem ccuMotorLevel_kept (a : Bool) (n : Node) : Kept n (ccuMotorLevel a n) := by
  unfold ccuMotorLevel
  split
  · exact ccu_kept
  · exact .refl n

end Sys2Proof.Machine
end

