-- ==== Sys2Proof/Laws/KeptFill.lean ====
section
/-! SUPPORT. What the operations of the fill controller keep. -/

namespace Sys2Proof.Machine

/-- The fill controller's part changes: draw valves open only with the claim HELD, the target pressure within its limit. -/
theorem fcu_kept {n : Node} {f : Fcu} (hv : ∀ b, (f.vb.get b).opened = true → (n.fcu.vb.get b).opened = true ∨ n.drawHeld b = true)
    (hr : n.rampBounded → f.pRamp ≤ hoseLimit n.stc.cfg.hose) : Kept n { n with fcu := f } where
  now := rfl
  stc := rfl
  channels := rfl
  inputs := rfl
  cycle := rfl
  pendingCycle := rfl
  gridNext := rfl
  overMark := rfl
  decoder := rfl
  sideA := rfl
  sideB := rfl
  declared := rfl
  volume := rfl
  prices := rfl
  slots := rfl
  copy1 := rfl
  copy2 := rfl
  totals := rfl
  wire := rfl
  consecutive := rfl
  total := rfl
  latch := fun _ => rfl
  bounds := bounds_congr id rfl rfl rfl id id
  draw := fun _ b h ho => (hv b ho).elim h id
  ramp := hr

/-- Everything of the fill controller but valves and target pressure changes. -/
theorem fcu_plain {n : Node} {f : Fcu} (hv : f.vb = n.fcu.vb) (hp : f.pRamp = n.fcu.pRamp) :
    Kept n { n with fcu := f } :=
  fcu_kept (fun b h => .inl (by rw [← hv]; exact h)) (fun h => by rw [hp]; exact h)

/-! ## Valves -/

theorem shutValve_kept (b : Bank) (n : Node) : Kept n (drawValve b false n) :=
  fcu_kept (fun c h => .inl (by
    rw [Quad.get_set] at h
    split at h
    · simp at h
    · exact h)) id

theorem openBank_kept (b : Bank) (n : Node) : Kept n (openBank b n) :=
  .onlyIf fun hh => fcu_kept (fun c h => by
    rw [Quad.get_set] at h
    split at h
    · rename_i hc; rw [hc]; exact .inr hh
    · exact .inl h) id

theorem closeBanks_kept (n : Node) : Kept n (closeBanks n) :=
  fcu_kept (fun b h => by simp at h) id

theorem ventValve_kept (o : Bool) (n : Node) : Kept n (ventValve o n) := fcu_plain rfl rfl

theorem drawRelease_kept {b : Bank} {n : Node} (h : (n.fcu.vb.get b).opened = false) : Kept n (bcuRelease b .draw n) :=
  bcuRelease_kept fun _ => h

theorem giveBack_kept (b : Bank) (n : Node) : Kept n (giveBack b n) := by
  unfold giveBack
  dsimp only
  split
  · exact (drawRelease_kept (by simp)).after (shutValve_kept b n)
  · exact Kept.after (fcu_plain rfl rfl) (shutValve_kept b n)

/-! ## Link and pauses -/

theorem linkLeft_kept (n : Node) : Kept n (linkLeft n) := by
  unfold linkLeft
  split
  · exact (rstKind_kept _ _).after (fcu_plain rfl rfl)
  · exact .refl n

theorem vlrReject_kept (n : Node) : Kept n (vlrReject n) := by
  unfold vlrReject
  split
  · exact (linkLeft_kept _).after (.alike (by constructor <;> rfl))
  · exact .refl n

theorem fcuPeak_kept (n : Node) : Kept n (fcuPeak n) := by
  unfold fcuPeak
  split
  · split
    · exact fcu_plain rfl rfl
    · exact .refl n
  · exact .refl n

theorem pauseEffect_kept (n : Node) : Kept n (pauseEffect n) := by
  unfold pauseEffect
  split
  · exact fcu_plain rfl rfl
  · split
    · exact fcu_plain rfl rfl
    · exact .refl n

theorem setBankWait_kept (n : Node) : Kept n (setBankWait n) := (pauseEffect_kept _).after (fcu_plain rfl rfl)

theorem lineQuietBegin_kept (n : Node) : Kept n (lineQuietBegin n) := by
  unfold lineQuietBegin
  split
  · exact (pauseEffect_kept _).after ((closeBanks_kept _).after (fcu_plain rfl rfl))
  · exact .refl n

/-! ## Leak check -/

theorem beginPulse_kept (n : Node) : Kept n (beginPulse n) := fcu_plain rfl rfl

theorem beginOpening_kept (b : Bank) (n : Node) : Kept n (beginOpening b n) :=
  (openBank_kept b _).after (fcu_plain rfl rfl)

theorem beginAttempt_kept (n : Node) : Kept n (beginAttempt n) := by
  unfold beginAttempt
  split
  · exact .refl n
  · split
    · exact fcu_plain rfl rfl
    · split
      · exact beginPulse_kept n
      · exact beginOpening_kept _ n

theorem checkSearch_kept (bs : List Bank) (n : Node) : Kept n (checkSearch bs n) := by
  induction bs generalizing n with
  | nil => exact setBankWait_kept n
  | cons b bs ih =>
    unfold checkSearch
    have h := bcuRequest_kept b .draw n
    split
    · split
      · rename_i m hm
        rw [hm] at h
        exact Kept.after (fcu_plain rfl rfl) h
      · rename_i m hm
        rw [hm] at h
        exact h.trans (ih m)
    · exact ih n

theorem checkOnward_kept (b : Bank) (n : Node) : Kept n (checkOnward b n) :=
  (checkSearch_kept _ _).after (fcu_plain rfl rfl)

theorem checkHeld_kept (b : Bank) (n : Node) : Kept n (checkHeld b n) :=
  (beginAttempt_kept _).after ((rstSetFirstSource_kept b _).after (fcu_plain rfl rfl))

theorem checkForsaken_kept (b : Bank) (n : Node) : Kept n (checkForsaken b n) := by
  unfold checkForsaken
  split
  · exact fcu_plain rfl rfl
  · exact checkOnward_kept b n

theorem rezeroEnd_kept (n : Node) : Kept n (rezeroEnd n) := by
  unfold rezeroEnd
  dsimp only
  split
  · exact (checkOnward_kept _ _).after ((ventValve_kept _ _).after (fcu_plain rfl rfl))
  · exact (beginAttempt_kept _).after ((ventValve_kept _ _).after (fcu_plain rfl rfl))

/-! ## Stages -/

theorem seat_kept (n : Node) : Kept n (seat n) :=
  fcu_kept (fun _ h => .inl h) fun _ => by simp

theorem setTarget_kept (s : Source) (n : Node) : Kept n (setTarget s n) := fcu_plain rfl rfl

theorem clearTarget_kept (n : Node) : Kept n (clearTarget n) := fcu_plain rfl rfl

theorem endSearch_kept (n : Node) : Kept n (endSearch n) := by
  unfold endSearch
  split
  · exact (setBankWait_kept _).after (fcu_plain rfl rfl)
  · exact fcu_plain rfl rfl

theorem askDirect_kept (n : Node) : Kept n (askDirect n) := by
  unfold askDirect
  have h := directRequest_kept n
  split
  · split
    · rename_i m hm
      rw [hm] at h
      exact (setTarget_kept _ m).after h
    · rename_i m hm
      rw [hm] at h
      exact (endSearch_kept m).after h
  · exact endSearch_kept n

theorem switchSearch_kept (bs : List Bank) (n : Node) : Kept n (switchSearch bs n) := by
  induction bs generalizing n with
  | nil => exact askDirect_kept n
  | cons b bs ih =>
    unfold switchSearch
    have h := bcuRequest_kept b .draw n
    split
    · split
      · rename_i m hm
        rw [hm] at h
        exact (setTarget_kept _ m).after h
      · rename_i m hm
        rw [hm] at h
        exact h.trans (ih m)
    · exact ih n

theorem fcuSourceReady_kept (n : Node) : Kept n (fcuSourceReady n) := by
  unfold fcuSourceReady
  split
  · exact (seat_kept _).after (fcu_plain rfl rfl)
  · exact .refl n

theorem fcuSwitchDone_kept (n : Node) : Kept n (fcuSwitchDone n) := by
  unfold fcuSwitchDone
  split
  · exact (clearTarget_kept _).after (fcu_plain rfl rfl)
  · exact .refl n

theorem flowNeedsSource_kept (n : Node) : Kept n (flowNeedsSource n) := by
  unfold flowNeedsSource
  split
  · exact fcu_plain rfl rfl
  · exact .refl n

theorem takeSource_kept (s : Source) (n : Node) : Kept n (takeSource s n) := by
  unfold takeSource
  refine (rstAppend_kept s _).after ((flowNeedsSource_kept _).after (Kept.after (fcu_plain rfl rfl) ?_))
  split
  · exact giveBack_kept _ n
  · exact .refl n

theorem takeTarget_kept (b : Bank) (n : Node) : Kept n (takeTarget b n) :=
  (takeSource_kept _ _).after (openBank_kept b n)

theorem targetOnward_kept (b : Bank) (n : Node) : Kept n (targetOnward b n) :=
  (switchSearch_kept _ _).after (clearTarget_kept n)

theorem giveUpSource_kept (n : Node) : Kept n (giveUpSource n) := by
  unfold giveUpSource
  dsimp only
  split
  · exact (clearTarget_kept _).after (fcu_plain rfl rfl)
  · exact fcu_plain rfl rfl

/-! ## End of a fill -/

theorem enterVenting_kept (n : Node) : Kept n (enterVenting n) :=
  (mpuProject_kept _).after ((ventValve_kept _ _).after (fcu_plain rfl rfl))

theorem fcuClosingDone_kept (n : Node) : Kept n (fcuClosingDone n) := by
  unfold fcuClosingDone
  split
  · exact enterVenting_kept n
  · exact .refl n

theorem endFill_kept (r : EndReason) (n : Node) : Kept n (endFill r n) := by
  unfold endFill
  refine (fcuClosingDone_kept _).after ((hsuFillEnd_kept _).after ((ccuHandBack_kept _).after ?_))
  exact (Kept.foldl (fun k b => giveBack b k) (fun k b => giveBack_kept b k) _ _).after (fcu_plain rfl rfl)

theorem ventingEnd_kept (n : Node) : Kept n (ventingEnd n) := ventValve_kept _ n

theorem enterClosingRecord_kept (n : Node) : Kept n (enterClosingRecord n) :=
  (raiseRecord_kept _ _).after ((mpuFinal_kept _).after (fcu_plain rfl rfl))

theorem fcuIdle_kept (n : Node) : Kept n (fcuIdle n) :=
  fcu_kept (fun _ h => .inl h) fun _ => Nat.zero_le _

theorem fcuDone_kept (slot : Nat) (n : Node) : Kept n (fcuDone slot n) := by
  have h1 : ∀ m : Node, Kept m (progressAtDone { m with fcu.phase := .done, fcu.auth := none, liu.progressNext := none }) :=
    fun m => (queue_kept (atDone_fits _)).after (.alike (by constructor <;> rfl))
  unfold fcuDone
  dsimp only
  split <;> split
  · exact (fcuIdle_kept _).after ((h1 _).after (offerRecord_kept _ _ n))
  · exact (h1 _).after (offerRecord_kept _ _ n)
  · exact (fcuIdle_kept _).after (h1 n)
  · exact h1 n

theorem endTest_kept (n : Node) : Kept n (endTest n) := by
  unfold endTest
  split
  · split
    · exact endFill_kept _ n
    · exact .refl n
  · exact .refl n

/-! ## Readings -/

theorem beginHold_kept (n : Node) : Kept n (beginHold n) := fcu_plain rfl rfl

theorem p0Tests_kept (p : Nat) (n : Node) : Kept n (p0Tests p n) := by
  unfold p0Tests
  dsimp only
  split
  · exact endFill_kept _ n
  · split
    · exact endFill_kept _ n
    · generalize (if n.linkValid = true then n.stc.cfg.commTarget else n.stc.cfg.nonCommTarget) = target
      split
      · exact (endFill_kept _ _).after (fcu_plain rfl rfl)
      · exact (beginHold_kept _).after (fcu_plain rfl rfl)

theorem readP0_kept (n : Node) : Kept n (readP0 n) := by
  have h : ∀ m, Kept n m → Kept n (if n.fcu.attempt = 1 then p0Tests n.pH m else beginHold m) := by
    intro m hm
    split
    · exact (p0Tests_kept _ m).after hm
    · exact (beginHold_kept m).after hm
  unfold readP0
  refine h _ ?_
  split
  · exact (vlrReject_kept _).after (fcu_plain rfl rfl)
  · exact fcu_plain rfl rfl

theorem enterRamping_kept (n : Node) : Kept n (enterRamping n) :=
  (rstKind_kept _ _).after ((seat_kept _).after (fcu_plain rfl rfl))

theorem beginRezero_kept (n : Node) : Kept n (beginRezero n) := (closeBanks_kept _).after (fcu_plain rfl rfl)

theorem attemptFailed_kept (n : Node) : Kept n (attemptFailed n) := by
  unfold attemptFailed
  split
  · exact endFill_kept _ n
  · split
    · exact beginRezero_kept n
    · exact (beginAttempt_kept _).after (fcu_plain rfl rfl)

theorem judge_kept (n : Node) : Kept n (judge n) := by
  unfold judge
  split
  · exact enterRamping_kept n
  · exact attemptFailed_kept n

theorem fcuAwaited_kept (n : Node) : Kept n (fcuAwaited n) := by
  unfold fcuAwaited
  split
  · split
    · exact readP0_kept n
    · exact (judge_kept _).after (fcu_plain rfl rfl)
    · exact .refl n
  · exact .refl n

/-! ## Control period -/

theorem evaluatePauses_kept (n : Node) : Kept n (evaluatePauses n) := fcu_plain rfl rfl

theorem quietReopen_kept (n : Node) : Kept n (quietReopen n) := by
  unfold quietReopen
  split
  · split
    · split
      · exact takeTarget_kept _ n
      · exact .refl n
    · split
      · exact openBank_kept _ n
      · exact .refl n
  · exact .refl n

theorem fcuResume_kept (n : Node) : Kept n (fcuResume n) := by
  unfold fcuResume
  split
  · split
    · exact (seat_kept _).after (fcu_plain rfl rfl)
    · exact .refl n
  · split
    · exact beginAttempt_kept n
    · exact .refl n

theorem periodPauses_kept (n : Node) : Kept n (periodPauses n) := by
  have h : ∀ m, Kept n m → Kept n (if m.fcu.pauses.any then pauseEffect m else fcuResume m) := by
    intro m hm
    split
    · exact (pauseEffect_kept m).after hm
    · exact (fcuResume_kept m).after hm
  unfold periodPauses
  refine h _ ?_
  split
  · exact (closeBanks_kept _).after (evaluatePauses_kept n)
  · split
    · exact (quietReopen_kept _).after (evaluatePauses_kept n)
    · exact evaluatePauses_kept n

theorem periodRamp_kept (n : Node) : Kept n (periodRamp n) := by
  unfold periodRamp
  split
  · exact .refl n
  · exact fcu_kept (fun _ h => .inl h) fun _ => by simp

theorem periodFlow_kept (n : Node) : Kept n (periodFlow n) := fcu_plain rfl rfl

theorem periodSwitch_kept (n : Node) : Kept n (periodSwitch n) := by
  unfold periodSwitch
  split
  · exact .refl n
  · split
    · exact switchSearch_kept _ n
    · exact .refl n

theorem periodVehicle_kept (n : Node) : Kept n (periodVehicle n) := by
  unfold periodVehicle
  split
  · split
    · split
      · exact vlrReject_kept n
      · exact .refl n
    · exact .refl n
  · exact .refl n

theorem periodSoc_kept (n : Node) : Kept n (periodSoc n) := by
  unfold periodSoc
  split
  · split
    · exact fcu_plain rfl rfl
    · exact .refl n
  · exact fcu_plain rfl rfl

theorem controlPeriod_kept (n : Node) : Kept n (controlPeriod n) := by
  unfold controlPeriod
  dsimp only
  split
  · exact (endTest_kept _).after ((periodSoc_kept _).after ((periodVehicle_kept _).after ((periodSwitch_kept _).after
      ((periodFlow_kept _).after ((periodRamp_kept _).after (periodPauses_kept n))))))
  · exact (endTest_kept _).after (periodPauses_kept n)

/-! ## Reports -/

theorem fcuHeld_kept (b : Bank) (n : Node) : Kept n (fcuHeld b n) := by
  unfold fcuHeld
  split
  · split
    · exact checkHeld_kept b n
    · exact .refl n
  · split
    · split
      · exact fcu_plain rfl rfl
      · exact takeTarget_kept b n
    · exact .refl n

theorem fcuDenied_kept (b : Bank) (n : Node) : Kept n (fcuDenied b n) := by
  unfold fcuDenied
  split
  · split
    · exact checkOnward_kept b n
    · exact .refl n
  · split
    · exact targetOnward_kept b n
    · exact .refl n

theorem fcuForsaken_kept (b : Bank) (n : Node) : Kept n (fcuForsaken b n) := by
  unfold fcuForsaken
  split
  · split
    · exact checkForsaken_kept b n
    · exact .refl n
  · split
    · split
      · exact targetOnward_kept b n
      · split
        · exact giveUpSource_kept n
        · exact .refl n
    · exact .refl n

theorem fcuLost_kept (b : Bank) (n : Node) : Kept n (fcuLost b n) := by
  unfold fcuLost
  exact (fcuForsaken_kept b _).after (Kept.after (.onlyIf fun _ => rstCollision_kept _)
    ((shutValve_kept b _).after (fcu_plain rfl rfl)))

theorem fcuUnavailable_kept (b : Bank) (n : Node) : Kept n (fcuUnavailable b n) := by
  unfold fcuUnavailable
  split
  · exact (fcuForsaken_kept b _).after (giveBack_kept b n)
  · exact .refl n

theorem fcuDropped_kept (b : Bank) (n : Node) : Kept n (fcuDropped b n) :=
  (flowNeedsSource_kept _).after ((shutValve_kept b _).after (fcu_plain rfl rfl))

theorem fcuDirectReady_kept (n : Node) : Kept n (fcuDirectReady n) := by
  unfold fcuDirectReady
  split
  · exact (fcuSwitchDone_kept _).after ((fcuSourceReady_kept _).after (takeSource_kept _ n))
  · exact .refl n

theorem fcuDirectDenied_kept (n : Node) : Kept n (fcuDirectDenied n) := by
  unfold fcuDirectDenied
  split
  · exact (endSearch_kept _).after (clearTarget_kept n)
  · exact .refl n

theorem fcuDirectWithdrawn_kept (n : Node) : Kept n (fcuDirectWithdrawn n) := by
  unfold fcuDirectWithdrawn
  split
  · exact giveUpSource_kept n
  · exact .refl n

/-! ## Start, trip, STOP -/

theorem authCancel_kept (n : Node) : Kept n (authCancel n) := by
  unfold authCancel
  split
  · exact fcuIdle_kept n
  · exact .refl n

theorem startFill_kept (n : Node) : Kept n (startFill n) := by
  have h1 : ∀ (m : Node) (t : Nat), Kept m { m with liu.progressNext := some t } :=
    fun m t => .alike (by constructor <;> rfl)
  unfold startFill
  refine (checkSearch_kept _ _).after ((h1 _ _).after ((offer_kept _ _).after ((hsuFillStart_kept _).after
    ((mpuOpen_kept _).after ((rstCreate_kept _).after ((fcuPeak_kept _).after ?_))))))
  exact fcu_plain rfl rfl

theorem fcuTrip_kept (n : Node) : Kept n (fcuTrip n) := (endTest_kept _).after (authCancel_kept n)

theorem fcuStop_kept (r : EndReason) (n : Node) : Kept n (fcuStop r n) := by
  unfold fcuStop
  split
  · exact endFill_kept r n
  · exact authCancel_kept n

/-! ## Samples and valve travels -/

theorem fcuWindow_kept (v : Nat) (n : Node) : Kept n (fcuWindow v n) := fcu_plain rfl rfl

theorem fcuVentSample_kept (v : Nat) (n : Node) : Kept n (fcuVentSample v n) := by
  unfold fcuVentSample
  split
  · split
    · exact ventingEnd_kept n
    · split
      · exact rezeroEnd_kept n
      · exact .refl n
  · exact .refl n

theorem fcuDrawArrived_kept (b : Bank) (n : Node) : Kept n (fcuDrawArrived b n) := by
  have h1 : Kept n { n with fcu.vb := n.fcu.vb.set b (n.fcu.vb.get b).arrive } :=
    fcu_kept (fun c h => .inl (by
      rw [Quad.get_set] at h
      split at h
      · rename_i hc; rw [hc]; simpa using h
      · exact h)) id
  have h2 : ∀ m, Kept n m → Kept n (if (m.fcu.vb.get b).closed ∧ m.fcu.relOnClose.get b = true then
      bcuRelease b .draw { m with fcu.relOnClose := m.fcu.relOnClose.set b false } else m) := by
    intro m hm
    split
    · rename_i hc
      have hcl := hc.1
      simp only [ValveRec.closed, decide_eq_true_eq] at hcl
      refine Kept.after ?_ hm
      refine Kept.after (drawRelease_kept (n := { m with fcu.relOnClose := _ }) hcl.1) (fcu_plain rfl rfl)
    · exact hm
  have h3 : ∀ m, Kept n m → Kept n (if m.fcu.phase = .checking then
      if m.fcu.check = .opening ∧ m.fcu.stepSince.isSome = true ∧ m.fcu.checkBank = some b ∧
          (m.fcu.vb.get b).ready = true then beginPulse m
      else if m.fcu.check = .rezero ∧ m.fcu.rezeroVent = none ∧ m.drawValvesClosed = true then
        ventValve true { m with fcu.rezeroVent := some m.now }
      else m
    else m) := by
    intro m hm
    split
    · split
      · exact (beginPulse_kept m).after hm
      · split
        · exact (ventValve_kept _ _).after (Kept.after (fcu_plain rfl rfl) hm)
        · exact hm
    · exact hm
  exact (fcuClosingDone_kept _).after ((fcuSwitchDone_kept _).after ((fcuSourceReady_kept _).after (h3 _ (h2 _ h1))))

theorem fcuVentArrived_kept (n : Node) : Kept n (fcuVentArrived n) := by
  unfold fcuVentArrived
  dsimp only
  split
  · exact (enterClosingRecord_kept _).after (fcu_plain rfl rfl)
  · exact fcu_plain rfl rfl

end Sys2Proof.Machine
end

