-- ==== Sys2Proof/Laws/KeptReports.lean ====
section
/-! SUPPORT. What reports, walks, retests, the loop, the conflict, the Peer Table and the line keep. -/

namespace Sys2Proof.Machine

/-! ## Compressor stops and reports -/

theorem tellDirect_kept (d : DirectReq) (n : Node) : Kept n (tellDirect d n) := by
  cases d
  · exact .refl n
  · exact fcuDirectDenied_kept n
  · exact fcuDirectWithdrawn_kept n

theorem ccuGo_kept (st : CompState) (n : Node) : Kept n (ccuGo st n) := (tellDirect_kept _ _).after (ccuHalt_kept st n)

theorem ccuStop_kept (n : Node) : Kept n (ccuStop n) := .onlyIf fun _ => ccuGo_kept _ n

theorem ccuLockout_kept (n : Node) : Kept n (ccuLockout n) := .onlyIf fun _ => ccuGo_kept _ n

theorem ccuHeld_kept (b : Bank) (n : Node) : Kept n (ccuHeld b n) := by
  unfold ccuHeld
  split
  · split
    · exact ccu_kept
    · exact ccuLoad_kept b n
    · exact .refl n
  · exact .refl n

theorem ccuDenied_kept (b : Bank) (n : Node) : Kept n (ccuDenied b n) := by
  unfold ccuDenied
  dsimp only
  split
  · split
    · exact ccu_kept
    · exact (ccuIdleChoice_kept _ _).after ccu_kept
  · exact .refl n

theorem ccuLost_kept (b : Bank) (n : Node) : Kept n (ccuLost b n) := by
  unfold ccuLost
  dsimp only
  split
  · exact .refl n
  · split
    · exact (ccuIdleChoice_kept _ _).after (Kept.after ccu_kept ((refillValve_kept _ _ _).after ccu_kept))
    · exact (ccuIdleChoice_kept _ _).after ((refillValve_kept _ _ _).after ccu_kept)

theorem ccuUnavailable_kept (b : Bank) (n : Node) : Kept n (ccuUnavailable b n) := by
  unfold ccuUnavailable
  split
  · exact .refl n
  · exact .refl n
  · exact (ccuIdleChoice_kept _ _).after (ccuGiveClaim_kept n)
  · split
    · exact ccuLeaveRefill_kept n
    · exact (ccuIdleChoice_kept _ _).after (ccuGiveClaim_kept n)

theorem ccuDropped_kept (b : Bank) (n : Node) : Kept n (ccuDropped b n) := by
  unfold ccuDropped
  split
  · exact .refl n
  · exact ccu_kept

theorem reportHeld_kept (b : Bank) (k : ClaimKind) (n : Node) : Kept n (reportHeld b k n) := by
  cases k
  · exact fcuHeld_kept b n
  · exact ccuHeld_kept b n

theorem reportDenied_kept (b : Bank) (k : ClaimKind) (n : Node) : Kept n (reportDenied b k n) := by
  cases k
  · exact fcuDenied_kept b n
  · exact ccuDenied_kept b n

theorem reportLost_kept (b : Bank) (k : ClaimKind) (n : Node) : Kept n (reportLost b k n) := by
  cases k
  · exact fcuLost_kept b n
  · exact ccuLost_kept b n

theorem reportUnavailable_kept (b : Bank) (k : ClaimKind) (n : Node) : Kept n (reportUnavailable b k n) := by
  cases k
  · exact fcuUnavailable_kept b n
  · exact ccuUnavailable_kept b n

theorem reportDropped_kept (b : Bank) (k : ClaimKind) (n : Node) : Kept n (reportDropped b k n) := by
  cases k
  · exact fcuDropped_kept b n
  · exact ccuDropped_kept b n

/-! ## Walks with their reports (file 04 R68, R78) -/

theorem mem_insertClaim {c d : ViewClaim} {cs : List ViewClaim} : c ∈ insertClaim d cs ↔ c = d ∨ c ∈ cs := by
  induction cs with
  | nil => simp [insertClaim]
  | cons e es ih =>
    simp only [insertClaim]
    split
    · simp
    · simp [ih]; tauto

@[simp] theorem mem_sortClaims {c : ViewClaim} {cs : List ViewClaim} : c ∈ sortClaims cs ↔ c ∈ cs := by
  induction cs with
  | nil => simp [sortClaims]
  | cons e es ih => simp [sortClaims, mem_insertClaim, ih]

/-- A walk drops claims of the view only. -/
theorem mem_walk_dropped {l d : Nat} {r : Bool} {cs : List ViewClaim} {c : ViewClaim} (h : c ∈ (walk l d r cs).2) :
    c ∈ cs := by
  induction cs generalizing d r with
  | nil => simp [walk] at h
  | cons e es ih =>
    simp only [walk] at h
    split at h
    · exact List.mem_cons_of_mem _ (ih h)
    · obtain h | h := List.mem_cons.mp h
      · rw [h]; exact List.mem_cons_self ..
      · exact List.mem_cons_of_mem _ (ih h)

theorem OwnClaim.view_eq {node : Nat} {c : OwnClaim} {v : ViewClaim} (h : c.view node = some v) :
    v.holder = node ∧ v.bank = c.bank ∧ v.kind = c.kind := by
  unfold OwnClaim.view at h
  split at h <;> cases h <;> exact ⟨rfl, rfl, rfl⟩

/-- A claim of the view of a bank is on that bank. -/
theorem bankView_bank {n : Node} {b : Bank} {v : ViewClaim} (h : v ∈ n.bankView b) : v.bank = b := by
  simp only [Node.bankView, mem_sortClaims, List.mem_append, List.mem_flatMap, Peer.viewOf, List.mem_map,
    List.mem_filterMap, List.mem_filter, decide_eq_true_eq] at h
  obtain ⟨p, -, c, -, rfl⟩ | ⟨c, ⟨-, hb⟩, hv⟩ := h
  · rfl
  · rw [(OwnClaim.view_eq hv).2.1, hb]

/-- The walk takes the claims of the view. -/
theorem mem_walkOrder {n : Node} {b : Bank} {last : Option ViewClaim} {v : ViewClaim} (h : v ∈ n.walkOrder b last) :
    v ∈ n.bankView b := by
  cases last with
  | none => exact h
  | some c =>
    simp only [Node.walkOrder, enteredLast] at h
    split at h
    · rename_i hc
      obtain h | h := List.mem_append.mp h
      · exact (List.mem_filter.mp h).1
      · rw [List.mem_singleton.mp h]; simpa using hc
    · exact h

theorem bcuWalk_core (b : Bank) (last : Option ViewClaim) (n : Node) : KeptCore n (bcuWalk b last n).1 where
  now := rfl
  stc := rfl
  channels := rfl
  inputs := rfl
  cycle := rfl
  pendingCycle := rfl
  gridNext := rfl
  overMark := rfl
  decoder := rfl
  sideA := rfl
  sideB := rfl
  declared := rfl
  volume := rfl
  prices := rfl
  slots := rfl
  copy1 := rfl
  copy2 := rfl
  totals := rfl
  wire := rfl
  consecutive := rfl
  total := rfl
  latch := fun _ => rfl
  bounds := fun h => ⟨h.queue, claimsBounded_filter _ h.claims, h.store, h.reservation⟩
  ramp := id

/-- A draw claim behind an open valve that a walk drops is on the list of the lost ones. -/
theorem bcuWalk_draw {b c : Bank} {last : Option ViewClaim} {n : Node} (hB : n.Bounds) (h : n.drawClaimed c) :
    (bcuWalk b last n).1.drawClaimed c ∨ c = b ∧ .draw ∈ (bcuWalk b last n).2 := by
  by_cases ho : (n.fcu.vb.get c).opened = true
  · obtain ⟨o, hm, hb, hk, hs⟩ := (drawHeld_iff hB.claims.2.2 c).mp (h ho)
    cases hv : o.view n.stc.node with
    | none =>
      refine .inl fun _ => (drawHeld_iff ((bcuWalk_core b last n).bounds hB).claims.2.2 c).mpr ⟨o, ?_, hb, hk, hs⟩
      refine List.mem_filter.mpr ⟨hm, ?_⟩
      simp [hv]
    | some v =>
      obtain ⟨h1, h2, h3⟩ := OwnClaim.view_eq hv
      by_cases hd : v ∈ n.dropped b last
      · refine .inr ⟨?_, ?_⟩
        · rw [← hb, ← h2]
          exact bankView_bank (mem_walkOrder (mem_walk_dropped hd))
        · refine List.mem_map.mpr ⟨v, List.mem_filter.mpr ⟨hd, by simp [h1]⟩, by rw [h3, hk]⟩
      · refine .inl fun _ => (drawHeld_iff ((bcuWalk_core b last n).bounds hB).claims.2.2 c).mpr ⟨o, ?_, hb, hk, hs⟩
        refine List.mem_filter.mpr ⟨hm, ?_⟩
        simp [hv, hd]
  · exact .inl fun h' => absurd h' ho

theorem bcuWalks_core (bs : List Bank) (n : Node) : KeptCore n (bcuWalks bs n).1 := by
  induction bs generalizing n with
  | nil => exact (Kept.refl n).toKeptCore
  | cons b bs ih => exact (bcuWalk_core b none n).trans (ih _)

theorem bcuWalks_draw {bs : List Bank} {c : Bank} {n : Node} (hB : n.Bounds) (h : n.drawClaimed c) :
    (bcuWalks bs n).1.drawClaimed c ∨ (c, .draw) ∈ (bcuWalks bs n).2 := by
  induction bs generalizing n with
  | nil => exact .inl h
  | cons b bs ih =>
    simp only [bcuWalks, List.mem_append]
    obtain h1 | ⟨rfl, h1⟩ := bcuWalk_draw (b := b) (last := none) hB h
    · obtain h2 | h2 := ih ((bcuWalk_core b none n).bounds hB) h1
      · exact .inl h2
      · exact .inr (.inr h2)
    · exact .inr (.inl (List.mem_map.mpr ⟨_, h1, rfl⟩))

/-- The report of a lost draw claim closes its valve. -/
theorem fcuLost_claimed (b : Bank) {n : Node} (hB : n.Bounds) : (fcuLost b n).drawClaimed b := by
  unfold fcuLost
  have h0 : Kept n (drawValve b false { n with fcu.relOnClose := n.fcu.relOnClose.set b false }) :=
    (shutValve_kept b _).after (fcu_plain rfl rfl)
  have h1 : Kept (drawValve b false { n with fcu.relOnClose := n.fcu.relOnClose.set b false })
      (fcuForsaken b ((drawValve b false { n with fcu.relOnClose := n.fcu.relOnClose.set b false }).onlyIf
        n.fcu.phase.countsCollision rstCollision)) :=
    (fcuForsaken_kept b _).after (.onlyIf fun _ => rstCollision_kept _)
  refine h1.draw (h0.bounds hB) b fun ho => ?_
  simp at ho

theorem reportLost_claimed {p : Bank × ClaimKind} {b : Bank} (hp : p = (b, .draw)) {n : Node} (hB : n.Bounds) :
    (reportLost p.1 p.2 n).drawClaimed b := by
  rw [hp]; exact fcuLost_claimed b hB

theorem reportsLost_kept (ps : List (Bank × ClaimKind)) (n : Node) :
    Kept n (ps.foldl (fun m p => reportLost p.1 p.2 m) n) :=
  .foldl (fun m p => reportLost p.1 p.2 m) (fun m p => reportLost_kept p.1 p.2 m) ps n

theorem reportsLost_claimed {ps : List (Bank × ClaimKind)} {b : Bank} {n : Node} (hB : n.Bounds) (h : (b, .draw) ∈ ps) :
    (ps.foldl (fun m p => reportLost p.1 p.2 m) n).drawClaimed b := by
  induction ps generalizing n with
  | nil => cases h
  | cons p ps ih =>
    have hB' := (reportLost_kept p.1 p.2 n).bounds hB
    obtain h | h := List.mem_cons.mp h
    · exact (reportsLost_kept ps _).draw hB' b (reportLost_claimed h.symm hB)
    · exact ih hB' h

/-- Walks and their reports keep the claims behind open draw valves: a lost claim's valve is commanded closed. -/
theorem walkAndReport_kept (bs : List Bank) (n : Node) : Kept n (walkAndReport bs n) where
  toKeptCore := (bcuWalks_core bs n).trans (reportsLost_kept _ _).toKeptCore
  draw := fun hB b hd => by
    have hB' := (bcuWalks_core bs n).bounds hB
    obtain h | h := bcuWalks_draw (bs := bs) hB hd
    · exact (reportsLost_kept _ _).draw hB' b h
    · exact reportsLost_claimed hB' h

/-- The same of the walk of a claim that has just entered. -/
theorem walkEntry_kept (c : ViewClaim) (n : Node) : Kept n (walkEntry c n) := by
  have he : walkEntry c n = ((bcuWalk c.bank (some c) n).2.map fun k => (c.bank, k)).foldl
      (fun m p => reportLost p.1 p.2 m) (bcuWalk c.bank (some c) n).1 := by
    rw [List.foldl_map]; rfl
  rw [he]
  refine ⟨(bcuWalk_core c.bank (some c) n).trans (reportsLost_kept _ _).toKeptCore, fun hB b hd => ?_⟩
  have hB' := (bcuWalk_core c.bank (some c) n).bounds hB
  obtain h | ⟨rfl, h⟩ := bcuWalk_draw (b := c.bank) (last := some c) hB hd
  · exact (reportsLost_kept _ _).draw hB' b h
  · exact reportsLost_claimed hB' (List.mem_map.mpr ⟨_, h, rfl⟩)

/-! ## Retests and withdrawals (file 04 R71, R80, R81) -/

theorem withdraw_kept {b : Bank} {k : ClaimKind} {n : Node}
    (h : ∀ c ∈ n.bcu.own, c.bank = b → c.kind = k → c.state.isHeld = true → n.Bounds → False) :
    Kept n (bcuWithdraw b k n) := by
  refine Kept.after (queue_kept (n := { n with bcu := n.bcu.without b k }) (queueRemoveClaim_fits b k)) ?_
  refine removal_kept _ ?_
  rintro hB c hc hp hk hs
  simp at hp
  exact (h c hc hp.1 hp.2 hs hB).elim

/-- A claim that is REQUESTED is the only one on its bank of its kind. -/
theorem requested_not_held {n : Node} (hB : n.Bounds) {c o : OwnClaim} (hc : c ∈ n.bcu.own) (hr : c.state = .requested)
    (ho : o ∈ n.bcu.own) (hb : o.bank = c.bank) (hk : o.kind = c.kind) : o.state.isHeld = false := by
  have : o = c := List.inj_on_of_nodup_map hB.claims.2.2 ho hc (by rw [hb, hk])
  rw [this, hr]; rfl

theorem retestOne_kept {c : OwnClaim} (hr : c.state = .requested) (n : Node) : Kept n (retestOne c n) := by
  unfold retestOne
  split
  · rename_i h
    refine (reportDenied_kept _ _ _).after (withdraw_kept fun o ho hb hk hs hB => ?_)
    rw [requested_not_held hB (by simpa using h.1) hr ho hb hk] at hs
    cases hs
  · exact .refl n

theorem foldl_kept {α : Type} {f : Node → α → Node} {xs : List α} (hf : ∀ x ∈ xs, ∀ m, Kept m (f m x)) (n : Node) :
    Kept n (xs.foldl f n) := by
  induction xs generalizing n with
  | nil => exact .refl n
  | cons x xs ih =>
    exact (hf x (List.mem_cons_self ..) n).trans (ih (fun y hy => hf y (List.mem_cons_of_mem _ hy)) _)

theorem retest_kept (bs : List Bank) (n : Node) : Kept n (retest bs n) := by
  refine foldl_kept (fun c hc m => retestOne_kept ?_ m) n
  simp only [List.mem_filter, Bool.and_eq_true, decide_eq_true_eq] at hc
  exact hc.2.1

theorem claimEntered_kept (c : ViewClaim) (n : Node) : Kept n (claimEntered c n) :=
  (retest_kept _ _).after (walkEntry_kept c n)

theorem viewChanged_kept (bs : List Bank) (n : Node) : Kept n (viewChanged bs n) :=
  (retest_kept bs _).after (walkAndReport_kept bs n)

theorem bankUnavailable_kept (b : Bank) (n : Node) : Kept n (bankUnavailable b n) :=
  foldl_kept (fun o _ m => reportUnavailable_kept o.bank o.kind m) n

theorem bcuConflict_kept (n : Node) : Kept n (bcuConflict n) := by
  refine foldl_kept (fun o ho m => .onlyIf fun hm => ?_) n
  simp only [List.mem_filter, decide_eq_true_eq] at ho
  refine (reportDenied_kept _ _ _).after (withdraw_kept fun c hc hb hk hs hB => ?_)
  rw [requested_not_held hB (by simpa using hm) ho.2 hc hb hk] at hs
  cases hs

/-! ## Every claim dropped (file 04 R80) -/

theorem fcuDropped_claimed (b : Bank) (n : Node) : (fcuDropped b n).drawClaimed b := by
  intro h
  have hv : ∀ m : Node, (flowNeedsSource m).fcu.vb = m.fcu.vb := by
    intro m
    unfold flowNeedsSource
    split <;> rfl
  simp [fcuDropped, hv] at h

theorem reportsDropped_kept (os : List OwnClaim) (n : Node) :
    Kept n (os.foldl (fun m o => reportDropped o.bank o.kind m) n) :=
  foldl_kept (fun o _ m => reportDropped_kept o.bank o.kind m) n

theorem reportsDropped_claimed {os : List OwnClaim} {b : Bank} {n : Node} (hB : n.Bounds)
    (h : ∃ o ∈ os, o.bank = b ∧ o.kind = .draw) :
    (os.foldl (fun m o => reportDropped o.bank o.kind m) n).drawClaimed b := by
  induction os generalizing n with
  | nil => obtain ⟨o, ho, -⟩ := h; cases ho
  | cons p os ih =>
    have hB' := (reportDropped_kept p.bank p.kind n).bounds hB
    obtain ⟨o, ho, hb, hk⟩ := h
    obtain rfl | ho := List.mem_cons.mp ho
    · refine (reportsDropped_kept os _).draw hB' b ?_
      rw [hb, hk]; exact fcuDropped_claimed b n
    · exact ih hB' ⟨o, ho, hb, hk⟩

theorem removeClaims_fits (os : List OwnClaim) {q : List QFrame} (h : queueFits q) :
    queueFits (os.foldl (fun q o => queueRemoveClaim o.bank o.kind q) q) := by
  induction os generalizing q with
  | nil => exact h
  | cons o os ih => exact ih (queueRemoveClaim_fits _ _ h)

theorem bcuDropAll_kept (n : Node) : Kept n (bcuDropAll n) where
  toKeptCore := by
    refine KeptCore.trans ?_ (reportsDropped_kept n.bcu.own _).toKeptCore
    constructor <;> first
      | rfl
      | exact fun _ => rfl
      | exact fun h => ⟨removeClaims_fits _ h.queue, by simp [Node.claimsBounded, Bcu.count], h.store, h.reservation⟩
      | exact fun h => h
  draw := fun hB b hd => by
    have hB' : ({ n with
        bcu.own := []
        liu.queue := (n.bcu.own.foldl (fun q o => queueRemoveClaim o.bank o.kind q) n.liu.queue) } : Node).Bounds :=
      ⟨removeClaims_fits _ hB.queue, by simp [Node.claimsBounded, Bcu.count], hB.store, hB.reservation⟩
    by_cases ho : (n.fcu.vb.get b).opened = true
    · obtain ⟨o, hm, hb, hk, -⟩ := (drawHeld_iff hB.claims.2.2 b).mp (hd ho)
      exact reportsDropped_claimed hB' ⟨o, hm, hb, hk⟩
    · exact (reportsDropped_kept n.bcu.own _).draw hB' b fun h => absurd h ho

/-! ## The loop and the conflict -/

theorem tripEvent_kept (n : Node) : Kept n (tripEvent n) := (fcuTrip_kept _).after (ccuStop_kept n)

theorem loopUpdate_kept (n : Node) : Kept n (loopUpdate n) := by
  have h1 : ∀ l, Kept n { n with isc.loop := l } := fun l => .alike (by constructor <;> rfl)
  unfold loopUpdate
  split
  · split
    · exact .refl n
    · exact (tripEvent_kept _).after (h1 _)
  · split
    · exact h1 _
    · exact .refl n

/-- A trip request keeps a latch that is set, and sets a clear one (file 01 R10). -/
theorem tripRequest_kept (c : LatchCause) (n : Node) : Kept n (tripRequest c n) := by
  unfold tripRequest
  split
  · exact .refl n
  · rename_i h
    refine (loopUpdate_kept _).after ?_
    exact
      { now := rfl, stc := rfl, channels := rfl, inputs := rfl, cycle := rfl, pendingCycle := rfl, gridNext := rfl
        overMark := rfl, decoder := rfl, sideA := rfl, sideB := rfl, declared := rfl, volume := rfl, prices := rfl, slots := rfl, copy1 := rfl, copy2 := rfl, totals := rfl
        wire := rfl, consecutive := rfl, total := rfl
        latch := fun h' => by rw [h] at h'; cases h'
        bounds := bounds_congr id rfl rfl rfl id id
        draw := fun _ _ x => x
        ramp := id }

/-! ## Peer Table (file 05) -/

theorem ptb_kept {n : Node} {t : Ptb} : Kept n { n with ptb := t } := .alike (by constructor <;> rfl)

theorem handHeat_kept (a b : Option Peer) (n : Node) : Kept n (handHeat a b n) :=
  Kept.after (.onlyIf fun _ => hsuOverCommit_kept _) (.onlyIf fun _ => hsuDecrease_kept n)

theorem handLatch_kept (b : Bool) (n : Node) : Kept n (handLatch b n) := .onlyIf fun _ => ccuStop_kept n

theorem ptbStatus_kept (x : Nat) (f : StatusFields) (n : Node) : Kept n (ptbStatus x f n) :=
  (handLatch_kept _ _).after ((handHeat_kept _ _ _).after ((viewChanged_kept _ _).after ptb_kept))

theorem ptbClaim_kept (x : Nat) (b : Bank) (k : ClaimKind) (n : Node) : Kept n (ptbClaim x b k n) := by
  unfold ptbClaim
  split
  · exact .refl n
  · split
    · exact .refl n
    · exact (claimEntered_kept _ _).after ptb_kept

theorem ptbRelease_kept (x : Nat) (b : Bank) (k : ClaimKind) (n : Node) : Kept n (ptbRelease x b k n) := by
  unfold ptbRelease
  split
  · exact .refl n
  · exact ptb_kept

theorem ptbHeat_kept (x : Nat) (f : HeatFields) (n : Node) : Kept n (ptbHeat x f n) := by
  unfold ptbHeat
  split
  · exact .refl n
  · exact (handHeat_kept _ _ _).after ptb_kept

theorem ptbStale_kept (x : Nat) (n : Node) : Kept n (ptbStale x n) := by
  unfold ptbStale
  split
  · exact .refl n
  · split
    · exact .refl n
    · exact (handHeat_kept _ _ _).after ptb_kept

theorem ptbForget_kept (x : Nat) (n : Node) : Kept n (ptbForget x n) := by
  unfold ptbForget
  split
  · exact .refl n
  · split
    · exact .refl n
    · exact (handHeat_kept _ _ _).after ptb_kept

/-! ## Own claims on the line (file 04 R72, R73, R74) -/

/-- The state of an own claim changes on the list; a HELD one stays HELD. -/
theorem ownMap_kept {n : Node} (g : OwnClaim → OwnClaim) (hb : ∀ c, (g c).bank = c.bank) (hk : ∀ c, (g c).kind = c.kind)
    (hs : ∀ c, c.state.isHeld = true → (g c).state.isHeld = true) : Kept n { n with bcu.own := n.bcu.own.map g } := by
  have hc : n.claimsBounded → ({ n with bcu.own := n.bcu.own.map g } : Node).claimsBounded := by
    rintro ⟨h1, h2, h3⟩
    simp only [Node.claimsBounded, Bcu.count, List.filter_map, List.length_map, Function.comp_def, hb, hk,
      List.map_map] at h1 h2 h3 ⊢
    exact ⟨h1, h2, h3⟩
  refine own_kept hc fun hB b hd ho => ?_
  obtain ⟨c, hm, h1, h2, h3⟩ := (drawHeld_iff hB.claims.2.2 b).mp (hd ho)
  exact (drawHeld_iff (hc hB.claims).2.2 b).mpr
    ⟨g c, List.mem_map.mpr ⟨c, hm, rfl⟩, (hb c).trans h1, (hk c).trans h2, hs c h3⟩

theorem claimAnnounced_kept (b : Bank) (k : ClaimKind) (n : Node) : Kept n (claimAnnounced b k n) := by
  refine (walkEntry_kept _ _).after (ownMap_kept _ ?_ ?_ ?_)
  · intro c; split <;> rfl
  · intro c; split <;> rfl
  · intro c hc
    split
    · rename_i h; rw [h.2.2] at hc; cases hc
    · exact hc

theorem settleExpiry_kept (b : Bank) (k : ClaimKind) (n : Node) : Kept n (settleExpiry b k n) := by
  unfold settleExpiry
  split
  · exact .refl n
  · refine (reportHeld_kept _ _ _).after (ownMap_kept _ ?_ ?_ ?_)
    · intro c; split <;> rfl
    · intro c; split <;> rfl
    · intro c hc
      split
      · rfl
      · exact hc

theorem dropReport_kept (b : FrameBody) (n : Node) : Kept n (dropReport b n) := by
  unfold dropReport
  split
  · split
    · rename_i bank k h
      refine (reportDenied_kept _ _ _).after (removal_kept _ fun hB c hc hp hk hs => ?_)
      cases hf : n.bcu.find bank k with
      | none => rw [hf] at h; cases h
      | some o =>
        rw [hf] at h
        simp at h hp
        have hfo := List.find?_some hf
        simp at hfo
        rw [requested_not_held hB (List.mem_of_find?_eq_some hf) h hc (hp.1.trans hfo.1.symm)
          (hp.2.trans hfo.2.symm)] at hs
        cases hs
    · exact .refl n
  · exact hsu_kept id
  · exact .refl n

end Sys2Proof.Machine
end

