-- ==== Sys2Proof/Laws/KeptCommands.lean ====
section
/-! SUPPORT. What each command keeps: the items a command may change are listed, everything else of `Kept` stays. -/

namespace Sys2Proof.Machine

/-- What a command may change of the things that most commands keep. -/
inductive Item where
  | phase | conflict | scanning | channels | inputs | mark | sides | decoder | prices | store | wire | latch
deriving DecidableEq

/-- A command that changes only the items listed, of those that `Kept` speaks of. -/
structure KeptBut (x : List Item) (n m : Node) : Prop where
  now : m.now = n.now
  cfg : m.stc.cfg = n.stc.cfg
  number : m.stc.node = n.stc.node
  hoseCode : m.stc.hoseCode = n.stc.hoseCode
  startedAt : m.stc.startedAt = n.stc.startedAt
  causes : m.stc.causes = n.stc.causes
  phase : .phase ∉ x → m.stc.phase = n.stc.phase ∧ m.stc.phaseSince = n.stc.phaseSince
  conflict : .conflict ∉ x → m.stc.conflict = n.stc.conflict
  scanning : .scanning ∉ x → m.isc.cycle = n.isc.cycle ∧ m.isc.pendingCycle = n.isc.pendingCycle ∧
    m.isc.gridNext = n.isc.gridNext
  channels : .channels ∉ x → m.isc.channels = n.isc.channels
  inputs : .inputs ∉ x → m.isc.inputs = n.isc.inputs
  mark : .mark ∉ x → m.isc.overMark = n.isc.overMark
  sides : .sides ∉ x → m.vlr.sideA = n.vlr.sideA ∧ m.vlr.sideB = n.vlr.sideB ∧ m.vlr.declared = n.vlr.declared ∧
    m.vlr.volume = n.vlr.volume
  decoder : .decoder ∉ x → m.vlr.decoder = n.vlr.decoder
  prices : .prices ∉ x → m.mpu.prices = n.mpu.prices
  store : .store ∉ x → m.rst.slots = n.rst.slots ∧ m.rst.copy1 = n.rst.copy1 ∧ m.rst.copy2 = n.rst.copy2
  wire : .wire ∉ x → m.liu.wire = n.liu.wire ∧ m.liu.consecutive = n.liu.consecutive ∧ m.liu.total = n.liu.total
  latch : .latch ∉ x → n.isc.latch.isSome = true → m.isc.latch = n.isc.latch
  bounds : n.Bounds → m.Bounds
  draw : n.Bounds → ∀ b, n.drawClaimed b → m.drawClaimed b
  ramp : n.rampBounded → m.rampBounded

theorem Kept.but {n m : Node} (h : Kept n m) (x : List Item) : KeptBut x n m where
  now := h.now
  cfg := by rw [h.stc]
  number := by rw [h.stc]
  hoseCode := by rw [h.stc]
  startedAt := by rw [h.stc]
  causes := by rw [h.stc]
  phase := fun _ => by rw [h.stc]; exact ⟨rfl, rfl⟩
  conflict := fun _ => by rw [h.stc]
  scanning := fun _ => ⟨h.cycle, h.pendingCycle, h.gridNext⟩
  channels := fun _ => h.channels
  inputs := fun _ => h.inputs
  mark := fun _ => h.overMark
  sides := fun _ => ⟨h.sideA, h.sideB, h.declared, h.volume⟩
  decoder := fun _ => h.decoder
  prices := fun _ => h.prices
  store := fun _ => ⟨h.slots, h.copy1, h.copy2⟩
  wire := fun _ => ⟨h.wire, h.consecutive, h.total⟩
  latch := fun _ => h.latch
  bounds := h.bounds
  draw := h.draw
  ramp := h.ramp

namespace KeptBut

variable {x : List Item} {n k m : Node}

theorem refl (x : List Item) (n : Node) : KeptBut x n n := (Kept.refl n).but x

theorem trans (h : KeptBut x n k) (g : KeptBut x k m) : KeptBut x n m where
  now := g.now.trans h.now
  cfg := g.cfg.trans h.cfg
  number := g.number.trans h.number
  hoseCode := g.hoseCode.trans h.hoseCode
  startedAt := g.startedAt.trans h.startedAt
  causes := g.causes.trans h.causes
  phase := fun y => ⟨(g.phase y).1.trans (h.phase y).1, (g.phase y).2.trans (h.phase y).2⟩
  conflict := fun y => (g.conflict y).trans (h.conflict y)
  scanning := fun y => ⟨(g.scanning y).1.trans (h.scanning y).1, (g.scanning y).2.1.trans (h.scanning y).2.1,
    (g.scanning y).2.2.trans (h.scanning y).2.2⟩
  channels := fun y => (g.channels y).trans (h.channels y)
  inputs := fun y => (g.inputs y).trans (h.inputs y)
  mark := fun y => (g.mark y).trans (h.mark y)
  sides := fun y => ⟨(g.sides y).1.trans (h.sides y).1, (g.sides y).2.1.trans (h.sides y).2.1,
    (g.sides y).2.2.1.trans (h.sides y).2.2.1, (g.sides y).2.2.2.trans (h.sides y).2.2.2⟩
  decoder := fun y => (g.decoder y).trans (h.decoder y)
  prices := fun y => (g.prices y).trans (h.prices y)
  store := fun y => ⟨(g.store y).1.trans (h.store y).1, (g.store y).2.1.trans (h.store y).2.1,
    (g.store y).2.2.trans (h.store y).2.2⟩
  wire := fun y => ⟨(g.wire y).1.trans (h.wire y).1, (g.wire y).2.1.trans (h.wire y).2.1,
    (g.wire y).2.2.trans (h.wire y).2.2⟩
  latch := fun y z => (g.latch y (by rw [h.latch y z]; exact z)).trans (h.latch y z)
  bounds := fun y => g.bounds (h.bounds y)
  draw := fun y b z => g.draw (h.bounds y) b (h.draw y b z)
  ramp := fun y => g.ramp (h.ramp y)

theorem after (g : KeptBut x k m) (h : KeptBut x n k) : KeptBut x n m := h.trans g

theorem onlyIf {c : Bool} {f : Node → Node} (h : c = true → KeptBut x n (f n)) : KeptBut x n (n.onlyIf c f) := by
  cases c
  · exact refl x n
  · exact h rfl

end KeptBut

/-- An operation that keeps everything, after a change of listed items. -/
theorem Kept.following {x : List Item} {n k m : Node} (g : Kept k m) (h : KeptBut x n k) : KeptBut x n m :=
  h.trans (g.but x)

/-- A change of listed items that touches no queue, claim, store, reservation, valve or target pressure. -/
theorem KeptBut.plain {x : List Item} {n m : Node} (now : m.now = n.now := by rfl)
    (cfg : m.stc.cfg = n.stc.cfg := by rfl) (number : m.stc.node = n.stc.node := by rfl)
    (hoseCode : m.stc.hoseCode = n.stc.hoseCode := by rfl)
    (startedAt : m.stc.startedAt = n.stc.startedAt := by rfl) (causes : m.stc.causes = n.stc.causes := by rfl)
    (phase : .phase ∈ x ∨ m.stc.phase = n.stc.phase ∧ m.stc.phaseSince = n.stc.phaseSince :=
      by first | exact .inl (by decide) | exact .inr ⟨rfl, rfl⟩)
    (conflict : .conflict ∈ x ∨ m.stc.conflict = n.stc.conflict :=
      by first | exact .inl (by decide) | exact .inr rfl)
    (scanning : .scanning ∈ x ∨ m.isc.cycle = n.isc.cycle ∧ m.isc.pendingCycle = n.isc.pendingCycle ∧
      m.isc.gridNext = n.isc.gridNext := by first | exact .inl (by decide) | exact .inr ⟨rfl, rfl, rfl⟩)
    (channels : .channels ∈ x ∨ m.isc.channels = n.isc.channels :=
      by first | exact .inl (by decide) | exact .inr rfl)
    (inputs : .inputs ∈ x ∨ m.isc.inputs = n.isc.inputs := by first | exact .inl (by decide) | exact .inr rfl)
    (mark : .mark ∈ x ∨ m.isc.overMark = n.isc.overMark := by first | exact .inl (by decide) | exact .inr rfl)
    (sides : .sides ∈ x ∨ m.vlr.sideA = n.vlr.sideA ∧ m.vlr.sideB = n.vlr.sideB ∧
      m.vlr.declared = n.vlr.declared ∧ m.vlr.volume = n.vlr.volume :=
      by first | exact .inl (by decide) | exact .inr ⟨rfl, rfl, rfl, rfl⟩)
    (decoder : .decoder ∈ x ∨ m.vlr.decoder = n.vlr.decoder := by first | exact .inl (by decide) | exact .inr rfl)
    (prices : .prices ∈ x ∨ m.mpu.prices = n.mpu.prices := by first | exact .inl (by decide) | exact .inr rfl)
    (wire : .wire ∈ x ∨ m.liu.wire = n.liu.wire ∧ m.liu.consecutive = n.liu.consecutive ∧ m.liu.total = n.liu.total :=
      by first | exact .inl (by decide) | exact .inr ⟨rfl, rfl, rfl⟩)
    (latch : .latch ∈ x ∨ m.isc.latch = n.isc.latch := by first | exact .inl (by decide) | exact .inr rfl)
    (rst : m.rst = n.rst := by rfl) (queue : m.liu.queue = n.liu.queue := by rfl)
    (own : m.bcu.own = n.bcu.own := by rfl) (reservation : m.hsu.rOwn = n.hsu.rOwn := by rfl)
    (valves : m.fcu.vb = n.fcu.vb := by rfl) (pRamp : m.fcu.pRamp = n.fcu.pRamp := by rfl) :
    KeptBut x n m where
  now := now
  cfg := cfg
  number := number
  hoseCode := hoseCode
  startedAt := startedAt
  causes := causes
  phase := fun y => phase.resolve_left y
  conflict := fun y => conflict.resolve_left y
  scanning := fun y => scanning.resolve_left y
  channels := fun y => channels.resolve_left y
  inputs := fun y => inputs.resolve_left y
  mark := fun y => mark.resolve_left y
  sides := fun y => sides.resolve_left y
  decoder := fun y => decoder.resolve_left y
  prices := fun y => prices.resolve_left y
  store := fun _ => by rw [rst]; exact ⟨rfl, rfl, rfl⟩
  wire := fun y => wire.resolve_left y
  latch := fun y _ => latch.resolve_left y
  bounds := bounds_congr (fun h => by rw [Node.queueBounded, queue]; exact h) own (by rw [rst]) (by rw [rst])
    (fun h => by rw [rst]; exact h) (fun h => by rw [Node.reservationLegal, reservation]; exact h)
  draw := fun _ _ => drawClaimed_congr valves own
  ramp := fun h => by rw [Node.rampBounded, pRamp, cfg]; exact h

/-! ## How a command acts -/

theorem act_next {f : Node → Node} {s t : State} (e : s.act f = .next t) : t = { s with node := f s.node } := by
  cases e; rfl

/-- A reception changes the node by its effect or not at all. -/
theorem receive_next {want : Arrival} {bits : Bits} {act : LineFrame → Node → Node} {s t : State}
    (e : s.receive want bits act = .next t) :
    t = s ∨ ∃ f, receive bits = some f ∧ arrivalOf s.node.stc.node f = want ∧ t = { s with node := act f s.node } := by
  unfold State.receive at e
  split at e
  · cases e; exact .inl rfl
  · split at e
    · cases e; exact .inl rfl
    · split at e
      · cases e
        exact .inr ⟨_, by assumption, by assumption, rfl⟩
      · cases e

theorem onPeer_kept {act : LineFrame → Node → Node} (h : ∀ f n, Kept n (act f n)) (f : LineFrame) (n : Node) :
    Kept n (onPeer act f n) := .onlyIf fun _ => h f n

theorem onCommand_but {x : List Item} {act : LineFrame → Node → Node} (h : ∀ f n, KeptBut x n (act f n)) (z : Bool)
    (f : LineFrame) (n : Node) : KeptBut x n (onCommand z act f n) := by
  unfold onCommand
  split
  · split
    · exact (answer_kept _ _ _ _ n).but x
    · exact h f n
  · split <;> exact (answer_kept _ _ _ _ n).but x
  · exact .refl x n

/-! ## Start-up -/

theorem enterPhase_but (p : StartPhase) (n : Node) : KeptBut [.phase] n (n.enterPhase p) := .plain

theorem KeptBut.weaken {x y : List Item} {n m : Node} (h : KeptBut x n m) (hxy : ∀ i ∈ x, i ∈ y) : KeptBut y n m where
  now := h.now
  cfg := h.cfg
  number := h.number
  hoseCode := h.hoseCode
  startedAt := h.startedAt
  causes := h.causes
  phase := fun z => h.phase fun w => z (hxy _ w)
  conflict := fun z => h.conflict fun w => z (hxy _ w)
  scanning := fun z => h.scanning fun w => z (hxy _ w)
  channels := fun z => h.channels fun w => z (hxy _ w)
  inputs := fun z => h.inputs fun w => z (hxy _ w)
  mark := fun z => h.mark fun w => z (hxy _ w)
  sides := fun z => h.sides fun w => z (hxy _ w)
  decoder := fun z => h.decoder fun w => z (hxy _ w)
  prices := fun z => h.prices fun w => z (hxy _ w)
  store := fun z => h.store fun w => z (hxy _ w)
  wire := fun z => h.wire fun w => z (hxy _ w)
  latch := fun z => h.latch fun w => z (hxy _ w)
  bounds := h.bounds
  draw := h.draw
  ramp := h.ramp

theorem beginStatusGrid_kept (n : Node) : Kept n (beginStatusGrid n) :=
  (offer_kept _ _).after (.alike (by constructor <;> rfl))

theorem scanning_but {n : Node} {i : Isc} (h : i.latch = n.isc.latch) (h1 : i.channels = n.isc.channels)
    (h2 : i.inputs = n.isc.inputs) (h3 : i.overMark = n.isc.overMark) : KeptBut [.scanning] n { n with isc := i } :=
  .plain (latch := .inr h) (channels := .inr h1) (inputs := .inr h2) (mark := .inr h3)

theorem startCycle_but (n : Node) : KeptBut [.scanning] n (startCycle n) := scanning_but rfl rfl rfl rfl

theorem beginWarmUp_but (n : Node) : KeptBut [.phase, .scanning] n (beginWarmUp n) :=
  KeptBut.after ((startCycle_but _).weaken (by decide)) (KeptBut.after
    (KeptBut.weaken (x := [.scanning]) (scanning_but rfl rfl rfl rfl) (by decide))
    ((enterPhase_but .warmUp n).weaken (by decide)))

theorem decoder_but {n : Node} {d : Option Decoder} : KeptBut [.decoder] n { n with vlr.decoder := d } := .plain

theorem beginRun_but (n : Node) : KeptBut [.phase, .decoder] n (beginRun n) := by
  have h1 : ∀ (m : Node) (a b : Nat), Kept m { m with liu.quietSince := some a, ccu.surveyNext := some b } :=
    fun m a b => .alike (by constructor <;> rfl)
  exact (beginStatusGrid_kept _).following ((decoder_but.weaken (by decide)).after
    ((h1 _ _ _).following ((enterPhase_but .run n).weaken (by decide))))

/-! ## Input scanner -/

theorem gridInstant_but (n : Node) : KeptBut [.scanning] n (gridInstant n) := by
  unfold gridInstant
  dsimp only
  split
  · exact scanning_but rfl rfl rfl rfl
  · exact (startCycle_but _).after (scanning_but rfl rfl rfl rfl)

theorem exchangeEnded_but (n : Node) : KeptBut [.scanning] n (exchangeEnded n) := by
  unfold exchangeEnded
  split
  · exact .refl _ n
  · split
    · split
      · exact (startCycle_but _).after (scanning_but rfl rfl rfl rfl)
      · exact scanning_but rfl rfl rfl rfl
    · exact scanning_but rfl rfl rfl rfl

theorem mark_but {n : Node} {h : Bool} : KeptBut [.mark] n { n with isc.overMark := h } := .plain

theorem sampleP_H_but (v : Nat) (n : Node) : KeptBut [.mark] n (sampleP_H v n) := by
  unfold sampleP_H
  dsimp only
  refine Kept.following (fcuVentSample_kept v _) (Kept.following (fcuAwaited_kept _) ?_)
  refine Kept.following (.onlyIf fun _ => (endTest_kept _).after (tripRequest_kept _ _)) ?_
  refine Kept.following (fcuWindow_kept v _) (Kept.following (mpuProject_kept _) ?_)
  exact Kept.following (.onlyIf fun _ => tripRequest_kept _ _) mark_but

theorem sampleP_B_kept (b : Bank) (v : Nat) (n : Node) : Kept n (sampleP_B b v n) := by
  unfold sampleP_B
  split
  · exact ccuLeaveRefill_kept n
  · exact .refl n

theorem sampleEffect_but (c : Channel) (v : Nat) (n : Node) : KeptBut [.mark] n (sampleEffect c v n) := by
  cases c
  case pH => exact sampleP_H_but v n
  case tD => exact (mpuProject_kept n).but _
  case pB b => exact (sampleP_B_kept b v n).but _
  case tC => exact (Kept.onlyIf fun _ => ccuLockout_kept n).but _
  case tK => exact (hsuCapacity_kept n).but _
  all_goals exact .refl _ n

theorem failedEffect_kept (c : Channel) (r : ChannelRec) (n : Node) : Kept n (failedEffect c r n) := by
  cases c
  case pB b => exact .onlyIf fun _ => bankUnavailable_kept b n
  case pC => exact .onlyIf fun _ => ccuLockout_kept n
  case tC => exact .onlyIf fun _ => ccuLockout_kept n
  case tK => exact hsuCapacity_kept n
  all_goals exact .refl n

theorem channels_but {n : Node} {r : Channels} : KeptBut [.channels, .mark] n { n with isc.channels := r } := .plain

theorem judgeAnswer_but (c : Channel) (i : Nat) (n : Node) : KeptBut [.channels, .mark] n (judgeAnswer c i n) := by
  unfold judgeAnswer
  dsimp only
  split
  · exact ((sampleEffect_but c _ _).weaken (by decide)).after channels_but
  · exact (failedEffect_kept c _ _).following channels_but

theorem converterAnswer_but (e i : Nat) (n : Node) :
    KeptBut [.scanning, .channels, .mark] n (converterAnswer e i n) := by
  unfold converterAnswer
  split
  · exact .refl _ n
  · split
    · exact .refl _ n
    · split
      · exact ((exchangeEnded_but _).weaken (by decide)).after
          (.onlyIf fun _ => (judgeAnswer_but _ i n).weaken (by decide))
      · exact .refl _ n

theorem channelAged_kept (c : Channel) (n : Node) : Kept n (channelAged c n) := by
  cases c
  case pC => exact .onlyIf fun _ => ccuLockout_kept n
  case tC => exact .onlyIf fun _ => ccuLockout_kept n
  all_goals exact .refl n

theorem edgeEvent_but (i : Input) (l : Bool) (n : Node) : KeptBut [.sides, .decoder] n (edgeEvent i l n) := by
  have hv : ∀ v, KeptBut [.sides, .decoder] n { n with vlr := v } := by
    intro v
    exact .plain
  cases i <;> cases l
  case start.true => exact (Kept.onlyIf fun _ => startFill_kept n).but _
  case stop.true => exact (fcuStop_kept _ n).but _
  case coupled.true => exact hv _
  case coupled.false => exact (endTest_kept _).following (hv _)
  case holstered.true => exact (Kept.onlyIf fun _ => fcuIdle_kept n).but _
  case breakaway.true => exact (endTest_kept n).but _
  all_goals exact .refl _ n

/-- Only a coupling clears the side records. -/
theorem edgeEvent_other (i : Input) (l : Bool) (n : Node) (h : ¬ (i = .coupled ∧ l = true)) :
    KeptBut [.decoder] n (edgeEvent i l n) := by
  cases i <;> cases l
  case start.true => exact (Kept.onlyIf fun _ => startFill_kept n).but _
  case stop.true => exact (fcuStop_kept _ n).but _
  case coupled.true => exact absurd ⟨rfl, rfl⟩ h
  case coupled.false => exact (endTest_kept _).following decoder_but
  case holstered.true => exact (Kept.onlyIf fun _ => fcuIdle_kept n).but _
  case breakaway.true => exact (endTest_kept n).but _
  all_goals exact .refl _ n

theorem levelEffect_kept (i : Input) (l : Bool) (n : Node) : Kept n (levelEffect i l n) := by
  cases i
  case breakaway => exact .onlyIf fun _ => tripRequest_kept _ n
  case loop => exact loopUpdate_kept n
  case motorRun => exact ccuMotorLevel_kept l n
  all_goals exact .refl n

theorem setLevel_but (i : Input) (l : Bool) (n : Node) : KeptBut [.inputs] n (setLevel i l n) := .plain

theorem levelTaken_but (i : Input) (l : Bool) (n : Node) : KeptBut [.inputs, .sides, .decoder] n (levelTaken i l n) := by
  unfold levelTaken
  dsimp only
  split
  · exact .refl _ n
  · exact KeptBut.after (.onlyIf fun _ => (edgeEvent_but i l _).weaken (by decide))
      ((levelEffect_kept i l _).following ((setLevel_but i l n).weaken (by decide)))

theorem levelTaken_other (i : Input) (l : Bool) (n : Node) (h : ¬ (i = .coupled ∧ l = true)) :
    KeptBut [.inputs, .decoder] n (levelTaken i l n) := by
  unfold levelTaken
  dsimp only
  split
  · exact .refl _ n
  · exact KeptBut.after (.onlyIf fun _ => (edgeEvent_other i l _ h).weaken (by decide))
      ((levelEffect_kept i l _).following ((setLevel_but i l n).weaken (by decide)))

theorem recovered_kept (n : Node) : Kept n (recovered n) := by
  unfold recovered
  split
  · split
    · exact .alike (by constructor <;> rfl)
    · exact .refl n
  · exact .refl n

theorem latch_but {n : Node} {l : Option LatchCause} : KeptBut [.latch] n { n with isc.latch := l } := .plain

theorem esdClear_but (f : LineFrame) (n : Node) : KeptBut [.latch] n (esdClear f n) := by
  unfold esdClear
  split
  · exact (answer_kept _ _ _ _ n).but _
  · split
    · exact (answer_kept _ _ _ _ n).but _
    · exact (answer_kept _ _ _ _ _).following ((loopUpdate_kept _).following latch_but)

/-! ## Vehicle link -/

theorem vlr_but {n : Node} {v : Vlr} : KeptBut [.sides, .decoder] n { n with vlr := v } := .plain

theorem takeVehicle_but (p : List Byte) (n : Node) : KeptBut [.sides, .decoder] n (takeVehicle p n) := by
  unfold takeVehicle
  split
  · exact .refl _ n
  · exact (fcuPeak_kept _).following vlr_but

theorem vehicleFrame_but (p : List Byte) (n : Node) : KeptBut [.sides, .decoder] n (vehicleFrame p n) := by
  unfold vehicleFrame
  dsimp only
  split
  · exact .refl _ n
  · split
    · exact vlr_but
    · exact (takeVehicle_but p _).after vlr_but

theorem quietSeen_but (n : Node) : KeptBut [.sides, .decoder] n (quietSeen n) := by
  unfold quietSeen
  dsimp only
  split
  · exact .refl _ n
  · split
    · split
      · exact (takeVehicle_but _ _).after vlr_but
      · exact vlr_but
    · exact vlr_but

theorem risingEdge_but (i : Nat) (n : Node) : KeptBut [.sides, .decoder] n (risingEdge i n) := by
  unfold risingEdge
  dsimp only
  split
  · exact .refl _ n
  · split
    · exact vlr_but
    · split
      · exact vlr_but
      · split
        · exact vlr_but
        · split
          · exact KeptBut.after (n := n) vlr_but (quietSeen_but n)
          · exact vlr_but

/-! ## Claims, conflict, prices -/

theorem conflictBegin_but (n : Node) : KeptBut [.conflict] n (conflictBegin n) := by
  have h0 : KeptBut [.conflict] n { n with stc.conflict := true } := by
    exact .plain
  unfold conflictBegin
  dsimp only
  split
  · exact .refl _ n
  · exact (queue_kept conflictQueue_fits).following
      ((ccuStop_kept _).following ((bcuConflict_kept _).following ((authCancel_kept _).following h0)))

theorem price_but (f : LineFrame) (n : Node) : KeptBut [.prices] n (price f n) := by
  unfold price
  dsimp only
  split
  · exact (answer_kept _ _ _ _ n).but _
  · split
    · exact (answer_kept _ _ _ _ n).but _
    · refine (answer_kept _ _ _ _ _).following ?_
      exact .plain

/-! ## Record store -/

/-- A write to the store that keeps its shape. -/
theorem store_but {n : Node} {r : Rst} (hs : r.slots.length = n.rst.slots.length) (hr : r.requests = n.rst.requests)
    (ht : n.rst.slots.length = 64 → n.rst.table.length = 0 ∨ n.rst.table.length = 64 →
      r.table.length = 0 ∨ r.table.length = 64) : KeptBut [.store] n { n with rst := r } where
  now := rfl
  cfg := rfl
  number := rfl
  hoseCode := rfl
  startedAt := rfl
  causes := rfl
  phase := fun _ => ⟨rfl, rfl⟩
  conflict := fun _ => rfl
  scanning := fun _ => ⟨rfl, rfl, rfl⟩
  channels := fun _ => rfl
  inputs := fun _ => rfl
  mark := fun _ => rfl
  sides := fun _ => ⟨rfl, rfl, rfl, rfl⟩
  decoder := fun _ => rfl
  prices := fun _ => rfl
  store := fun h => absurd (List.mem_cons_self ..) h
  wire := fun _ => ⟨rfl, rfl, rfl⟩
  latch := fun _ _ => rfl
  bounds := fun h => ⟨h.queue, h.claims, ⟨hs.trans h.store.1, ht h.store.1 h.store.2.1, by rw [hr]; exact h.store.2.2⟩,
    h.reservation⟩
  draw := fun _ _ x => x
  ramp := id

@[simp] theorem writeTotals_slots (r : Rst) (s : Sums) (l : Nat) : (r.writeTotals s l).slots = r.slots := rfl

@[simp] theorem writeTotals_table (r : Rst) (s : Sums) (l : Nat) : (r.writeTotals s l).table = r.table := rfl

@[simp] theorem writeTotals_requests (r : Rst) (s : Sums) (l : Nat) : (r.writeTotals s l).requests = r.requests := rfl

@[simp] theorem writeTotals_copy1 (r : Rst) (s : Sums) (l : Nat) :
    (r.writeTotals s l).copy1 = ⟨s, l, (r.totals.writes + 1) % 65536, totalsCrcOf s l ((r.totals.writes + 1) % 65536)⟩ :=
  rfl

@[simp] theorem writeTotals_copy2 (r : Rst) (s : Sums) (l : Nat) : (r.writeTotals s l).copy2 = (r.writeTotals s l).copy1 :=
  rfl

theorem commitCreate_but (im : Image) (n : Node) : KeptBut [.store] n { n with rst := n.rst.commitCreate im } :=
  store_but (by simp [Rst.commitCreate, Rst.putSlot]) rfl fun _ h => h

theorem commitCheckpoint_but (im : Image) (n : Node) : KeptBut [.store] n { n with rst := n.rst.commitCheckpoint im } :=
  store_but (by simp [Rst.commitCheckpoint, Rst.putSlot]) rfl fun _ h => h

theorem commitClose_but (im : Image) (n : Node) : KeptBut [.store] n { n with rst := n.rst.commitClose im } :=
  store_but (by simp [Rst.commitClose, Rst.putSlot]) rfl fun _ h => by simpa [Rst.commitClose] using h

theorem commitCreep_but (m : Nat) (n : Node) : KeptBut [.store] n { n with rst := n.rst.commitCreep m } :=
  store_but rfl rfl fun _ h => h

theorem commitCollect_but (i x : Nat) (n : Node) : KeptBut [.store] n { n with rst := n.rst.commitCollect i x } :=
  store_but (by simp [Rst.commitCollect]) rfl fun _ h => by simpa [Rst.commitCollect] using h

/-! ## The start-up scan -/

/-- What the scan keeps while it looks at slots: the nonvolatile store and the request list; the table is built over all
slots. -/
structure ScanKept (r q : Rst) : Prop where
  slots : q.slots = r.slots
  copy1 : q.copy1 = r.copy1
  copy2 : q.copy2 = r.copy2
  requests : q.requests = r.requests
  lost : q.lost = r.lost
  totals : q.totals = r.totals
  table : q.table = r.table ∨ q.table = r.slots.map fun s => ⟨s.state, s.txn⟩

theorem scanFinish_kept (r : Rst) : ScanKept r r.scanFinish := by
  unfold Rst.scanFinish
  split
  · exact ⟨rfl, rfl, rfl, rfl, rfl, rfl, .inl rfl⟩
  · exact ⟨rfl, rfl, rfl, rfl, rfl, rfl, .inr rfl⟩

theorem scanSlots_kept (r : Rst) (i : Nat) (ss : List StoredSlot) : ScanKept r (r.scanSlots i ss) := by
  induction ss generalizing i with
  | nil => exact scanFinish_kept r
  | cons s ss ih =>
    unfold Rst.scanSlots
    split
    · exact ⟨rfl, rfl, rfl, rfl, rfl, rfl, .inl rfl⟩
    · split
      · exact ih _
      · exact ih _
      · exact ih _
      · split
        · exact ih _
        · exact ⟨rfl, rfl, rfl, rfl, rfl, rfl, .inl rfl⟩
      · split <;> exact ⟨rfl, rfl, rfl, rfl, rfl, rfl, .inl rfl⟩

theorem scanFrom_kept (r : Rst) (i : Nat) : ScanKept r (r.scanFrom i) := scanSlots_kept r i _

theorem ScanKept.tableLength {r q : Rst} (h : ScanKept r q) (hs : r.slots.length = 64)
    (ht : r.table.length = 0 ∨ r.table.length = 64) : q.table.length = 0 ∨ q.table.length = 64 := by
  obtain h | h := h.table
  · rw [h]; exact ht
  · right; rw [h, List.length_map, hs]

theorem scanBegin_kept (r : Rst) : r.scanBegin.slots = r.slots ∧ r.scanBegin.copy1 = r.copy1 ∧
    r.scanBegin.copy2 = r.copy2 ∧ r.scanBegin.requests = r.requests ∧
    (r.slots.length = 64 → r.table.length = 0 ∨ r.table.length = 64 →
      r.scanBegin.table.length = 0 ∨ r.scanBegin.table.length = 64) := by
  unfold Rst.scanBegin
  split
  · exact ⟨(scanFrom_kept _ 0).slots, (scanFrom_kept _ 0).copy1, (scanFrom_kept _ 0).copy2, (scanFrom_kept _ 0).requests,
      fun a b => (scanFrom_kept { r with totals := r.laterCopy, lost := 0, restarted := false } 0).tableLength a b⟩
  · split
    · exact ⟨rfl, rfl, rfl, rfl, fun _ h => h⟩
    · split
      · exact ⟨rfl, rfl, rfl, rfl, fun _ h => h⟩
      · exact ⟨(scanFrom_kept _ 0).slots, (scanFrom_kept _ 0).copy1, (scanFrom_kept _ 0).copy2,
          (scanFrom_kept _ 0).requests,
          fun a b => (scanFrom_kept { r with totals := .blank, lost := 0, restarted := true } 0).tableLength a b⟩

theorem scanWriteDone_but (n : Node) : KeptBut [.store] n { n with rst := n.rst.scanWriteDone } := by
  have key : ∀ (r q : Rst), ScanKept r q → r.slots.length = n.rst.slots.length → r.requests = n.rst.requests →
      r.table = n.rst.table → KeptBut [.store] n { n with rst := q } := by
    intro r q h h1 h2 h3
    refine store_but (by rw [h.slots, h1]) (by rw [h.requests, h2]) fun a b => ?_
    exact h.tableLength (h1.trans a) (by rw [h3]; exact b)
  unfold Rst.scanWriteDone
  split
  · exact key _ _ (scanFrom_kept _ _) rfl rfl rfl
  · exact key _ _ (scanFrom_kept _ _) (by simp) rfl rfl
  · exact key _ _ (scanFrom_kept _ _) (by simp) rfl rfl
  · split
    · exact .refl _ n
    · exact key _ _ (scanFrom_kept _ _) (by simp [Rst.putSlot]) rfl rfl
  · exact key _ _ (scanFinish_kept _) rfl rfl rfl
  · exact .refl _ n

/-! ## Line -/

/-- The queue, the frame on the wire and the counts of the line change; the queue keeps its bounds. -/
theorem liu_but {n : Node} {l : Liu} (h : queueFits n.liu.queue → queueFits l.queue) :
    KeptBut [.wire] n { n with liu := l } where
  now := rfl
  cfg := rfl
  number := rfl
  hoseCode := rfl
  startedAt := rfl
  causes := rfl
  phase := fun _ => ⟨rfl, rfl⟩
  conflict := fun _ => rfl
  scanning := fun _ => ⟨rfl, rfl, rfl⟩
  channels := fun _ => rfl
  inputs := fun _ => rfl
  mark := fun _ => rfl
  sides := fun _ => ⟨rfl, rfl, rfl, rfl⟩
  decoder := fun _ => rfl
  prices := fun _ => rfl
  store := fun _ => ⟨rfl, rfl, rfl⟩
  wire := fun h => absurd (List.mem_cons_self ..) h
  latch := fun _ _ => rfl
  bounds := bounds_congr h rfl rfl rfl id id
  draw := fun _ _ x => x
  ramp := id

theorem liuAttempt_but (n : Node) : KeptBut [.wire] n (liuAttempt n) := by
  unfold liuAttempt
  split
  · exact .refl _ n
  · rename_i f fs hq
    split
    · refine liu_but fun h => ?_
      rw [hq] at h
      simpa [queueFits] using h
    · exact .refl _ n

theorem statusSent_kept (f : LineFrame) (n : Node) : Kept n (statusSent f n) :=
  (ccuUnhold_kept _).after (.alike (by constructor <;> rfl))

theorem sentEffect_kept (f : QFrame) (w : LineFrame) (n : Node) : Kept n (sentEffect f w n) := by
  unfold sentEffect
  split
  · exact statusSent_kept w n
  · split
    · exact .refl n
    · exact claimAnnounced_kept _ _ n
  · exact .refl n

theorem liuSent_but (n : Node) : KeptBut [.wire] n (liuSent n) := by
  unfold liuSent
  split
  · exact (sentEffect_kept _ _ _).following (liu_but (releaseInPlace_fits _ _))
  · exact .refl _ n

theorem liuYield_but (p : Nat) (n : Node) : KeptBut [.wire] n (liuYield p n) := by
  unfold liuYield
  split
  · split
    · exact liu_but (attemptBack_fits _ _)
    · exact .refl _ n
  · exact .refl _ n

theorem faultCounts_but (n : Node) : KeptBut [.wire] n (faultCounts n) := by
  unfold faultCounts
  split <;> exact liu_but id

theorem liuFault_but (p : Nat) (n : Node) : KeptBut [.wire] n (liuFault p n) := by
  unfold liuFault
  dsimp only
  have hq : ∀ m : Node, (faultCounts m).liu.queue = m.liu.queue := by
    intro m; unfold faultCounts; split <;> rfl
  split
  · split
    · split
      · refine (dropReport_kept _ _).following (KeptBut.after (liu_but fun h => ?_)
          ((faultCounts_but _).after (liu_but id)))
        rw [hq] at h
        exact withoutWire_fits h
      · refine KeptBut.after (liu_but fun h => ?_) ((faultCounts_but _).after (liu_but id))
        rw [hq] at h
        exact attemptBack_fits _ _ h
    · exact .refl _ n
  · exact .refl _ n

end Sys2Proof.Machine
end

