-- ==== Sys2Proof/Laws/KeptExec.lean ====
section
/-! SUPPORT. One lemma for each command: if it answers a next state, only the items listed may have changed of the things
that Laws/KeptCommands.lean speaks of, and the queue stays. -/

namespace Sys2Proof.Machine

theorem act_but {x : List Item} {f : Node → Node} (h : ∀ n, KeptBut x n (f n)) {s t : State} (e : s.act f = .next t) :
    KeptBut x s.node t.node ∧ t.pending = s.pending := by
  cases e; exact ⟨h _, rfl⟩

theorem receive_but {x : List Item} {want : Arrival} {bits : Bits} {act : LineFrame → Node → Node}
    (h : ∀ f n, KeptBut x n (act f n)) {s t : State} (e : s.receive want bits act = .next t) :
    KeptBut x s.node t.node ∧ t.pending = s.pending := by
  obtain rfl | ⟨f, _, _, rfl⟩ := receive_next e
  · exact ⟨.refl _ _, rfl⟩
  · exact ⟨h f _, rfl⟩

theorem kept_but {n m : Node} (h : Kept n m) : KeptBut [] n m := h.but _

theorem alike_but {n m : Node} (h : Alike n m) : KeptBut [] n m := (Kept.alike h).but _

theorem peerAct_but {act : LineFrame → Node → Node} (h : ∀ f n, Kept n (act f n)) (f : LineFrame) (n : Node) :
    KeptBut [] n (onPeer act f n) := (onPeer_kept h f n).but _

theorem beginEqualize_kept (n : Node) : Kept n (beginEqualize n) := fcu_plain rfl rfl

theorem execDiLevelTaken_but (input : Input) (level : Bool) {s t : State} (e : execDiLevelTaken input level s = .next t) :
    KeptBut [.inputs, .sides, .decoder] s.node t.node ∧ t.pending = s.pending := by
  unfold execDiLevelTaken at e
  split at e
  · cases e
  · exact act_but (fun n => levelTaken_but _ _ n) e

/-- Only a coupling clears the side records. -/
theorem execDiLevelTaken_other {input : Input} {level : Bool} (h : ¬ (input = .coupled ∧ level = true)) {s t : State}
    (e : execDiLevelTaken input level s = .next t) :
    KeptBut [.inputs, .decoder] s.node t.node ∧ t.pending = s.pending := by
  unfold execDiLevelTaken at e
  split at e
  · cases e
  · exact act_but (fun n => levelTaken_other _ _ n h) e

theorem execScanWriteComplete_but {s t : State} (e : execScanWriteComplete s = .next t) :
    KeptBut [.store] s.node t.node ∧ t.pending = s.pending := by
  exact act_but (fun n => .onlyIf fun _ => scanWriteDone_but n) e

theorem execStoreScanEnd_but {s t : State} (e : execStoreScanEnd s = .next t) :
    KeptBut [.phase, .scanning] s.node t.node ∧ t.pending = s.pending := by
  exact act_but (fun n => .onlyIf fun _ => beginWarmUp_but n) e

theorem execWarmUpEnd_but {s t : State} (e : execWarmUpEnd s = .next t) :
    KeptBut [.phase] s.node t.node ∧ t.pending = s.pending := by
  exact act_but (fun n => .onlyIf fun _ => enterPhase_but _ n) e

theorem execListenEnd_but {s t : State} (e : execListenEnd s = .next t) :
    KeptBut [.phase, .decoder] s.node t.node ∧ t.pending = s.pending := by
  exact act_but (fun n => .onlyIf fun _ => beginRun_but n) e

theorem execScanGridInstant_but {s t : State} (e : execScanGridInstant s = .next t) :
    KeptBut [.scanning] s.node t.node ∧ t.pending = s.pending := by
  exact act_but (fun n => .onlyIf fun _ => gridInstant_but n) e

theorem execConverterAnswer_but (echo : Nat) (microamps : BitVec 16) {s t : State} (e : execConverterAnswer echo microamps s = .next t) :
    KeptBut [.scanning, .channels, .mark] s.node t.node ∧ t.pending = s.pending := by
  exact act_but (fun n => converterAnswer_but _ _ n) e

theorem execExchangeTimeout_but {s t : State} (e : execExchangeTimeout s = .next t) :
    KeptBut [.scanning] s.node t.node ∧ t.pending = s.pending := by
  exact act_but (fun n => .onlyIf fun _ => exchangeEnded_but n) e

theorem execChannelAgeExpiry_but (channel : Channel) {s t : State} (e : execChannelAgeExpiry channel s = .next t) :
    KeptBut [] s.node t.node ∧ t.pending = s.pending := by
  exact act_but (fun n => kept_but (channelAged_kept _ n)) e

theorem execRecoveryTimerExpiry_but {s t : State} (e : execRecoveryTimerExpiry s = .next t) :
    KeptBut [] s.node t.node ∧ t.pending = s.pending := by
  exact act_but (fun n => kept_but (recovered_kept n)) e

theorem execEsdClear_but (frame : Bits) {s t : State} (e : execEsdClear frame s = .next t) :
    KeptBut [.latch] s.node t.node ∧ t.pending = s.pending := by
  exact receive_but (fun f n => onCommand_but esdClear_but _ f n) e

theorem execVehicleFrame_but (bytes : List Byte) {s t : State} (e : execVehicleFrame bytes s = .next t) :
    KeptBut [.sides, .decoder] s.node t.node ∧ t.pending = s.pending := by
  exact act_but (fun n => vehicleFrame_but _ n) e

theorem execSideSilentExpiry_but (side : Side) {s t : State} (e : execSideSilentExpiry side s = .next t) :
    KeptBut [] s.node t.node ∧ t.pending = s.pending := by
  refine act_but (fun n => ?_) e
  refine .onlyIf fun _ => kept_but ?_
  exact (linkLeft_kept _).after (.alike (by constructor <;> rfl))

theorem execAuthorize_but (frame : Bits) {s t : State} (e : execAuthorize frame s = .next t) :
    KeptBut [] s.node t.node ∧ t.pending = s.pending := by
  refine receive_but (fun f n => onCommand_but (fun f n => Kept.but ?_ _) _ f n) e
  unfold authorize
  dsimp only
  split
  · split
    · exact answer_kept _ _ _ _ _
    · exact (answer_kept _ _ _ _ _).after (.alike (by constructor <;> rfl))
  · split
    · split <;> exact answer_kept _ _ _ _ _
    · exact answer_kept _ _ _ _ _
  · exact answer_kept _ _ _ _ _

theorem execAuthorizationTimeout_but {s t : State} (e : execAuthorizationTimeout s = .next t) :
    KeptBut [] s.node t.node ∧ t.pending = s.pending := by
  refine act_but (fun n => ?_) e
  refine .onlyIf fun _ => kept_but ?_
  exact (authCancel_kept n)

theorem execStop_but (frame : Bits) {s t : State} (e : execStop frame s = .next t) :
    KeptBut [] s.node t.node ∧ t.pending = s.pending := by
  exact receive_but (fun f n => onCommand_but (fun f n => kept_but ((fcuStop_kept _ _).after (answer_kept _ _ _ _ _))) _ f n) e

theorem execValveTravelEnd_but (valve : Valve) {s t : State} (e : execValveTravelEnd valve s = .next t) :
    KeptBut [] s.node t.node ∧ t.pending = s.pending := by
  refine act_but (fun n => .onlyIf fun _ => Kept.but ?_ _) e
  cases valve
  · exact fcuDrawArrived_kept _ n
  · unfold valveArrived ccuRefillArrived
    dsimp only
    split
    · exact (ccuIdleChoice_kept _ _).after ((refillRelease_kept _ _).after ccu_kept)
    · exact ccu_kept
  · unfold valveArrived ccuDirectArrived
    dsimp only
    split
    · exact (fcuDirectReady_kept _).after ccu_kept
    · exact ccu_kept
  · exact fcuVentArrived_kept n

theorem execBankSearchRetry_but {s t : State} (e : execBankSearchRetry s = .next t) :
    KeptBut [] s.node t.node ∧ t.pending = s.pending := by
  refine act_but (fun n => .onlyIf fun _ => Kept.but ?_ _) e
  unfold bankSearchRetry
  split
  · exact checkSearch_kept _ n
  · exact switchSearch_kept _ n

theorem execPulseEnd_but {s t : State} (e : execPulseEnd s = .next t) :
    KeptBut [] s.node t.node ∧ t.pending = s.pending := by
  exact act_but (fun n => .onlyIf fun _ => (beginEqualize_kept n).but _) e

theorem execEqualizeEnd_but {s t : State} (e : execEqualizeEnd s = .next t) :
    KeptBut [] s.node t.node ∧ t.pending = s.pending := by
  refine act_but (fun n => .onlyIf fun _ => Kept.but ?_ _) e
  unfold readingOrWait; split
  · exact fcu_plain rfl rfl
  · exact readP0_kept n

theorem execHoldEnd_but {s t : State} (e : execHoldEnd s = .next t) :
    KeptBut [] s.node t.node ∧ t.pending = s.pending := by
  refine act_but (fun n => .onlyIf fun _ => Kept.but ?_ _) e
  unfold readingOrWait; split
  · exact fcu_plain rfl rfl
  · exact judge_kept n

theorem execRezeroVentTimeout_but {s t : State} (e : execRezeroVentTimeout s = .next t) :
    KeptBut [] s.node t.node ∧ t.pending = s.pending := by
  refine act_but (fun n => ?_) e
  refine .onlyIf fun _ => kept_but ?_
  unfold rezeroTimeout
  exact ((endFill_kept _ _).after ((ventValve_kept _ _).after (fcu_plain rfl rfl)))

theorem execControlPeriod_but {s t : State} (e : execControlPeriod s = .next t) :
    KeptBut [] s.node t.node ∧ t.pending = s.pending := by
  refine act_but (fun n => ?_) e
  refine .onlyIf fun _ => kept_but ?_
  exact ((controlPeriod_kept _).after (fcu_plain rfl rfl))

theorem execPauseLimitExpiry_but (reason : PauseReason) {s t : State} (e : execPauseLimitExpiry reason s = .next t) :
    KeptBut [] s.node t.node ∧ t.pending = s.pending := by
  exact act_but (fun n => .refl _ n) e

theorem execPrecoolGraceEnd_but {s t : State} (e : execPrecoolGraceEnd s = .next t) :
    KeptBut [] s.node t.node ∧ t.pending = s.pending := by
  exact act_but (fun n => .refl _ n) e

theorem execVentTimeout_but {s t : State} (e : execVentTimeout s = .next t) :
    KeptBut [] s.node t.node ∧ t.pending = s.pending := by
  refine act_but (fun n => ?_) e
  refine .onlyIf fun _ => kept_but ?_
  unfold ventTimeout
  exact ((ventingEnd_kept _).after (fcu_plain rfl rfl))

theorem execSettleExpiry_but (bank : Bank) (kind : ClaimKind) {s t : State} (e : execSettleExpiry bank kind s = .next t) :
    KeptBut [] s.node t.node ∧ t.pending = s.pending := by
  exact act_but (fun n => kept_but (settleExpiry_kept _ _ n)) e

theorem execPeerStatus_but (frame : Bits) {s t : State} (e : execPeerStatus frame s = .next t) :
    KeptBut [] s.node t.node ∧ t.pending = s.pending := by
  refine receive_but (peerAct_but fun f n => ?_) e
  unfold peerStatus; split
  · exact .refl _
  · exact ptbStatus_kept _ _ _

theorem execPeerClaim_but (frame : Bits) {s t : State} (e : execPeerClaim frame s = .next t) :
    KeptBut [] s.node t.node ∧ t.pending = s.pending := by
  refine receive_but (peerAct_but fun f n => ?_) e
  unfold peerClaim; split
  · exact .refl _
  · exact ptbClaim_kept _ _ _ _

theorem execPeerRelease_but (frame : Bits) {s t : State} (e : execPeerRelease frame s = .next t) :
    KeptBut [] s.node t.node ∧ t.pending = s.pending := by
  refine receive_but (peerAct_but fun f n => ?_) e
  unfold peerRelease; split
  · exact .refl _
  · exact ptbRelease_kept _ _ _ _

theorem execPeerHeat_but (frame : Bits) {s t : State} (e : execPeerHeat frame s = .next t) :
    KeptBut [] s.node t.node ∧ t.pending = s.pending := by
  refine receive_but (peerAct_but fun f n => ?_) e
  unfold peerHeat; split
  · exact .refl _
  · exact ptbHeat_kept _ _ _

theorem execConflictFrame_but (frame : Bits) {s t : State} (e : execConflictFrame frame s = .next t) :
    KeptBut [.conflict] s.node t.node ∧ t.pending = s.pending := by
  exact receive_but (fun f n => .onlyIf fun _ => conflictBegin_but n) e

theorem execEntryStale_but (node : Nat) {s t : State} (e : execEntryStale node s = .next t) :
    KeptBut [] s.node t.node ∧ t.pending = s.pending := by
  exact act_but (fun n => kept_but (ptbStale_kept _ n)) e

theorem execEntryForgotten_but (node : Nat) {s t : State} (e : execEntryForgotten node s = .next t) :
    KeptBut [] s.node t.node ∧ t.pending = s.pending := by
  exact act_but (fun n => kept_but (ptbForget_kept _ n)) e

theorem execEvaluationTick_but {s t : State} (e : execEvaluationTick s = .next t) :
    KeptBut [] s.node t.node ∧ t.pending = s.pending := by
  refine act_but (fun n => ?_) e
  refine .onlyIf fun _ => kept_but ?_
  exact ((hsuEvaluate_kept _).after ((hsuWant_kept _).after (hsu_kept id)))

theorem execSurveyTick_but {s t : State} (e : execSurveyTick s = .next t) :
    KeptBut [] s.node t.node ∧ t.pending = s.pending := by
  refine act_but (fun n => ?_) e
  refine .onlyIf fun _ => kept_but ?_
  exact ((ccuSurvey_kept _).after ccu_kept)

theorem execStartingEnd_but {s t : State} (e : execStartingEnd s = .next t) :
    KeptBut [] s.node t.node ∧ t.pending = s.pending := by
  refine act_but (fun n => ?_) e
  refine .onlyIf fun _ => kept_but ?_
  exact (ccuStarted_kept n)

theorem execRunTimerExpiry_but {s t : State} (e : execRunTimerExpiry s = .next t) :
    KeptBut [] s.node t.node ∧ t.pending = s.pending := by
  exact act_but (fun n => kept_but (ccuIdleTest_kept n)) e

theorem execStoppingEnd_but {s t : State} (e : execStoppingEnd s = .next t) :
    KeptBut [] s.node t.node ∧ t.pending = s.pending := by
  refine act_but (fun n => ?_) e
  refine .onlyIf fun _ => kept_but ?_
  exact ccu_kept

theorem execMotorAbsentExpiry_but {s t : State} (e : execMotorAbsentExpiry s = .next t) :
    KeptBut [] s.node t.node ∧ t.pending = s.pending := by
  refine act_but (fun n => ?_) e
  refine .onlyIf fun _ => kept_but ?_
  exact (ccuLockout_kept n)

theorem execLockoutEnd_but {s t : State} (e : execLockoutEnd s = .next t) :
    KeptBut [] s.node t.node ∧ t.pending = s.pending := by
  refine act_but (fun n => ?_) e
  refine .onlyIf fun _ => kept_but ?_
  exact ccu_kept

theorem execStartListExpiry_but {s t : State} (e : execStartListExpiry s = .next t) :
    KeptBut [] s.node t.node ∧ t.pending = s.pending := by
  exact act_but (fun n => kept_but ccu_kept) e

theorem execMeterPulse_but {s t : State} (e : execMeterPulse s = .next t) :
    KeptBut [] s.node t.node ∧ t.pending = s.pending := by
  refine act_but (fun n => .onlyIf fun _ => Kept.but ?_ _) e
  unfold meterPulse; split
  · exact mpuFillPulse_kept n
  · exact mpuCreepPulse_kept n

theorem execCreepWindowClose_but {s t : State} (e : execCreepWindowClose s = .next t) :
    KeptBut [] s.node t.node ∧ t.pending = s.pending := by
  refine act_but (fun n => Kept.but ?_ _) e
  split
  · split
    · exact .alike (by constructor <;> rfl)
    · exact .refl n
  · exact .refl n

theorem execCreepQuietExpiry_but {s t : State} (e : execCreepQuietExpiry s = .next t) :
    KeptBut [] s.node t.node ∧ t.pending = s.pending := by
  refine act_but (fun n => ?_) e
  refine .onlyIf fun _ => kept_but ?_
  unfold creepQuiet
  exact ((mpuAccrue_kept _).after (.alike (by constructor <;> rfl)))

theorem execPrice_but (frame : Bits) {s t : State} (e : execPrice frame s = .next t) :
    KeptBut [.prices] s.node t.node ∧ t.pending = s.pending := by
  exact receive_but (fun f n => onCommand_but price_but _ f n) e

theorem execCreateWriteComplete_but {s t : State} (e : execCreateWriteComplete s = .next t) :
    KeptBut [.store] s.node t.node ∧ t.pending = s.pending := by
  refine act_but (fun n => ?_) e
  split
  · exact (storeKick_kept _).following (commitCreate_but _ n)
  · exact .refl _ n

theorem execCheckpointWriteComplete_but {s t : State} (e : execCheckpointWriteComplete s = .next t) :
    KeptBut [.store] s.node t.node ∧ t.pending = s.pending := by
  refine act_but (fun n => ?_) e
  split
  · exact (storeKick_kept _).following (commitCheckpoint_but _ n)
  · exact .refl _ n

theorem execCloseWriteComplete_but {s t : State} (e : execCloseWriteComplete s = .next t) :
    KeptBut [.store] s.node t.node ∧ t.pending = s.pending := by
  refine act_but (fun n => ?_) e
  split
  · exact (storeKick_kept _).following ((fcuDone_kept _ _).following (commitClose_but _ n))
  · exact .refl _ n

theorem execCreepWriteComplete_but {s t : State} (e : execCreepWriteComplete s = .next t) :
    KeptBut [.store] s.node t.node ∧ t.pending = s.pending := by
  refine act_but (fun n => ?_) e
  split
  · exact (storeKick_kept _).following (commitCreep_but _ n)
  · exact .refl _ n

theorem execCollectWriteComplete_but {s t : State} (e : execCollectWriteComplete s = .next t) :
    KeptBut [.store] s.node t.node ∧ t.pending = s.pending := by
  refine act_but (fun n => ?_) e
  split
  · exact (storeKick_kept _).following ((answer_kept _ _ _ _ _).following (commitCollect_but _ _ n))
  · exact .refl _ n

theorem execQuery_but (frame : Bits) {s t : State} (e : execQuery frame s = .next t) :
    KeptBut [] s.node t.node ∧ t.pending = s.pending := by
  exact receive_but (fun f n => onCommand_but (fun f n => kept_but (takeRequest_kept _ _ _ _ n)) _ f n) e

theorem execCollect_but (frame : Bits) {s t : State} (e : execCollect frame s = .next t) :
    KeptBut [] s.node t.node ∧ t.pending = s.pending := by
  exact receive_but (fun f n => onCommand_but (fun f n => kept_but (takeRequest_kept _ _ _ _ n)) _ f n) e

theorem execReadTotals_but (frame : Bits) {s t : State} (e : execReadTotals frame s = .next t) :
    KeptBut [] s.node t.node ∧ t.pending = s.pending := by
  exact receive_but (fun f n => onCommand_but (fun f n => kept_but (takeRequest_kept _ _ _ _ n)) _ f n) e

theorem execTransmitAttempt_but {s t : State} (e : execTransmitAttempt s = .next t) :
    KeptBut [.wire] s.node t.node ∧ t.pending = s.pending := by
  exact act_but (fun n => liuAttempt_but n) e

theorem execFrameSent_but {s t : State} (e : execFrameSent s = .next t) :
    KeptBut [.wire] s.node t.node ∧ t.pending = s.pending := by
  exact act_but (fun n => liuSent_but n) e

theorem execArbitrationYield_but (position : Nat) {s t : State} (e : execArbitrationYield position s = .next t) :
    KeptBut [.wire] s.node t.node ∧ t.pending = s.pending := by
  exact act_but (fun n => liuYield_but _ n) e

theorem execLineFault_but (position : Nat) {s t : State} (e : execLineFault position s = .next t) :
    KeptBut [.wire] s.node t.node ∧ t.pending = s.pending := by
  exact act_but (fun n => liuFault_but _ n) e

theorem execLineSilentEnd_but {s t : State} (e : execLineSilentEnd s = .next t) :
    KeptBut [] s.node t.node ∧ t.pending = s.pending := by
  refine act_but (fun n => ?_) e
  refine .onlyIf fun _ => alike_but ?_
  exact (by constructor <;> rfl)

theorem execStatusTick_but {s t : State} (e : execStatusTick s = .next t) :
    KeptBut [] s.node t.node ∧ t.pending = s.pending := by
  refine act_but (fun n => ?_) e
  refine .onlyIf fun _ => kept_but ?_
  exact ((offer_kept _ _).after (.alike (by constructor <;> rfl)))

theorem execProgressTick_but {s t : State} (e : execProgressTick s = .next t) :
    KeptBut [] s.node t.node ∧ t.pending = s.pending := by
  refine act_but (fun n => ?_) e
  refine .onlyIf fun _ => kept_but ?_
  exact ((offer_kept _ _).after (.alike (by constructor <;> rfl)))

theorem execQuietTimer1000_but {s t : State} (e : execQuietTimer1000 s = .next t) :
    KeptBut [] s.node t.node ∧ t.pending = s.pending := by
  refine act_but (fun n => ?_) e
  refine .onlyIf fun _ => kept_but ?_
  exact ((ccuHold_kept _).after (lineQuietBegin_kept n))

theorem execQuietTimer1800_but {s t : State} (e : execQuietTimer1800 s = .next t) :
    KeptBut [] s.node t.node ∧ t.pending = s.pending := by
  refine act_but (fun n => .onlyIf fun _ => Kept.but ?_ _) e
  unfold quiet1800
  dsimp only
  split
  · exact Kept.after (fcu_plain rfl rfl) ((ccuStop_kept _).after ((hsuQuiet_kept _).after (bcuDropAll_kept n)))
  · exact (ccuStop_kept _).after ((hsuQuiet_kept _).after (bcuDropAll_kept n))

theorem execIrRisingEdge_but (interval : Nat) {s t : State} (e : execIrRisingEdge interval s = .next t) :
    KeptBut [.sides, .decoder] s.node t.node ∧ t.pending = s.pending := by
  exact act_but (fun n => risingEdge_but _ n) e

theorem execQuietLineSeen_but {s t : State} (e : execQuietLineSeen s = .next t) :
    KeptBut [.sides, .decoder] s.node t.node ∧ t.pending = s.pending := by
  exact act_but (fun n => .onlyIf fun _ => quietSeen_but n) e

/-- What a command may change of the items; the start-up commands have their own rules. -/
def mayChange : Instr → List Item
  | .diLevelTaken .coupled true => [.inputs, .sides, .decoder]
  | .diLevelTaken _ _ => [.inputs, .decoder]
  | .scanWriteComplete => [.store]
  | .storeScanEnd => [.phase, .scanning]
  | .warmUpEnd => [.phase]
  | .listenEnd => [.phase, .decoder]
  | .scanGridInstant => [.scanning]
  | .converterAnswer _ _ => [.scanning, .channels, .mark]
  | .exchangeTimeout => [.scanning]
  | .esdClear _ => [.latch]
  | .vehicleFrame _ => [.sides, .decoder]
  | .conflictFrame _ => [.conflict]
  | .price _ => [.prices]
  | .createWriteComplete => [.store]
  | .checkpointWriteComplete => [.store]
  | .closeWriteComplete => [.store]
  | .creepWriteComplete => [.store]
  | .collectWriteComplete => [.store]
  | .transmitAttempt => [.wire]
  | .frameSent => [.wire]
  | .arbitrationYield _ => [.wire]
  | .lineFault _ => [.wire]
  | .irRisingEdge _ => [.sides, .decoder]
  | .quietLineSeen => [.sides, .decoder]
  | _ => []

/-- Every command but the three that set start-up values: the queue stays, and of the items only its own may change. -/
theorem exec_but (c : Instr) {s t : State} (h1 : ∀ k, c ≠ .startUpCause k) (h2 : ∀ a b, c ≠ .startUp a b)
    (h3 : ∀ a, c ≠ .configReadDone a) (e : exec c s = .next t) :
    KeptBut (mayChange c) s.node t.node ∧ t.pending = s.pending := by
  cases c with
  | startUpCause k => exact absurd rfl (h1 k)
  | startUp a b => exact absurd rfl (h2 a b)
  | configReadDone a => exact absurd rfl (h3 a)
  | diLevelTaken i l =>
    by_cases h : i = .coupled ∧ l = true
    · obtain ⟨rfl, rfl⟩ := h
      exact execDiLevelTaken_but _ _ e
    · have : mayChange (.diLevelTaken i l) = [.inputs, .decoder] := by
        cases i <;> cases l <;> first | rfl | exact absurd ⟨rfl, rfl⟩ h
      rw [this]
      exact execDiLevelTaken_other h e
  | scanWriteComplete => exact execScanWriteComplete_but e
  | storeScanEnd => exact execStoreScanEnd_but e
  | warmUpEnd => exact execWarmUpEnd_but e
  | listenEnd => exact execListenEnd_but e
  | scanGridInstant => exact execScanGridInstant_but e
  | converterAnswer a b => exact execConverterAnswer_but a b e
  | exchangeTimeout => exact execExchangeTimeout_but e
  | channelAgeExpiry a => exact execChannelAgeExpiry_but a e
  | recoveryTimerExpiry => exact execRecoveryTimerExpiry_but e
  | esdClear a => exact execEsdClear_but a e
  | vehicleFrame a => exact execVehicleFrame_but a e
  | sideSilentExpiry a => exact execSideSilentExpiry_but a e
  | authorize a => exact execAuthorize_but a e
  | authorizationTimeout => exact execAuthorizationTimeout_but e
  | stop a => exact execStop_but a e
  | valveTravelEnd a => exact execValveTravelEnd_but a e
  | bankSearchRetry => exact execBankSearchRetry_but e
  | pulseEnd => exact execPulseEnd_but e
  | equalizeEnd => exact execEqualizeEnd_but e
  | holdEnd => exact execHoldEnd_but e
  | rezeroVentTimeout => exact execRezeroVentTimeout_but e
  | controlPeriod => exact execControlPeriod_but e
  | pauseLimitExpiry a => exact execPauseLimitExpiry_but a e
  | precoolGraceEnd => exact execPrecoolGraceEnd_but e
  | ventTimeout => exact execVentTimeout_but e
  | settleExpiry a b => exact execSettleExpiry_but a b e
  | peerStatus a => exact execPeerStatus_but a e
  | peerClaim a => exact execPeerClaim_but a e
  | peerRelease a => exact execPeerRelease_but a e
  | peerHeat a => exact execPeerHeat_but a e
  | conflictFrame a => exact execConflictFrame_but a e
  | entryStale a => exact execEntryStale_but a e
  | entryForgotten a => exact execEntryForgotten_but a e
  | evaluationTick => exact execEvaluationTick_but e
  | surveyTick => exact execSurveyTick_but e
  | startingEnd => exact execStartingEnd_but e
  | runTimerExpiry => exact execRunTimerExpiry_but e
  | stoppingEnd => exact execStoppingEnd_but e
  | motorAbsentExpiry => exact execMotorAbsentExpiry_but e
  | lockoutEnd => exact execLockoutEnd_but e
  | startListExpiry => exact execStartListExpiry_but e
  | meterPulse => exact execMeterPulse_but e
  | creepWindowClose => exact execCreepWindowClose_but e
  | creepQuietExpiry => exact execCreepQuietExpiry_but e
  | price a => exact execPrice_but a e
  | createWriteComplete => exact execCreateWriteComplete_but e
  | checkpointWriteComplete => exact execCheckpointWriteComplete_but e
  | closeWriteComplete => exact execCloseWriteComplete_but e
  | creepWriteComplete => exact execCreepWriteComplete_but e
  | collectWriteComplete => exact execCollectWriteComplete_but e
  | query a => exact execQuery_but a e
  | collect a => exact execCollect_but a e
  | readTotals a => exact execReadTotals_but a e
  | transmitAttempt => exact execTransmitAttempt_but e
  | frameSent => exact execFrameSent_but e
  | arbitrationYield a => exact execArbitrationYield_but a e
  | lineFault a => exact execLineFault_but a e
  | lineSilentEnd => exact execLineSilentEnd_but e
  | statusTick => exact execStatusTick_but e
  | progressTick => exact execProgressTick_but e
  | quietTimer1000 => exact execQuietTimer1000_but e
  | quietTimer1800 => exact execQuietTimer1800_but e
  | irRisingEdge a => exact execIrRisingEdge_but a e
  | quietLineSeen => exact execQuietLineSeen_but e

end Sys2Proof.Machine
end

