-- ==== Sys2Proof/WellFormed.lean ====
section
/-! DEFINITION. Well-formed commands: the operands a command of the outside world can have. Every command has a meaning
for every operand; these checks say which operands the spec gives it. -/

namespace Sys2Proof

/-- A node number, 1 to 8 (file 00 section 5.5). -/
def nodeNumber (x : Nat) : Bool := decide (1 ≤ x) && decide (x ≤ 8)

/-- The bits of a received frame: at least a start symbol, a header, a CRC and an end field, and a start symbol in front
(file 12 R188). -/
def frameBits (bits : Bits) : Bool :=
  decide (56 ≤ bits.length) && decide (bits.take 8 = [false, false, false, false, false, false, false, true])

/-- A command as the outside world can send it. -/
def Instr.wf : Instr → Bool
  | .configReadDone block => decide (block.length = 32)
  | .converterAnswer echo _ => decide (echo ≤ 10)
  | .vehicleFrame bytes => decide (bytes.length = 14)
  | .esdClear f => frameBits f
  | .authorize f => frameBits f
  | .stop f => frameBits f
  | .peerStatus f => frameBits f
  | .peerClaim f => frameBits f
  | .peerRelease f => frameBits f
  | .peerHeat f => frameBits f
  | .conflictFrame f => frameBits f
  | .price f => frameBits f
  | .query f => frameBits f
  | .collect f => frameBits f
  | .readTotals f => frameBits f
  | .entryStale node => nodeNumber node
  | .entryForgotten node => nodeNumber node
  | .arbitrationYield position => decide (8 ≤ position) && decide (position < 14)
  | .lineFault position => decide (position < 400)
  | .startUpCause _ => true
  | .startUp _ _ => true
  | .scanWriteComplete => true
  | .storeScanEnd => true
  | .warmUpEnd => true
  | .listenEnd => true
  | .scanGridInstant => true
  | .exchangeTimeout => true
  | .channelAgeExpiry _ => true
  | .diLevelTaken _ _ => true
  | .recoveryTimerExpiry => true
  | .sideSilentExpiry _ => true
  | .authorizationTimeout => true
  | .valveTravelEnd _ => true
  | .bankSearchRetry => true
  | .pulseEnd => true
  | .equalizeEnd => true
  | .holdEnd => true
  | .rezeroVentTimeout => true
  | .controlPeriod => true
  | .pauseLimitExpiry _ => true
  | .precoolGraceEnd => true
  | .ventTimeout => true
  | .settleExpiry _ _ => true
  | .evaluationTick => true
  | .surveyTick => true
  | .startingEnd => true
  | .runTimerExpiry => true
  | .stoppingEnd => true
  | .motorAbsentExpiry => true
  | .lockoutEnd => true
  | .startListExpiry => true
  | .meterPulse => true
  | .creepWindowClose => true
  | .creepQuietExpiry => true
  | .createWriteComplete => true
  | .checkpointWriteComplete => true
  | .closeWriteComplete => true
  | .creepWriteComplete => true
  | .collectWriteComplete => true
  | .transmitAttempt => true
  | .frameSent => true
  | .lineSilentEnd => true
  | .statusTick => true
  | .progressTick => true
  | .quietTimer1000 => true
  | .quietTimer1800 => true
  | .irRisingEdge _ => true
  | .quietLineSeen => true

end Sys2Proof
end

