-- ==== Sys2Proof/Tests/Slice0.lean ====
section
/-! SUPPORT. The model's own tests: the figures of the spec's worked examples, ill-formed operands, single steps on small
states; and, for every obligation with hypotheses, states and operands that meet them. -/

namespace Sys2Proof.Machine.Tests

set_option Elab.async false

/-! ## Ill-formed operands are refused -/

theorem test_wf_block_of_31_bytes : (Instr.configReadDone (List.replicate 31 0)).wf = false := by decide
theorem test_wf_echo_11 : (Instr.converterAnswer 11 0).wf = false := by decide
theorem test_wf_vehicle_frame_of_13_bytes : (Instr.vehicleFrame (List.replicate 13 0)).wf = false := by decide
theorem test_wf_frame_without_start_symbol :
    (List.map (fun c : Bits → Instr => Instr.wf (c (List.replicate 60 true))) [.esdClear, .authorize, .stop, .peerStatus, .peerClaim,
      .peerRelease, .peerHeat, .conflictFrame, .price, .query, .collect, .readTotals]) = List.replicate 12 false := by decide
theorem test_wf_frame_too_short : (Instr.stop (startSymbol ++ List.replicate 40 true)).wf = false := by decide
theorem test_wf_node_9 : (Instr.entryStale 9).wf = false ∧ (Instr.entryForgotten 0).wf = false := by decide
theorem test_wf_yield_behind_arbitration : (Instr.arbitrationYield 14).wf = false ∧ (Instr.arbitrationYield 7).wf = false := by
  decide
theorem test_wf_fault_past_every_frame : (Instr.lineFault 400).wf = false := by decide

/-! ## Figures of the spec -/

/-- The nine ASCII bytes "123456789". -/
def nine : List Byte := [0x31, 0x32, 0x33, 0x34, 0x35, 0x36, 0x37, 0x38, 0x39]

/-- File 12 R188. -/
theorem test_crc16_check_value : crc16 (bitsOfBytes nine) = 0x29B1 := by decide +kernel
/-- File 12 R191. -/
theorem test_crc8_check_value : crc8 (bitsOfBytes nine) = 0xF4 := by decide +kernel

/-- File 12, the example of a CLAIM on the wire: node 5 claims bank 2 for a draw. -/
def claimOfFive : LineFrame := ⟨0, 5, 0, kindClaim, [claimByte .two .draw]⟩

theorem test_claim_bytes : bytesOfBits 4 (checkedBits claimOfFive) = [0x14, 0x02, 0x01, 0x21] := by decide +kernel
theorem test_claim_is_received : receive (wireBits claimOfFive) = some claimOfFive := by decide +kernel
theorem test_claim_arrives_at_node_1 : arrivalOf 1 claimOfFive = .peer kindClaim ∧ arrivalOf 5 claimOfFive = .conflict := by
  decide
/-- Node 2's STATUS yields to it at the second bit of the arbitration field (position 9). -/
theorem test_status_yields_to_claim :
    isYield ⟨1, 2, 0, kindStatus, []⟩ 9 = true ∧ wireBit claimOfFive 9 = some false := by decide +kernel
/-- A seventh identical bit where a fill bit is due discards the frame (file 10 R171). -/
theorem test_missing_fill_bit_is_discarded : receive (startSymbol ++ List.replicate 60 true) = none := by decide +kernel
/-- A start symbol after three bits of the end field discards the frame for the one it begins (file 12 R188). -/
theorem test_start_symbol_in_end_field :
    receive (startSymbol ++ stuff true 1 (checkedBits claimOfFive ++ bitsOf (crc16 (checkedBits claimOfFive))) ++
      List.replicate 3 true ++ wireBits ⟨0, 3, 0, kindRelease, [0x01]⟩) = some ⟨0, 3, 0, kindRelease, [0x01]⟩ := by
  decide +kernel
/-- A frame with a length of 33 is discarded (file 10 R171), and the start symbol behind it begins a new one (log 57). -/
theorem test_length_above_32_is_discarded :
    let long : LineFrame := ⟨0, 3, 0, kindRelease, List.replicate 33 0x01⟩
    receive (wireBits long) = none ∧ receive (wireBits long ++ wireBits claimOfFive) = some claimOfFive := by
  decide +kernel

/-- File 01, the example of one scan cycle. -/
theorem test_converter_codes :
    codeOfCurrent .pH 12000 = 5000 ∧ codeOfCurrent .tS 13882 = 3182 ∧ codeOfCurrent (.pB .one) 10736 = 4210 ∧
      currentInRange 21400 = false := by decide
/-- The ends of the band and of the span (file 01 R4). -/
theorem test_converter_ends :
    codeOfCurrent .tD 3600 = 2132 ∧ codeOfCurrent .tD 21000 = 3832 ∧ currentInRange 3599 = false ∧
      currentInRange 21000 = true := by decide

/-- File 03, the two examples of the state of charge. -/
theorem test_soc_examples : soc .bus35 3000 3082 = 833 ∧ soc .car70 7000 3132 = 944 ∧ soc .car70 0 3132 = 0 := by decide
/-- File 03 R51 in the example of the ramp target: class COLD, COMM, T_A 3148. -/
theorem test_aprr_at_high_ambient :
    derating false 3148 = 11 ∧ aprr .car70 .cold true 11 = 1837 ∧ aprr .car70 .cold false 0 = 2100 := by decide
/-- File 06, the example of three fills. -/
theorem test_heat_figures :
    effectiveCapacity 90000 ⟨some 2402, some 0, .ok⟩ = 48000 ∧ effectiveCapacity 90000 ⟨some 2372, some 0, .ok⟩ = 66000 ∧
      effectiveCapacity 90000 ⟨some 2332, some 0, .failed⟩ = 0 ∧
      tempDrop 3082 2432 = 650 ∧ heatWant 600 650 = 55770 ∧ heatWant 300 800 = 34320 := by decide
theorem test_ceilings :
    (Hsu.ceiling { Hsu.startUp with rOwn := 18000, dT10 := 800 }) = 157 ∧
      (Hsu.ceiling { Hsu.startUp with rOwn := 22000, dT10 := 650 }) = 236 ∧
      (Hsu.ceiling { Hsu.startUp with rOwn := 34320, dT10 := 800 }) = 300 := by decide
/-- File 08, the examples of the end of a fill. -/
theorem test_vent_and_amount :
    ventMass 45 8302 2432 = 2236 ∧ ventMass 45 8400 2432 = 2252 ∧ priced 358472 13950 = 5001 ∧ priced 481237 13950 = 6713 ∧
      limitMassOf .car70 .amount 5000 13950 = 358422 ∧ limitMassOf .car70 .none 0 13950 = 800000 := by decide
/-- File 06, the example: a raise age of 0 received at 1,352 ms. -/
theorem test_age_conversion :
    convertAge 1352 0 = 1342 ∧ instantOf 1353 0 (some 1343) = 1343 ∧ reportedAge 1353 1351 = 0 := by decide
/-- File 00: a free-running choice of numbers wraps from 65535 to 1 (file 09 R154). -/
theorem test_number_wraps : nextNumber 65535 = 1 ∧ pickNumber [1, 2] 64 1 = 3 := by decide
/-- A totalizer wraps to 0 (file 09 R159). -/
theorem test_sum_wraps : sumAdd 999999999999 1 = 0 := by decide
/-- The bits of the reset store's body. -/
def blankBody : Bits := bitsOfBytes StoredSlot.blank.body

theorem blankBody_first : (blankBody.take 228).foldl crc16Step 0xFFFF#16 = 0x68BA#16 := by decide +kernel
theorem blankBody_rest : (blankBody.drop 228).foldl crc16Step 0x68BA#16 = 0xBD90#16 := by decide +kernel

/-- The checks of the model's reset store are sound (log 5). -/
theorem test_reset_body_is_sound : StoredSlot.blank.bodySound = true := by
  have h : bodyCrcOf StoredSlot.blank.body = 0xBD90#16 := by
    change crc16 blankBody = _
    rw [← List.take_append_drop 228 blankBody, crc16, List.foldl_append, blankBody_first, blankBody_rest]
  simp [StoredSlot.bodySound, h]; rfl
theorem test_reset_header_and_totals_are_sound :
    TotalsCopy.blank.sound = true ∧ StoredSlot.blank.headerSound = true := by decide +kernel

/-! ## The configuration blocks of file 11's example (the fields it does not name: the model's choice here) -/

/-- The first block: CAR70, three banks, 4500, 7000 and 9000, draw limits 2, 0 and 15; rotating order, direct stage
allowed; checksum in the last byte. -/
def block : List Byte :=
  [0x13, 0x11, 0x94, 0x1B, 0x58, 0x23, 0x28, 0x00, 0x00, 0x20, 0xFF, 0x01, 0xF4, 0x5F, 0x01, 0x2C,
   0x01, 0x5F, 0x90, 0x02, 0xBC, 0x03, 0xD9, 0xFF, 0xFF, 0x08, 0x98, 0x0A, 0x2D, 0x01, 0x07, 0x83]

def cfg : Cfg :=
  { hose := .car70, bankCount := 3, nominal := ⟨4500, 7000, 9000, 0⟩, drawLimit := ⟨2, 1, 2, 2⟩, hysteresis := 500,
    order := .rotating, directAllowed := true, directFlow := 300, maxStarts := 6, capacity := 90000, peakFlow := 600,
    commTarget := 985, nonCommTarget := 900, tSet := 2332, pulseWeight := 10, deadVolume := 45, carrier := 263 }

theorem test_first_block : readConfig block = some cfg := by decide +kernel
/-- The second block: 4500, 9000, 7000 (the sum of the bytes stays). -/
theorem test_second_block_fails :
    readConfig (((block.set 3 0x23).set 4 0x28).set 5 0x1B |>.set 6 0x58) = none := by decide +kernel
theorem test_checksum_fails : readConfig (block.set 31 0x62) = none := by decide +kernel

/-! ## States and frames for the witnesses -/

/-- A record accepted 100 ms before the instant of `base`. -/
def rec (v : Nat) : ChannelRec := ⟨some v, some 9999900, .ok⟩

def channels : Channels :=
  { pH := rec 4000, tS := rec 3082, tD := rec 2400, pB := ⟨rec 4200, rec 6800, rec 8400, .startUp⟩, pC := rec 9000,
    tC := rec 3000, tK := rec 2300, tA := rec 2932 }

/-- A node in RUN with an empty store, at the end of a store scan long past. -/
def base : Node :=
  { Node.reset with
    now := 10000000
    stc := { phase := .run, causes := [], node := 1, cfg := cfg, hoseCode := 1, conflict := false, phaseSince := 9000000,
             startedAt := 8000000 }
    isc := { Node.reset.isc with channels := channels, gridNext := some 10000000 }
    ccu := { Node.reset.ccu with offSince := some 9000000, surveyNext := some 10000000 }
    rst := { Node.reset.rst with table := List.replicate 64 ⟨.free, 0⟩, scan := some .complete }
    liu := { Node.reset.liu with quietSince := some 9999950, statusNext := some 10000000 } }

/-- A state whose node is `base` but for a change. -/
def st (f : Node → Node) : State := ⟨f base, []⟩

/-- A command of terminal 9 to node 1. -/
def command (kind : BitVec 6) (payload : List Byte) : LineFrame := ⟨1, 9, 1, kind, payload⟩

/-- A frame of node 2. -/
def ofTwo (kind : BitVec 6) (payload : List Byte) : LineFrame := ⟨0, 2, 0, kind, payload⟩

def auth : Auth := ⟨7, 9, .one, 13950, .amount, 5000, 358422⟩

/-- A fill in RAMPING on bank 2. -/
def filling : Node → Node := fun n =>
  { n with fcu := { n.fcu with
      phase := .flowing, auth := some auth, source := some (.bank .two), kind := some .noncomm
      vb := n.fcu.vb.set .two ⟨true, none⟩, periodNext := some 10000000, rampSince := some 9999000, pRamp := 4000 } }

/-- A fill in a step of the leak check that began `ms` before. -/
def checking (step : CheckStep) (ms : Nat) : Node → Node := fun n =>
  { n with fcu := { n.fcu with
      phase := .checking, auth := some auth, check := step, stepSince := some (10000000 - ms), attempt := 1
      checkBank := some .one, p0 := some 4000, periodNext := some 10000000 } }

/-! ## Witnesses: the machine -/

theorem witness_emptyQueue :
    ∃ s : State, s.pending = [] ∧ s.node.vlr.decoder.isSome = true ∧ s.node.vlr.sideA.age = some 65535 ∧
      s.node.vlr.sideB.age = some 0 :=
  ⟨st fun n => { n with vlr := { n.vlr with
      decoder := some ⟨.idle, none, none⟩, sideA := ⟨none, none, some 65535⟩, sideB := ⟨none, none, some 0⟩ } }, by decide +kernel⟩

theorem witness_inputsAreTaken_sample :
    ∃ s : State, s.pending = [] ∧ s.node.stc.phase ≠ .held ∧
      (s.node.isc.inputs.get .stop).raw = (s.node.isc.inputs.get .stop).filtered ∧
      (s.node.isc.inputs.get .start).raw ≠ (s.node.isc.inputs.get .start).filtered ∧
      (s.node.isc.inputs.get .start).run + 1 = 9 ∧
      (s.node.isc.inputs.get .loop).raw ≠ (s.node.isc.inputs.get .loop).filtered ∧
      (s.node.isc.inputs.get .loop).run + 1 = 10 :=
  ⟨st fun n => { n with isc.inputs := (n.isc.inputs.set .start ⟨true, false, 8⟩).set .loop ⟨false, true, 9⟩ },
    by decide +kernel⟩

theorem witness_inputsAreTaken_level :
    ∃ s t : State, s.node.stc.phase ≠ .held ∧ s.node.level .loop ≠ true ∧ exec (.diLevelTaken .loop true) s = .next t :=
  ⟨st id, _, by decide, by decide, rfl⟩

/-- A node in the hold. -/
def held : State := st fun n => { n with stc.phase := .held, stc.causes := [.supplyDip] }

theorem witness_inputsAreTaken_startUp :
    ∃ t : State, held.node.stc.phase = .held ∧ exec (.startUp 7 .inactive) held = .next t := ⟨_, by decide, rfl⟩

theorem witness_commandsLeaveQueueAndClock : ∃ t, exec .meterPulse (st id) = .next t := ⟨_, rfl⟩

theorem witness_configurationHolds :
    ∃ t, (∀ k, Instr.surveyTick ≠ .startUpCause k) ∧ (∀ a b, Instr.surveyTick ≠ .startUp a b) ∧
      (∀ a, Instr.surveyTick ≠ .configReadDone a) ∧ exec .surveyTick (st id) = .next t :=
  ⟨_, fun _ h => (nomatch h), fun _ _ h => (nomatch h), fun _ h => (nomatch h), rfl⟩

theorem witness_pricesChange :
    ∃ t, (∀ k, Instr.meterPulse ≠ .startUpCause k) ∧ (∀ a b, Instr.meterPulse ≠ .startUp a b) ∧
      (∀ f, Instr.meterPulse ≠ .price f) ∧ exec .meterPulse (st id) = .next t :=
  ⟨_, fun _ h => (nomatch h), fun _ _ h => (nomatch h), fun _ h => (nomatch h), rfl⟩

theorem witness_storeChanges :
    ∃ t, Instr.statusTick ≠ .scanWriteComplete ∧ Instr.statusTick ≠ .createWriteComplete ∧
      Instr.statusTick ≠ .checkpointWriteComplete ∧ Instr.statusTick ≠ .closeWriteComplete ∧
      Instr.statusTick ≠ .creepWriteComplete ∧ Instr.statusTick ≠ .collectWriteComplete ∧
      exec .statusTick (st id) = .next t :=
  ⟨_, nofun, nofun, nofun, nofun, nofun, nofun, rfl⟩

/-- A node whose breakaway has parted. -/
def tripped : State := st fun n => { n with
  isc := { n.isc with latch := some .breakaway, loop := .tripped, inputs := n.isc.inputs.set .breakaway ⟨true, true, 0⟩ } }

theorem witness_latchClears :
    ∃ t, (∀ k, Instr.recoveryTimerExpiry ≠ .startUpCause k) ∧ (∀ a b, Instr.recoveryTimerExpiry ≠ .startUp a b) ∧
      (∀ f, Instr.recoveryTimerExpiry ≠ .esdClear f) ∧ exec .recoveryTimerExpiry tripped = .next t ∧
      tripped.node.isc.latch = some .breakaway :=
  ⟨_, fun _ h => (nomatch h), fun _ _ h => (nomatch h), fun _ h => (nomatch h), rfl, rfl⟩

theorem witness_recordsChange :
    ∃ t, (∀ k, Instr.statusTick ≠ .startUpCause k) ∧ (∀ a b, Instr.statusTick ≠ .startUp a b) ∧
      exec .statusTick (st id) = .next t ∧ (∀ e i, Instr.statusTick ≠ .converterAnswer e i) ∧
      (∀ i l, Instr.statusTick ≠ .diLevelTaken i l) ∧ (∀ p, Instr.statusTick ≠ .vehicleFrame p) ∧
      (∀ i, Instr.statusTick ≠ .irRisingEdge i) ∧ Instr.statusTick ≠ .quietLineSeen ∧
      Instr.statusTick ≠ .transmitAttempt ∧ Instr.statusTick ≠ .frameSent ∧
      (∀ p, Instr.statusTick ≠ .arbitrationYield p) ∧ (∀ p, Instr.statusTick ≠ .lineFault p) :=
  ⟨_, fun _ h => (nomatch h), fun _ _ h => (nomatch h), rfl, fun _ _ h => (nomatch h), fun _ _ h => (nomatch h),
    fun _ h => (nomatch h), fun _ h => (nomatch h), nofun, nofun, nofun, fun _ h => (nomatch h), fun _ h => (nomatch h)⟩

theorem witness_earlyTimers_start :
    (∃ s : State, s.node.stc.phase = .warmUp ∧ s.node.now - s.node.stc.phaseSince = 499) ∧
      (∃ s : State, s.node.stc.phase = .listen ∧ s.node.now - s.node.stc.phaseSince = 999) ∧
      (∃ s : State, ∃ g, s.node.isc.gridNext = some g ∧ s.node.now < g) :=
  ⟨⟨st fun n => { n with stc.phase := .warmUp, stc.phaseSince := 9999501 }, by decide⟩,
    ⟨st fun n => { n with stc.phase := .listen, stc.phaseSince := 9999001 }, by decide⟩,
    ⟨st fun n => { n with isc.gridNext := some 10000001 }, 10000001, by decide⟩⟩

/-- Right after reset every timer is stopped. -/
theorem witness_earlyTimers_stopped :
    Node.reset.stc.phase ≠ .warmUp ∧ Node.reset.stc.phase ≠ .listen ∧ Node.reset.isc.gridNext = none ∧
      Node.reset.isc.loop = .normal ∧ Node.reset.fcu.authSince = none ∧ Node.reset.fcu.phase ≠ .checking ∧
      Node.reset.fcu.phase ≠ .venting ∧ Node.reset.fcu.phase.filling = false ∧ Node.reset.fcu.pauses.bankWait = none ∧
      Node.reset.bcu.find .one .draw = none ∧ Node.reset.ptb.find 2 = none ∧ Node.reset.hsu.gridNext = none ∧
      Node.reset.ccu.surveyNext = none ∧ Node.reset.ccu.state = .off ∧ Node.reset.ccu.absentSince = none ∧
      Node.reset.mpu.creepWindow = none ∧ Node.reset.mpu.quietSince = none ∧ Node.reset.liu.silentSince = none ∧
      Node.reset.liu.statusNext = none ∧ Node.reset.liu.progressNext = none ∧ Node.reset.liu.quietSince = none := by
  decide

/-- A safe node at every bound: ten frames, five of them urgent, two draw claims and one refill claim, an open valve. -/
def full : Node :=
  { base with
    liu.queue := List.replicate 5 (.fresh .heat) ++ List.replicate 5 (.fresh .status)
    liu.consecutive := 15
    liu.total := 65535
    bcu := ⟨[⟨.one, .draw, .held 9999000⟩, ⟨.two, .draw, .requested⟩, ⟨.three, .refill, .requested⟩]⟩
    hsu.rOwn := 4000
    fcu.vb := base.fcu.vb.set .one ⟨true, none⟩
    vlr.decoder := some ⟨.receiving (List.replicate 112 true), none, none⟩ }

theorem witness_everyStepKeepsTheNodeSafe : ∃ s t : State, s.node.Safe ∧ step s = .next t :=
  ⟨⟨full, []⟩, _,
    { bounds := ⟨by decide +kernel, by decide +kernel, by decide +kernel, by decide +kernel⟩
      draws := fun b => by cases b <;> decide +kernel
      counts := by decide +kernel
      runs := fun i => by cases i <;> decide +kernel
      decoder := fun d h => by cases h; decide +kernel }, rfl⟩

theorem witness_rampStays :
    ∃ s t : State, (s.node.stc.phase = .configRead → s.node.fcu.pRamp = 0) ∧ s.node.rampBounded ∧
      s.node.fcu.pRamp = 8750 ∧ exec .meterPulse s = .next t :=
  ⟨st fun n => { n with fcu.pRamp := 8750 }, _, by decide, by decide, by decide, rfl⟩

theorem witness_reception :
    ∃ f : LineFrame, 1 ≤ f.source.toNat ∧ f.source.toNat = 12 ∧ f.destination.toNat = 12 ∧ f.payload.length = 32 :=
  ⟨⟨3, 12, 12, 63, List.replicate 32 0xFF⟩, by decide⟩

/-! ## Witnesses: start-up and scanner -/

theorem witness_startUpCause : StartCause.supplyDip ∈ held.node.stc.causes := by decide

theorem witness_startUp :
    held.node.stc.phase = .held ∧ (PerInput.inactive : Levels).breakaway = false ∧
      ((PerInput.inactive : Levels).set .breakaway true).breakaway = true ∧ (st id).node.stc.phase ≠ .held := by decide

theorem witness_configurationIsChecked :
    State.reset.node.stc.phase = .configRead ∧ readConfig block = some cfg ∧ readConfig [] = none := by decide +kernel

theorem witness_configurationValues :
    readConfig block = some cfg ∧ Four.num .three ≤ cfg.bankCount ∧ Four.num .two < Four.num .three ∧
      cfg.hose = .car70 := by decide +kernel

/-- A bus block: hose class 2, its checksum adjusted. -/
theorem witness_configurationValues_bus :
    ∃ c, readConfig ((block.set 0 0x23).set 31 0x73) = some c ∧ c.hose = .bus35 :=
  ⟨{ cfg with hose := .bus35, peakFlow := 700 }, by decide +kernel⟩

theorem witness_startPhases :
    (∃ s : State, s.node.stc.phase = .storeScan ∧ s.node.rst.scan = some .complete) ∧
      (∃ s : State, s.node.stc.phase = .warmUp ∧ s.node.now - s.node.stc.phaseSince = 500) ∧
      (∃ s : State, s.node.stc.phase = .listen ∧ s.node.now - s.node.stc.phaseSince = 1000) :=
  ⟨⟨st fun n => { n with stc.phase := .storeScan }, by decide⟩,
    ⟨st fun n => { n with stc.phase := .warmUp, stc.phaseSince := 9999500 }, by decide⟩,
    ⟨st fun n => { n with stc.phase := .listen, stc.phaseSince := 9999000 }, by decide⟩⟩

/-- A scan that waits for a write. -/
def scanning (w : Write) : State := st fun n => { n with stc.phase := .storeScan, rst.write := some w }

theorem witness_scanWrites :
    (scanning .scanLast).node.stc.phase = .storeScan ∧
      (scanning (.scanTotals .blank)).node.rst.write = some (.scanTotals .blank) ∧
      (scanning (.scanFree 63)).node.rst.write = some (.scanFree 63) ∧
      (scanning (.scanDamaged 0)).node.rst.write = some (.scanDamaged 0) ∧
      (scanning (.scanClose 63)).node.rst.write = some (.scanClose 63) ∧
      (scanning (.scanClose 63)).node.rst.slots[63]? = some .blank ∧
      (scanning .scanLast).node.rst.write = some .scanLast := by decide +kernel

/-- A cycle with these channels left. -/
def inCycle (cs : List Channel) : State := st fun n => { n with isc.cycle := some ⟨cs, true, 9999998⟩ }

theorem witness_scanCycles :
    (st id).node.isc.gridNext = some (st id).node.now ∧ (st id).node.isc.cycle = none ∧
      (inCycle [.tA]).node.isc.gridNext = some (inCycle [.tA]).node.now ∧ (inCycle [.tA]).node.isc.cycle.isSome = true ∧
      (inCycle [.tK, .tA]).node.isc.cycle = some ⟨[.tK, .tA], true, 9999998⟩ ∧ (inCycle [.tA]).node.isc.cycle = some ⟨[.tA], true, 9999998⟩ := by
  decide

theorem witness_answers :
    (inCycle [.tS, .tD]).node.isc.cycle = some ⟨[.tS, .tD], true, 9999998⟩ ∧ 1 = converterInput .tS ∧ 2 ≠ converterInput .tS ∧
      (3600#16).toNat = 3600 ∧ (21000#16).toNat = 21000 ∧ (3599#16).toNat < 3600 ∧ 21000 < (21001#16).toNat := by decide

/-- A compressor that fills a bank. -/
def loaded : Node → Node := fun n =>
  { n with ccu := { n.ccu with
      state := .loadedRefill, claim := some ⟨.one, .held⟩, runSince := some 9000000, absentSince := some 9998000 } }

theorem witness_lockout_age :
    ∃ s : State, s.node.olderThan .pC 2000 = true ∧ s.node.olderThan .tC 2000 = true ∧ s.node.cmRun = true :=
  ⟨st fun n => { loaded n with isc.channels := { channels with
      pC := ⟨some 9000, some 9997999, .ok⟩, tC := .startUp } }, by decide⟩

theorem witness_lockout_motor :
    (st loaded).node.ccu.absentSince = some 9998000 ∧ (st loaded).node.now - 9998000 = 2000 ∧ (st loaded).node.cmRun = true := by
  decide

theorem witness_lockout_stopping :
    ∃ s : State, s.node.ccu.state = .stopping ∧ s.node.olderThan .tC 2000 = true ∧ s.node.ccu.absentSince = some 9998000 :=
  ⟨st fun n => { n with ccu.state := .stopping, ccu.absentSince := some 9998000, isc.channels.tC := .startUp }, by decide⟩

/-- A customer stands at the pump: authorized, coupled, not holstered. -/
def ready : State := st fun n => { n with
  isc.inputs := n.isc.inputs.set .coupled ⟨true, true, 0⟩
  fcu := { n.fcu with phase := .authorized, auth := some auth, authSince := some 9880000 } }

theorem witness_levels :
    ready.node.stc.phase ≠ .held ∧ ready.node.level .start ≠ true ∧ ready.node.startTaken = true ∧
      ready.node.rst.chooseSlot.isSome = true ∧ ready.node.inRun = true := by decide +kernel

theorem witness_levels_others :
    (st id).node.stc.phase ≠ .held ∧ (st id).node.level .breakaway ≠ true ∧ (st id).node.isc.latch = none ∧
      (st id).node.level .coupled ≠ true ∧ (st id).node.inRun = true := by decide

theorem witness_recovery : ∃ s : State, s.node.isc.loop = .recovering 9995000 ∧ s.node.now - 9995000 = 5000 :=
  ⟨st fun n => { n with isc.loop := .recovering 9995000 }, by decide⟩

theorem witness_esdClear :
    receive (wireBits (command kindEsdClear [])) = some (command kindEsdClear []) ∧
      arrivalOf tripped.node.stc.node (command kindEsdClear []) = .command kindEsdClear ∧ tripped.node.stc.phase = .run ∧
      badField false (command kindEsdClear []) = false ∧ tripped.node.isc.latch.isSome = true ∧
      tripped.node.level .breakaway = true ∧ (st id).node.isc.latch = none := by decide +kernel

theorem witness_esdClear_taken :
    ∃ s : State, s.node.isc.latch.isSome = true ∧ s.node.level .breakaway = false ∧ s.node.isc.overMark = false ∧
      s.node.isc.loop = .tripped ∧ s.node.stc.phase = .run :=
  ⟨st fun n => { n with isc.latch := some .breakaway, isc.loop := .tripped }, by decide⟩

/-! ## Witnesses: vehicle link -/

/-- Side A of a vehicle with two tank groups, sequence 3: 780 L, 1480, 3031, RUN. -/
def vehicleA : List Byte :=
  let p : List Byte := [0xA5, 0x41, 2, 3, 1, 0x03, 0x0C, 0x05, 0xC8, 0x0B, 0xD7, 1, 0xFE]
  p ++ [crc8 (bitsOfBytes p)]

def fieldsA : VehicleFields := ⟨.a, 2, 3, ⟨780, 1480, 3031, .run⟩⟩

/-- A node coupled to it. -/
def coupled (declared : Option Nat) (sequence : Option Nat) : State := st fun n => { n with
  vlr := { n.vlr with
    decoder := some ⟨.idle, none, none⟩, declared := declared, sideA := ⟨some fieldsA.data, sequence, some 1000⟩
    link := .valid } }

theorem witness_vehicleFrames :
    (coupled (some 2) (some 2)).node.vlr.decoder = some ⟨.idle, none, none⟩ ∧ readVehicle vehicleA = some fieldsA ∧
      (coupled none none).node.vlr.declared = none ∧
      (coupled (some 2) (some 2)).node.vlr.declared = some fieldsA.groups ∧
      ((coupled (some 2) (some 2)).node.vlr.side fieldsA.side).sequence ≠ some fieldsA.sequence ∧
      ((coupled (some 2) (some 3)).node.vlr.side fieldsA.side).sequence = some fieldsA.sequence ∧
      (coupled (some 1) none).node.vlr.declared ≠ some fieldsA.groups := by decide +kernel

theorem witness_vehicleFramesAreChecked : readVehicle vehicleA = some fieldsA ∧ readVehicle [] = none := by decide +kernel

theorem witness_vehicleFrames_discarding :
    ∃ s : State, s.node.vlr.decoder = some ⟨.discarding, none, none⟩ :=
  ⟨st fun n => { n with vlr.decoder := some ⟨.discarding, none, none⟩ }, rfl⟩

theorem witness_silentSide :
    (coupled (some 2) none).node.vlr.decoder.isSome = true ∧ (coupled (some 2) none).node.vlr.link = .valid ∧
      (coupled (some 2) none).node.vlr.declares .a = true ∧
      ((coupled (some 2) none).node.vlr.side .a).age = some 1000 ∧ (coupled (some 2) none).node.fcu.kind ≠ some .comm := by
  decide

theorem witness_silentSide_comm :
    ∃ s : State, s.node.vlr = (coupled (some 2) none).node.vlr ∧ s.node.fcu.kind = some .comm ∧
      s.node.fcu.phase.ramping = true :=
  ⟨st fun n => { filling n with vlr := (coupled (some 2) none).node.vlr, fcu.kind := some .comm }, by decide +kernel⟩

/-- A decoder in RECEIVING with a valid mark of 250.0 us behind it. -/
def receivingBits (k : Nat) : State := st fun n => { n with
  vlr.decoder := some ⟨.receiving (List.replicate k true), some ⟨2237, false⟩, some 9999997⟩ }

theorem witness_edges :
    (receivingBits 111).node.vlr.decoder = some ⟨.receiving (List.replicate 111 true), some ⟨2237, false⟩, some 9999997⟩ ∧
      (⟨2237, false⟩ : Burst).validMark (receivingBits 111).node.stc.cfg.carrier = true ∧
      (receivingBits 111).node.stc.cfg.carrier = 263 ∧ (List.replicate 111 true).length < 112 ∧
      112 ≤ (List.replicate 112 true).length ∧ 263 + 263 / 8 < 1763 ∧ 1763 - 263 = 1500 ∧ 5263 - 263 = 5000 ∧
      10263 - 263 = 10000 ∧ 20263 - 263 ≤ 20000 := by decide

theorem witness_quietLine :
    (receivingBits 112).node.vlr.decoder = some ⟨.receiving (List.replicate 112 true), some ⟨2237, false⟩, some 9999997⟩ ∧
      (List.replicate 112 true).length = 112 ∧
      (⟨2237, false⟩ : Burst).validMark (receivingBits 112).node.stc.cfg.carrier = true := by decide

/-! ## Witnesses: fill control -/

/-- AUTHORIZE with number 7. -/
def authorizeFrame (row kind : Byte) (value : List Byte) : LineFrame :=
  command kindAuthorize ([0x00, 0x07, row, kind] ++ value)

/-- A node with a price in row 1 and a loop that is closed. -/
def priced1 (f : Node → Node) : State := st fun n => f { n with mpu.prices := n.mpu.prices.set .one (some 13950) }

/-- The frame arrives at `s` as a command of this kind and passes the checks of the LIU. -/
def Arrives (s : State) (f : LineFrame) (kind : BitVec 6) : Prop :=
  receive (wireBits f) = some f ∧ arrivalOf s.node.stc.node f = .command kind ∧ s.node.stc.phase = .run ∧
    badField false f = false

theorem witness_authorize_frame :
    ∃ f, f = authorizeFrame 1 2 [0, 0, 0x13, 0x88] ∧ Arrives (priced1 id) f kindAuthorize ∧
      readAuthorize f.payload = ⟨7, 1, 2, 5000⟩ ∧ (priced1 id).node.fcu.phase = .idle ∧
      (priced1 id).node.stc.conflict = false ∧ Four.ofNum 1 = some .one ∧ limitKindOf 2 = some .amount ∧ 7 ≠ 0 ∧
      1 ≤ 5000 ∧ 5000 ≤ 99999999 :=
  ⟨_, rfl, by unfold Arrives; decide +kernel, by decide +kernel⟩

theorem witness_authorize_accepted :
    (priced1 id).node.mpu.prices.get .one = some 13950 ∧ (priced1 id).node.rst.freeSlots ≠ 0 ∧
      (priced1 id).node.mpu.creepFlag = false ∧ (priced1 id).node.level .meterFault = false ∧
      (priced1 id).node.isc.loop = .normal := by decide +kernel

theorem witness_authorize_refused :
    (priced1 fun n => { n with stc.conflict := true }).node.stc.conflict = true ∧
      (st id).node.mpu.prices.get .one = none ∧
      (priced1 fun n => { n with rst.table := List.replicate 64 ⟨.closed, 1⟩ }).node.rst.freeSlots = 0 ∧
      (priced1 fun n => { n with mpu.creepFlag := true }).node.mpu.creepFlag = true ∧
      (priced1 fun n => { n with isc.loop := .tripped }).node.isc.loop ≠ .normal := by decide +kernel

theorem witness_authorize_badFields :
    (readAuthorize (authorizeFrame 0 0 [0, 0, 0, 0]).payload).row < 1 ∧
      4 < (readAuthorize (authorizeFrame 5 0 [0, 0, 0, 0]).payload).row ∧
      2 < (readAuthorize (authorizeFrame 1 3 [0, 0, 0, 0]).payload).limitKind ∧
      (readAuthorize (authorizeFrame 1 1 [0, 0, 0, 0]).payload).limitValue = 0 ∧
      99999999 < (readAuthorize (authorizeFrame 1 1 [0x05, 0xF5, 0xE1, 0x00]).payload).limitValue ∧
      (readAuthorize (command kindAuthorize (List.replicate 8 0)).payload).number = 0 := by decide +kernel

theorem witness_authorize_again :
    Arrives ready (authorizeFrame 1 2 [0, 0, 0x13, 0x88]) kindAuthorize ∧ ready.node.fcu.auth = some auth ∧
      auth.number = 7 ∧ (st filling).node.fcu.phase ≠ .idle ∧ (st filling).node.fcu.phase ≠ .authorized := by
  unfold Arrives; decide +kernel

theorem witness_authorizationTimesOut :
    ready.node.fcu.phase = .authorized ∧ ready.node.fcu.authSince = some 9880000 ∧ ready.node.now - 9880000 = 120000 := by
  decide

theorem witness_stop :
    Arrives (st id) (command kindStop []) kindStop ∧ (st filling).node.fcu.phase.filling = true ∧
      ready.node.fcu.phase = .authorized ∧ (st id).node.fcu.phase.filling = false ∧ (st id).node.fcu.phase ≠ .authorized := by
  unfold Arrives; decide +kernel

/-- A draw valve whose closing travel began `ms` before, its claim to be released. -/
def closing (ms : Nat) : State := st fun n => { n with
  fcu := { n.fcu with vb := n.fcu.vb.set .one ⟨false, some (10000000 - ms)⟩, relOnClose := n.fcu.relOnClose.set .one true } }

theorem witness_valves :
    ((closing 400).node.valve (.draw .one)).since = some 9999600 ∧ (closing 400).node.now - 9999600 = 400 ∧
      ((closing 400).node.valve (.draw .one)).opened = false ∧ (closing 400).node.fcu.relOnClose.get .one = true ∧
      ((st id).node.valve .vent).since = none ∧ ((closing 399).node.valve (.draw .one)).since = some 9999601 ∧
      (closing 399).node.now - 9999601 < 400 := by decide

theorem witness_checkBankSearch :
    ∃ s : State, s.node.fcu.phase = .checking ∧ s.node.fcu.check = .claimWait ∧ s.node.fcu.checkBank = none ∧
      s.node.fcu.pauses.bankWait.isSome = true ∧ s.node.fcu.searchAt = some 9999000 ∧ s.node.now - 9999000 = 1000 ∧
      s.node.available .one = true :=
  ⟨st fun n => { checking .claimWait 0 n with fcu := { (checking .claimWait 0 n).fcu with
      checkBank := none, pauses := { Pauses.none with bankWait := some 9990000 }, searchAt := some 9999000 } },
    by decide +kernel⟩

theorem witness_checkSteps_pulse :
    (st (checking .pulse 1000)).node.fcu.phase = .checking ∧ (st (checking .pulse 1000)).node.fcu.check = .pulse ∧
      (st (checking .pulse 1000)).node.fcu.awaiting = false ∧
      (st (checking .pulse 1000)).node.fcu.stepSince = some 9999000 ∧
      (st (checking .pulse 1000)).node.now - 9999000 = 1000 := by decide

/-- A check step with this P_H, accepted `age` ms before. -/
def stepWith (step : CheckStep) (ms attempt p age : Nat) : State := st fun n =>
  { checking step ms n with
    isc.channels.pH := ⟨some p, some (10000000 - age), .ok⟩
    fcu := { (checking step ms n).fcu with attempt := attempt } }

theorem witness_checkSteps_equalize :
    (stepWith .equalize 2000 1 49 200).node.fcu.check = .equalize ∧
      (stepWith .equalize 2000 1 49 200).node.fcu.stepSince = some 9998000 ∧
      (stepWith .equalize 2000 1 49 200).node.olderThan .pH 200 = false ∧
      (stepWith .equalize 2000 1 49 200).node.pH < 50 ∧
      (stepWith .equalize 2000 1 49 201).node.olderThan .pH 200 = true ∧
      hoseLimit (stepWith .equalize 2000 1 8750 0).node.stc.cfg.hose ≤ (stepWith .equalize 2000 1 8750 0).node.pH ∧
      (stepWith .equalize 2000 2 4000 0).node.fcu.attempt ≠ 1 := by decide

theorem witness_checkSteps_hold :
    (stepWith .hold 5000 1 3980 200).node.fcu.check = .hold ∧
      (stepWith .hold 5000 1 3980 200).node.fcu.stepSince = some 9995000 ∧
      (stepWith .hold 5000 1 3980 200).node.olderThan .pH 200 = false ∧
      (stepWith .hold 5000 1 3980 200).node.fcu.p0.getD 0 = (stepWith .hold 5000 1 3980 200).node.pH + 20 ∧
      (stepWith .hold 5000 3 3979 200).node.pH + 20 < (stepWith .hold 5000 3 3979 200).node.fcu.p0.getD 0 ∧
      (stepWith .hold 5000 3 3979 200).node.fcu.attempt = 3 ∧ (stepWith .hold 5000 4 3979 200).node.fcu.attempt = 4 ∧
      (stepWith .hold 5000 2 3979 200).node.fcu.attempt < 3 := by decide

theorem witness_vents :
    (∃ s : State, s.node.fcu.phase = .checking ∧ s.node.fcu.check = .rezero ∧ s.node.fcu.rezeroVent = some 9980000 ∧
        s.node.now - 9980000 = 20000) ∧
      (∃ s : State, s.node.fcu.phase = .venting ∧ s.node.fcu.vvent.opened = true ∧ s.node.fcu.ventSince = some 9980000) :=
  ⟨⟨st fun n => { checking .rezero 0 n with fcu := { (checking .rezero 0 n).fcu with rezeroVent := some 9980000 } },
      by decide⟩,
    ⟨st fun n => { n with fcu := { n.fcu with phase := .venting, vvent := ⟨true, none⟩, ventSince := some 9980000 } },
      by decide⟩⟩

theorem witness_controlPeriod :
    (st filling).node.fcu.phase.filling = true ∧ (st filling).node.fcu.periodNext = some 10000000 ∧
      10000000 ≤ (st filling).node.now := by decide

theorem witness_controlPeriod_meterFault :
    ∃ s : State, s.node.fcu = (st filling).node.fcu ∧ s.node.level .meterFault = true :=
  ⟨st fun n => { filling n with isc.inputs := n.isc.inputs.set .meterFault ⟨true, true, 0⟩ }, by decide +kernel⟩

theorem witness_limits :
    ∃ n : Node, n.fcu.pauses.bankWait = some 9970000 ∧ n.now - 9970000 = 30000 ∧ n.fcu.phase.filling = true :=
  ⟨(st fun n => { filling n with fcu := { (filling n).fcu with
      phase := .paused, pauses := { Pauses.none with bankWait := some 9970000 } } }).node, by decide⟩

/-- A fill with the nozzle coupled. -/
def coupledFill (f : Isc → Isc) : Node := { filling base with
  isc := f { base.isc with inputs := base.isc.inputs.set .coupled ⟨true, true, 0⟩ } }

theorem witness_endTest_loop :
    (coupledFill fun i => { i with loop := .tripped }).isc.loop = .tripped ∧
      (coupledFill fun i => { i with loop := .tripped }).isc.latch = none ∧
      (coupledFill fun i => { i with latch := some .breakaway }).isc.latch = some .breakaway ∧
      (coupledFill fun i => { i with latch := some .hoseRupture }).isc.latch = some .hoseRupture ∧
      (coupledFill fun i => { i with latch := some .overpressure }).isc.latch = some .overpressure ∧
      (coupledFill fun i => { i with latch := some .overpressure }).level .breakaway = false ∧
      (coupledFill fun i => { i with inputs := i.inputs.set .breakaway ⟨true, true, 0⟩ }).level .breakaway = true ∧
      (coupledFill id).isc.loop ≠ .tripped ∧ (coupledFill id).fcu.phase.filling = true := by decide +kernel

theorem witness_endTest_vehicle :
    (coupledFill id).validCommand ≠ some .abort ∧ (coupledFill id).level .coupled = true ∧
      (filling base).level .coupled = false ∧ (coupledFill id).chanFailed .pH = false ∧
      (coupledFill id).chanFailed .tS = false ∧ (coupledFill id).chanFailed .tD = false ∧
      (coupledFill fun i => { i with channels.tD.health := .failed }).chanFailed .tD = true ∧
      (coupledFill fun i => { i with inputs := i.inputs.set .meterFault ⟨true, true, 0⟩ }).level .meterFault = true := by
  decide +kernel

theorem witness_endTest_abort :
    ∃ n : Node, n.validCommand = some .abort ∧ n.isc = (coupledFill id).isc ∧ n.fcu = (coupledFill id).fcu :=
  ⟨{ coupledFill id with vlr := { base.vlr with
      decoder := some ⟨.idle, none, none⟩, declared := some 1, sideA := ⟨some ⟨780, 1480, 3031, .abort⟩, some 1, some 0⟩
      link := .valid } }, by decide +kernel⟩

theorem witness_figures :
    2132 ≤ 2132 ∧ 3832 ≤ 3832 ∧ (filling base).fcu.phase ≠ .paused ∧ (filling base).sourceReady = true ∧
      (filling base).sampleOlder 200 = false ∧
      (filling base).fcu.pRamp + ((filling base).aprrNow + (filling base).fcu.rem) / 600 ≤
        hoseLimit (filling base).stc.cfg.hose ∧
      base.sourceReady = false ∧ ({ filling base with fcu.source := some .direct } : Node).fcu.source = some .direct ∧
      ({ filling base with mpu.slow := true } : Node).mpu.slow = true := by decide +kernel

/-! ## Witnesses: claims, peers, heat -/

theorem witness_settled :
    ∃ s : State, s.node.bcu.find .one .draw = some ⟨.one, .draw, .settling 9999850⟩ ∧ s.node.now - 9999850 = 150 ∧
      s.node.fcu.source ≠ some (.bank .one) ∧ s.node.fcu.phase = .checking ∧ s.node.fcu.check = .claimWait ∧
      s.node.fcu.checkBank = some .one ∧ ({ s.node.fcu.pauses with bankWait := none } : Pauses).any = false :=
  ⟨st fun n => { checking .claimWait 0 n with bcu := ⟨[⟨.one, .draw, .settling 9999850⟩]⟩ }, by decide +kernel⟩

theorem witness_walk :
    (walk 1 0 false [⟨5, 2, .one, .refill⟩, ⟨6, 3, .one, .draw⟩]).1 = [⟨5, 2, .one, .refill⟩] ∧
      (walk 1 0 false [⟨5, 2, .one, .draw⟩, ⟨6, 3, .one, .draw⟩]).2 = [⟨6, 3, .one, .draw⟩] ∧
      (walk 1 0 false (enteredLast ⟨5, 2, .one, .draw⟩ ([⟨5, 3, .one, .draw⟩] ++ [⟨5, 2, .one, .draw⟩]))).2 =
        [⟨5, 2, .one, .draw⟩] := by decide

/-- A STATUS of node 2 in CHECKING that lists one draw claim on bank 1, 50 ms old. -/
def statusOfTwo : LineFrame := ofTwo kindStatus
  ([2, 0, 1, 1, 0, 0x0F, 0xA0, 0, 0, 0, 0, 0, 0, 1, 64, 0, 1, 0x11, 0, 5] ++ List.replicate 9 0)

def statusFields : StatusFields :=
  { phase := .checking, waiting := true, reservation := 4000, raiseAge := 0, comp := .off, refillBank := none,
    latch := false, claims := [⟨.one, .draw, 5⟩] }

/-- The frame arrives at `s` as a frame of a peer that is heard. -/
def Heard (s : State) (f : LineFrame) (kind : BitVec 6) : Prop :=
  receive (wireBits f) = some f ∧ arrivalOf s.node.stc.node f = .peer kind ∧ s.node.hears = true

theorem witness_status :
    Heard (st id) statusOfTwo kindStatus ∧ readStatus statusOfTwo.payload = some statusFields ∧
      readStatus (ofTwo kindStatus []).payload = none ∧ held.node.hears = false := by unfold Heard; decide +kernel

/-- Node 2's entry, its last STATUS `ms` before. -/
def two (ms : Nat) : Peer :=
  { node := 2, stale := false, last := 10000000 - ms, phase := .checking, waiting := true,
    claims := [⟨.one, .draw, 9999000⟩], reservation := 4000, raise := some 9999000, comp := .off, refillBank := none,
    latch := false }

def withTwo (ms : Nat) : State := st fun n => { n with ptb := ⟨[two ms]⟩ }

theorem witness_claim :
    Heard (withTwo 100) (ofTwo kindClaim [0x31]) kindClaim ∧ (withTwo 100).node.ptb.find 2 = some (two 100) ∧
      readClaim [0x31] = some (.three, .draw) ∧ Four.num .three ≤ (withTwo 100).node.stc.cfg.bankCount ∧
      ((two 100).claims.filter fun c => !(decide (c.bank = .three) && decide (c.kind = .draw))).length < 4 ∧
      (withTwo 100).node.bankView .three = [] ∧ 1 ≤ (withTwo 100).node.stc.cfg.drawLimit.get .three := by
  unfold Heard; decide +kernel

theorem witness_release :
    Heard (withTwo 100) (ofTwo kindRelease [0x11]) kindRelease ∧ readClaim [0x11] = some (.one, .draw) := by
  unfold Heard; decide +kernel

theorem witness_heat :
    Heard (withTwo 100) (ofTwo kindHeat [0, 0x0F, 0xA0, 0, 0, 1]) kindHeat ∧
      readHeat [0, 0x0F, 0xA0, 0, 0, 1] = some ⟨4000, 0, true⟩ ∧ (st id).node.ptb.find 2 = none := by
  unfold Heard; decide +kernel

theorem witness_conflict :
    ∃ f : LineFrame, f = ⟨1, 1, 0, kindStatus, []⟩ ∧ receive (wireBits f) = some f ∧ arrivalOf 1 f = .conflict ∧
      (st id).node.hears = true ∧ (st id).node.stc.conflict = false ∧
      (st fun n => { n with stc.conflict := true }).node.stc.conflict = true :=
  ⟨_, rfl, by decide +kernel⟩

theorem witness_entriesAge :
    (withTwo 350).node.ptb.find 2 = some (two 350) ∧ (two 350).stale = false ∧
      (withTwo 350).node.now - (two 350).last = 350 ∧ (withTwo 2000).node.ptb.find 2 = some (two 2000) ∧
      (withTwo 2000).node.now - (two 2000).last = 2000 := by decide

theorem witness_evaluation :
    ∃ s : State, s.node.hsu.gridNext = some s.node.now ∧ s.node.quietAtLeast 1800 = true :=
  ⟨st fun n => { filling n with hsu.gridNext := some 10000000, liu.quietSince := some 9998200 }, by decide⟩

/-! ## Witnesses: compressor -/

theorem witness_survey_none :
    ∃ s : State, s.node.ccu.surveyNext = some s.node.now ∧ s.node.ccu.state = .off ∧ s.node.refillCandidates none = [] :=
  ⟨st fun n => { n with isc.channels.pB := Quad.const .startUp }, by decide +kernel⟩

theorem witness_survey_starts :
    ∃ s : State, s.node.ccu.surveyNext = some s.node.now ∧ s.node.ccu.state = .off ∧
      s.node.refillCandidates none = [.one] ∧ s.node.startPermitted = true ∧ s.node.ccu.claim = none ∧
      s.node.ccu.direct = .none ∧ s.node.requestRefused .one .refill = false ∧ urgentCount s.node.liu.queue < 5 ∧
      s.node.liu.queue.length < 10 :=
  ⟨st fun n => { n with isc.channels.pB := ⟨rec 3999, rec 6800, rec 9000, .startUp⟩ }, by decide +kernel⟩

/-- A compressor in a state that began `ms` before. -/
def compressor (c : CompState) (ms : Nat) (f : Ccu → Ccu) : State := st fun n => { n with
  ccu := f { n.ccu with state := c, since := 10000000 - ms } }

theorem witness_compressorTimers :
    (∃ s : State, s = compressor .starting 5000 (fun c => { c with claim := some ⟨.one, .held⟩ }) ∧
        s.node.ccu.state = .starting ∧ s.node.now - s.node.ccu.since = 5000 ∧ s.node.ccu.direct ≠ .pending ∧
        s.node.ccu.claim = some ⟨.one, .held⟩ ∧ s.node.ccu.hold = false) ∧
      (∃ s : State, s = compressor .starting 5000 (fun c => { c with direct := .pending }) ∧
        s.node.ccu.direct = .pending ∧ s.node.ccu.hold = false) ∧
      (∃ s : State, s = compressor .idleRun 0 (fun c => { c with runSince := some 9880000 }) ∧
        s.node.ccu.state = .idleRun ∧ s.node.ccu.claim = none ∧ s.node.ccu.direct = .none ∧
        s.node.ccu.runSince = some 9880000 ∧ s.node.now - 9880000 = 120000) ∧
      (∃ s : State, s = compressor .stopping 10000 id ∧ s.node.ccu.state = .stopping ∧
        s.node.now - s.node.ccu.since = 10000) ∧
      (∃ s : State, s = compressor .lockout 600000 id ∧ s.node.ccu.state = .lockout ∧
        s.node.now - s.node.ccu.since = 600000) :=
  ⟨⟨_, rfl, by decide⟩, ⟨_, rfl, by decide⟩, ⟨_, rfl, by decide⟩, ⟨_, rfl, by decide⟩, ⟨_, rfl, by decide⟩⟩

/-! ## Witnesses: metering -/

theorem witness_pulses :
    (st fun n => { n with mpu.windowOpen := true }).node.mpu.windowOpen = true ∧ (st id).node.inRun = true ∧
      (st id).node.mpu.windowOpen = false ∧ held.node.inRun = false ∧
      (st fun n => { n with mpu.pending := 19989 }).node.mpu.pending +
        (st fun n => { n with mpu.pending := 19989 }).node.stc.cfg.pulseWeight = 19999 := by decide

theorem witness_creep :
    ∃ s : State, s.node.mpu.creepWindow = some ⟨9940000, 10⟩ ∧ s.node.now - 9940000 = 60000 ∧
      s.node.mpu.quietSince = some 9940000 ∧ 0 < s.node.mpu.pending ∧ s.node.rst.write = none ∧
      s.node.rst.recordMark = none ∧ s.node.rst.requests = [] ∧ s.node.rst.creepMark = none :=
  ⟨st fun n => { n with mpu := { n.mpu with creepWindow := some ⟨9940000, 10⟩, quietSince := some 9940000, pending := 10 } },
    by decide⟩

/-- PRICE with a row and a price. -/
def priceFrame (row : Byte) (p : List Byte) : LineFrame := command kindPrice (row :: p)

theorem witness_price :
    receive (wireBits (priceFrame 4 [0x0F, 0x42, 0x3F])) = some (priceFrame 4 [0x0F, 0x42, 0x3F]) ∧
      arrivalOf 1 (priceFrame 4 [0x0F, 0x42, 0x3F]) = .command kindPrice ∧ (st id).node.stc.phase = .run ∧
      (priceFrame 4 [0x0F, 0x42, 0x3F]).payload.length = 4 ∧
      fieldAt (priceFrame 4 [0x0F, 0x42, 0x3F]).payload 0 1 = Four.num .four ∧
      fieldAt (priceFrame 4 [0x0F, 0x42, 0x3F]).payload 1 3 = 999999 ∧
      fieldAt (priceFrame 0 [0, 0, 0]).payload 0 1 < 1 ∧ 4 < fieldAt (priceFrame 5 [0, 0, 0]).payload 0 1 ∧
      999999 < fieldAt (priceFrame 1 [0x0F, 0x42, 0x40]).payload 1 3 := by decide +kernel

/-! ## Witnesses: record store -/

def image : Image := ⟨63, 500, 0, RecordBody.blank, 0⟩

/-- A store with this write in progress. -/
def writing (w : Write) : State := st fun n => { n with rst.write := some w }

theorem witness_writes :
    (writing (.record .create image)).node.rst.write = some (.record .create image) ∧
      (writing (.record .checkpoint image)).node.rst.write = some (.record .checkpoint image) ∧
      (writing (.record .close image)).node.rst.write = some (.record .close image) ∧
      (writing (.creep 1310)).node.rst.write = some (.creep 1310) ∧
      (writing (.collect 63 500 9)).node.rst.write = some (.collect 63 500 9) := by decide +kernel

/-- A store whose slot 1 holds record 500 in this state, with `k` requests waiting. -/
def holding (s : SlotState) (k : Nat) : State := st fun n => { n with
  rst := { n.rst with
    table := ⟨s, 500⟩ :: List.replicate 63 ⟨.free, 0⟩, requests := List.replicate k ⟨.query, 0, 9, 0⟩ } }

/-- A command that names record 500. -/
def about500 (kind : BitVec 6) : LineFrame := command kind [0x01, 0xF4]

theorem witness_requests_frames :
    Arrives (st id) (about500 kindQuery) kindQuery ∧ Arrives (st id) (about500 kindCollect) kindCollect ∧
      Arrives (st id) (command kindReadTotals []) kindReadTotals ∧
      kindLength (about500 kindQuery).kind = some (about500 kindQuery).payload.length ∧
      (about500 kindQuery).destination.toNat ≠ 0 ∧ fieldAt (about500 kindQuery).payload 0 2 = 500 ∧
      fieldAt (command kindCollect [0, 0]).payload 0 2 = 0 := by unfold Arrives; decide +kernel

theorem witness_requests_waiting :
    (holding .closed 4).node.rst.requests.length = 4 ∧ (holding .closed 3).node.rst.requests.length < 4 ∧
      (writing (.creep 1310)).node.rst.requests.length < 4 ∧ (writing (.creep 1310)).node.rst.write.isSome = true := by
  decide

theorem witness_requests_served :
    (holding .closed 0).node.rst.requests = [] ∧ (holding .closed 0).node.rst.write = none ∧
      (holding .closed 0).node.rst.recordMark = none ∧ (holding .closed 0).node.rst.creepMark = none ∧
      (holding .closed 0).node.rst.queried 500 = some 0 ∧ (holding .closed 0).node.rst.queried 501 = none ∧
      (holding .closed 0).node.rst.queried 0 = some 0 ∧ (st id).node.rst.queried 0 = none ∧
      (holding .closed 0).node.rst.table[0]? = some ⟨.closed, 500⟩ ∧
      (holding .closed 0).node.rst.slots[0]? = some .blank ∧ (holding .closed 0).node.rst.slotOf 500 = some 0 ∧
      (holding .closed 0).node.rst.slotOf 501 = none ∧ (holding .opened 0).node.rst.slotOf 500 = some 0 ∧
      (holding .opened 0).node.rst.table[0]? = some ⟨.opened, 500⟩ ∧
      (holding .collected 0).node.rst.table[0]? = some ⟨.collected, 500⟩ ∧
      (holding .damaged 0).node.rst.table[0]? = some ⟨.damaged, 500⟩ := by decide +kernel

/-! ## Witnesses: line -/

theorem witness_queue :
    (full.liu.queue.Pairwise fun x y => x.body.cls ≤ y.body.cls) ∧ full.liu.queue.any (QFrame.waits .status) = true ∧
      (FrameBody.claim .one .draw).cls = 0 ∧ full.liu.queue.any (QFrame.waits (.claim .one .draw)) = false ∧
      urgentCount full.liu.queue = 5 ∧ (FrameBody.recordA 9 []).cls = 2 ∧ (FrameBody.recordA 9 []).isProgress = false ∧
      full.liu.queue.length = 10 ∧ (FrameBody.answer 9 kindStop .ok 0).cls ≠ 2 ∧
      (∃ x ∈ [QFrame.fresh (.progress 9)], x.body.cls = 2 ∧ x.onWire = false) ∧
      [QFrame.fresh (.progress 9)].any (QFrame.waits (.claim .one .draw)) = false ∧
      urgentCount [QFrame.fresh (.progress 9)] < 5 := by decide +kernel

/-- A node with this frame on the wire. -/
def sending (b : FrameBody) (faults : Nat) (f : Node → Node) : State := st fun n => f { n with
  liu := { n.liu with queue := [⟨b, faults, true, false⟩], wire := some (n.form b), consecutive := 15 } }

theorem witness_attempt :
    ∃ s : State, s.node.liu.queue = [.fresh .status] ∧ s.node.stc.phase = .startFault ∧ s.node.liu.silentSince = none ∧
      s.node.liu.wire = none :=
  ⟨st fun n => { n with stc.phase := .startFault, liu.queue := [.fresh .status] }, by decide +kernel⟩

theorem witness_sentStatus :
    (sending .status 0 id).node.liu.queue = [⟨.status, 0, true, false⟩] ∧
      (sending .status 0 id).node.liu.wire = some (base.form .status) ∧
      (sending .status 0 id).node.liu.quietSince = some 9999950 ∧ (sending .status 0 id).node.ccu.hold = false := by
  decide +kernel

/-- A node whose CLAIM for bank 1 is on the wire. -/
def claiming : State := sending (.claim .one .draw) 2 fun n => { n with bcu := ⟨[⟨.one, .draw, .requested⟩]⟩ }

theorem witness_sentClaim :
    claiming.node.liu.queue = [⟨.claim .one .draw, 2, true, false⟩] ∧
      claiming.node.liu.wire = some (base.form (.claim .one .draw)) ∧ claiming.node.claimsBounded ∧
      claiming.node.bcu.find .one .draw = some ⟨.one, .draw, .requested⟩ ∧ claiming.node.bankView .one = [] ∧
      1 ≤ claiming.node.stc.cfg.drawLimit.get .one := by decide +kernel

/-- The class of a STATUS is 01: its second bit, position 9, is recessive. -/
theorem witness_yield :
    (sending .status 0 id).node.liu.wire = some (base.form .status) ∧ 8 ≤ 9 ∧ 9 < 14 ∧
      (wireBits (base.form .status))[9]? = some true := by decide +kernel

theorem witness_lineFault :
    (sending .status 2 id).node.liu.queue = [⟨.status, 2, true, false⟩] ∧
      7 < (wireBits (base.form .status)).length ∧ 14 < (wireBits (base.form .status)).length ∧
      (wireBits (base.form .status))[8]? = some false ∧ (sending .status 2 id).node.liu.consecutive = 15 ∧
      (st id).node.liu.consecutive < 15 ∧ (sending .heat 2 id).node.liu.wire = some (base.form .heat) := by decide +kernel

theorem witness_lineSilentEnd : ∃ s : State, s.node.liu.silentSince = some 9999000 ∧ s.node.now - 9999000 = 1000 :=
  ⟨st fun n => { n with liu.silentSince := some 9999000 }, by decide⟩

theorem witness_grids :
    (st id).node.liu.statusNext = some (st id).node.now ∧
      (∃ s : State, s.node.liu.progressNext = some s.node.now ∧ s.node.fcu.auth = some auth) :=
  ⟨by decide, ⟨st fun n => { filling n with liu.progressNext := some 10000000 }, by decide⟩⟩

theorem witness_quietTimer :
    (∃ s : State, s.node.liu.quietSince = some 9999000 ∧ s.node.now - 9999000 = 1000 ∧ s.node.fcu.phase.filling = true) ∧
      (∃ s : State, s.node.liu.quietSince = some 9998200 ∧ s.node.now - 9998200 = 1800 ∧
        s.node.fcu.phase.filling = true) ∧ (st id).node.fcu.phase.filling = false :=
  ⟨⟨st fun n => { filling n with liu.quietSince := some 9999000 }, by decide⟩,
    ⟨st fun n => { filling n with liu.quietSince := some 9998200 }, by decide⟩, by decide⟩

/-- The node after a command; `Node.reset` where it does not complete. -/
def after (c : Instr) (s : State) : Node :=
  match exec c s with
  | .next t => t.node
  | _ => .reset

/-! ## Witnesses: the values before a limit, and what a converter answer sets off -/

/-- Timers one ms before their limits: those of 5,000 ms, 2,000 ms, 1,000 ms and so on, the states of the compressor by
the limit `l` of its timer. -/
def early (l : Nat) : Node := { base with
  isc := { base.isc with cycle := some ⟨[.tA], true, 9999999⟩, loop := .recovering 9995001, channels.pH := ⟨some 4000, some 9998000, .ok⟩ }
  vlr := { base.vlr with
    decoder := some ⟨.idle, none, some 9999998⟩, sideA := ⟨none, none, some 999⟩, sideB := ⟨none, none, some 0⟩ }
  fcu := { base.fcu with
    authSince := some 9880001, stepSince := some (10000001 - l), rezeroVent := some 9980001, ventSince := some 9980001
    periodNext := some 10000001, searchAt := some 9999001 }
  bcu := ⟨[⟨.one, .draw, .settling 9999851⟩]⟩
  hsu.gridNext := some 10000001
  ccu := { base.ccu with
    state := .starting, since := 10000001 - l, runSince := some 9880001, absentSince := some 9998001
    starts := [6400001], surveyNext := some 10000001 }
  mpu := { base.mpu with creepWindow := some ⟨9940001, 10⟩, quietSince := some 9940001 }
  liu := { base.liu with
    silentSince := some 9999001, statusNext := some 10000001, progressNext := some 10000001, quietSince := some 9999001 } }

theorem witness_earlyTimers_early :
    (early 0).now - 9999999 = 1 ∧ (early 0).olderThan .pH 2000 = false ∧ (early 0).now - 9995001 = 4999 ∧
      (early 0).vlr.decoder = some ⟨.idle, none, some 9999998⟩ ∧ (early 0).now - 9999998 ≤ 2 ∧
      (early 0).vlr.declares .b = false ∧ ((early 0).vlr.side .a).age = some 999 ∧
      (early 0).fcu.authSince = some 9880001 ∧ (early 0).now - 9880001 = 119999 ∧
      (early 1000).fcu.stepSince = some 9999001 ∧ (early 1000).now - 9999001 = 999 ∧
      (early 2000).fcu.stepSince = some 9998001 ∧ (early 5000).fcu.stepSince = some 9995001 ∧
      (early 0).now - 9980001 = 19999 ∧ (early 0).fcu.periodNext = some 10000001 ∧ (early 0).now < 10000001 ∧
      (early 0).fcu.searchAt = some 9999001 ∧ (early 0).bcu.find .one .draw = some ⟨.one, .draw, .settling 9999851⟩ ∧
      (early 0).now - 9999851 = 149 ∧ (early 0).now - (early 5000).ccu.since = 4999 ∧
      (early 0).now - (early 10000).ccu.since = 9999 ∧ (early 0).now - (early 600000).ccu.since = 599999 ∧
      (early 0).now - 9998001 = 1999 ∧ (∀ a ∈ (early 0).ccu.starts, (early 0).now - a = 3599999) ∧
      (early 0).now - 9940001 = 59999 ∧ (early 0).liu.silentSince = some 9999001 := by decide +kernel

theorem witness_earlyTimers_entries :
    (withTwo 349).node.ptb.find 2 = some (two 349) ∧ (withTwo 349).node.now - (two 349).last = 349 ∧
      (withTwo 1999).node.now - (two 1999).last = 1999 ∧ { two 9 with stale := true }.stale = true := by decide

theorem witness_earlyTimers_quiet :
    (∃ s : State, s.node.vlr.decoder = some ⟨.idle, none, none⟩) ∧
      ∃ s : State, s.node.liu.quietSince = some 9998201 ∧ s.node.now - 9998201 = 1799 :=
  ⟨⟨st fun n => { n with vlr.decoder := some ⟨.idle, none, none⟩ }, rfl⟩,
    ⟨st fun n => { n with liu.quietSince := some 9998201 }, by decide⟩⟩

/-- Commands with a payload of a wrong length, and with the right one. -/
def wrongLengths : List LineFrame :=
  [command kindEsdClear [0], command kindStop [0], command kindAuthorize [], command kindPrice [0], command kindQuery [1],
    command kindCollect [1, 2, 3], command kindReadTotals [0]]

def rightLengths (dest : BitVec 4) : List LineFrame :=
  [⟨1, 9, dest, kindEsdClear, []⟩, ⟨1, 9, dest, kindStop, []⟩, ⟨1, 9, dest, kindAuthorize, List.replicate 8 0⟩,
    ⟨1, 9, dest, kindPrice, [1, 0, 0, 0]⟩, ⟨1, 9, dest, kindQuery, [0, 1]⟩, ⟨1, 9, dest, kindCollect, [0, 1]⟩,
    ⟨1, 9, dest, kindReadTotals, []⟩]

theorem witness_gate_wrongLength : ∀ f ∈ wrongLengths,
    receive (wireBits f) = some f ∧ arrivalOf 1 f = .command f.kind ∧ kindLength f.kind ≠ some f.payload.length := by
  decide +kernel

theorem witness_gate_addressZero : ∀ f ∈ rightLengths 0,
    receive (wireBits f) = some f ∧ arrivalOf 1 f = .command f.kind ∧ f.destination.toNat = 0 := by decide +kernel

theorem witness_gate_notReady :
    (∀ f ∈ rightLengths 1, receive (wireBits f) = some f ∧ arrivalOf 1 f = .command f.kind ∧
      kindLength f.kind = some f.payload.length ∧ f.destination.toNat ≠ 0) ∧
    (st fun n => { n with stc.phase := .startFault }).node.stc.phase = .startFault ∧
    (st fun n => { n with stc.phase := .listen }).node.stc.phase ≠ .run ∧
    (st fun n => { n with stc.phase := .listen }).node.stc.phase ≠ .startFault ∧ (st id).node.stc.phase = .run := by
  decide +kernel

/-- A node that waits for the answer of this channel, its request 2 ms old. -/
def awaiting (c : Channel) (f : Node → Node) : State := st fun n =>
  { f n with isc := { (f n).isc with cycle := some ⟨[c], true, 9999998⟩ } }

theorem awaiting_awaits (c : Channel) (f : Node → Node) (h : (f base).now = 10000000) : (awaiting c f).awaits c :=
  ⟨[], 9999998, rfl, by show (f base).now - 9999998 ≤ 2; omega⟩

theorem witness_answers_others :
    (∃ s : State, s.node.isc.cycle = some ⟨[.tA], false, 9999998⟩) ∧
      ∃ s : State, s.node.isc.cycle = some ⟨[.tA], true, 9999997⟩ ∧ s.node.now - 9999997 = 3 :=
  ⟨⟨st fun n => { n with isc.cycle := some ⟨[.tA], false, 9999998⟩ }, rfl⟩,
    ⟨st fun n => { n with isc.cycle := some ⟨[.tA], true, 9999997⟩ }, by decide⟩⟩

theorem witness_scanCycles_early :
    ∃ s : State, s.node.isc.cycle = some ⟨[.tA], true, 9999999⟩ ∧ s.node.now - 9999999 = 1 :=
  ⟨st fun n => { n with isc.cycle := some ⟨[.tA], true, 9999999⟩ }, by decide⟩

theorem witness_lockout_answer :
    (awaiting .tC loaded).awaits .tC ∧ (awaiting .tC loaded).node.cmRun = true ∧
      codeOfCurrent .tC (16800#16).toNat = 4332 ∧ (awaiting .pC loaded).awaits .pC ∧ (3599#16).toNat = 3599 ∧
      ((awaiting .pC loaded).node.chan .pC).health = .ok :=
  ⟨awaiting_awaits _ _ rfl, by decide +kernel, by decide, awaiting_awaits _ _ rfl, by decide, by decide +kernel⟩

/-- A fill with flow whose P_H stood at 8900 some time ago. -/
def flowing (ago : Nat) : Node → Node := fun n => { filling n with
  fcu := { (filling n).fcu with fCmd := 10, window := [(8900, 10000000 - ago)] } }

theorem witness_pressure :
    (awaiting .pH (flowing 1000)).awaits .pH ∧
      hoseLimit (awaiting .pH (flowing 1000)).node.stc.cfg.hose + 200 + 1 = codeOfCurrent .pH (18322#16).toNat ∧
      codeOfCurrent .pH (18320#16).toNat = hoseLimit (awaiting .pH (flowing 1000)).node.stc.cfg.hose + 200 ∧
      codeOfCurrent .pH (17438#16).toNat + 500 + 1 = 8900 ∧ codeOfCurrent .pH (17440#16).toNat + 500 = 8900 ∧
      (awaiting .pH (flowing 1000)).node.isc.latch = none ∧ 0 < (awaiting .pH (flowing 1000)).node.fcu.fCmd ∧
      (∃ p ∈ (awaiting .pH (flowing 1000)).node.fcu.window, (awaiting .pH (flowing 1000)).node.now - p.2 = 1000) ∧
      (∀ p ∈ (awaiting .pH (flowing 1001)).node.fcu.window, (awaiting .pH (flowing 1001)).node.now - p.2 = 1001) ∧
      (awaiting .pH (flowing 1000)).node.fcu.phase.filling = true :=
  ⟨awaiting_awaits _ _ rfl, by decide +kernel⟩

theorem witness_scanClose :
    ∃ s : State, s.node.stc.phase = .storeScan ∧ s.node.rst.write = some (.scanClose 0) ∧
      s.node.rst.slots[0]? = some (.make .opened 500 65535 { RecordBody.blank with gross := 16777215 }) ∧
      ({ RecordBody.blank with gross := 16777215 } : RecordBody).unitPrice < 16777216 :=
  ⟨st fun n => { n with stc.phase := .storeScan, rst := { n.rst with
      write := some (.scanClose 0)
      slots := .make .opened 500 65535 { RecordBody.blank with gross := 16777215 } :: List.replicate 63 .blank } },
    rfl, rfl, rfl, by decide⟩

/-! ## Witnesses: vehicle link and fill, the further clauses -/

/-- Side B heard, side A not yet, in ABSENT. -/
def halfHeard (ageB : Nat) : State := st fun n => { n with vlr := { n.vlr with
  decoder := some ⟨.idle, none, none⟩, declared := some 2, sideB := ⟨some ⟨820, 1510, 3047, .run⟩, some 3, some ageB⟩ } }

theorem witness_vehicleFrames_valid :
    (halfHeard 999).node.vlr.link = .absent ∧ (after (.vehicleFrame vehicleA) (halfHeard 999)).vlr.allFresh = true ∧
      (after (.vehicleFrame vehicleA) (halfHeard 999)).vlr.volume = some 1600 ∧
      (after (.vehicleFrame vehicleA) (halfHeard 1000)).vlr.allFresh = false := by decide +kernel

/-- A COMM fill whose vehicle reports this pressure, at this temperature and with this command. -/
def comm (p t : Nat) (c : VehicleCmd) (n : Node) : Node := { n with
  fcu.kind := some .comm
  vlr := { n.vlr with
    decoder := some ⟨.idle, none, none⟩, declared := some 1, sideA := ⟨some ⟨780, p, t, c⟩, some 1, some 0⟩
    link := .valid } }

theorem witness_reject :
    (comm 4200 3000 .run (filling base)).vlr.link = .valid ∧ (comm 4200 3000 .run (filling base)).fcu.kind = some .comm ∧
      (comm 4200 3000 .run (filling base)).fcu.phase.ramping = true ∧ base.vlr.link ≠ .valid ∧
      (comm 4201 3000 .run (filling base)).vlr.combined = some ⟨4201, 3000, .run⟩ ∧ base.pH + 200 = 4200 ∧
      base.vlr.combined = none ∧ (filling base).fcu.kind ≠ some .comm := by decide +kernel

theorem witness_edges_others :
    (∃ s : State, s.node.vlr.decoder = some ⟨.discarding, some ⟨2237, false⟩, none⟩) ∧
      (∃ s : State, s.node.vlr.decoder = some ⟨.idle, some ⟨2237, false⟩, none⟩ ∧ s.node.stc.cfg.carrier = 263) ∧
      (⟨1237, false⟩ : Burst).validMark 263 = true ∧ (⟨1236, false⟩ : Burst).validMark 263 = false ∧
      (⟨3237, false⟩ : Burst).validMark 263 = true ∧ (⟨3238, false⟩ : Burst).validMark 263 = false ∧
      (⟨2237, true⟩ : Burst).validMark 263 = false ∧ 295 = 263 + 263 / 8 ∧ 263 + 263 / 8 < 1763 ∧ 1763 - 263 = 1500 ∧
      10262 - 263 < 10000 :=
  ⟨⟨st fun n => { n with vlr.decoder := some ⟨.discarding, some ⟨2237, false⟩, none⟩ }, rfl⟩,
    ⟨st fun n => { n with vlr.decoder := some ⟨.idle, some ⟨2237, false⟩, none⟩ }, by decide⟩, by decide⟩

theorem witness_quietLine_others :
    (receivingBits 112).node.now - 9999997 = 3 ∧ (List.replicate 111 true).length ≠ 112 ∧
      (∃ s : State, s.node.vlr.decoder = some ⟨.receiving (List.replicate 112 true), some ⟨2237, true⟩, some 9999997⟩ ∧
        (⟨2237, true⟩ : Burst).validMark s.node.stc.cfg.carrier = false) ∧
      ∃ s : State, s.node.vlr.decoder = some ⟨.idle, none, some 9999997⟩ :=
  ⟨by decide, by decide,
    ⟨st fun n => { n with
      vlr.decoder := some ⟨.receiving (List.replicate 112 true), some ⟨2237, true⟩, some 9999997⟩ }, by decide⟩,
    ⟨st fun n => { n with vlr.decoder := some ⟨.idle, none, some 9999997⟩ }, rfl⟩⟩

theorem witness_stop_phases :
    Arrives (st filling) (command kindStop []) kindStop ∧ Arrives ready (command kindStop []) kindStop := by
  unfold Arrives; decide +kernel

/-- A check that waits for a bank, with these bank pressures. -/
def seeking (p : Quad ChannelRec) : State := st fun n => { checking .claimWait 0 n with
  isc.channels.pB := p
  fcu := { (checking .claimWait 0 n).fcu with
    checkBank := none, pauses := { Pauses.none with bankWait := some 9990000 }, searchAt := some 9999000 } }

theorem witness_checkBankSearch_found :
    (seeking ⟨.startUp, rec 6800, rec 8400, .startUp⟩).node.grants .two .draw ∧
      (∀ c : Bank, c.num < Four.num .two → ¬ (seeking ⟨.startUp, rec 6800, rec 8400, .startUp⟩).node.grants c .draw) ∧
      (∀ b : Bank, ¬ (seeking (Quad.const .startUp)).node.grants b .draw) :=
  ⟨by decide +kernel, fun c => by cases c <;> decide +kernel, fun b => by cases b <;> decide +kernel⟩

/-- A fill in RAMPING that waits for a bank above bank 1, with these bank pressures. -/
def rampSeeking (p : Quad ChannelRec) (f : Node → Node) : State := st fun n => f { filling n with
  isc.channels.pB := p
  fcu := { (filling n).fcu with
    phase := .paused, source := none, lastSource := some (.bank .one), target := none
    pauses := { Pauses.none with bankWait := some 9990000 }, searchAt := some 9999000 } }

/-- The lowest bank that fits stands exactly 2.00 MPa above P_H. -/
theorem witness_rampSearch_fits :
    ∃ s : State, s.node.fcu.phase.ramping = true ∧ s.node.fcu.target = none ∧ s.node.fcu.source ≠ some .direct ∧
      s.node.fcu.lastSource = some (.bank .one) ∧ s.node.fcu.pauses.bankWait.isSome = true ∧
      s.node.fcu.searchAt = some 9999000 ∧ s.node.now - 9999000 = 1000 ∧ s.node.pH + 200 = s.node.pB .two ∧
      s.node.grants .two .draw :=
  ⟨rampSeeking ⟨rec 8000, rec 4200, rec 8400, .startUp⟩ id, by decide +kernel⟩

theorem witness_rampSearch_none (f : Node → Node) (hf : ∀ n, (f n).isc = n.isc) :
    ∀ b : Bank, ¬ (Four.num .one < b.num ∧ (rampSeeking ⟨rec 8000, rec 4199, rec 4199, .startUp⟩ f).node.pH + 200 ≤
      (rampSeeking ⟨rec 8000, rec 4199, rec 4199, .startUp⟩ f).node.pB b ∧
      (rampSeeking ⟨rec 8000, rec 4199, rec 4199, .startUp⟩ f).node.grants b .draw) := by
  intro b h
  have h2 := h.2.1
  simp only [rampSeeking, st, Node.pH, Node.pB, Node.chan, hf] at h2
  revert h2
  have h1 := h.1
  revert h1
  cases b <;> decide +kernel

theorem witness_rampSearch_ends :
    (∃ s : State, s.node.stc.cfg.directAllowed = false ∧ s.node.fcu.source = none ∧
        s = rampSeeking ⟨rec 8000, rec 4199, rec 4199, .startUp⟩ (fun n => { n with stc.cfg.directAllowed := false })) ∧
      (∃ s : State, s.node.fcu.source = some (.bank .three) ∧ s.node.pH + 50 ≤ s.node.pB .three ∧
        s = rampSeeking ⟨rec 8000, rec 4199, rec 4199, .startUp⟩ (fun n => { n with fcu.source := some (.bank .three) })) ∧
      (∃ s : State, s.node.fcu.source = some (.bank .three) ∧ s.node.pB .three < s.node.pH + 50 ∧
        s = rampSeeking ⟨rec 8000, rec 4199, rec 4049, .startUp⟩ (fun n => { n with fcu.source := some (.bank .three) })) :=
  ⟨⟨_, by decide, by decide, rfl⟩, ⟨_, by decide, by decide, rfl⟩, ⟨_, by decide, by decide, rfl⟩⟩

theorem witness_rampSearch_direct :
    (rampSeeking ⟨rec 8000, rec 4199, rec 4199, .startUp⟩ id).node.stc.cfg.directAllowed = true ∧
      (directRequest (rampSeeking ⟨rec 8000, rec 4199, rec 4199, .startUp⟩ fun n => { n with
        ccu.state := .idleRun }).node).2 = true ∧
      (directRequest (rampSeeking ⟨rec 8000, rec 4199, rec 4199, .startUp⟩ fun n => { n with
        ccu.state := .lockout }).node).2 = false := by decide +kernel

/-- The end of EQUALIZE of a first attempt at P_H 4000 with vehicle data. -/
def equalizing (p t : Nat) (tA : ChannelRec) : Node := { comm p t .run (checking .equalize 2000 base) with
  isc.channels.tA := tA }

theorem witness_checkSteps_vehicle :
    (equalizing 4200 3000 (rec 2932)).vlr.link = .valid ∧
      (equalizing 4200 3000 (rec 2932)).vlr.combined = some ⟨4200, 3000, .run⟩ ∧ base.pH + 200 = 4200 ∧
      (equalizing 3799 3000 (rec 2932)).vlr.combined = some ⟨3799, 3000, .run⟩ ∧ 3799 + 200 < base.pH ∧
      50 ≤ base.pH ∧ base.pH < hoseLimit base.stc.cfg.hose ∧
      soc base.stc.cfg.hose base.pH 3000 < base.stc.cfg.commTarget ∧
      soc base.stc.cfg.hose base.pH base.tA < base.stc.cfg.nonCommTarget ∧
      (checking .equalize 2000 base).vlr.link ≠ .valid ∧
      base.stc.cfg.nonCommTarget ≤ soc base.stc.cfg.hose 8000 2932 := by decide +kernel

theorem witness_checkSteps_awaited :
    (awaiting .pH fun n => { checking .equalize 2000 n with fcu.awaiting := true }).awaits .pH ∧
      (awaiting .pH fun n => { checking .hold 5000 n with fcu.awaiting := true, fcu.attempt := 4 }).awaits .pH ∧
      codeOfCurrent .pH (4078#16).toNat = 49 ∧ codeOfCurrent .pH (10368#16).toNat + 20 = 4000 ∧
      codeOfCurrent .pH (10366#16).toNat + 20 < 4000 ∧
      (awaiting .pH fun n => { checking .hold 5000 n with fcu.awaiting := true, fcu.attempt := 4 }).node.fcu.p0 =
        some 4000 ∧
      (awaiting .pH fun n => { checking .equalize 2000 n with fcu.awaiting := true }).node.fcu.fCmd = 0 :=
  ⟨awaiting_awaits _ _ rfl, awaiting_awaits _ _ rfl, by decide, by decide, by decide, by decide, by decide⟩

/-- A fill whose last draw valve has travelled for 400 ms. -/
def lastValve : State := st fun n => { n with fcu := { n.fcu with
  phase := .closing, vb := n.fcu.vb.set .two ⟨false, some 9999600⟩ } }

theorem witness_vents_begin :
    lastValve.node.fcu.phase = .closing ∧ lastValve.node.fcu.vb.get .two = ⟨false, some 9999600⟩ ∧
      lastValve.node.now - 9999600 = 400 ∧ (∀ c : Bank, c ≠ .two → lastValve.node.fcu.vb.get c = ⟨false, none⟩) :=
  ⟨by decide, by decide, by decide, fun c => by cases c <;> decide⟩

theorem witness_vents_low :
    ∃ s : State, s.awaits .pH ∧ codeOfCurrent .pH (4078#16).toNat = 49 ∧ s.node.fcu.phase = .venting ∧
      s.node.fcu.vvent.opened = true ∧ s.node.fcu.fCmd = 0 :=
  ⟨awaiting .pH fun n => { n with fcu := { n.fcu with phase := .venting, vvent := ⟨true, none⟩ } },
    awaiting_awaits _ _ rfl, by decide⟩

/-- The vent valve has closed: the figures of the close are due. -/
def vented (w : Option Write) : State := st fun n => { n with
  fcu := { n.fcu with phase := .venting, vvent := ⟨false, some 9999600⟩, pEnd := some 8400, tEnd := some 2432 }
  mpu := { n.mpu with terms := some ⟨13950, .amount, 5000, 358422⟩, gross := 360724 }
  rst := { n.rst with image := some ⟨63, 500, 0, RecordBody.blank, 0⟩, write := w } }

theorem witness_vents_close :
    (vented none).node.fcu.phase = .venting ∧ (vented none).node.fcu.vvent = ⟨false, some 9999600⟩ ∧
      (vented none).node.fcu.pEnd = some 8400 ∧ (vented none).node.fcu.tEnd = some 2432 ∧
      (vented none).node.mpu.terms = some ⟨13950, .amount, 5000, 358422⟩ ∧
      (vented none).node.rst.image = some ⟨63, 500, 0, RecordBody.blank, 0⟩ ∧ (vented none).node.rst.write = none ∧
      (vented none).node.rst.recordMark = none ∧ (vented none).node.rst.creepMark = none ∧
      (vented none).node.rst.requests = [] ∧ (vented (some (.creep 10))).node.rst.write.isSome = true := by decide +kernel

theorem witness_controlPeriod_steps :
    (periodPauses (filling base)).fcu.phase.ramping = true ∧
      (periodPauses (checking .hold 100 base)).fcu.phase = .checking := by decide +kernel

/-- A fill with this pause reason active from this instant. -/
def pausedBy (r : PauseReason) (at' : Nat) (n : Node) : Node := { n with fcu := { n.fcu with
  phase := .paused, pauses := Pauses.none.set r (some at') } }

theorem witness_limits_pauses :
    (filling base).fcu.phase.ramping = true ∧
      (evaluatePauses { filling base with hsu.waiting := true }).fcu.pauses.any = true ∧
      (pausedBy .heatShare 9990000 (filling base)).fcu.phase = .paused ∧
      (evaluatePauses (pausedBy .heatShare 9990000 (filling base))).fcu.pauses.any = false ∧
      (pausedBy .heatShare 9990000 (filling base)).fcu.pauses.lineQuiet = none ∧
      (pausedBy .heatShare 9990000 (filling base)).sourceReady = true ∧
      ({ pausedBy .heatShare 9990000 (filling base) with fcu.source := none } : Node).sourceReady = false := by
  decide +kernel

/-- A PAUSED fill on bank 2 without a call for flow, whose last search ended without a target, at this bank pressure. -/
def stranded (p : Nat) : Node := { pausedBy .heatShare 9990000 (coupledFill id) with
  isc.channels.pB := ⟨rec 4000, rec p, rec 4000, .startUp⟩
  fcu := { (pausedBy .heatShare 9990000 (coupledFill id)).fcu with noTarget := true } }

/-- A fill on bank 2 with bank 3 pending, at this pressure of bank 2. -/
def hoping (p : Nat) : Node := { coupledFill id with
  isc.channels.pB := ⟨rec 4000, rec p, rec 8400, .startUp⟩
  fcu := { (coupledFill id).fcu with phase := .switching, target := some (.bank .three) } }

theorem witness_limits_margin :
    (stranded 4049).fcu.phase.ramping = true ∧ (stranded 4049).fcu.pauses.bankWait = none ∧
      (stranded 4049).fcu.source = some (.bank .two) ∧ (stranded 4049).pB .two < (stranded 4049).pH + 50 ∧
      (stranded 4049).fcu.noTarget = true ∧ (stranded 4049).switchNeeded = false ∧
      (hoping 4049).fcu.phase.ramping = true ∧ (hoping 4049).fcu.pauses.bankWait = none ∧
      (hoping 4049).fcu.source = some (.bank .two) ∧ (hoping 4049).pB .two < (hoping 4049).pH + 50 ∧
      (hoping 4049).fcu.target.isSome = true ∧ (hoping 4049).fcu.targetTaken = false ∧
      (stranded 4050).pauseCause .bankWait = false ∧ (hoping 4050).pauseCause .bankWait = false := by decide +kernel

/-- Every pause reason at its limit, on a coupled fill, ends it with its own reason; 1 ms earlier none does. -/
theorem witness_limits_reached :
    [(PauseReason.precoolUnfit, 60000), (.heatShare, 120000), (.vehicleHalt, 10000), (.sampleAge, 2000), (.bankWait, 30000)].map
        (fun x => (pausedBy x.1 (10000000 - x.2) (coupledFill id)).endReasonNow) =
      [some .precoolFail, some .heatShareTimeout, some .vehicleHalt, some .sensorStale, some .banksExhausted] ∧
    [(PauseReason.precoolUnfit, 60000), (.heatShare, 120000), (.vehicleHalt, 10000), (.sampleAge, 2000), (.bankWait, 30000)].map
        (fun x => (pausedBy x.1 (10000001 - x.2) (coupledFill id)).endReasonNow) = List.replicate 5 none ∧
    ({ coupledFill id with liu.quietSince := some 9998200 } : Node).endReasonNow = some .lineFault ∧
    ({ coupledFill id with liu.quietSince := some 9998201 } : Node).endReasonNow = none := by decide +kernel

theorem witness_limits_grace :
    ∃ n : Node, (n.chan .tD).value = some 2683 ∧ n.fcu.rampSince = some 9970001 ∧ n.now - 9970001 = 29999 ∧
      n.fcu.phase.ramping = true ∧ { n with now := n.now + 1 }.now - 9970001 = 30000 :=
  ⟨{ filling base with isc.channels.tD := rec 2683, fcu := { (filling base).fcu with rampSince := some 9970001 } },
    by decide⟩

/-- Rows 9 to 15 of R58, each at its bound. -/
theorem witness_endTest_rows :
    [{ coupledFill id with fcu.lineFault := true }, { coupledFill id with stc.conflict := true },
      comm 4000 3582 .run (coupledFill id), coupledFill fun i => { i with channels.pH := rec 8750 },
      { coupledFill id with fcu.lastSoc := some 900 },
      { coupledFill id with mpu.limit := true, mpu.terms := some ⟨13950, .mass, 5000, 5000⟩ },
      { coupledFill id with mpu.limit := true, mpu.terms := some ⟨13950, .amount, 5000, 5000⟩ },
      comm 4000 3581 .run (coupledFill id), coupledFill fun i => { i with channels.pH := rec 8749 },
      { coupledFill id with fcu.lastSoc := some 899 }].map Node.endReasonNow =
    [some .lineFault, some .numberConflict, some .tempLimit, some .pressureLimit, some .targetSoc, some .massLimit,
      some .amountLimit, none, none, none] := by decide +kernel

theorem witness_figures_flow :
    (pausedBy .heatShare 9990000 (filling base)).fcu.phase = .paused ∧ 0 < (periodFlow { filling base with
      fcu := { (filling base).fcu with pRamp := 4010 }, hsu.rOwn := 4000 }).fcu.fCmd ∧
      ({ filling base with isc.channels.tS := .startUp } : Node).sampleOlder 200 = true := by decide +kernel

/-! ## Witnesses: claims, peers, heat, compressor, the further clauses -/

/-- A fill on bank 1 whose next source, bank 2, has its claim announced for 150 ms. -/
def switching (quiet : Option Nat) : State := st fun n => { filling n with
  bcu := ⟨[⟨.one, .draw, .held 9000000⟩, ⟨.two, .draw, .settling 9999850⟩]⟩
  fcu := { (filling n).fcu with
    phase := .switching, source := some (.bank .one), lastSource := some (.bank .one), target := some (.bank .two)
    vb := n.fcu.vb.set .one ⟨true, none⟩, pauses := { Pauses.none with lineQuiet := quiet } }
  rst.image := some ⟨63, 500, 0, RecordBody.blank, 0⟩ }

theorem witness_settled_switch :
    (switching none).node.bcu.find .two .draw = some ⟨.two, .draw, .settling 9999850⟩ ∧
      (switching none).node.fcu.source ≠ some (.bank .two) ∧ (switching none).node.fcu.phase.ramping = true ∧
      (switching none).node.fcu.target = some (.bank .two) ∧ (switching none).node.fcu.targetTaken = false ∧
      (switching none).node.fcu.pauses.lineQuiet = none ∧
      (switching none).node.fcu.source = some (.bank .one) ∧
      ((after (.settleExpiry .two .draw) (switching none)).fcu.vb.get .two) ≠ ⟨true, none⟩ ∧
      (switching none).node.rst.image = some ⟨63, 500, 0, RecordBody.blank, 0⟩ ∧
      (switching (some 9999500)).node.fcu.pauses.lineQuiet.isSome = true := by decide +kernel

theorem witness_settled_completion :
    ∃ s : State, s.node.fcu.phase = .switching ∧ s.node.fcu.source = some (.bank .two) ∧ s.node.fcu.targetTaken = true ∧
      s.node.fcu.vb.get .two = ⟨true, none⟩ ∧ s.node.fcu.vb.get .one = ⟨false, some 9999600⟩ ∧
      s.node.now - 9999600 = 400 ∧ s.node.fcu.relOnClose.get .one = true ∧
      (∀ c : Bank, c ≠ .two → c ≠ .one → s.node.fcu.vb.get c = ⟨false, none⟩) :=
  ⟨st fun n => { filling n with fcu := { (filling n).fcu with
      phase := .switching, targetTaken := true, target := some (.bank .two)
      vb := (n.fcu.vb.set .two ⟨true, none⟩).set .one ⟨false, some 9999600⟩
      relOnClose := n.fcu.relOnClose.set .one true } },
    by decide, by decide, by decide, by decide, by decide, by decide, by decide, fun c => by cases c <;> decide⟩

theorem witness_settled_failure :
    ∃ s : State, s.awaits (.pB .two) ∧ (s.node.chan (.pB .two)).sound = true ∧
      (s.node.bcu.own.filter fun o => decide (o.bank = .two)) = [⟨.two, .draw, .held 9000000⟩] ∧
      s.node.fcu.phase.ramping = true ∧ s.node.fcu.source = some (.bank .two) ∧
      s.node.fcu.target ≠ some (.bank .two) ∧ 21000 < (21001#16).toNat :=
  ⟨awaiting (.pB .two) fun n => { filling n with bcu := ⟨[⟨.two, .draw, .held 9000000⟩]⟩ },
    awaiting_awaits _ _ rfl, by decide +kernel⟩

/-- Node 2's entry with four claims. -/
def fullTwo : Peer := { two 100 with
  claims := [⟨.one, .draw, 9999000⟩, ⟨.two, .draw, 9999001⟩, ⟨.three, .draw, 9999002⟩, ⟨.three, .refill, 9999003⟩] }

theorem witness_claim_ignored :
    (st id).node.ptb.find (ofTwo kindClaim [0x11]).source.toNat = none ∧ readClaim [0x41] = some (.four, .draw) ∧
      (st id).node.stc.cfg.bankCount < Four.num .four ∧
      (fullTwo.claims.filter fun c => !(decide (c.bank = .one) && decide (c.kind = .refill))).length = 4 ∧
      readClaim [0x12] = some (.one, .refill) ∧
      (fullTwo.claims.filter fun c => !(decide (c.bank = .one) && decide (c.kind = .draw))).length = 3 := by decide +kernel

/-- The view of bank 1 holds one draw claim of node 2 within the limit of two, and no own claim is REQUESTED there. -/
theorem witness_claim_frame :
    (walk ((withTwo 100).node.stc.cfg.drawLimit.get .one) 0 false ((withTwo 100).node.bankView .one)).2 = [] ∧
      (withTwo 100).node.bankView .one ≠ [] ∧
      (∀ o ∈ (withTwo 100).node.bcu.own, o.bank = .one → o.state ≠ .requested) := by decide +kernel

theorem witness_evaluation_capacity :
    (awaiting .tK id).awaits .tK ∧ codeOfCurrent .tK (5882#16).toNat = 2332 ∧ codeOfCurrent .tK (7294#16).toNat = 2482 ∧
      (awaiting .tK id).node.hsu.cEff ≤ 90000 ∧
      (awaiting .tK fun n => { n with hsu.cEff := 90000 }).awaits .tK ∧
      0 < (awaiting .tK fun n => { n with hsu.cEff := 90000 }).node.hsu.cEff :=
  ⟨awaiting_awaits _ _ rfl, by decide, by decide, by decide +kernel, awaiting_awaits _ _ rfl, by decide +kernel⟩

theorem witness_evaluation_rise :
    Heard (withTwo 100) (ofTwo kindHeat [0, 0x0F, 0xA1, 0, 0, 1]) kindHeat ∧
      readHeat [0, 0x0F, 0xA1, 0, 0, 1] = some ⟨4001, 0, true⟩ ∧ (two 100).reservation = 4000 ∧ (two 100).waiting = true := by
  unfold Heard; decide +kernel

/-- Node 1 holds this reservation beside 4,000 W of node 2, which raised first. -/
def sharing (cEff rOwn : Nat) : Node := { (withTwo 100).node with
  hsu := { base.hsu with cEff := cEff, rOwn := rOwn, rWant := 55770, raise := some 9999500 } }

theorem witness_overCommit :
    (sharing 12000 8000).hsu.rOwn + ((sharing 12000 8000).ptb.peers.map (·.reservation)).sum = (sharing 12000 8000).hsu.cEff ∧
      (sharing 11999 8000).hsu.cEff < (sharing 11999 8000).hsu.rOwn + ((sharing 11999 8000).ptb.peers.map (·.reservation)).sum ∧
      (sharing 8000 8000).ownPortion = 4000 ∧ (sharing 7999 8000).ownPortion = 3999 ∧
      (sharing 12000 8000).ownPortion = (sharing 12000 8000).hsu.rOwn ∧ 0 < (sharing 7999 8000).hsu.rWant ∧
      portions 10 [⟨1, 2, 6⟩, ⟨2, 3, 6⟩] = [(2, 6), (3, 4)] := by decide +kernel

/-- A refill of bank 1 in LOADED_REFILL, its valve open. -/
def refilling : Node → Node := fun n => { loaded n with ccu := { (loaded n).ccu with vr := n.ccu.vr.set .one ⟨true, none⟩ } }

theorem witness_compressor_refillEnd :
    (awaiting (.pB .one) refilling).awaits (.pB .one) ∧
      (awaiting (.pB .one) refilling).node.stc.cfg.nominal.get .one = codeOfCurrent (.pB .one) (11200#16).toNat ∧
      codeOfCurrent (.pB .one) (11198#16).toNat + 1 = (awaiting (.pB .one) refilling).node.stc.cfg.nominal.get .one ∧
      (awaiting (.pB .one) refilling).node.ccu.state = .loadedRefill ∧
      (awaiting (.pB .one) refilling).node.ccu.claim = some ⟨.one, .held⟩ ∧
      ((awaiting (.pB .one) refilling).node.ccu.vr.get .one).opened = true :=
  ⟨awaiting_awaits _ _ rfl, by decide +kernel⟩

theorem witness_compressor_released :
    ∃ s : State, s.node.ccu.state = .idleRun ∧ s.node.ccu.direct = .none ∧ s.node.ccu.claim = some ⟨.one, .releasing⟩ ∧
      s.node.ccu.vr.get .one = ⟨false, some 9999600⟩ ∧ s.node.now - 9999600 = 400 ∧
      s.node.ccu.runSince = some 9880001 ∧ s.node.now - 9880001 = 119999 ∧
      (∀ c : Bank, s.node.stc.cfg.nominal.get c ≤ s.node.pB c + s.node.stc.cfg.hysteresis) :=
  ⟨st fun n => { n with
      isc.channels.pB := ⟨rec 4000, rec 6500, rec 8500, .startUp⟩
      ccu := { n.ccu with
        state := .idleRun, claim := some ⟨.one, .releasing⟩, runSince := some 9880001
        vr := n.ccu.vr.set .one ⟨false, some 9999600⟩ } },
    by decide, by decide, by decide, by decide, by decide, by decide, by decide, fun c => by cases c <;> decide +kernel⟩

/-! ## Witnesses: store and line, the further clauses -/

/-- A close write in progress at the end of a fill. -/
def closingWrite : State := st fun n => { n with
  fcu := { n.fcu with phase := .closingRecord, auth := some auth }
  rst := { n.rst with write := some (.record .close image), image := some image } }

theorem witness_writes_image :
    (∃ s : State, s.node.rst.write = some (.record .checkpoint image) ∧ s.node.rst.image = some image ∧
        s.node.rst.recordMark = none) ∧
      closingWrite.node.rst.write = some (.record .close image) ∧ closingWrite.node.fcu.auth = some auth ∧
      image.slot < closingWrite.node.rst.slots.length ∧ image.slot < closingWrite.node.rst.table.length ∧
      closingWrite.node.rst.creepMark = none ∧ closingWrite.node.rst.requests = [] ∧
      closingWrite.node.rst.recordMark = none ∧ (writing (.collect 63 500 9)).node.rst.recordMark = none ∧
      (writing (.collect 63 500 9)).node.rst.creepMark = none ∧ (writing (.collect 63 500 9)).node.rst.requests = [] :=
  ⟨⟨st fun n => { n with rst := { n.rst with write := some (.record .checkpoint image), image := some image } },
      by decide +kernel⟩, by decide +kernel⟩

theorem witness_requests_open :
    ∃ s : State, s.node.rst.queried 500 = some 0 ∧ s.node.rst.table[0]? = some ⟨.opened, 500⟩ ∧
      s.node.rst.slots[0]? = some .blank ∧ s.node.rst.image = some ⟨0, 500, 7, RecordBody.blank, 0⟩ ∧
      s.node.rst.requests = [] ∧ s.node.rst.write = none :=
  ⟨st fun n => { n with rst := { n.rst with
      table := ⟨.opened, 500⟩ :: List.replicate 63 ⟨.free, 0⟩, image := some ⟨0, 500, 7, RecordBody.blank, 0⟩ } },
    by decide +kernel⟩

theorem witness_requests_addressZero :
    (rightLengths 0).getLast? = some ⟨1, 9, 0, kindReadTotals, []⟩ ∧
      kindLength kindReadTotals = some 0 ∧ kindLength kindCollect = some (about500 kindCollect).payload.length ∧
      (about500 kindCollect).destination.toNat ≠ 0 := by decide

/-- Ten frames: five HEAT, a STATUS, an ANSWER, and three bulk frames, the last of them on the wire or not. -/
def ten (b : FrameBody) (onWire : Bool) : List QFrame :=
  List.replicate 4 (.fresh .heat) ++ [.fresh .status, .fresh (.answer 9 kindStop .ok 0)] ++
    List.replicate 3 (.fresh b) ++ [⟨b, 0, onWire, false⟩]

theorem witness_queue_displaced :
    (∃ xs y ys, ten (.recordA 9 []) true = xs ++ y :: ys ∧ y.body.cls = 2 ∧ y.onWire = false ∧
        (∀ z ∈ ys, z.body.cls = 2 → z.onWire = true) ∧ ys.length = 1) ∧
      (∃ xs y ys, ten .status false = xs ++ y :: ys ∧ y.body.cls = 1 ∧ y.onWire = false ∧
        (∀ z ∈ ys, z.body.cls = 1 → z.onWire = true) ∧ (∀ z ∈ ten .status false, z.body.cls = 2 → z.onWire = true)) ∧
      (ten .status false).length = 10 ∧ (ten (.recordA 9 []) true).length = 10 ∧ urgentCount (ten .status false) < 5 ∧
      (∀ z ∈ List.replicate 10 (QFrame.fresh .heat), z.body.cls = 1 → z.onWire = true) ∧
      urgentCount (ten (.recordA 9 []) true) < 5 ∧ (FrameBody.claim .two .draw).cls = 0 :=
  ⟨⟨(ten (.recordA 9 []) true).take 8, .fresh (.recordA 9 []), [⟨.recordA 9 [], 0, true, false⟩], by decide⟩,
    ⟨(ten .status false).take 9, .fresh .status, [], by decide⟩, by decide⟩

theorem witness_queue_progress :
    (∃ x ∈ [QFrame.fresh (.progress 9)], x.body.isProgress = true ∧ x.onWire = false) ∧
      (∀ x ∈ [(⟨.progress 9, 0, true, false⟩ : QFrame)], x.body.isProgress = true → x.onWire = true) ∧
      (FrameBody.progress 8).isProgress = true := by decide

/-- A node whose STATUS carries a reservation, a refill and a claim. -/
def reporting : Node := { loaded base with
  hsu := { base.hsu with rOwn := 4000, raise := some 9344640 }
  bcu := ⟨[⟨.one, .refill, .held 9999000⟩, ⟨.two, .draw, .requested⟩]⟩ }

theorem witness_status_payload :
    0 < reporting.hsu.rOwn ∧ reporting.hsu.raise = some 9344640 ∧ reporting.ccu.state = .loadedRefill ∧
      reporting.ccu.claim = some ⟨.one, .held⟩ ∧ base.ccu.state ≠ .loadedRefill ∧ base.hsu.rOwn = 0 ∧
      reporting.listedClaims[0]? = some ⟨9999000, 1, .one, .refill⟩ ∧ reporting.listedClaims.length ≤ 1 ∧
      base.fcu.lastSoc = none ∧ ({ base with fcu.lastSoc := some 944 } : Node).fcu.lastSoc = some 944 := by decide +kernel

/-! ## Witnesses: the clauses that say what follows -/

/-- The scan restarts at slot 1 in front of these slots, all others blank. -/
def scanned (xs : List StoredSlot) : Rst := { Rst.blank with slots := xs ++ List.replicate (64 - xs.length) .blank }

/-- A slot that a write has left, and one whose body no longer fits its CRC-16. -/
def written (s : SlotState) : StoredSlot := .make s 500 3 RecordBody.blank

def damaged (s : SlotState) : StoredSlot := { written s with bodyCrc := bodyCrcOf (written s).body + 1 }

theorem witness_scan_slots :
    (∀ s, (written s).headerSound = true ∧ (written s).bodySound = true ∧ (damaged s).headerSound = true ∧
      (damaged s).bodySound = false) ∧
      ({ StoredSlot.blank with headerCrc := 0 } : StoredSlot).headerSound = false ∧
      (scanned [.blank, damaged .opened]).slots[0]? = some .blank ∧ StoredSlot.blank.state = .free ∧
      (scanned [.blank, damaged .opened]).slots[1]? = some (damaged .opened) ∧
      (scanned [written .closed, written .opened]).slots[1]? = some (written .opened) := by
  refine ⟨fun s => ⟨?_, ?_, ?_, ?_⟩, by decide +kernel, rfl, rfl, rfl, rfl⟩
  · simp [written, StoredSlot.make, StoredSlot.ofBytes, StoredSlot.headerSound]
  · simp [written, StoredSlot.make, StoredSlot.ofBytes, StoredSlot.bodySound]
  · simp [damaged, written, StoredSlot.make, StoredSlot.ofBytes, StoredSlot.headerSound]
  · simp [damaged, StoredSlot.bodySound]

/-- An empty store: every slot keeps its state, with the totals restarted and without. -/
theorem witness_scan_finish :
    (∀ (k : Nat) (y : StoredSlot), (scanned []).slots[k]? = some y → y.headerSound = true ∧ y.state = .free) ∧
      (scanned []).restarted = false ∧ ({ scanned [] with restarted := true } : Rst).restarted = true ∧
      (scanned []).write = none ∧ (scanned []).scan ≠ some (.atSlot 65) ∧
      ({ (scanning .scanLast).node.rst with scan := some (.atSlot 65) } : Rst).scan = some (.atSlot 65) := by
  refine ⟨fun k y h => ?_, rfl, rfl, rfl, nofun, rfl⟩
  have h1 : y = .blank := List.eq_of_mem_replicate (n := 64) (List.mem_of_getElem? h)
  exact h1 ▸ ⟨test_reset_header_and_totals_are_sound.2, rfl⟩

theorem witness_scan_copies :
    (scanned []).copy1.sound = true ∧ (scanned []).copy2.sound = true ∧
      ({ TotalsCopy.blank with crc := 0 } : TotalsCopy).sound = false := by decide +kernel

/-- Every input of a fill may change; the loop, the latch and the link are as a fill leaves them. -/
theorem witness_levels_fill :
    (coupledFill id).stc.phase ≠ .held ∧ (coupledFill id).inRun = true ∧ (coupledFill id).fcu.phase.filling = true ∧
      (coupledFill id).level .breakaway = false ∧ (coupledFill id).level .stop = false ∧
      (coupledFill id).level .loop = false ∧ (coupledFill id).level .coupled = true ∧
      (coupledFill id).isc.loop ≠ .tripped ∧ (coupledFill id).isc.latch = none ∧
      (coupledFill id).validCommand ≠ some .abort ∧
      (coupledFill fun i => { i with latch := some .overpressure, loop := .tripped }).level .breakaway = false := by
  decide +kernel

/-- The loop closes: its input is active, the loop tripped and the latch clear. -/
theorem witness_levels_loop :
    ∃ s : State, s.node.level .loop = true ∧ s.node.isc.loop = .tripped ∧ s.node.isc.latch = none ∧
      s.node.stc.phase ≠ .held := ⟨st fun n => { n with
        isc := { n.isc with loop := .tripped, inputs := n.isc.inputs.set .loop ⟨true, true, 0⟩ } }, by decide⟩

/-- In AUTHORIZED, in DONE, with a compressor that runs, and where a level has no further effect. -/
theorem witness_levels_phases :
    ready.node.fcu.phase = .authorized ∧ ready.node.level .loop = false ∧ ready.node.level .stop = false ∧
      (∃ s : State, s.node.fcu.phase = .done ∧ s.node.level .holstered = false ∧ s.node.inRun = true) ∧
      (st loaded).node.level .motorRun = false ∧ (st loaded).node.cmRun = true ∧ (st id).node.cmRun = false ∧
      tripped.node.level .breakaway = true ∧ tripped.node.level .loop = false ∧ tripped.node.isc.loop = .tripped ∧
      (st id).node.level .meterFault = false ∧ (st id).node.startTaken = false ∧
      (∃ s : State, s.node.stc.phase ≠ .held ∧ s.node.inRun = false ∧ s.node.level .coupled = false) :=
  ⟨by decide, by decide, by decide, ⟨st fun n => { n with fcu.phase := .done }, by decide⟩, by decide, by decide,
    by decide, by decide, by decide, by decide, by decide, by decide, ⟨st fun n => { n with stc.phase := .listen }, by decide⟩⟩

/-- At the draw limit and below it; a refill with nothing admitted before it and beside a draw; a claim of a view. -/
theorem witness_walk_fits :
    (walk 2 0 false [⟨5, 2, .one, .draw⟩]).1.length < 2 ∧ ¬(walk 1 0 false [⟨5, 2, .one, .draw⟩]).1.length < 1 ∧
      (walk 0 0 false [⟨5, 2, .one, .draw⟩]).1 = [] ∧ (walk 1 0 false [⟨5, 2, .one, .draw⟩]).1 ≠ [] ∧
      (⟨9999000, 2, .one, .draw⟩ : ViewClaim) ∈ (withTwo 100).node.bankView .one := by decide +kernel

/-- File 05 R90, at both ends of the kept span and one beyond them; the listed claim stays where it is alone. -/
theorem witness_status_instants :
    instantOf 163 16 (some 3) = 3 ∧ instantOf 163 16 (some (-7)) = -7 ∧ instantOf 163 16 (some 4) = -7 ∧
      instantOf 163 16 (some (-8)) = -7 ∧ instantOf 900000 65535 (some 244650) = 244650 ∧
      instantOf 900000 65535 (some 244651) = 244640 ∧
      ((after (.peerStatus (wireBits statusOfTwo)) (st id)).ptb.find 2).map (·.claims) =
        some [⟨.one, .draw, 9999940⟩] := by decide +kernel

/-- A fill whose evaluation falls due beside node 2, which waits and holds 4,000 W. -/
def evaluating (cEff rOwn : Nat) (f : Node → Node) : State := st fun n => f { filling n with
  ptb := (withTwo 100).node.ptb
  hsu := { (sharing cEff rOwn).hsu with gridNext := some n.now } }

/-- File 06 R105 to R107: the target at 4,000 W and one below it, a want of 0, a raise, a decrease, a fall to 0. -/
theorem witness_evaluation_outcome :
    (evaluating 8000 0 id).node.quietAtLeast 1800 = false ∧
      (after .evaluationTick (evaluating 8000 0 id)).hsu.rOwn = 4000 ∧
      (after .evaluationTick (evaluating 8000 0 id)).hsu.raise = some 10000000 ∧
      (after .evaluationTick (evaluating 7999 8000 id)).hsu.rOwn = 0 ∧
      (after .evaluationTick (evaluating 7999 8000 id)).hsu.waiting = true ∧
      (after .evaluationTick (evaluating 7999 8000 id)).hsu.raise = none ∧
      (after .evaluationTick (evaluating 12000 8000 id)).hsu.rOwn = 6000 ∧
      (after .evaluationTick (evaluating 12000 8000 id)).hsu.raise = some 9999500 ∧
      (after .evaluationTick (evaluating 12000 8000 fun n => { n with stc.cfg.peakFlow := 0 })).hsu.rWant = 0 := by
  decide +kernel

/-- Banks 1 and 2 need gas; an own draw is REQUESTED on bank 1, so that a refill request on it is refused. -/
def surveyed (f : Node → Node) : State := st fun n => f { n with
  isc.channels.pB := ⟨rec 3999, rec 6499, rec 9000, .startUp⟩, bcu := ⟨[⟨.one, .draw, .requested⟩]⟩ }

theorem witness_survey_passes :
    (surveyed id).node.refillCandidates none = [.one, .two] ∧ (surveyed id).node.startPermitted = true ∧
      (surveyed id).node.requestRefused .one .refill = true ∧ (surveyed id).node.requestRefused .two .refill = false ∧
      (surveyed fun n => { n with isc.channels.pB.two := rec 6500 }).node.refillCandidates none = [.one] ∧
      (surveyed id).node.ccu.pointer = none ∧ (surveyed id).node.stc.cfg.order = .rotating ∧
      (surveyed fun n => { n with ccu.pointer := some .one }).node.refillCandidates none = [.two, .one] ∧
      (surveyed fun n => { n with stc.cfg.order := .descending }).node.refillCandidates none = [.two, .one] := by
  decide +kernel

/-! ## Single steps of the spec's examples -/

/-- File 01, the scan cycle: T_S at 13,882 uA; T_D with another echo; P_B2 out of range. -/
theorem test_converterAnswer :
    (after (.converterAnswer 1 13882) (inCycle [.tS, .tD])).chan .tS = ⟨some 3182, some 10000000, .ok⟩ ∧
      (after (.converterAnswer 4 21400) (inCycle [.pB .two])).chan (.pB .two) = ⟨some 6800, some 9999900, .failed⟩ := by
  decide +kernel
theorem test_converterAnswer_other_echo :
    (after (.converterAnswer 1 7112) (inCycle [.tD, .pB .one])).isc =
      { (inCycle [.pB .one]).node.isc with cycle := some ⟨[.pB .one], true, 10000000⟩ } := by decide +kernel

/-- File 01, breakaway: the level sets the latch, and the ESD-CLEAR at 30 s is refused. -/
theorem test_breakaway :
    (after (.diLevelTaken .breakaway true) (st id)).isc.latch = some .breakaway ∧
      (after (.diLevelTaken .breakaway true) (st id)).isc.loop = .tripped := by decide +kernel
theorem test_esdClear_busy :
    (after (.esdClear (wireBits (command kindEsdClear []))) tripped).liu.queue =
      [.fresh (.answer 9 kindEsdClear .busy 0)] := by decide +kernel

/-- File 02, the bus example at 195 ms: side B, sequence 3, 820 L; the link becomes VALID with 1600 L. -/
def vehicleB : List Byte :=
  let p : List Byte := [0xA5, 0x42, 2, 3, 1, 0x03, 0x34, 0x05, 0xE6, 0x0B, 0xE7, 1, 0xFE]
  p ++ [crc8 (bitsOfBytes p)]

theorem test_vehicleFrame :
    (after (.vehicleFrame vehicleB) (st fun n => { n with vlr := { n.vlr with
        decoder := some ⟨.idle, none, none⟩, declared := some 2, sideA := ⟨some fieldsA.data, some 3, some 100⟩ } })).vlr =
      { decoder := some ⟨.idle, none, none⟩, sideA := ⟨some fieldsA.data, some 3, some 100⟩,
        sideB := ⟨some ⟨820, 1510, 3047, .run⟩, some 3, some 0⟩, declared := some 2, volume := some 1600, link := .valid } := by
  decide +kernel

/-- File 03, R31 and the example of a car fill: 5,000 cents at 13,950 give a limit mass of 358,422 cg. -/
theorem test_authorize :
    (after (.authorize (wireBits (authorizeFrame 1 2 [0, 0, 0x13, 0x88]))) (priced1 id)).fcu.auth = some auth := by
  decide +kernel

/-- File 03, the ramp at high ambient: period 17 of the table. -/
theorem test_controlPeriod_ramp :
    (periodRamp { coupledFill (fun i => { i with channels.tA := rec 3148 }) with
      vlr := { base.vlr with link := .valid }
      fcu := { (filling base).fcu with kind := some .comm, pRamp := 4168, rem := 592 } }).fcu.pRamp = 4172 := by
  decide +kernel

/-- File 03, after the example of a bank switch: BANK_WAIT follows a search without a target once the margin falls below
50, here in a fill that is paused. -/
theorem test_controlPeriod_margin_sets_bank_wait :
    (after .controlPeriod ⟨stranded 4049, []⟩).fcu.pauses.bankWait = some 10000000 ∧
      (after .controlPeriod ⟨stranded 4050, []⟩).fcu.pauses.bankWait = none := by decide +kernel

/-- A START press: CHECKING, and a create write of a record in slot 1. -/
theorem test_start_press :
    (after (.diLevelTaken .start true) ready).fcu.phase = .checking ∧
      (after (.diLevelTaken .start true) ready).rst.table.head? = some ⟨.opened, 1⟩ := by decide +kernel

/-- File 06, the example at t = 400: node 4 evaluates to 18,000 W beside 48,000 W and a waiting peer. -/
theorem test_evaluation :
    (after .evaluationTick (st fun n => { filling n with
      stc.node := 4, stc.cfg.peakFlow := 300, stc.cfg.tSet := 2382, isc.channels.tS := rec 3182, liu.quietSince := some n.now
      hsu := { n.hsu with cEff := 66000, gridNext := some n.now }
      ptb := ⟨[{ two 100 with reservation := 48000, waiting := false, claims := [] },
        { two 100 with node := 3, reservation := 0, raise := none, claims := [] }]⟩ })).hsu.rOwn = 18000 := by decide +kernel
/-- The example at t = 1,352: node 3's raise of age 0 walks node 4 down from 22,000 to 18,000. -/
theorem test_peerHeat_overCommit :
    (after (.peerHeat (wireBits ⟨0, 3, 0, kindHeat, [0, 0x65, 0x90, 0, 0, 0]⟩)) (st fun n => { filling n with
      stc.node := 4, liu.quietSince := some n.now
      hsu := { n.hsu with cEff := 66000, rWant := 34320, dT10 := 800, rOwn := 22000, raise := some 9999999 }
      ptb := ⟨[{ two 100 with reservation := 22000, waiting := false, raise := some 9000000, claims := [] },
        { two 100 with node := 3, reservation := 0, raise := none, claims := [] }]⟩ })).hsu.rOwn = 18000 := by decide +kernel

/-- File 07, rotating refills at 0:00.000: bank 1 needs gas and is claimed; the compressor starts. -/
theorem test_survey :
    (after .surveyTick (st fun n => { n with
      isc.channels.pB := ⟨rec 3800, rec 6700, rec 8300, .startUp⟩ })).ccu.claim = some ⟨.one, .pending⟩ := by decide +kernel

/-- File 08, the seat that passes: pulse 101 sets METER_CREEP, pulse 100 does not. -/
theorem test_meterPulse_creep :
    (after .meterPulse (st fun n => { n with
        mpu := { n.mpu with creepWindow := some ⟨9960400, 990⟩, pending := 990 } })).mpu.creepFlag = false ∧
      (after .meterPulse (st fun n => { n with
        mpu := { n.mpu with creepWindow := some ⟨9960000, 1000⟩, pending := 1000 } })).mpu.creepFlag = true := by
  decide +kernel

/-- File 08, the end of the car fill: the final figures in the working image. -/
theorem test_final_figures :
    ((mpuFinal { base with
        mpu := { base.mpu with gross := 360724, terms := some ⟨13950, .amount, 5000, 358422⟩ }
        fcu := { base.fcu with pEnd := some 8400, tEnd := some 2432 }
        rst.image := some image }).rst.image.map fun i => (i.body.vent, i.body.net, i.body.amount, i.body.flags.overshoot)) =
      some (2252, 358472, 5001, true) := by decide +kernel

/-- The command at the front of the queue is run, with the rest waiting. -/
theorem test_step_takes_the_front :
    ∃ t, step { st id with pending := [.warmUpEnd, .meterPulse] } = .next t ∧ t.pending = [.meterPulse] := ⟨_, rfl, rfl⟩

end Sys2Proof.Machine.Tests
end

/-! # The passing of 1 ms, the input filters and the frames of the scanner's records (file 01) -/

namespace Sys2Proof.Machine

/-! ## One sample of an input (R8) -/

@[simp] theorem InputRec.sample_raw (r : InputRec) : r.sample.1.raw = r.raw := by
  unfold InputRec.sample
  split
  · rfl
  · split <;> rfl

@[simp] theorem InputRec.sample_filtered (r : InputRec) : r.sample.1.filtered = r.filtered := by
  unfold InputRec.sample
  split
  · rfl
  · split <;> rfl

theorem InputRec.sample_settled {r : InputRec} (h : r.raw = r.filtered) : r.sample = ({ r with run := 0 }, false) := by
  simp [InputRec.sample, h]

theorem InputRec.sample_counts {r : InputRec} (h : r.raw ≠ r.filtered) (hr : r.run + 1 < 10) :
    r.sample = ({ r with run := r.run + 1 }, false) := by
  simp [InputRec.sample, h, show ¬ 9 ≤ r.run by omega]

theorem InputRec.sample_takes {r : InputRec} (h : r.raw ≠ r.filtered) (hr : r.run + 1 = 10) :
    r.sample = ({ r with run := 0 }, true) := by
  simp [InputRec.sample, h, show 9 ≤ r.run by omega]

theorem Input.mem_all (i : Input) : i ∈ Input.all := by cases i <;> decide

/-- The sample that takes a level makes its command one of those that wait. -/
theorem mem_levelsTaken {n : Node} {i : Input} (h : (n.isc.inputs.get i).sample.2 = true) :
    .diLevelTaken i (n.isc.inputs.get i).raw ∈ n.levelsTaken :=
  List.mem_map.mpr ⟨i, List.mem_filter.mpr ⟨Input.mem_all i, h⟩, rfl⟩

/-! ## The passing of 1 ms (log 1) -/

theorem step_idle {s : State} (h : s.pending = []) : step s = .next (tick s) := by simp [step, h]

theorem tick_pending {s : State} (h : s.pending = []) :
    (tick s).pending = (if s.node.stc.phase = .held then [] else s.node.levelsTaken) ++ s.node.later.due := by
  simp [tick, h]

theorem sampleInputs_only (n : Node) : Only [.isc] n (sampleInputs n) := by
  unfold sampleInputs
  split
  · exact .refl _ n
  · exact isc_only

theorem sampleInputs_isc (n : Node) :
    (sampleInputs n).isc = { n.isc with inputs := (sampleInputs n).isc.inputs } := by
  unfold sampleInputs
  split <;> rfl

theorem sampleInputs_get {n : Node} (h : n.stc.phase ≠ .held) (i : Input) :
    (sampleInputs n).isc.inputs.get i = (n.isc.inputs.get i).sample.1 := by
  simp [sampleInputs, h]

/-- 1 ms changes only the clock, the input records and the side records. -/
theorem later_only (n : Node) : Only [.isc] { n with now := n.now + 1, vlr := n.vlr.older } n.later :=
  sampleInputs_only _

theorem later_isc (n : Node) : n.later.isc = { n.isc with inputs := n.later.isc.inputs } := sampleInputs_isc _

theorem later_inputs {n : Node} (h : n.stc.phase ≠ .held) (i : Input) :
    n.later.isc.inputs.get i = (n.isc.inputs.get i).sample.1 :=
  sampleInputs_get (n := { n with now := n.now + 1, vlr := n.vlr.older }) h i

theorem later_vlr (n : Node) : n.later.vlr = n.vlr.older := (later_only n).vlr (by decide)

theorem Vlr.older_eq (v : Vlr) : v.older = { v with sideA := v.older.sideA, sideB := v.older.sideB } := by
  unfold Vlr.older
  split <;> rfl

theorem Vlr.older_data (v : Vlr) : v.older.sideA.data = v.sideA.data ∧ v.older.sideB.data = v.sideB.data := by
  unfold Vlr.older
  split <;> exact ⟨rfl, rfl⟩

/-- While the decoder runs, both sides grow older (file 02 R22). -/
theorem Vlr.older_sides {v : Vlr} (h : v.decoder.isSome = true) :
    v.older.sideA = v.sideA.older ∧ v.older.sideB = v.sideB.older := by
  simp [Vlr.older, h]

theorem SideRec.older_age {r : SideRec} {a : Nat} (h : r.age = some a) : r.older.age = some (min (a + 1) 65535) := by
  simp [SideRec.older, h]

/-- Settles O2: the frame of `Node.later`, with the side records of a running decoder. -/
theorem emptyQueueLetsOneMillisecondPass : Obligations.EmptyQueueLetsOneMillisecondPass := by
  intro s hq
  have frame := later_only s.node
  have sides : (tick s).node.vlr = s.node.vlr.older := later_vlr s.node
  obtain ⟨dataA, dataB⟩ := s.node.vlr.older_data
  refine ⟨tick s, step_idle hq, frame.now, tick_pending hq, frame.stc (by decide), frame.fcu (by decide),
    frame.bcu (by decide), frame.ptb (by decide), frame.hsu (by decide), frame.ccu (by decide),
    frame.mpu (by decide), frame.rst (by decide), frame.liu (by decide), later_isc s.node, ?_⟩
  rw [sides]
  refine ⟨Vlr.older_eq _, dataA, dataB, fun a hd ha => ?_, fun a hd ha => ?_⟩
  · rw [(Vlr.older_sides hd).1]
    exact SideRec.older_age ha
  · rw [(Vlr.older_sides hd).2]
    exact SideRec.older_age ha

/-! ## A level taken (R8, R9) -/

@[simp] theorem setLevel_level (i : Input) (l : Bool) (n : Node) : (setLevel i l n).level i = l := by
  simp [setLevel, Node.level]

theorem levelEffect_stc (i : Input) (l : Bool) (n : Node) : (levelEffect i l n).stc = n.stc := (levelEffect_kept i l n).stc

/-- A new level outside the hold: its effects, and in RUN its edge event. -/
theorem levelTaken_new {n : Node} {i : Input} {l : Bool} (hp : n.stc.phase ≠ .held) (hl : n.level i ≠ l) :
    levelTaken i l n = (levelEffect i l (setLevel i l n)).onlyIf n.inRun (edgeEvent i l) := by
  have hrun : (levelEffect i l (setLevel i l n)).inRun = n.inRun := by simp only [Node.inRun, levelEffect_stc]; rfl
  simp [levelTaken, hp, hl, hrun]

/-- Whatever a new level sets off, the input records change only at its own input. -/
theorem levelTaken_inputs {n : Node} {i : Input} {l : Bool} (hp : n.stc.phase ≠ .held) (hl : n.level i ≠ l) :
    (levelTaken i l n).isc.inputs = n.isc.inputs.set i ⟨l, l, 0⟩ := by
  have edge (m : Node) : (m.onlyIf n.inRun (edgeEvent i l)).isc.inputs = m.isc.inputs :=
    (KeptBut.onlyIf fun _ => edgeEvent_but i l m).inputs (by decide)
  rw [levelTaken_new hp hl, edge, (levelEffect_kept i l _).inputs]
  rfl

theorem execDiLevelTaken_next {i : Input} {l : Bool} {s t : State} (e : execDiLevelTaken i l s = .next t) :
    t = { s with node := levelTaken i l s.node } := by
  unfold execDiLevelTaken at e
  split at e
  · cases e
  · exact act_next e

/-! ## The loop (R10, R12) -/

theorem loopUpdate_trips {n : Node} (ho : n.loopOpen = true) (hl : n.isc.loop ≠ .tripped) :
    loopUpdate n = tripEvent { n with isc.loop := .tripped } := by
  unfold loopUpdate
  rw [if_pos ho]
  split
  · contradiction
  · rfl

theorem loopUpdate_still_tripped {n : Node} (ho : n.loopOpen = true) (hl : n.isc.loop = .tripped) : loopUpdate n = n := by
  simp [loopUpdate, ho, hl]

theorem loopUpdate_recovers {n : Node} (ho : n.loopOpen = false) (hl : n.isc.loop = .tripped) :
    loopUpdate n = { n with isc.loop := .recovering n.now } := by
  simp [loopUpdate, ho, hl]

theorem loopUpdate_still_closed {n : Node} (ho : n.loopOpen = false) (hl : n.isc.loop ≠ .tripped) : loopUpdate n = n := by
  unfold loopUpdate
  rw [if_neg (by simp [ho])]
  split
  · contradiction
  · rfl

theorem loopOpen_of_latch {n : Node} (h : n.isc.latch.isSome = true) : n.loopOpen = true := by simp [Node.loopOpen, h]

/-- An open loop is tripped, whatever else the trip event does. -/
theorem loopUpdate_open_isc {n : Node} (ho : n.loopOpen = true) :
    (loopUpdate n).isc = { n.isc with loop := .tripped } := by
  by_cases hl : n.isc.loop = .tripped
  · rw [loopUpdate_still_tripped ho hl, ← hl]
  · rw [loopUpdate_trips ho hl, (tripEvent_only _).isc (by decide)]

theorem loopUpdate_only (n : Node) : Only [.isc, .fcu, .bcu, .hsu, .ccu, .mpu, .liu] n (loopUpdate n) := by
  unfold loopUpdate
  split
  · split
    · exact .refl _ n
    · exact (tripEvent_only _).after isc_only
  · split
    · exact isc_only.within
    · exact .refl _ n

theorem tripRequest_latched {n : Node} (h : n.isc.latch.isSome = true) (cause : LatchCause) : tripRequest cause n = n := by
  obtain ⟨c, hc⟩ := Option.isSome_iff_exists.mp h
  simp [tripRequest, hc]

theorem tripRequest_clear {n : Node} (h : n.isc.latch = none) (cause : LatchCause) :
    tripRequest cause n = loopUpdate { n with isc.latch := some cause } := by
  simp [tripRequest, h]

/-- A trip request at a clear latch sets it with its cause and trips the loop (R10, R12). -/
theorem tripRequest_clear_isc {n : Node} (h : n.isc.latch = none) (cause : LatchCause) :
    (tripRequest cause n).isc = { n.isc with latch := some cause, loop := .tripped } := by
  rw [tripRequest_clear h, loopUpdate_open_isc (loopOpen_of_latch rfl)]

theorem tripRequest_latch_isSome (cause : LatchCause) (n : Node) : (tripRequest cause n).isc.latch.isSome = true := by
  cases h : n.isc.latch with
  | none => rw [tripRequest_clear_isc h]; rfl
  | some c => rw [tripRequest_latched (by rw [h]; rfl), h]; rfl

theorem tripRequest_only (cause : LatchCause) (n : Node) :
    Only [.isc, .fcu, .bcu, .hsu, .ccu, .mpu, .liu] n (tripRequest cause n) := by
  unfold tripRequest
  split
  · exact .refl _ n
  · exact (loopUpdate_only _).after isc_only

/-! ## START_UP (file 11 R181, R183, file 01 R15) -/

/-- The node at the start-up instant, before the first level of the breakaway sensor is acted on. -/
def Node.startedUp (straps : BitVec 3) (levels : Levels) (n : Node) : Node :=
  blocksStartUp { n with
    stc := { phase := .configRead, causes := [], node := straps.toNat + 1, cfg := .unset, hoseCode := 0,
             conflict := false, phaseSince := n.now, startedAt := n.now }
    isc := .startUp levels }

theorem beginStartUp_eq (straps : BitVec 3) (levels : Levels) (n : Node) :
    beginStartUp straps levels n = (n.startedUp straps levels).onlyIf levels.breakaway (tripRequest .breakaway) := rfl

theorem startedUp_inputs (straps : BitVec 3) (levels : Levels) (n : Node) (i : Input) :
    (n.startedUp straps levels).isc.inputs.get i = ⟨levels.get i, levels.get i, 0⟩ := by
  simp [Node.startedUp, blocksStartUp, Isc.startUp]

/-- Of a start-up, an active breakaway level changes neither the start control nor the record store. -/
theorem beginStartUp_only (straps : BitVec 3) (levels : Levels) (n : Node) :
    Only [.isc, .fcu, .bcu, .hsu, .ccu, .mpu, .liu] (n.startedUp straps levels) (beginStartUp straps levels n) :=
  .onlyIf fun _ => tripRequest_only .breakaway _

theorem beginStartUp_kept (straps : BitVec 3) (levels : Levels) (n : Node) :
    Kept (n.startedUp straps levels) (beginStartUp straps levels n) :=
  .onlyIf fun _ => tripRequest_kept .breakaway _

/-- The first raw samples are the levels, with no run (R8). -/
theorem beginStartUp_inputs (straps : BitVec 3) (levels : Levels) (n : Node) (i : Input) :
    (beginStartUp straps levels n).isc.inputs.get i = ⟨levels.get i, levels.get i, 0⟩ := by
  rw [(beginStartUp_kept straps levels n).inputs]
  exact startedUp_inputs straps levels n i

theorem beginStartUp_quiet {levels : Levels} (h : levels.breakaway = false) (straps : BitVec 3) (n : Node) :
    beginStartUp straps levels n = n.startedUp straps levels := by
  rw [beginStartUp_eq, h, Node.onlyIf_false]

/-- An active breakaway level sets the latch at once (R10). -/
theorem beginStartUp_breakaway_isc {levels : Levels} (h : levels.breakaway = true) (straps : BitVec 3) (n : Node) :
    (beginStartUp straps levels n).isc = { Isc.startUp levels with latch := some .breakaway, loop := .tripped } := by
  rw [beginStartUp_eq, h, Node.onlyIf_true]
  exact tripRequest_clear_isc rfl .breakaway

theorem exec_startUp_held {straps : BitVec 3} {levels : Levels} {s : State} (h : s.node.stc.phase = .held) :
    exec (.startUp straps levels) s = .next { s with node := beginStartUp straps levels s.node } := by
  show execStartUp straps levels s = _
  simp [execStartUp, h]

theorem exec_startUp_other {straps : BitVec 3} {levels : Levels} {s : State} (h : s.node.stc.phase ≠ .held) :
    exec (.startUp straps levels) s = .next s := by
  show execStartUp straps levels s = _
  simp [execStartUp, h]

/-- Settles O17: the start-up instant, with the breakaway level as the one thing that acts at once. -/
theorem startUpTakesStrapsAndInputs : Obligations.StartUpTakesStrapsAndInputs := by
  refine ⟨fun straps levels s hp => ⟨_, exec_startUp_held hp, ?_⟩, fun straps levels s hp => exec_startUp_other hp⟩
  have frame := beginStartUp_only straps levels s.node
  have kept := beginStartUp_kept straps levels s.node
  have stc : (beginStartUp straps levels s.node).stc = _ := frame.stc (by decide)
  refine ⟨by rw [stc]; rfl, by rw [stc]; rfl, by rw [stc]; rfl, by rw [stc]; rfl, by rw [stc]; rfl,
    beginStartUp_inputs straps levels s.node, kept.channels, kept.cycle, kept.overMark, fun hb => ?_, fun hb => ?_,
    kept.slots, frame.now⟩
  · dsimp only
    rw [beginStartUp_quiet hb]
    exact ⟨rfl, rfl, rfl⟩
  · have isc := beginStartUp_breakaway_isc hb straps s.node
    exact ⟨by rw [isc], by rw [Node.esDrive, isc]; rfl, by rw [isc]⟩

/-- Settles O3, clause by clause: the sample of 1 ms, the level taken, the first samples of a start-up. -/
theorem inputsAreTakenAfterTenSamples : Obligations.InputsAreTakenAfterTenSamples := by
  refine ⟨fun s i hq hp => ?_, fun s t i level hp hl e => ?_, fun s t straps levels i hp e => ?_⟩
  · have get : (tick s).node.isc.inputs.get i = (s.node.isc.inputs.get i).sample.1 := later_inputs hp i
    have pending := tick_pending hq
    refine ⟨tick s, step_idle hq, ?_⟩
    rw [get]
    refine ⟨InputRec.sample_raw _, InputRec.sample_filtered _, fun h => ?_, fun h hr => ?_, fun h hr => ⟨?_, ?_⟩⟩
    · rw [InputRec.sample_settled h]
    · rw [InputRec.sample_counts h hr]
    · rw [InputRec.sample_takes h hr]
    · rw [pending, if_neg hp]
      exact List.mem_append_left _ (mem_levelsTaken (by rw [InputRec.sample_takes h hr]))
  · rw [execDiLevelTaken_next e]
    simp [Node.level, levelTaken_inputs hp hl]
  · rw [exec_startUp_held hp] at e
    cases e
    simp [Node.level, beginStartUp_inputs]

/-! ## What changes the records (R4 to R15, file 02 R21 to R27, file 10 R167 to R170) -/

theorem stc_rst_only {n : Node} {v : Stc} {w : Rst} : Only [.stc, .rst] n { n with stc := v, rst := w } := by
  constructor <;> first | rfl | exact fun _ => rfl | exact fun h => absurd (by decide) h

/-- CHECK hands values to the start control, begins the store scan or the STATUS grid, and does nothing else. -/
theorem checkConfig_only (block : List Byte) (n : Node) : Only [.stc, .rst, .liu] n (checkConfig block n) := by
  unfold checkConfig
  dsimp only
  split
  · exact stc_rst_only.within
  · exact (offer_only _ _).after (Only.after (x := [.stc, .rst, .liu]) liu_only stc_rst_only)

theorem checkConfig_wire (block : List Byte) (n : Node) :
    (checkConfig block n).liu.wire = n.liu.wire ∧ (checkConfig block n).liu.consecutive = n.liu.consecutive ∧
      (checkConfig block n).liu.total = n.liu.total := by
  unfold checkConfig
  dsimp only
  split
  · exact ⟨rfl, rfl, rfl⟩
  · have grid := fun m : Node => beginStatusGrid_kept m
    exact ⟨(grid _).wire, (grid _).consecutive, (grid _).total⟩

theorem execConfigReadDone_only {block : List Byte} {s t : State} (e : execConfigReadDone block s = .next t) :
    Only [.stc, .rst, .liu] s.node t.node := by
  rw [act_next e]
  exact .onlyIf fun _ => checkConfig_only block s.node

theorem execConfigReadDone_wire {block : List Byte} {s t : State} (e : execConfigReadDone block s = .next t) :
    t.node.liu.wire = s.node.liu.wire ∧ t.node.liu.consecutive = s.node.liu.consecutive ∧
      t.node.liu.total = s.node.liu.total := by
  rw [act_next e]
  by_cases h : s.node.stc.phase = .configRead
  · simpa [h] using checkConfig_wire block s.node
  · simp [h]

theorem latch_mem_mayChange {c : Instr} (h : .latch ∈ mayChange c) : ∃ f, c = .esdClear f := by
  unfold mayChange at h
  split at h
  all_goals simp at h ⊢

theorem channels_mem_mayChange {c : Instr} (h : .channels ∈ mayChange c) : ∃ e i, c = .converterAnswer e i := by
  unfold mayChange at h
  split at h
  all_goals simp at h ⊢

theorem inputs_mem_mayChange {c : Instr} (h : .inputs ∈ mayChange c) : ∃ i l, c = .diLevelTaken i l := by
  unfold mayChange at h
  split at h
  all_goals simp at h ⊢

theorem sides_mem_mayChange {c : Instr} (h : .sides ∈ mayChange c) :
    (∃ p, c = .vehicleFrame p) ∨ (∃ i, c = .irRisingEdge i) ∨ c = .quietLineSeen ∨ c = .diLevelTaken .coupled true := by
  unfold mayChange at h
  split at h
  all_goals simp at h ⊢

theorem wire_mem_mayChange {c : Instr} (h : .wire ∈ mayChange c) :
    c = .transmitAttempt ∨ c = .frameSent ∨ (∃ p, c = .arbitrationYield p) ∨ ∃ p, c = .lineFault p := by
  unfold mayChange at h
  split at h
  all_goals simp at h ⊢

/-- Settles O8: of the commands that are no start-up, only ESD-CLEAR may change a set latch. -/
theorem latchClearsOnlyByEsdClearOrStartUp : Obligations.LatchClearsOnlyByEsdClearOrStartUp := by
  intro c s t cause hCause hStart hClear e hl
  by_cases hRead : ∃ block, c = .configReadDone block
  · obtain ⟨block, rfl⟩ := hRead
    rw [(execConfigReadDone_only e).isc (by decide), hl]
  · have kept := (exec_but c hCause hStart (fun a h => hRead ⟨a, h⟩) e).1
    rw [kept.latch (fun h => (latch_mem_mayChange h).elim hClear) (by rw [hl]; rfl), hl]

/-- Settles O9: each of the four kinds of records is among the items of its own commands alone. -/
theorem recordsChangeOnlyByTheirCommands : Obligations.RecordsChangeOnlyByTheirCommands := by
  intro c s t hCause hStart e
  by_cases hRead : ∃ block, c = .configReadDone block
  · obtain ⟨block, rfl⟩ := hRead
    have isc := (execConfigReadDone_only e).isc (by decide)
    have vlr := (execConfigReadDone_only e).vlr (by decide)
    refine ⟨fun _ => by rw [isc], fun _ => by rw [isc], fun _ _ _ _ => ?_, fun _ _ _ _ => execConfigReadDone_wire e⟩
    rw [vlr]
    exact ⟨rfl, rfl, rfl, rfl⟩
  · have kept := (exec_but c hCause hStart (fun a h => hRead ⟨a, h⟩) e).1
    refine ⟨fun hAnswer => kept.channels fun h => ?_, fun hLevel => kept.inputs fun h => ?_,
      fun hFrame hEdge hQuiet hCouple => kept.sides fun h => ?_,
      fun hAttempt hSent hYield hFault => kept.wire fun h => ?_⟩
    · obtain ⟨echo, i, rfl⟩ := channels_mem_mayChange h
      exact hAnswer echo i rfl
    · obtain ⟨i, l, rfl⟩ := inputs_mem_mayChange h
      exact hLevel i l rfl
    · obtain ⟨p, rfl⟩ | ⟨i, rfl⟩ | rfl | rfl := sides_mem_mayChange h
      · exact hFrame p rfl
      · exact hEdge i rfl
      · exact hQuiet rfl
      · exact hCouple rfl
    · obtain rfl | rfl | ⟨p, rfl⟩ | ⟨p, rfl⟩ := wire_mem_mayChange h
      · exact hAttempt rfl
      · exact hSent rfl
      · exact hYield p rfl
      · exact hFault p rfl

/-! ## Scan cycles (R2, R3) -/

theorem gridDue_some {n : Node} {g : Nat} (h : g ≤ n.now) : n.gridDue (some g) = true := by simp [Node.gridDue, h]

theorem exec_scanGridInstant_due {s : State} {g : Nat} (hg : s.node.isc.gridNext = some g) (hn : g ≤ s.node.now) :
    exec .scanGridInstant s = .next { s with node := gridInstant s.node } := by
  show execScanGridInstant s = _
  simp [execScanGridInstant, hg, gridDue_some hn]

theorem exec_exchangeTimeout_due {s : State} {c : Cycle} (hc : s.node.isc.cycle = some c)
    (hn : 2 ≤ s.node.now - c.since) :
    exec .exchangeTimeout s = .next { s with node := exchangeEnded s.node } := by
  show execExchangeTimeout s = _
  simp [execExchangeTimeout, Node.exchangeLate, Node.elapsed, hc, hn]

theorem exec_exchangeTimeout_early {s : State} {c : Cycle} (hc : s.node.isc.cycle = some c)
    (hn : s.node.now - c.since < 2) : exec .exchangeTimeout s = .next s := by
  show execExchangeTimeout s = _
  simp [execExchangeTimeout, Node.exchangeLate, Node.elapsed, hc, Nat.not_le.mpr hn]

theorem gridInstant_busy {n : Node} {g : Nat} (hg : n.isc.gridNext = some g) (hc : n.isc.cycle.isSome = true) :
    gridInstant n = { n with isc := { n.isc with gridNext := some (g + 20), pendingCycle := true } } := by
  simp [gridInstant, hg, hc]

theorem gridInstant_idle {n : Node} {g : Nat} (hg : n.isc.gridNext = some g) (hc : n.isc.cycle = none) :
    gridInstant n = { n with isc := { n.isc with
      gridNext := some (g + 20), cycle := some ⟨scanOrder n.stc.cfg.bankCount, n.hears, n.now⟩ } } := by
  simp [gridInstant, hg, hc, startCycle, Node.hears]

theorem exchangeEnded_next {n : Node} {a b : Channel} {rest : List Channel} {j : Bool} {r : Nat}
    (hc : n.isc.cycle = some ⟨a :: b :: rest, j, r⟩) :
    exchangeEnded n = { n with isc := { n.isc with cycle := some ⟨b :: rest, j, n.now⟩ } } := by
  simp [exchangeEnded, hc]

theorem exchangeEnded_last {n : Node} {a : Channel} {j : Bool} {r : Nat} (hc : n.isc.cycle = some ⟨[a], j, r⟩) :
    exchangeEnded n = { n with isc := { n.isc with
      pendingCycle := false
      cycle := if n.isc.pendingCycle then some ⟨scanOrder n.stc.cfg.bankCount, n.hears, n.now⟩ else none } } := by
  cases hp : n.isc.pendingCycle with
  | false => simp [exchangeEnded, hc, hp]
  | true => simp [exchangeEnded, hc, hp, startCycle, Node.hears]

/-- Settles O22: the grid instant with and without a cycle, the next exchange and the last one of a cycle. -/
theorem scanCyclesRunOnTheGrid : Obligations.ScanCyclesRunOnTheGrid := by
  refine ⟨fun s g hg hn hc => ?_, fun s g hg hn hc => ?_, fun s a b rest j r hc hn => ?_, fun s a j r hc hn => ?_,
    fun s c hc hn => exec_exchangeTimeout_early hc hn⟩
  · rw [exec_scanGridInstant_due hg hn, gridInstant_busy hg hc]
  · rw [exec_scanGridInstant_due hg hn, gridInstant_idle hg hc]
  · rw [exec_exchangeTimeout_due hc hn, exchangeEnded_next hc]
  · rw [exec_exchangeTimeout_due hc hn, exchangeEnded_last hc]

end Sys2Proof.Machine

/-! # Converter answers, trips and the safety loop (file 01 R3, R4, R10 to R14, file 03 R54) -/

namespace Sys2Proof.Machine

/-! ## The exchange in flight (R3, R4) -/

theorem exchangeEnded_only (n : Node) : Only [.isc] n (exchangeEnded n) := by
  unfold exchangeEnded
  split
  · exact .refl _ n
  · split
    · split
      · exact Only.after (x := [.isc]) isc_only isc_only
      · exact isc_only
    · exact isc_only

theorem exchangeEnded_isc (n : Node) : (exchangeEnded n).isc = { n.isc with
    cycle := (exchangeEnded n).isc.cycle, pendingCycle := (exchangeEnded n).isc.pendingCycle } := by
  unfold exchangeEnded
  split
  · rfl
  · split
    · split <;> rfl
    · rfl

@[simp] theorem exchangeEnded_latch (n : Node) : (exchangeEnded n).isc.latch = n.isc.latch := by
  rw [exchangeEnded_isc]

@[simp] theorem exchangeEnded_overMark (n : Node) : (exchangeEnded n).isc.overMark = n.isc.overMark := by
  rw [exchangeEnded_isc]

@[simp] theorem exchangeEnded_loop (n : Node) : (exchangeEnded n).isc.loop = n.isc.loop := by
  rw [exchangeEnded_isc]

@[simp] theorem exchangeEnded_fcu (n : Node) : (exchangeEnded n).fcu = n.fcu := (exchangeEnded_only n).fcu (by decide)

/-- An answer in time ends the exchange in flight; it is judged if the echo names its channel and the cycle is judged. -/
theorem exec_converterAnswer_inTime {s : State} {ch : Channel} {rest : List Channel} {j : Bool} {r : Nat}
    (hc : s.node.isc.cycle = some ⟨ch :: rest, j, r⟩) (ht : s.node.now - r ≤ 2) (echo : Nat) (i : BitVec 16) :
    exec (.converterAnswer echo i) s = .next { s with
      node := exchangeEnded (s.node.onlyIf (j && decide (echo = converterInput ch)) (judgeAnswer ch i.toNat)) } := by
  show execConverterAnswer echo i s = _
  simp [execConverterAnswer, converterAnswer, hc, Node.elapsed, ht]

theorem exec_converterAnswer_late {s : State} {c : Cycle} (hc : s.node.isc.cycle = some c)
    (ht : 2 < s.node.now - c.since) (echo : Nat) (i : BitVec 16) : exec (.converterAnswer echo i) s = .next s := by
  show execConverterAnswer echo i s = _
  have : converterAnswer echo i.toNat s.node = s.node := by
    unfold converterAnswer
    rw [hc]
    dsimp only
    split
    · rfl
    · exact if_neg (Nat.not_le.mpr ht)
  rw [execConverterAnswer, State.act_eq, this]

/-- In a cycle that is not judged an answer changes no record, in time or not (R7). -/
theorem converterAnswer_unjudged {n : Node} {left : List Channel} {r : Nat} (hc : n.isc.cycle = some ⟨left, false, r⟩)
    (echo i : Nat) : (converterAnswer echo i n).isc.channels = n.isc.channels := by
  unfold converterAnswer
  rw [hc]
  dsimp only
  split
  · rfl
  · split
    · rw [exchangeEnded_isc]
      rfl
    · rfl

theorem currentInRange_iff (i : Nat) : currentInRange i = true ↔ 3600 ≤ i ∧ i ≤ 21000 := by simp [currentInRange]

/-- The node with the record of an accepted sample. -/
def Node.accepting (c : Channel) (v : Nat) (n : Node) : Node :=
  { n with isc.channels := n.isc.channels.set c ⟨some v, some n.now, .ok⟩ }

/-- The node with the record of a channel FAILED, its value and age kept. -/
def Node.failing (c : Channel) (n : Node) : Node :=
  { n with isc.channels := n.isc.channels.set c { n.chan c with health := .failed } }

theorem judgeAnswer_accepted {i : Nat} (hi : 3600 ≤ i ∧ i ≤ 21000) (c : Channel) (n : Node) :
    judgeAnswer c i n = sampleEffect c (codeOfCurrent c i) (n.accepting c (codeOfCurrent c i)) :=
  if_pos ((currentInRange_iff i).mpr hi)

theorem judgeAnswer_failed {i : Nat} (hi : i < 3600 ∨ 21000 < i) (c : Channel) (n : Node) :
    judgeAnswer c i n = failedEffect c (n.chan c) (n.failing c) :=
  if_neg fun h => by have := (currentInRange_iff i).mp h; omega

/-- What a sample sets off leaves every channel record. -/
theorem judgeAnswer_accepted_channels {i : Nat} (hi : 3600 ≤ i ∧ i ≤ 21000) (c : Channel) (n : Node) :
    (judgeAnswer c i n).isc.channels = n.isc.channels.set c ⟨some (codeOfCurrent c i), some n.now, .ok⟩ := by
  rw [judgeAnswer_accepted hi, (sampleEffect_but c _ _).channels (by decide)]
  rfl

theorem judgeAnswer_failed_channels {i : Nat} (hi : i < 3600 ∨ 21000 < i) (c : Channel) (n : Node) :
    (judgeAnswer c i n).isc.channels = n.isc.channels.set c { n.chan c with health := .failed } := by
  rw [judgeAnswer_failed hi, (failedEffect_kept c _ _).channels]
  rfl

theorem judgeAnswer_chan_other {c d : Channel} (h : d ≠ c) (i : Nat) (n : Node) :
    (judgeAnswer c i n).chan d = n.chan d := by
  by_cases hi : 3600 ≤ i ∧ i ≤ 21000
  · rw [Node.chan, judgeAnswer_accepted_channels hi, Channels.get_set_other _ _ _ _ h]
    rfl
  · rw [Node.chan, judgeAnswer_failed_channels (by omega), Channels.get_set_other _ _ _ _ h]
    rfl

theorem exchangeEnded_chan (n : Node) (d : Channel) : (exchangeEnded n).chan d = n.chan d := by
  rw [Node.chan, exchangeEnded_isc]
  rfl

/-- Settles O23: the answer is judged or not by echo and cycle, and then by its current alone. -/
theorem answersAreJudgedOnTheirCurrent : Obligations.AnswersAreJudgedOnTheirCurrent := by
  refine ⟨fun s ch rest echo i r hc ht => ⟨_, exec_converterAnswer_inTime hc ht echo i, ?_⟩,
    fun s left echo i r hc => ⟨_, rfl, converterAnswer_unjudged hc echo i.toNat⟩,
    fun s c echo i hc ht => exec_converterAnswer_late hc ht echo i⟩
  simp only [exchangeEnded_chan, Bool.true_and]
  by_cases he : echo = converterInput ch
  · rw [decide_eq_true he, Node.onlyIf_true]
    refine ⟨fun d hd => judgeAnswer_chan_other hd _ _, fun hne => absurd he hne, fun _ hlo hhi => ?_, fun _ hi => ?_⟩
    · rw [Node.chan, judgeAnswer_accepted_channels ⟨hlo, hhi⟩, Channels.get_set_same]
      rfl
    · rw [Node.chan, judgeAnswer_failed_channels hi, Channels.get_set_same]
  · rw [decide_eq_false he, Node.onlyIf_false]
    exact ⟨fun _ _ => rfl, fun _ => rfl, fun h => absurd h he, fun h => absurd h he⟩

/-! ## What a stop of the compressor tells the fill (file 03 R45, R47) -/

theorem Phase.filling_of_ramping {p : Phase} (h : p.ramping = true) : p.filling = true := by
  cases p <;> first | rfl | cases h

theorem Phase.ramping_of_not_filling {p : Phase} (h : p.filling = false) : p.ramping = false := by
  cases p <;> first | rfl | cases h

theorem clearTarget_filling (n : Node) : (clearTarget n).fcu.phase.filling = n.fcu.phase.filling := by
  unfold clearTarget
  dsimp only
  split
  · rename_i h
    rw [h]
    rfl
  · rfl

theorem pauseEffect_filling (n : Node) : (pauseEffect n).fcu.phase.filling = n.fcu.phase.filling := by
  unfold pauseEffect
  split
  · rename_i h
    exact (Phase.filling_of_ramping h).symm
  · split <;> rfl

theorem endSearch_filling (n : Node) : (endSearch n).fcu.phase.filling = n.fcu.phase.filling := by
  unfold endSearch
  split
  · exact pauseEffect_filling _
  · rfl

theorem giveUpSource_filling (n : Node) : (giveUpSource n).fcu.phase.filling = n.fcu.phase.filling := by
  unfold giveUpSource
  split
  · exact clearTarget_filling _
  · rfl

/-- A DIRECT request withdrawn or denied leaves a fill in progress. -/
theorem tellDirect_filling (d : DirectReq) (n : Node) :
    (tellDirect d n).fcu.phase.filling = n.fcu.phase.filling := by
  cases d with
  | none => rfl
  | pending =>
    show (fcuDirectDenied n).fcu.phase.filling = _
    unfold fcuDirectDenied
    split
    · rw [endSearch_filling, clearTarget_filling]
    · rfl
  | serving =>
    show (fcuDirectWithdrawn n).fcu.phase.filling = _
    unfold fcuDirectWithdrawn
    split
    · exact giveUpSource_filling n
    · rfl

/-- Outside RAMPING it changes nothing. -/
theorem tellDirect_resting {n : Node} (h : n.fcu.phase.ramping = false) (d : DirectReq) : tellDirect d n = n := by
  cases d <;> simp [tellDirect, fcuDirectWithdrawn, fcuDirectDenied, h]

theorem ccuGo_filling (st : CompState) (n : Node) : (ccuGo st n).fcu.phase.filling = n.fcu.phase.filling := by
  rw [ccuGo, tellDirect_filling, (ccuHalt_only st n).fcu (by decide)]

theorem ccuStop_filling (n : Node) : (ccuStop n).fcu.phase.filling = n.fcu.phase.filling := by
  unfold ccuStop
  cases n.cmRun
  · rfl
  · exact ccuGo_filling _ n

theorem ccuStop_resting_fcu {n : Node} (h : n.fcu.phase.ramping = false) : (ccuStop n).fcu = n.fcu := by
  have halt := (ccuHalt_only .stopping n).fcu (by decide)
  unfold ccuStop
  cases n.cmRun
  · rfl
  · rw [Node.onlyIf_true, ccuGo, tellDirect_resting (by rw [halt]; exact h), halt]

/-! ## The state of the compressor through a stop and the end of a fill (file 07 R127, R129) -/

theorem ccuGiveClaim_state (n : Node) : (ccuGiveClaim n).ccu.state = n.ccu.state := by
  unfold ccuGiveClaim
  split
  · rfl
  · split
    · rfl
    · rw [(bcuRelease_only _ _ _).ccu (by decide)]
    · split
      · rw [(bcuRelease_only _ _ _).ccu (by decide)]
      · rfl

theorem ccuHalt_state (st : CompState) (n : Node) : (ccuHalt st n).ccu.state = st := ccuGiveClaim_state _

theorem ccuGo_state (st : CompState) (n : Node) : (ccuGo st n).ccu.state = st := by
  rw [ccuGo, (tellDirect_only _ _).ccu (by decide), ccuHalt_state]

theorem ccuStop_state (n : Node) : (ccuStop n).ccu.state = if n.cmRun = true then .stopping else n.ccu.state := by
  unfold ccuStop
  cases n.cmRun
  · rfl
  · exact ccuGo_state _ n

theorem cmRun_of_loadedDirect {n : Node} (h : n.ccu.state = .loadedDirect) : n.cmRun = true := by
  rw [Node.cmRun, h]
  rfl

theorem ccuStop_not_loadedDirect (n : Node) : (ccuStop n).ccu.state ≠ .loadedDirect := by
  rw [ccuStop_state]
  split
  · decide
  · exact fun h => by simp_all [cmRun_of_loadedDirect h]

/-- Only the hand-back of DIRECT service changes the state of the compressor at the end of a fill. -/
theorem ccuHandBack_state {n : Node} (h : n.ccu.state ≠ .loadedDirect) : (ccuHandBack n).ccu.state = n.ccu.state := by
  unfold ccuHandBack
  split
  · rfl
  · rw [if_neg h]

theorem endFill_state {n : Node} (h : n.ccu.state ≠ .loadedDirect) (r : EndReason) :
    (endFill r n).ccu.state = n.ccu.state := by
  unfold endFill
  rw [(fcuClosingDone_only _).ccu (by decide), (hsuFillEnd_only _).ccu (by decide)]
  have back (k : Node) : (Four.all.foldl (fun k b => giveBack b k) k).ccu = k.ccu :=
    (Only.foldl (fun k b => giveBack_only b k) Four.all k).ccu (by decide)
  rw [ccuHandBack_state (by rw [back]; exact h), back]

theorem endTest_state {n : Node} (h : n.ccu.state ≠ .loadedDirect) : (endTest n).ccu.state = n.ccu.state := by
  obtain ⟨e, -⟩ | ⟨r, -, -, e⟩ := endTest_cases n
  · rw [e]
  · rw [e, endFill_state h]

/-! ## Reasons for the end of a fill (file 03 R58) -/

theorem endReasonNow_esd {n : Node} (hl : n.isc.loop = .tripped) (hc : n.isc.latch = none) :
    n.endReasonNow = some .esd := by
  simp [Node.endReasonNow, Node.endConditions, hl, hc]

theorem endReasonNow_breakaway {n : Node} (hc : n.isc.latch.isSome = true) (hb : n.level .breakaway = true) :
    n.endReasonNow = some .breakaway := by
  simp [Node.endReasonNow, Node.endConditions, hc, hb]

theorem endReasonNow_latched {n : Node} (h : n.isc.latch.isSome = true) : ∃ r, n.endReasonNow = some r := by
  obtain ⟨c, hc⟩ := Option.isSome_iff_exists.mp h
  cases c with
  | breakaway => exact endReasonNow_some (r := .breakaway) (by simp [Node.endConditions, hc])
  | hoseRupture => exact endReasonNow_some (r := .hoseRupture) (by simp [Node.endConditions, hc])
  | overpressure => exact endReasonNow_some (r := .overpressure) (by simp [Node.endConditions, hc])

/-- A tripped loop ends a fill, whatever the latch holds. -/
theorem endReasonNow_tripped {n : Node} (hl : n.isc.loop = .tripped) : ∃ r, n.endReasonNow = some r := by
  cases hc : n.isc.latch with
  | none => exact ⟨.esd, endReasonNow_esd hl hc⟩
  | some c => exact endReasonNow_latched (by rw [hc]; rfl)

theorem endReasonNow_uncoupled {n : Node} (h : n.level .coupled = false) : ∃ r, n.endReasonNow = some r := by
  cases hb : n.level .breakaway with
  | false => exact endReasonNow_some (r := .disconnect) (by simp [Node.endConditions, h, hb])
  | true => exact endReasonNow_some (r := .breakaway) (by simp [Node.endConditions, hb])

theorem endReasonNow_disconnect {n : Node} (h : n.level .coupled = false) (hl : n.isc.loop ≠ .tripped)
    (hc : n.isc.latch = none) (hb : n.level .breakaway = false) (hv : n.validCommand ≠ some .abort) :
    n.endReasonNow = some .disconnect := by
  simp [Node.endReasonNow, Node.endConditions, h, hl, hc, hb, hv]

theorem endTest_resting {n : Node} (h : n.fcu.phase.filling = false) : endTest n = n := by simp [endTest, h]

/-- An end test with a set latch leaves no fill in progress. -/
theorem endTest_latched_not_filling {n : Node} (h : n.isc.latch.isSome = true) :
    (endTest n).fcu.phase.filling = false := by
  obtain ⟨e, hf | hr⟩ | ⟨r, -, -, e⟩ := endTest_cases n
  · rw [e, hf]
  · obtain ⟨r, hr'⟩ := endReasonNow_latched h
    rw [hr'] at hr
    cases hr
  · rw [e]
    exact (endFill_ended r n).notFilling

/-- A fill in progress with a reason to end is ended by the test. -/
theorem endTest_ended {n : Node} {r : EndReason} (hf : n.fcu.phase.filling = true) (hr : n.endReasonNow = some r) :
    Ended r n (endTest n) := by
  rw [endTest_first hf hr]
  exact endFill_ended r n

/-! ## The trip event (file 01 R13, file 03 R34, R59, file 07 R132) -/

theorem authCancel_filling {n : Node} (h : n.fcu.phase.filling = true) : authCancel n = n :=
  if_neg fun e => by rw [e] at h; cases h

theorem tripEvent_state (n : Node) : (tripEvent n).ccu.state = if n.cmRun = true then .stopping else n.ccu.state := by
  have cancel : (authCancel (ccuStop n)).ccu = (ccuStop n).ccu := (authCancel_only _).ccu (by decide)
  show (endTest (authCancel (ccuStop n))).ccu.state = _
  rw [endTest_state (by rw [cancel]; exact ccuStop_not_loadedDirect n), cancel, ccuStop_state]

/-- The trip event takes an authorization back. -/
theorem tripEvent_authorized {n : Node} (h : n.fcu.phase = .authorized) : (tripEvent n).fcu = (fcuIdle n).fcu := by
  have stop : (ccuStop n).fcu = n.fcu := ccuStop_resting_fcu (by rw [h]; rfl)
  have cancel : authCancel (ccuStop n) = fcuIdle (ccuStop n) := if_pos (by rw [stop, h])
  show (endTest (authCancel (ccuStop n))).fcu = _
  rw [cancel, endTest_resting rfl]
  simp only [fcuIdle, stop]

/-- The trip event ends a fill in progress by the first reason there is once the compressor has stopped. -/
theorem tripEvent_ended {n : Node} {r : EndReason} (hf : n.fcu.phase.filling = true)
    (hr : (ccuStop n).endReasonNow = some r) : Ended r (ccuStop n) (tripEvent n) := by
  have stop : (ccuStop n).fcu.phase.filling = true := by rw [ccuStop_filling, hf]
  show Ended r (ccuStop n) (endTest (authCancel (ccuStop n)))
  rw [authCancel_filling stop]
  exact endTest_ended stop hr

/-- Under a tripped loop there is such a reason. -/
theorem tripEvent_tripped_ended {n : Node} (hf : n.fcu.phase.filling = true) (ht : n.isc.loop = .tripped) :
    ∃ r k, Ended r k (tripEvent n) := by
  obtain ⟨r, hr⟩ := endReasonNow_tripped (n := ccuStop n) (by rw [(ccuStop_only n).isc (by decide), ht])
  exact ⟨r, _, tripEvent_ended hf hr⟩

/-- It is the emergency stop while the latch is clear. -/
theorem tripEvent_esd {n : Node} (hf : n.fcu.phase.filling = true) (ht : n.isc.loop = .tripped)
    (hc : n.isc.latch = none) : (tripEvent n).fcu.endReason = some .esd := by
  have isc : (ccuStop n).isc = n.isc := (ccuStop_only n).isc (by decide)
  exact (tripEvent_ended hf (endReasonNow_esd (by rw [isc, ht]) (by rw [isc, hc]))).reason

/-- With neither a fill nor an authorization the fill control takes no notice of the trip event. -/
theorem tripEvent_resting {n : Node} (hf : n.fcu.phase.filling = false) (ha : n.fcu.phase ≠ .authorized) :
    (tripEvent n).fcu = n.fcu := by
  have stop : (ccuStop n).fcu = n.fcu := ccuStop_resting_fcu (Phase.ramping_of_not_filling hf)
  have cancel : authCancel (ccuStop n) = ccuStop n := if_neg (by rw [stop]; exact ha)
  show (endTest (authCancel (ccuStop n))).fcu = _
  rw [cancel, endTest_resting (by rw [stop]; exact hf), stop]

/-- A trip request either leaves the fill control alone or is a trip event of a fill control not touched before. -/
theorem tripRequest_cases (cause : LatchCause) (n : Node) :
    (tripRequest cause n).fcu = n.fcu ∨
      ∃ m : Node, m.fcu = n.fcu ∧ m.isc = (tripRequest cause n).isc ∧ tripRequest cause n = tripEvent m := by
  cases hc : n.isc.latch with
  | some c => exact .inl (by rw [tripRequest_latched (by rw [hc]; rfl)])
  | none =>
    rw [tripRequest_clear hc]
    by_cases hl : n.isc.loop = .tripped
    · exact .inl (by rw [loopUpdate_still_tripped (n := { n with isc.latch := some cause }) (loopOpen_of_latch rfl) hl])
    · refine .inr ⟨_, ?_, ?_, loopUpdate_trips (loopOpen_of_latch rfl) hl⟩
      · rfl
      · rw [loopUpdate_open_isc (loopOpen_of_latch rfl)]

/-- A trip request with the end test behind it ends a fill in progress, by the reason that the safety loop then gives. -/
theorem endTest_tripRequest_ended {cause : LatchCause} {r : EndReason} {n : Node} (hf : n.fcu.phase.filling = true)
    (hr : ∀ m : Node, m.isc = (tripRequest cause n).isc → m.endReasonNow = some r) :
    ∃ k, Ended r k (endTest (tripRequest cause n)) := by
  obtain hfcu | ⟨m, hm, hi, e⟩ := tripRequest_cases cause n
  · exact ⟨_, endTest_ended (by rw [hfcu, hf]) (hr _ rfl)⟩
  · have trip := tripEvent_ended (by rw [hm, hf]) (hr _ (((ccuStop_only m).isc (by decide)).trans hi))
    rw [e, endTest_resting trip.notFilling]
    exact ⟨_, trip⟩

/-! ## The readings that wait for a P_H sample (file 03 R39 to R43, R62) -/

theorem Only.ite {x : List Block} {n a b : Node} {p : Prop} [Decidable p] (ha : Only x n a) (hb : Only x n b) :
    Only x n (if p then a else b) := by
  split
  · exact ha
  · exact hb

theorem seat_only (n : Node) : Only [.fcu] n (seat n) := fcu_only

theorem ventValve_only (o : Bool) (n : Node) : Only [.fcu] n (ventValve o n) := fcu_only

theorem beginHold_only (n : Node) : Only [.fcu] n (beginHold n) := fcu_only

theorem p0Tests_only (p : Nat) (n : Node) : Only [.fcu, .bcu, .hsu, .ccu, .mpu, .liu] n (p0Tests p n) := by
  unfold p0Tests
  exact .ite (endFill_only _ n) (.ite (endFill_only _ n)
    (.ite ((endFill_only _ _).after fcu_only) ((beginHold_only _).after fcu_only)))

theorem readP0_only (n : Node) : Only [.vlr, .fcu, .bcu, .hsu, .ccu, .mpu, .rst, .liu] n (readP0 n) := by
  have reject : Only [.vlr, .fcu, .rst] n
      (if n.p0Implausible n.pH then vlrReject { n with fcu.p0 := some n.pH, fcu.awaiting := false }
        else { n with fcu.p0 := some n.pH, fcu.awaiting := false }) := by
    split
    · exact (vlrReject_only _).after fcu_only
    · exact fcu_only.within
  unfold readP0
  dsimp only
  split
  · exact (p0Tests_only _ _).after reject
  · exact (beginHold_only _).after reject

theorem enterRamping_only (n : Node) : Only [.fcu, .rst] n (enterRamping n) := by
  unfold enterRamping
  exact (onImage_only _ _).after ((seat_only _).after (x := [.fcu]) fcu_only)

theorem attemptFailed_only (n : Node) : Only [.fcu, .bcu, .hsu, .ccu, .mpu, .liu] n (attemptFailed n) := by
  unfold attemptFailed
  split
  · exact endFill_only _ n
  · split
    · exact Only.after (a := [.fcu]) fcu_only fcu_only
    · exact (beginAttempt_only _).after fcu_only

theorem judge_only (n : Node) : Only [.fcu, .bcu, .hsu, .ccu, .mpu, .rst, .liu] n (judge n) := by
  unfold judge
  split
  · exact (enterRamping_only n).within
  · exact (attemptFailed_only n).within

theorem fcuAwaited_only (n : Node) : Only [.vlr, .fcu, .bcu, .hsu, .ccu, .mpu, .rst, .liu] n (fcuAwaited n) := by
  unfold fcuAwaited
  split
  · split
    · exact readP0_only n
    · exact (judge_only _).after fcu_only
    · exact .refl _ n
  · exact .refl _ n

theorem rezeroEnd_only (n : Node) : Only [.fcu, .bcu, .liu] n (rezeroEnd n) := by
  unfold rezeroEnd
  dsimp only
  split
  · exact (checkOnward_only _ _).after ((ventValve_only _ _).after (x := [.fcu]) fcu_only)
  · exact (beginAttempt_only _).after ((ventValve_only _ _).after (x := [.fcu]) fcu_only)

theorem fcuVentSample_only (v : Nat) (n : Node) : Only [.fcu, .bcu, .liu] n (fcuVentSample v n) := by
  unfold fcuVentSample
  split
  · split
    · exact (ventValve_only _ _).within
    · split
      · exact rezeroEnd_only n
      · exact .refl _ n
  · exact .refl _ n

theorem fcuAwaited_not_filling {n : Node} (h : n.fcu.phase.filling = false) : fcuAwaited n = n :=
  if_neg fun e => by rw [e.1] at h; cases h

theorem fcuVentSample_not_filling {n : Node} (h : n.fcu.phase.filling = false) (v : Nat) :
    (fcuVentSample v n).fcu.phase.filling = false := by
  unfold fcuVentSample
  split
  · split
    · exact h
    · rw [if_neg fun e => by rw [e.1] at h; cases h]
      exact h
  · exact h

/-! ## An accepted P_H sample (R11, file 03 R54) -/

/-- The overpressure test of a sample, with its projections. -/
def Node.overChecked (v : Nat) (n : Node) : Node :=
  mpuProject ({ n with isc.overMark := decide (overThreshold n.stc.cfg.hose < v) }.onlyIf
    (decide (overThreshold n.stc.cfg.hose < v)) (tripRequest .overpressure))

/-- The rupture test of a sample, with the sample in the window. -/
def Node.ruptureChecked (v : Nat) (n : Node) : Node :=
  (fcuWindow v n).onlyIf (n.ruptured v) fun k => endTest (tripRequest .hoseRupture k)

theorem sampleP_H_eq (v : Nat) (n : Node) :
    sampleP_H v n = fcuVentSample v (fcuAwaited ((n.overChecked v).ruptureChecked v)) := rfl

theorem sampleP_H_isc (v : Nat) (n : Node) : (sampleP_H v n).isc = ((n.overChecked v).ruptureChecked v).isc := by
  rw [sampleP_H_eq, (fcuVentSample_only _ _).isc (by decide), (fcuAwaited_only _).isc (by decide)]

theorem overChecked_high {v : Nat} {n : Node} (h : overThreshold n.stc.cfg.hose < v) :
    n.overChecked v = mpuProject (tripRequest .overpressure { n with isc.overMark := true }) := by
  simp [Node.overChecked, h]

theorem overChecked_normal {v : Nat} {n : Node} (h : v ≤ overThreshold n.stc.cfg.hose) :
    n.overChecked v = mpuProject { n with isc.overMark := false } := by
  simp [Node.overChecked, Nat.not_lt.mpr h]

theorem overChecked_normal_isc {v : Nat} {n : Node} (h : v ≤ overThreshold n.stc.cfg.hose) :
    (n.overChecked v).isc = { n.isc with overMark := false } := by
  rw [overChecked_normal h, (mpuProject_only _).isc (by decide)]

theorem overChecked_normal_fcu {v : Nat} {n : Node} (h : v ≤ overThreshold n.stc.cfg.hose) :
    (n.overChecked v).fcu = n.fcu := by
  rw [overChecked_normal h, (mpuProject_only _).fcu (by decide)]

theorem overChecked_normal_ruptured {v : Nat} {n : Node} (h : v ≤ overThreshold n.stc.cfg.hose) :
    (n.overChecked v).ruptured v = n.ruptured v := by
  have now : (n.overChecked v).now = n.now := by rw [overChecked_normal h, (mpuProject_only _).now]
  rw [Node.ruptured, Node.windowNow, overChecked_normal_fcu h, now]
  rfl

theorem ruptureChecked_kept (v : Nat) (n : Node) : Kept n (n.ruptureChecked v) :=
  Kept.after (.onlyIf fun _ => (endTest_kept _).after (tripRequest_kept _ _)) (fcuWindow_kept v n)

theorem ruptureChecked_latched_isc {n : Node} (h : n.isc.latch.isSome = true) (v : Nat) :
    (n.ruptureChecked v).isc = n.isc := by
  unfold Node.ruptureChecked
  cases n.ruptured v
  · rfl
  · rw [Node.onlyIf_true, (endTest_only _).isc (by decide), tripRequest_latched (n := fcuWindow v n) h]
    rfl

theorem ruptureChecked_steady {v : Nat} {n : Node} (h : n.ruptured v = false) : n.ruptureChecked v = fcuWindow v n := by
  rw [Node.ruptureChecked, h, Node.onlyIf_false]

theorem ruptureChecked_ruptured {v : Nat} {n : Node} (h : n.ruptured v = true) :
    n.ruptureChecked v = endTest (tripRequest .hoseRupture (fcuWindow v n)) := by
  rw [Node.ruptureChecked, h, Node.onlyIf_true]

theorem ruptureChecked_ruptured_isc {v : Nat} {n : Node} (h : n.ruptured v = true) (hl : n.isc.latch = none) :
    (n.ruptureChecked v).isc = { n.isc with latch := some .hoseRupture, loop := .tripped } := by
  rw [ruptureChecked_ruptured h, (endTest_only _).isc (by decide), tripRequest_clear_isc (n := fcuWindow v n) hl]
  rfl

/-- A sample above the threshold sets the mark and, at a clear latch, trips for overpressure (R11). -/
theorem sampleP_H_high {v : Nat} {n : Node} (h : overThreshold n.stc.cfg.hose < v) :
    (sampleP_H v n).isc.overMark = true ∧ (n.isc.latch = none →
      (sampleP_H v n).isc.latch = some .overpressure ∧ (sampleP_H v n).isc.loop = .tripped) := by
  have isc : (n.overChecked v).isc = (tripRequest .overpressure { n with isc.overMark := true }).isc := by
    rw [overChecked_high h, (mpuProject_only _).isc (by decide)]
  rw [sampleP_H_isc, ruptureChecked_latched_isc (by rw [isc]; exact tripRequest_latch_isSome _ _), isc]
  refine ⟨(tripRequest_kept _ _).overMark, fun hl => ?_⟩
  rw [tripRequest_clear_isc (n := { n with isc.overMark := true }) hl]
  exact ⟨rfl, rfl⟩

theorem sampleP_H_normal_overMark {v : Nat} {n : Node} (h : v ≤ overThreshold n.stc.cfg.hose) :
    (sampleP_H v n).isc.overMark = false := by
  rw [sampleP_H_isc, (ruptureChecked_kept v _).overMark, overChecked_normal_isc h]

/-- A rupture at a clear latch trips for it and ends a fill (file 03 R54, R59). -/
theorem sampleP_H_rupture {v : Nat} {n : Node} (h : v ≤ overThreshold n.stc.cfg.hose) (hr : n.ruptured v = true)
    (hl : n.isc.latch = none) :
    (sampleP_H v n).isc.latch = some .hoseRupture ∧ (sampleP_H v n).isc.loop = .tripped ∧
      (sampleP_H v n).fcu.phase.filling = false := by
  have ruptured : (n.overChecked v).ruptured v = true := by rw [overChecked_normal_ruptured h, hr]
  have isc := ruptureChecked_ruptured_isc ruptured (by rw [overChecked_normal_isc h]; exact hl)
  have ended : ((n.overChecked v).ruptureChecked v).fcu.phase.filling = false := by
    rw [ruptureChecked_ruptured ruptured]
    exact endTest_latched_not_filling (tripRequest_latch_isSome _ _)
  refine ⟨by rw [sampleP_H_isc, isc], by rw [sampleP_H_isc, isc], ?_⟩
  rw [sampleP_H_eq, fcuAwaited_not_filling ended]
  exact fcuVentSample_not_filling ended v

/-- Without a rupture a normal sample leaves latch and loop. -/
theorem sampleP_H_steady {v : Nat} {n : Node} (h : v ≤ overThreshold n.stc.cfg.hose) (hr : n.ruptured v = false) :
    (sampleP_H v n).isc = { n.isc with overMark := false } := by
  rw [sampleP_H_isc, ruptureChecked_steady (by rw [overChecked_normal_ruptured h, hr]), ← overChecked_normal_isc h]
  rfl

/-- The rupture test of R54 over the samples of the last 1,000 ms. -/
theorem ruptured_iff (n : Node) (v : Nat) :
    n.ruptured v = true ↔ 0 < n.fcu.fCmd ∧ ∃ p ∈ n.fcu.window, n.now - p.2 ≤ 1000 ∧ v + 500 < p.1 := by
  simp [Node.ruptured, Node.windowNow]

theorem ruptured_eq_false {n : Node} {v : Nat}
    (h : n.fcu.fCmd = 0 ∨ ∀ p ∈ n.fcu.window, 1000 < n.now - p.2 ∨ p.1 ≤ v + 500) : n.ruptured v = false := by
  rw [Bool.eq_false_iff, Ne, ruptured_iff]
  rintro ⟨hflow, p, hp, hage, hdrop⟩
  obtain h0 | hall := h
  · omega
  · have := hall p hp
    omega

/-! ## Terminal commands (file 10 R173, file 11 R186, R187) -/

theorem arrivalOf_command_kind {node : Nat} {f : LineFrame} {k : BitVec 6} (h : arrivalOf node f = .command k) :
    f.kind = k := by
  unfold arrivalOf at h
  split at h
  · cases h
  · split at h
    · split at h <;> cases h
    · split at h
      · cases h; rfl
      · cases h

/-- A received frame of the row that a reception command names has its effect. -/
theorem receive_taken {s : State} {bits : Bits} {f : LineFrame} {k : BitVec 6} (hf : receive bits = some f)
    (ha : arrivalOf s.node.stc.node f = .command k) (act : LineFrame → Node → Node) :
    s.receive (.command k) bits act = .next { s with node := act f s.node } := by
  simp [State.receive, hf, ha]

theorem badField_eq_true_iff (z : Bool) (f : LineFrame) :
    badField z f = true ↔ kindLength f.kind ≠ some f.payload.length ∨ (f.destination.toNat = 0 ∧ z = false) := by
  simp [badField]

theorem onCommand_run {n : Node} (h : n.stc.phase = .run) {z : Bool} {f : LineFrame} (hb : badField z f = false)
    (act : LineFrame → Node → Node) : onCommand z act f n = act f n := by
  simp [onCommand, h, hb]

theorem onCommand_badField {n : Node} (h : n.stc.phase = .run ∨ n.stc.phase = .startFault) {z : Bool} {f : LineFrame}
    (hb : badField z f = true) (act : LineFrame → Node → Node) :
    onCommand z act f n = answer f.terminal f.kind .badField 0 n := by
  obtain h | h := h <;> simp [onCommand, h, hb]

theorem onCommand_startFault {n : Node} (h : n.stc.phase = .startFault) {z : Bool} {f : LineFrame}
    (hb : badField z f = false) (act : LineFrame → Node → Node) :
    onCommand z act f n = answer f.terminal f.kind .notReady 0 n := by
  simp [onCommand, h, hb]

theorem onCommand_other {n : Node} (h : n.stc.phase ≠ .run) (h' : n.stc.phase ≠ .startFault) (z : Bool)
    (act : LineFrame → Node → Node) (f : LineFrame) : onCommand z act f n = n := by
  unfold onCommand
  split
  · contradiction
  · contradiction
  · rfl

/-- Every terminal command whose meaning is a reception with `onCommand` meets the gate. -/
theorem commandGate_of_exec {kind : BitVec 6} {z : Bool} {command : Bits → Instr} {act : LineFrame → Node → Node}
    (he : ∀ bits s, exec (command bits) s = s.receive (.command kind) bits (onCommand z act)) :
    CommandGate kind z command := by
  intro s bits f hf ha
  have hk := arrivalOf_command_kind ha
  rw [he, receive_taken hf ha]
  refine ⟨fun hb hp => ?_, fun hlen hd hp => ?_, fun hr hs => by rw [onCommand_other hr hs]⟩
  · rw [onCommand_badField hp ((badField_eq_true_iff z f).mpr (by rwa [hk])), hk]
    rfl
  · have hb : badField z f = false := by
      rw [Bool.eq_false_iff, Ne, badField_eq_true_iff, hk]
      rintro (h | ⟨h0, hz⟩)
      · exact h hlen
      · exact hd.elim (· h0) fun h => by rw [hz] at h; cases h
    rw [onCommand_startFault hp hb, hk]
    rfl

/-! ## ESD-CLEAR and the end of the recovery (R12, R14) -/

theorem exec_recoveryTimerExpiry_due {s : State} {a : Nat} (h : s.node.isc.loop = .recovering a)
    (ht : 5000 ≤ s.node.now - a) :
    exec .recoveryTimerExpiry s = .next { s with node := { s.node with isc := { s.node.isc with loop := .normal } } } := by
  show execRecoveryTimerExpiry s = _
  simp [execRecoveryTimerExpiry, recovered, Node.elapsed, h, ht]

theorem exec_esdClear_run {s : State} {bits : Bits} {f : LineFrame} (hf : receive bits = some f)
    (ha : arrivalOf s.node.stc.node f = .command kindEsdClear) (hp : s.node.stc.phase = .run)
    (hb : badField false f = false) : exec (.esdClear bits) s = .next { s with node := esdClear f s.node } := by
  show execEsdClear bits s = _
  rw [execEsdClear, receive_taken hf ha, onCommand_run hp hb]

theorem esdClear_clear {n : Node} (h : n.isc.latch = none) (f : LineFrame) :
    esdClear f n = offer (.answer f.source.toNat kindEsdClear .ok 0) n := by
  simp [esdClear, h, answer, LineFrame.terminal]

theorem esdClear_held {n : Node} (h : n.isc.latch.isSome = true)
    (hold : n.level .breakaway = true ∨ n.isc.overMark = true) (f : LineFrame) :
    esdClear f n = offer (.answer f.source.toNat kindEsdClear .busy 0) n := by
  obtain ⟨c, hc⟩ := Option.isSome_iff_exists.mp h
  simp [esdClear, hc, hold, answer, LineFrame.terminal]

theorem esdClear_clears {n : Node} (h : n.isc.latch.isSome = true) (hb : n.level .breakaway = false)
    (ho : n.isc.overMark = false) (f : LineFrame) :
    esdClear f n = offer (.answer f.source.toNat kindEsdClear .ok 0) (loopUpdate { n with isc.latch := none }) := by
  obtain ⟨c, hc⟩ := Option.isSome_iff_exists.mp h
  simp [esdClear, hc, hb, ho, answer, LineFrame.terminal]

/-- A latch cleared with the loop TRIPPED leaves it to the loop input (R12, R14). -/
theorem loopUpdate_latch_cleared {n : Node} (hl : n.isc.loop = .tripped) :
    loopUpdate { n with isc.latch := none } = { n with isc := { n.isc with
      latch := none, loop := if n.level .loop then .tripped else .recovering n.now } } := by
  have loopInput : ({ n with isc.latch := none } : Node).loopOpen = n.level .loop := rfl
  cases hi : n.level .loop with
  | true => rw [loopUpdate_still_tripped (n := { n with isc.latch := none }) (loopInput.trans hi) hl, if_pos rfl, ← hl]
  | false => rw [loopUpdate_recovers (n := { n with isc.latch := none }) (loopInput.trans hi) hl, if_neg (by decide)]

/-- An answer that is awaited is judged, and the exchange ends. -/
theorem exec_converterAnswer_awaited {s : State} {c : Channel} (ha : s.awaits c) (i : BitVec 16) :
    exec (.converterAnswer (converterInput c) i) s = .next { s with
      node := exchangeEnded (judgeAnswer c i.toNat s.node) } := by
  obtain ⟨rest, since, hc, ht⟩ := ha
  rw [exec_converterAnswer_inTime hc ht, decide_eq_true rfl]
  rfl

/-- Settles O26: the recovery timer, the tests of a P_H sample, ESD-CLEAR and its gate. -/
theorem loopRecoversAndLatchClears : Obligations.LoopRecoversAndLatchClears := by
  refine ⟨fun s a h ht => exec_recoveryTimerExpiry_due h ht, fun s i v ha hlo hhi hv => ?_,
    fun s bits f hf ha hp hb => ?_, commandGate_of_exec fun _ _ => rfl⟩
  · refine ⟨_, exec_converterAnswer_awaited ha i, ?_⟩
    have sample : judgeAnswer .pH i.toNat s.node = sampleP_H v (s.node.accepting .pH v) := by
      rw [judgeAnswer_accepted ⟨hlo, hhi⟩, ← hv]
      rfl
    simp only [sample, exchangeEnded_latch, exchangeEnded_overMark, exchangeEnded_loop, exchangeEnded_fcu]
    refine ⟨fun hover => sampleP_H_high hover, fun hnormal => ⟨sampleP_H_normal_overMark hnormal,
      fun hl hflow hdrop => ?_, fun hsteady => ?_⟩⟩
    · obtain ⟨latch, loop, ended⟩ := sampleP_H_rupture (n := s.node.accepting .pH v) hnormal
        ((ruptured_iff _ v).mpr ⟨hflow, hdrop⟩) hl
      exact ⟨latch, loop, fun _ => ended⟩
    · have isc := sampleP_H_steady (n := s.node.accepting .pH v) hnormal (ruptured_eq_false hsteady)
      exact ⟨by rw [isc]; rfl, by rw [isc]; rfl⟩
  · rw [exec_esdClear_run hf ha hp hb]
    exact ⟨fun hc => by rw [esdClear_clear hc], fun hc hold => by rw [esdClear_held hc hold],
      fun hc hbr ho hl => by rw [esdClear_clears hc hbr ho, loopUpdate_latch_cleared hl]⟩

end Sys2Proof.Machine

/-! # The levels of the discrete inputs and what they set off (file 01 R8 to R13) -/

namespace Sys2Proof.Machine

/-! ## The start of a fill (file 03 R35, R38) -/

/-- A fill that is being checked stays in its attempt. -/
structure SameAttempt (n m : Node) : Prop where
  phase : n.fcu.phase = .checking → m.fcu.phase = .checking
  attempt : m.fcu.attempt = n.fcu.attempt
  startedAt : m.fcu.startedAt = n.fcu.startedAt

theorem SameAttempt.of_fcu {n m : Node} (h : m.fcu = n.fcu) : SameAttempt n m where
  phase := by rw [h]; exact id
  attempt := by rw [h]
  startedAt := by rw [h]

theorem SameAttempt.trans {n k m : Node} (h : SameAttempt n k) (g : SameAttempt k m) : SameAttempt n m where
  phase := fun hp => g.phase (h.phase hp)
  attempt := g.attempt.trans h.attempt
  startedAt := g.startedAt.trans h.startedAt

theorem SameAttempt.of_flow {n m : Node} (h : FlowOnly n m) : SameAttempt n m := by
  obtain ⟨⟨f, hf⟩, -⟩ := h
  constructor <;> rw [hf]
  exact id

theorem fcuPeak_sameAttempt (n : Node) : SameAttempt n (fcuPeak n) := by
  unfold fcuPeak
  split
  · split
    · exact ⟨id, rfl, rfl⟩
    · exact .of_fcu rfl
  · exact .of_fcu rfl

theorem pauseEffect_sameAttempt (n : Node) : SameAttempt n (pauseEffect n) := by
  unfold pauseEffect
  split
  · rename_i h
    exact ⟨fun hp => (by rw [hp] at h; cases h), rfl, rfl⟩
  · split
    · exact ⟨id, rfl, rfl⟩
    · exact .of_fcu rfl

theorem setBankWait_sameAttempt (n : Node) : SameAttempt n (setBankWait n) := by
  unfold setBankWait
  refine SameAttempt.trans ?_ (pauseEffect_sameAttempt _)
  exact ⟨id, rfl, rfl⟩

theorem checkSearch_sameAttempt (bs : List Bank) (n : Node) : SameAttempt n (checkSearch bs n) := by
  induction bs generalizing n with
  | nil => exact setBankWait_sameAttempt n
  | cons b bs ih =>
    unfold checkSearch
    split
    · have request : (bcuRequest b .draw n).1.fcu = n.fcu := (bcuRequest_only b .draw n).fcu (by decide)
      split
      · rename_i m e
        rw [e] at request
        exact (SameAttempt.of_fcu request).trans ⟨id, rfl, rfl⟩
      · rename_i m e
        rw [e] at request
        exact (SameAttempt.of_fcu request).trans (ih m)
    · exact ih n

theorem mpuMarks_window (n : Node) :
    (mpuMarks n).mpu.windowOpen = n.mpu.windowOpen ∧ (mpuMarks n).mpu.gross = n.mpu.gross := by
  unfold mpuMarks
  split
  · exact ⟨rfl, rfl⟩
  · split <;> exact ⟨rfl, rfl⟩

theorem mpuProject_window (n : Node) :
    (mpuProject n).mpu.windowOpen = n.mpu.windowOpen ∧ (mpuProject n).mpu.gross = n.mpu.gross := by
  unfold mpuProject
  split
  · exact mpuMarks_window _
  · exact ⟨rfl, rfl⟩

/-- The counting window opens with nothing counted (file 08 R138). -/
theorem mpuOpen_window (n : Node) : (mpuOpen n).mpu.windowOpen = true ∧ (mpuOpen n).mpu.gross = 0 := mpuProject_window _

/-- The fill control at the entry to CHECKING. -/
def Node.enteringChecking (n : Node) : Node :=
  { n with
    fcu.phase := .checking, fcu.authSince := none, fcu.check := .claimWait, fcu.stepSince := none
    fcu.awaiting := false, fcu.attempt := 1, fcu.pauses := .none, fcu.derated := false, fcu.exhausted := false
    fcu.ventFail := false, fcu.lastSoc := none, fcu.peakTv := none, fcu.endReason := none, fcu.window := []
    fcu.lineFault := false, fcu.startedAt := n.now, fcu.periodNext := some (n.now + 100) }

/-- The node with its record created and its counting window open. -/
def Node.windowOpened (n : Node) : Node := mpuOpen (rstCreate (fcuPeak n))

/-- The start of a fill: the entry, the hand-overs to store, meter, heat share and line, and the search for a bank. -/
theorem startFill_eq (n : Node) : ∃ terminal, startFill n = checkSearch (banksUpTo n.stc.cfg.bankCount)
    { offer (.progress terminal) (hsuFillStart n.enteringChecking.windowOpened) with
      liu.progressNext := some (n.now + 1000) } := ⟨_, rfl⟩

theorem windowOpened_sameAttempt (n : Node) : SameAttempt n n.windowOpened := by
  have opened : Only [.mpu, .rst, .liu] (fcuPeak n) n.windowOpened := (mpuOpen_only _).after (rstCreate_only _)
  exact (fcuPeak_sameAttempt n).trans (.of_fcu (opened.fcu (by decide)))

/-- The entry to CHECKING: attempt 1, started now, and the counting window open. -/
theorem startFill_begins (n : Node) : (startFill n).fcu.phase = .checking ∧ (startFill n).fcu.attempt = 1 ∧
    (startFill n).fcu.startedAt = n.now ∧ (startFill n).mpu.windowOpen = true ∧ (startFill n).mpu.gross = 0 := by
  obtain ⟨terminal, e⟩ := startFill_eq n
  have shared : SameAttempt n.enteringChecking (hsuFillStart n.enteringChecking.windowOpened) :=
    (windowOpened_sameAttempt _).trans (.of_flow (hsuFillStart_flow _))
  have offered : Only [.liu] (hsuFillStart n.enteringChecking.windowOpened)
      { offer (.progress terminal) (hsuFillStart n.enteringChecking.windowOpened) with
        liu.progressNext := some (n.now + 1000) } := Only.after (x := [.liu]) liu_only (offer_only _ _)
  have attempt : SameAttempt n.enteringChecking (startFill n) := by
    rw [e]
    exact shared.trans ((SameAttempt.of_fcu (offered.fcu (by decide))).trans (checkSearch_sameAttempt _ _))
  have mpu : (startFill n).mpu = n.enteringChecking.windowOpened.mpu := by
    rw [e, (checkSearch_only _ _).mpu (by decide), offered.mpu (by decide), (hsuFillStart_only _).mpu (by decide)]
  rw [mpu]
  exact ⟨attempt.phase rfl, attempt.attempt, attempt.startedAt, mpuOpen_window _⟩

/-! ## A new level, input by input -/

/-- A new level outside the hold is taken, unless a START press would find no slot (log 24). -/
theorem exec_diLevelTaken_new {s : State} {i : Input} {l : Bool}
    (hslot : i = .start → l = true → s.node.startTaken = true → s.node.rst.chooseSlot.isSome = true) :
    exec (.diLevelTaken i l) s = .next { s with node := levelTaken i l s.node } := by
  have slot : s.node.startWithoutSlot i l = false := by
    rw [Bool.eq_false_iff]
    intro h
    simp only [Node.startWithoutSlot, Bool.and_eq_true, decide_eq_true_eq, Option.isNone_iff_eq_none] at h
    obtain ⟨⟨⟨⟨⟨-, hi⟩, hl⟩, -⟩, hstart⟩, hnone⟩ := h
    have found := hslot hi hl hstart
    rw [hnone] at found
    cases found
  show execDiLevelTaken i l s = _
  simp [execDiLevelTaken, slot]

theorem Ended.stopped {r : EndReason} {n m : Node} (h : Ended r n m) :
    (m.fcu.phase = .closing ∨ m.fcu.phase = .venting) ∧ m.fcu.fCmd = 0 ∧ m.fcu.periodNext = none ∧
      ∀ b : Bank, (m.fcu.vb.get b).opened = false := ⟨h.phase, h.flow, h.period, h.shut⟩

theorem setLevel_loop_loopOpen {l : Bool} {n : Node} (h : l = true ∨ n.isc.latch.isSome = true) :
    (setLevel .loop l n).loopOpen = true := (Bool.or_eq_true _ _).mpr h.symm

theorem setLevel_loop_loopClosed {n : Node} (h : n.isc.latch = none) : (setLevel .loop false n).loopOpen = false := by
  show (n.isc.latch.isSome || false) = false
  rw [h]
  rfl

/-- Only a decoupling is an event of a level that goes inactive (R9). -/
theorem edgeEvent_released {i : Input} (h : i ≠ .coupled) (n : Node) : edgeEvent i false n = n := by
  cases i <;> first | rfl | contradiction

theorem edgeEvent_start_inert {n : Node} (h : n.startTaken = false) (l : Bool) : edgeEvent .start l n = n := by
  cases l
  · rfl
  · show n.onlyIf n.startTaken startFill = n
    rw [h, Node.onlyIf_false]

theorem edgeEvent_holstered_inert {n : Node} (h : n.fcu.phase ≠ .done) (l : Bool) : edgeEvent .holstered l n = n := by
  cases l
  · rfl
  · show n.onlyIf (decide (n.fcu.phase = .done)) fcuIdle = n
    rw [decide_eq_false h, Node.onlyIf_false]

section
variable {n : Node} (hp : n.stc.phase ≠ .held)
include hp

theorem levelTaken_get_same {i : Input} {l : Bool} (hl : n.level i ≠ l) :
    (levelTaken i l n).isc.inputs.get i = ⟨l, l, 0⟩ := by
  rw [levelTaken_inputs hp hl, PerInput.get_set_same]

theorem levelTaken_get_other {i j : Input} {l : Bool} (hl : n.level i ≠ l) (hj : j ≠ i) :
    (levelTaken i l n).isc.inputs.get j = n.isc.inputs.get j := by
  rw [levelTaken_inputs hp hl, PerInput.get_set, if_neg hj]

/-- A level without an effect and without an edge event changes its input record alone. -/
theorem levelTaken_only_input {i : Input} {l : Bool} (hl : n.level i ≠ l)
    (effect : levelEffect i l (setLevel i l n) = setLevel i l n)
    (edge : n.inRun = true → edgeEvent i l (setLevel i l n) = setLevel i l n) :
    levelTaken i l n = setLevel i l n := by
  rw [levelTaken_new hp hl, effect]
  cases hrun : n.inRun with
  | false => rfl
  | true => exact edge hrun

/-! Breakaway (R10, file 03 R59) -/

theorem levelTaken_breakaway (hl : n.level .breakaway ≠ true) : levelTaken .breakaway true n =
    (tripRequest .breakaway (setLevel .breakaway true n)).onlyIf n.inRun endTest := levelTaken_new hp hl

theorem levelTaken_breakaway_isc (hl : n.level .breakaway ≠ true) :
    (levelTaken .breakaway true n).isc = (tripRequest .breakaway (setLevel .breakaway true n)).isc := by
  rw [levelTaken_breakaway hp hl]
  exact (Only.onlyIf fun _ => endTest_only _).isc (by decide)

theorem levelTaken_breakaway_trips (hl : n.level .breakaway ≠ true) (hc : n.isc.latch = none) :
    (levelTaken .breakaway true n).isc.latch = some .breakaway ∧ (levelTaken .breakaway true n).isc.loop = .tripped := by
  rw [levelTaken_breakaway_isc hp hl, tripRequest_clear_isc (n := setLevel .breakaway true n) hc]
  exact ⟨rfl, rfl⟩

theorem levelTaken_breakaway_latched (hl : n.level .breakaway ≠ true) (hc : n.isc.latch.isSome = true) :
    (levelTaken .breakaway true n).isc = (setLevel .breakaway true n).isc := by
  rw [levelTaken_breakaway_isc hp hl, tripRequest_latched (n := setLevel .breakaway true n) hc]

theorem levelTaken_breakaway_ended (hl : n.level .breakaway ≠ true) (hrun : n.inRun = true)
    (hf : n.fcu.phase.filling = true) : ∃ k, Ended .breakaway k (levelTaken .breakaway true n) := by
  rw [levelTaken_breakaway hp hl, hrun, Node.onlyIf_true]
  refine endTest_tripRequest_ended hf fun m hm => endReasonNow_breakaway ?_ ?_
  · rw [hm]
    exact tripRequest_latch_isSome _ _
  · rw [Node.level, hm, (tripRequest_kept _ _).inputs]
    exact setLevel_level .breakaway true n

/-! Coupling and decoupling (file 02 R16, R27, file 03 R59) -/

theorem levelTaken_coupled (hl : n.level .coupled ≠ true) (hrun : n.inRun = true) :
    levelTaken .coupled true n = vlrCouple (setLevel .coupled true n) := by
  rw [levelTaken_new hp hl, hrun]
  rfl

theorem levelTaken_decoupled (hl : n.level .coupled ≠ false) (hrun : n.inRun = true) :
    levelTaken .coupled false n = endTest (vlrDecouple (setLevel .coupled false n)) := by
  rw [levelTaken_new hp hl, hrun]
  rfl

theorem levelTaken_decoupled_vlr (hl : n.level .coupled ≠ false) (hrun : n.inRun = true) :
    (levelTaken .coupled false n).vlr = { n.vlr with decoder := none } := by
  rw [levelTaken_decoupled hp hl hrun]
  exact (endTest_only _).vlr (by decide)

theorem levelTaken_decoupled_resting (hl : n.level .coupled ≠ false) (hrun : n.inRun = true)
    (hf : n.fcu.phase.filling = false) : levelTaken .coupled false n = vlrDecouple (setLevel .coupled false n) := by
  rw [levelTaken_decoupled hp hl hrun]
  exact endTest_resting hf

theorem levelTaken_decoupled_ended (hl : n.level .coupled ≠ false) (hrun : n.inRun = true)
    (hf : n.fcu.phase.filling = true) : ∃ r k, Ended r k (levelTaken .coupled false n) := by
  obtain ⟨r, hr⟩ := endReasonNow_uncoupled (n := vlrDecouple (setLevel .coupled false n)) (setLevel_level .coupled false n)
  rw [levelTaken_decoupled hp hl hrun]
  exact ⟨r, _, endTest_ended hf hr⟩

theorem levelTaken_decoupled_disconnect (hl : n.level .coupled ≠ false) (hrun : n.inRun = true)
    (hf : n.fcu.phase.filling = true) (hloop : n.isc.loop ≠ .tripped) (hc : n.isc.latch = none)
    (hb : n.level .breakaway = false) (hv : n.validCommand ≠ some .abort) :
    (levelTaken .coupled false n).fcu.endReason = some .disconnect := by
  have reason := endReasonNow_disconnect (n := vlrDecouple (setLevel .coupled false n))
    (setLevel_level .coupled false n) hloop hc hb hv
  rw [levelTaken_decoupled hp hl hrun]
  exact (endTest_ended (n := vlrDecouple (setLevel .coupled false n)) hf reason).reason

/-! START, STOP, holstering (file 03 R35, R37, R64) -/

theorem levelTaken_start (hl : n.level .start ≠ true) (hrun : n.inRun = true) :
    levelTaken .start true n = (setLevel .start true n).onlyIf n.startTaken startFill := by
  rw [levelTaken_new hp hl, hrun]
  rfl

theorem levelTaken_stop (hl : n.level .stop ≠ true) (hrun : n.inRun = true) :
    levelTaken .stop true n = fcuStop .stopLocal (setLevel .stop true n) := by
  rw [levelTaken_new hp hl, hrun]
  rfl

theorem levelTaken_stop_filling (hl : n.level .stop ≠ true) (hrun : n.inRun = true)
    (hf : n.fcu.phase.filling = true) :
    levelTaken .stop true n = endFill .stopLocal (setLevel .stop true n) := by
  rw [levelTaken_stop hp hl hrun]
  exact if_pos hf

theorem levelTaken_stop_authorized (hl : n.level .stop ≠ true) (hrun : n.inRun = true)
    (ha : n.fcu.phase = .authorized) : levelTaken .stop true n = fcuIdle (setLevel .stop true n) := by
  have hf : ¬ (setLevel .stop true n).fcu.phase.filling = true := by
    show ¬ n.fcu.phase.filling = true
    rw [ha]
    decide
  rw [levelTaken_stop hp hl hrun, fcuStop, if_neg hf]
  exact if_pos ha

theorem levelTaken_stop_resting (hl : n.level .stop ≠ true) (hrun : n.inRun = true)
    (hf : n.fcu.phase.filling = false) (ha : n.fcu.phase ≠ .authorized) :
    levelTaken .stop true n = setLevel .stop true n := by
  have hf' : ¬ (setLevel .stop true n).fcu.phase.filling = true := Bool.eq_false_iff.mp hf
  rw [levelTaken_stop hp hl hrun, fcuStop, if_neg hf']
  exact if_neg ha

theorem levelTaken_holstered (hl : n.level .holstered ≠ true) (hrun : n.inRun = true) :
    levelTaken .holstered true n =
      (setLevel .holstered true n).onlyIf (decide (n.fcu.phase = .done)) fcuIdle := by
  rw [levelTaken_new hp hl, hrun]
  rfl

/-! The loop input and the motor feedback (R12, R13, file 07 R130, R132) -/

theorem levelTaken_loop {l : Bool} (hl : n.level .loop ≠ l) :
    levelTaken .loop l n = loopUpdate (setLevel .loop l n) := by
  rw [levelTaken_new hp hl]
  cases n.inRun <;> rfl

theorem levelTaken_loop_trips {l : Bool} (hl : n.level .loop ≠ l) (ho : l = true ∨ n.isc.latch.isSome = true)
    (ht : n.isc.loop ≠ .tripped) :
    levelTaken .loop l n = tripEvent { setLevel .loop l n with isc.loop := .tripped } := by
  rw [levelTaken_loop hp hl]
  exact loopUpdate_trips (setLevel_loop_loopOpen ho) ht

theorem levelTaken_loop_recovers (hl : n.level .loop ≠ false) (hc : n.isc.latch = none) (ht : n.isc.loop = .tripped) :
    levelTaken .loop false n = { setLevel .loop false n with isc.loop := .recovering n.now } := by
  rw [levelTaken_loop hp hl]
  exact loopUpdate_recovers (setLevel_loop_loopClosed hc) ht

theorem levelTaken_motorRun {l : Bool} (hl : n.level .motorRun ≠ l) :
    levelTaken .motorRun l n = ccuMotorLevel l (setLevel .motorRun l n) := by
  rw [levelTaken_new hp hl]
  cases n.inRun <;> rfl

theorem levelTaken_motorRun_running {l : Bool} (hl : n.level .motorRun ≠ l) (hr : n.cmRun = true) :
    levelTaken .motorRun l n = { setLevel .motorRun l n with
      ccu := { n.ccu with absentSince := if l then none else some n.now } } := by
  rw [levelTaken_motorRun hp hl]
  exact if_pos hr

end

/-- A level that sets off nothing beside itself: the last row of the effects. -/
def Node.levelInert (n : Node) (i : Input) (l : Bool) : Prop :=
  (i = .loop ∧ (l = true ∨ n.isc.latch.isSome = true) ∧ n.isc.loop = .tripped) ∨
    (i = .loop ∧ l = false ∧ n.isc.latch = none ∧ n.isc.loop ≠ .tripped) ∨
    (i = .motorRun ∧ n.cmRun = false) ∨ (i = .breakaway ∧ l = false) ∨ i = .meterFault ∨
    (i = .start ∧ (l = false ∨ n.inRun = false ∨ n.startTaken = false)) ∨
    (i = .stop ∧ (l = false ∨ n.inRun = false)) ∨ (i = .coupled ∧ n.inRun = false) ∨
    (i = .holstered ∧ (l = false ∨ n.inRun = false ∨ n.fcu.phase ≠ .done))

theorem levelTaken_inert {n : Node} (hp : n.stc.phase ≠ .held) {i : Input} {l : Bool} (hl : n.level i ≠ l)
    (h : n.levelInert i l) : levelTaken i l n = setLevel i l n := by
  obtain ⟨rfl, ho, ht⟩ | ⟨rfl, rfl, hc, ht⟩ | ⟨rfl, hr⟩ | ⟨rfl, rfl⟩ | rfl | ⟨rfl, h⟩ | ⟨rfl, h⟩ | ⟨rfl, hidle⟩ |
    ⟨rfl, h⟩ := h
  · rw [levelTaken_loop hp hl]
    exact loopUpdate_still_tripped (setLevel_loop_loopOpen ho) ht
  · rw [levelTaken_loop hp hl]
    exact loopUpdate_still_closed (setLevel_loop_loopClosed hc) ht
  · rw [levelTaken_motorRun hp hl]
    exact if_neg (Bool.eq_false_iff.mp hr)
  · exact levelTaken_only_input hp hl rfl fun _ => edgeEvent_released (by decide) _
  · exact levelTaken_only_input hp hl rfl fun _ => by cases l <;> rfl
  · refine levelTaken_only_input hp hl rfl fun hrun => ?_
    obtain rfl | hidle | ht := h
    · exact edgeEvent_released (by decide) _
    · exact absurd hrun (Bool.eq_false_iff.mp hidle)
    · exact edgeEvent_start_inert (n := setLevel .start l n) ht l
  · refine levelTaken_only_input hp hl rfl fun hrun => ?_
    obtain rfl | hidle := h
    · exact edgeEvent_released (by decide) _
    · exact absurd hrun (Bool.eq_false_iff.mp hidle)
  · exact levelTaken_only_input hp hl rfl fun hrun => absurd hrun (Bool.eq_false_iff.mp hidle)
  · refine levelTaken_only_input hp hl rfl fun hrun => ?_
    obtain rfl | hidle | hd := h
    · exact edgeEvent_released (by decide) _
    · exact absurd hrun (Bool.eq_false_iff.mp hidle)
    · exact edgeEvent_holstered_inert (n := setLevel .holstered l n) hd l

/-- Settles O25: the rows of the effects one by one, each by the lemma about its input. -/
theorem levelsAreTakenWithTheirEffects : Obligations.LevelsAreTakenWithTheirEffects := by
  intro s i l hp hl hslot m idle ended
  refine ⟨_, exec_diLevelTaken_new hslot, levelTaken_get_same hp hl, fun j hj => levelTaken_get_other hp hl hj,
    ?breakawayClear, ?breakawayLatched, ?breakawayFill, ?coupled, ?decoupled, ?start, ?stop, ?holstered, ?loopOpens,
    ?loopCloses, ?motor, fun h => levelTaken_inert hp hl h⟩
  case breakawayClear =>
    rintro rfl rfl hc
    exact levelTaken_breakaway_trips hp hl hc
  case breakawayLatched =>
    rintro rfl rfl c hc
    exact levelTaken_breakaway_latched hp hl (by rw [hc]; rfl)
  case breakawayFill =>
    rintro rfl rfl hrun hf
    obtain ⟨k, h⟩ := levelTaken_breakaway_ended hp hl hrun hf
    exact ⟨h.stopped, h.reason⟩
  case coupled =>
    rintro rfl rfl hrun
    dsimp only
    rw [levelTaken_coupled hp hl hrun]
    exact ⟨rfl, rfl⟩
  case decoupled =>
    rintro rfl rfl hrun
    refine ⟨levelTaken_decoupled_vlr hp hl hrun, fun hf => ?_, fun hf => ?_⟩
    · dsimp only
      rw [levelTaken_decoupled_resting hp hl hrun hf]
      rfl
    · obtain ⟨r, k, h⟩ := levelTaken_decoupled_ended hp hl hrun hf
      exact ⟨h.stopped, levelTaken_decoupled_disconnect hp hl hrun hf⟩
  case start =>
    rintro rfl rfl hrun ht
    dsimp only
    rw [levelTaken_start hp hl hrun, ht, Node.onlyIf_true]
    exact startFill_begins _
  case stop =>
    rintro rfl rfl hrun
    refine ⟨fun hf => ?_, fun ha => levelTaken_stop_authorized hp hl hrun ha,
      fun hf ha => levelTaken_stop_resting hp hl hrun hf ha⟩
    have h := endFill_ended .stopLocal (setLevel .stop true s.node)
    have e := levelTaken_stop_filling hp hl hrun hf
    dsimp only
    rw [e]
    exact ⟨rfl, h.stopped, h.reason⟩
  case holstered =>
    rintro rfl rfl hrun hd
    dsimp only
    rw [levelTaken_holstered hp hl hrun, decide_eq_true hd]
    rfl
  case loopOpens =>
    rintro rfl ho ht
    dsimp only
    rw [levelTaken_loop_trips hp hl ho ht]
    refine ⟨(tripEvent_only _).isc (by decide), tripEvent_state _, fun ha => tripEvent_authorized ha, fun hf => ?_,
      fun hf ha => tripEvent_resting hf ha⟩
    obtain ⟨r, k, h⟩ := tripEvent_tripped_ended (n := { setLevel .loop l s.node with isc.loop := .tripped }) hf rfl
    exact ⟨h.stopped, fun hc => tripEvent_esd hf rfl hc⟩
  case loopCloses =>
    rintro rfl rfl ht hc
    exact levelTaken_loop_recovers hp hl hc ht
  case motor =>
    rintro rfl hr
    exact levelTaken_motorRun_running hp hl hr

end Sys2Proof.Machine

/-! # The frames, the edges and the silence of the vehicle link (file 02 R16 to R25, file 03 R60) -/

namespace Sys2Proof.Machine

/-! ## The checks of a frame (R20) -/

theorem sideOf_eq_some {x : Nat} {side : Side} :
    sideOf x = some side ↔ (x = 0x41 ∧ side = .a) ∨ (x = 0x42 ∧ side = .b) := by
  unfold sideOf
  split <;> simp_all [eq_comm]

theorem vehicleCmdOf_eq_some {x : Nat} {c : VehicleCmd} : vehicleCmdOf x = some c ↔
    (x = 1 ∧ c = .run) ∨ (x = 2 ∧ c = .halt) ∨ (x = 3 ∧ c = .abort) := by
  unfold vehicleCmdOf
  split <;> simp_all [eq_comm]

/-- The tests of R20 on a frame that names this side. -/
structure FrameSound (p : List Byte) (side : Side) : Prop where
  length : p.length = 14
  start : fieldAt p 0 1 = 0xA5
  crc : byteAt p 13 = crc8 (bitsOfBytes (p.take 13))
  version : fieldAt p 4 1 = 1
  complement : byteAt p 12 = ~~~(byteAt p 11)
  groups : fieldAt p 2 1 = 1 ∨ fieldAt p 2 1 = 2
  allowed : ¬(side = .b ∧ fieldAt p 2 1 = 1)
  volume : fieldAt p 5 2 ≠ 0 ∧ fieldAt p 5 2 ≤ 9999

/-- What a frame carries, for the side and the command that its codes name. -/
def fieldsSent (p : List Byte) (side : Side) (c : VehicleCmd) : VehicleFields :=
  ⟨side, fieldAt p 2 1, fieldAt p 3 1 % 16, ⟨fieldAt p 5 2, fieldAt p 7 2, fieldAt p 9 2, c⟩⟩

theorem readVehicle_of_sound {p : List Byte} {side : Side} {c : VehicleCmd} (hs : sideOf (fieldAt p 1 1) = some side)
    (hc : vehicleCmdOf (fieldAt p 11 1) = some c) (h : FrameSound p side) :
    readVehicle p = some (fieldsSent p side c) := by
  have head : ¬(p.length ≠ 14 ∨ fieldAt p 0 1 ≠ 0xA5 ∨ byteAt p 13 ≠ crc8 (bitsOfBytes (p.take 13)) ∨
      fieldAt p 4 1 ≠ 1) := by
    simp [h.length, h.start, ← h.crc, h.version]
  have fields : ¬(byteAt p 12 ≠ ~~~(byteAt p 11) ∨ fieldAt p 2 1 < 1 ∨ 2 < fieldAt p 2 1 ∨
      (side = .b ∧ fieldAt p 2 1 = 1) ∨ fieldAt p 5 2 = 0 ∨ 9999 < fieldAt p 5 2) := by
    have groups := h.groups
    have volume := h.volume
    simp only [h.complement, h.allowed, ne_eq, not_true_eq_false, false_or]
    omega
  rw [readVehicle, if_neg head, hs, hc]
  exact if_neg fields

theorem sound_of_readVehicle {p : List Byte} {f : VehicleFields} (h : readVehicle p = some f) :
    ∃ side c, sideOf (fieldAt p 1 1) = some side ∧ vehicleCmdOf (fieldAt p 11 1) = some c ∧ FrameSound p side ∧
      f = fieldsSent p side c := by
  unfold readVehicle at h
  split at h
  · cases h
  rename_i head
  simp only [not_or, not_not] at head
  obtain ⟨length, start, crc, version⟩ := head
  split at h
  · rename_i side c hs hc
    split at h
    · cases h
    rename_i fields
    simp only [not_or, not_not] at fields
    obtain ⟨complement, low, high, allowed, volume⟩ := fields
    exact ⟨side, c, hs, hc,
      ⟨length, start, crc, version, complement, by omega, allowed, by omega⟩, (Option.some.inj h).symm⟩
  · cases h

theorem readVehicle_isSome {p : List Byte} : (readVehicle p).isSome = true ↔
    ∃ side c, sideOf (fieldAt p 1 1) = some side ∧ vehicleCmdOf (fieldAt p 11 1) = some c ∧ FrameSound p side := by
  rw [Option.isSome_iff_exists]
  constructor
  · rintro ⟨f, h⟩
    obtain ⟨side, c, hs, hc, sound, -⟩ := sound_of_readVehicle h
    exact ⟨side, c, hs, hc, sound⟩
  · rintro ⟨side, c, hs, hc, sound⟩
    exact ⟨_, readVehicle_of_sound hs hc sound⟩

/-! ## A whole frame and its decoder (R19, log 8) -/

/-- The node with its decoder running as given. -/
def Node.decoding (n : Node) (d : Decoder) : Node := { n with vlr.decoder := some d }

/-- The node whose decoder has come to the end of a frame. -/
def Node.atFrameEnd (n : Node) : Node := n.decoding .atFrameEnd

theorem exec_vehicleFrame (p : List Byte) (s : State) :
    exec (.vehicleFrame p) s = .next { s with node := vehicleFrame p s.node } := rfl

theorem takeVehicle_discarded {p : List Byte} (h : readVehicle p = none) (n : Node) : takeVehicle p n = n := by
  rw [takeVehicle, h]

theorem takeVehicle_vlr {p : List Byte} {f : VehicleFields} (h : readVehicle p = some f) (n : Node) :
    (takeVehicle p n).vlr = n.vlr.offer f := by
  rw [takeVehicle, h]
  exact (fcuPeak_only _).vlr (by decide)

section
variable {n : Node} {d : Decoder} (hd : n.vlr.decoder = some d)
include hd

theorem vehicleFrame_discarding (hm : d.mode = .discarding) (p : List Byte) : vehicleFrame p n = n.atFrameEnd := by
  rw [vehicleFrame, hd]
  exact if_pos hm

theorem vehicleFrame_takes (hm : d.mode ≠ .discarding) (p : List Byte) :
    vehicleFrame p n = takeVehicle p n.atFrameEnd := by
  rw [vehicleFrame, hd]
  exact if_neg hm

end

/-- A discarded frame leaves everything but the decoder (R20). -/
theorem vehicleFrame_discarded {p : List Byte} (h : readVehicle p = none) (n : Node) :
    ∃ d, vehicleFrame p n = { n with vlr.decoder := d } := by
  cases hd : n.vlr.decoder with
  | none =>
    refine ⟨n.vlr.decoder, ?_⟩
    simp only [vehicleFrame, hd]
    rw [← hd]
  | some d =>
    refine ⟨some .atFrameEnd, ?_⟩
    by_cases hm : d.mode = .discarding
    · exact vehicleFrame_discarding hd hm p
    · rw [vehicleFrame_takes hd hm, takeVehicle_discarded h]
      rfl

/-- Settles O28: the tests of a frame's fields, the fields taken, and the frame that is discarded. -/
theorem vehicleFramesAreChecked : Obligations.VehicleFramesAreChecked := by
  refine ⟨fun p => ?_, fun p f h => ?_, fun s p h => ?_⟩
  · rw [readVehicle_isSome]
    constructor
    · rintro ⟨side, c, hs, hc, length, start, crc, version, complement, groups, allowed, nonzero, bound⟩
      rw [sideOf_eq_some] at hs
      rw [vehicleCmdOf_eq_some] at hc
      refine ⟨length, start, crc, version, hs.imp And.left And.left, groups, ?_, nonzero, bound,
        hc.imp And.left (Or.imp And.left And.left), complement⟩
      rintro ⟨hb, hg⟩
      obtain ⟨ha, -⟩ | ⟨-, rfl⟩ := hs
      · omega
      · exact allowed ⟨rfl, hg⟩
    · rintro ⟨length, start, crc, version, hs, groups, allowed, nonzero, bound, hc, complement⟩
      obtain ⟨c, hc⟩ : ∃ c, vehicleCmdOf (fieldAt p 11 1) = some c := by
        obtain hc | hc | hc := hc <;> exact ⟨_, by rw [hc]; rfl⟩
      obtain ha | hb := hs
      · exact ⟨.a, c, by rw [ha]; rfl, hc, length, start, crc, version, complement, groups,
          fun hn => (nomatch hn.1), nonzero, bound⟩
      · exact ⟨.b, c, by rw [hb]; rfl, hc, length, start, crc, version, complement, groups,
          fun hg => allowed ⟨hb, hg.2⟩, nonzero, bound⟩
  · obtain ⟨side, c, hs, hc, -, rfl⟩ := sound_of_readVehicle h
    refine ⟨?_, rfl, rfl, rfl, rfl, rfl, ?_, ?_⟩
    · obtain ⟨hx, rfl⟩ | ⟨hx, rfl⟩ := sideOf_eq_some.mp hs <;> simp [fieldsSent, hx]
    all_goals obtain ⟨hx, rfl⟩ | ⟨hx, rfl⟩ | ⟨hx, rfl⟩ := vehicleCmdOf_eq_some.mp hc <;> simp [fieldsSent, hx]
  · obtain ⟨d, hd⟩ := vehicleFrame_discarded h s.node
    exact ⟨d, by rw [exec_vehicleFrame, hd]⟩

/-! ## The side records and the link (R21 to R23) -/

theorem Vlr.side_declaring (v : Vlr) (g : Option Nat) (x : Side) :
    ({ v with declared := g } : Vlr).side x = v.side x := by
  cases x <;> rfl

theorem Node.atFrameEnd_side (n : Node) (x : Side) : n.atFrameEnd.vlr.side x = n.vlr.side x := by cases x <;> rfl

@[simp] theorem Vlr.side_setSide_same (v : Vlr) (x : Side) (r : SideRec) : (v.setSide x r).side x = r := by
  cases x <;> rfl

theorem Vlr.side_setSide_other {x y : Side} (h : y ≠ x) (v : Vlr) (r : SideRec) :
    (v.setSide x r).side y = v.side y := by
  cases x <;> cases y <;> first | rfl | exact absurd rfl h

@[simp] theorem Vlr.setSide_decoder (v : Vlr) (x : Side) (r : SideRec) : (v.setSide x r).decoder = v.decoder := by
  cases x <;> rfl

@[simp] theorem Vlr.setSide_declared (v : Vlr) (x : Side) (r : SideRec) : (v.setSide x r).declared = v.declared := by
  cases x <;> rfl

@[simp] theorem Vlr.setSide_link (v : Vlr) (x : Side) (r : SideRec) : (v.setSide x r).link = v.link := by
  cases x <;> rfl

@[simp] theorem Vlr.setSide_volume (v : Vlr) (x : Side) (r : SideRec) : (v.setSide x r).volume = v.volume := by
  cases x <;> rfl

/-- The link and the captured volume are all that the test of R23 changes. -/
theorem Vlr.tryValid_eq (v : Vlr) : v.tryValid = { v with link := v.tryValid.link, volume := v.tryValid.volume } := by
  unfold Vlr.tryValid
  split <;> rfl

@[simp] theorem Vlr.tryValid_decoder (v : Vlr) : v.tryValid.decoder = v.decoder := by rw [tryValid_eq]

@[simp] theorem Vlr.tryValid_declared (v : Vlr) : v.tryValid.declared = v.declared := by rw [tryValid_eq]

@[simp] theorem Vlr.tryValid_side (v : Vlr) (x : Side) : v.tryValid.side x = v.side x := by
  rw [tryValid_eq]
  cases x <;> rfl

@[simp] theorem Vlr.tryValid_allFresh (v : Vlr) : v.tryValid.allFresh = v.allFresh := by
  rw [tryValid_eq]
  rfl

@[simp] theorem Vlr.tryValid_volumeSum (v : Vlr) : v.tryValid.volumeSum = v.volumeSum := by
  rw [tryValid_eq]
  rfl

theorem Vlr.tryValid_valid {v : Vlr} (hl : v.link = .absent) (hf : v.allFresh = true) :
    v.tryValid.link = .valid ∧ v.tryValid.volume = some v.volumeSum := by
  rw [tryValid, if_pos ⟨hl, hf⟩]
  exact ⟨rfl, rfl⟩

theorem Vlr.tryValid_stays {v : Vlr} (h : v.link ≠ .absent ∨ v.allFresh = false) : v.tryValid = v :=
  if_neg fun ⟨hl, hf⟩ => h.elim (· hl) fun hn => by rw [hf] at hn; cases hn

/-- The records with a new frame of this side, before the test of R23. -/
def Vlr.record (v : Vlr) (f : VehicleFields) : Vlr :=
  { v with declared := some f.groups }.setSide f.side ⟨some f.data, some f.sequence, some 0⟩

theorem Vlr.record_side_same (v : Vlr) (f : VehicleFields) :
    (v.record f).side f.side = ⟨some f.data, some f.sequence, some 0⟩ := side_setSide_same _ _ _

theorem Vlr.record_side_other {x : Side} {f : VehicleFields} (h : x ≠ f.side) (v : Vlr) :
    (v.record f).side x = v.side x := by
  rw [record, side_setSide_other h, side_declaring]

section
variable {v : Vlr} {f : VehicleFields}

theorem Vlr.offer_new (hg : v.declared = none ∨ v.declared = some f.groups)
    (hq : (v.side f.side).sequence ≠ some f.sequence) : v.offer f = (v.record f).tryValid := by
  have declared : v.declared.getD f.groups = f.groups := by obtain h | h := hg <;> rw [h] <;> rfl
  have new : ¬(some f.groups ≠ some f.groups ∨
      (({ v with declared := some f.groups } : Vlr).side f.side).sequence = some f.sequence) := by
    rw [side_declaring]
    exact not_or_intro (· rfl) hq
  rw [offer, declared]
  exact if_neg new

theorem Vlr.offer_refused (h : (v.declared ≠ none ∧ v.declared ≠ some f.groups) ∨
    (v.side f.side).sequence = some f.sequence) :
    v.offer f = { v with declared := some (v.declared.getD f.groups) } := by
  have refused : some (v.declared.getD f.groups) ≠ some f.groups ∨
      (({ v with declared := some (v.declared.getD f.groups) } : Vlr).side f.side).sequence = some f.sequence := by
    rw [side_declaring]
    refine h.imp_left ?_
    rintro ⟨hn, hg⟩
    obtain ⟨g, hs⟩ := Option.ne_none_iff_exists'.mp hn
    rw [hs] at hg ⊢
    exact hg
  exact if_pos refused

theorem Vlr.offer_decoder : (v.offer f).decoder = v.decoder := by
  unfold offer
  dsimp only
  split <;> simp

end

theorem vehicleFrame_decoder {p : List Byte} {f : VehicleFields} {n : Node} {d : Decoder}
    (hd : n.vlr.decoder = some d) (hf : readVehicle p = some f) :
    (vehicleFrame p n).vlr.decoder = some .atFrameEnd := by
  by_cases hm : d.mode = .discarding
  · rw [vehicleFrame_discarding hd hm]
    rfl
  · rw [vehicleFrame_takes hd hm, takeVehicle_vlr hf, Vlr.offer_decoder]
    rfl

/-- Settles O27: a new frame is recorded and tests the link, another one and a discarding decoder record nothing. -/
theorem vehicleFramesUpdateTheirSide : Obligations.VehicleFramesUpdateTheirSide := by
  intro s p f d hd hf
  refine ⟨_, exec_vehicleFrame p s, vehicleFrame_decoder hd hf, fun hm hg hq => ?new, fun h => ?refused⟩
  case new =>
    have vlr : (vehicleFrame p s.node).vlr = (s.node.atFrameEnd.vlr.record f).tryValid := by
      rw [vehicleFrame_takes hd hm, takeVehicle_vlr hf]
      exact Vlr.offer_new hg (by rwa [Node.atFrameEnd_side])
    have link : (s.node.atFrameEnd.vlr.record f).link = s.node.vlr.link := Vlr.setSide_link _ _ _
    have volume : (s.node.atFrameEnd.vlr.record f).volume = s.node.vlr.volume := Vlr.setSide_volume _ _ _
    dsimp only
    rw [vlr, Vlr.tryValid_side, Vlr.tryValid_declared, Vlr.tryValid_allFresh]
    refine ⟨Vlr.record_side_same _ _, Vlr.setSide_declared _ _ _, fun x hx => ?_, fun hl hfresh => ?_, fun h => ?_⟩
    · rw [Vlr.tryValid_side, Vlr.record_side_other hx, Node.atFrameEnd_side]
    · obtain ⟨valid, sum⟩ := Vlr.tryValid_valid (link.trans hl) hfresh
      refine ⟨valid, sum.trans ?_⟩
      rw [← Vlr.tryValid_volumeSum]
      rfl
    · rw [Vlr.tryValid_stays (by rwa [link])]
      exact ⟨link, volume⟩
  case refused =>
    dsimp only
    by_cases hm : d.mode = .discarding
    · rw [vehicleFrame_discarding hd hm]
      exact ⟨rfl, rfl, rfl⟩
    · have refused : (s.node.atFrameEnd.vlr.declared ≠ none ∧ s.node.atFrameEnd.vlr.declared ≠ some f.groups) ∨
          (s.node.atFrameEnd.vlr.side f.side).sequence = some f.sequence := by
        rw [Node.atFrameEnd_side]
        exact h.resolve_left hm
      rw [vehicleFrame_takes hd hm, takeVehicle_vlr hf, Vlr.offer_refused refused]
      exact ⟨rfl, rfl, rfl⟩

/-! ## Edges (R17, R18) -/

theorem exec_irRisingEdge (i : Nat) (s : State) :
    exec (.irRisingEdge i) s = .next { s with node := risingEdge i s.node } := rfl

theorem Burst.validMark_iff (b : Burst) (tc : Nat) :
    b.validMark tc = true ↔ 1500 ≤ b.span + tc ∧ b.span + tc ≤ 3500 ∧ b.spoiled = false := by
  simp [validMark, and_assoc]

theorem windowLow_le_windowHigh (tc : Nat) : windowLow tc ≤ windowHigh tc := by
  unfold windowLow windowHigh
  omega

section
variable {n : Node} {m : DecoderMode} {b : Burst} {q : Option Nat} {i : Nat}
  (hd : n.vlr.decoder = some ⟨m, some b, q⟩)
include hd

/-- An edge up to the top of the carrier window belongs to the burst, and below the window it spoils it (R17). -/
theorem risingEdge_in_burst (hi : i ≤ windowHigh n.stc.cfg.carrier) :
    risingEdge i n = n.decoding
      ⟨m, some ⟨b.span + i, b.spoiled || decide (i < windowLow n.stc.cfg.carrier)⟩, some n.now⟩ := by
  by_cases low : i < windowLow n.stc.cfg.carrier
  · simp [risingEdge, hd, low, Node.decoding]
  · simp [risingEdge, hd, low, hi, Node.decoding]

/-- An edge above the carrier window has ended the burst: its mark and the space behind it are judged (R18). -/
theorem risingEdge_after_burst (hi : windowHigh n.stc.cfg.carrier < i) (hq : i - n.stc.cfg.carrier ≤ 20000) :
    risingEdge i n = n.decoding
      ⟨modeAfter m (b.validMark n.stc.cfg.carrier) (i - n.stc.cfg.carrier), some .first, some n.now⟩ := by
  have low : ¬ i < windowLow n.stc.cfg.carrier := by
    have := windowLow_le_windowHigh n.stc.cfg.carrier
    omega
  simp [risingEdge, hd, low, hi.not_ge, hq.not_gt, edgeAfterBurst, Node.decoding]

end

theorem spaceBit_zero {space : Nat} (low : 1500 ≤ space) (high : space < 5000) : spaceBit space = some false := by
  rw [spaceBit, if_neg low.not_gt, if_pos high]

theorem spaceBit_one {space : Nat} (low : 5000 ≤ space) (high : space < 10000) : spaceBit space = some true := by
  rw [spaceBit, if_neg (by omega), if_neg low.not_gt, if_pos high]

theorem spaceBit_invalid {space : Nat} (h : space < 1500 ∨ 10000 ≤ space) : spaceBit space = none := by
  obtain h | h := h
  · exact if_pos h
  · rw [spaceBit, if_neg (by omega), if_neg (by omega), if_neg h.not_gt]

theorem spaceBit_valid {space : Nat} (low : 1500 ≤ space) (high : space < 10000) :
    spaceBit space = some (decide (5000 ≤ space)) := by
  by_cases h : 5000 ≤ space
  · rw [spaceBit_one h high, decide_eq_true h]
  · rw [spaceBit_zero low (by omega), decide_eq_false h]

theorem afterSpace_appends {bits : Bits} {space : Nat} {x : Bool} (h : spaceBit space = some x)
    (hb : bits.length < 112) : afterSpace bits space = .receiving (bits ++ [x]) := by
  rw [afterSpace, h]
  exact if_neg hb.not_ge

theorem afterSpace_abandons {bits : Bits} {space : Nat} (h : 112 ≤ bits.length ∨ space < 1500 ∨ 10000 ≤ space) :
    afterSpace bits space = .discarding := by
  unfold afterSpace
  split
  · rfl
  · rename_i hs
    exact if_pos (h.resolve_right fun hinv => by rw [spaceBit_invalid hinv] at hs; cases hs)

/-! ## A quiet line (R16, R19) -/

theorem exec_quietLineSeen {s : State} {d : Decoder} {q : Nat} (hd : s.node.vlr.decoder = some d)
    (hq : d.quietFrom = some q) (h : 2 < s.node.now - q) :
    exec .quietLineSeen s = .next { s with node := quietSeen s.node } := by
  have quiet : s.node.lineQuiet = true := by
    simp only [Node.lineQuiet, hd, hq, Node.reached]
    exact decide_eq_true h
  show execQuietLineSeen s = _
  rw [execQuietLineSeen, State.act_eq, quiet, Node.onlyIf_true]

section
variable {n : Node} {d : Decoder} (hd : n.vlr.decoder = some d)
include hd

/-- A frame of 112 bits closed by a valid mark is taken. -/
theorem quietSeen_takes {bits : Bits} {b : Burst} (hm : d.mode = .receiving bits) (hb : d.burst = some b)
    (hl : bits.length = 112) (hv : b.validMark n.stc.cfg.carrier = true) :
    quietSeen n = takeVehicle (bytesOfBits 14 bits) n.atFrameEnd := by
  simp only [quietSeen, hd, hm, hb, hl, hv]
  rfl

/-- No other frame is taken. -/
theorem quietSeen_takes_none (h : ∀ bits, d.mode = .receiving bits →
    bits.length ≠ 112 ∨ ∀ b, d.burst = some b → b.validMark n.stc.cfg.carrier = false) :
    quietSeen n = n.atFrameEnd := by
  simp only [quietSeen, hd]
  split
  · rename_i bits b hm hb
    refine if_neg fun ⟨hl, hv⟩ => ?_
    rw [((h bits hm).resolve_left (· hl)) b hb] at hv
    cases hv
  · rfl

end

theorem takeVehicle_decoder (p : List Byte) (n : Node) : (takeVehicle p n).vlr.decoder = n.vlr.decoder := by
  cases h : readVehicle p with
  | none => rw [takeVehicle_discarded h]
  | some f => rw [takeVehicle_vlr h, Vlr.offer_decoder]

theorem quietSeen_decoder {n : Node} {d : Decoder} (hd : n.vlr.decoder = some d) :
    (quietSeen n).vlr.decoder = some .atFrameEnd := by
  simp only [quietSeen, hd]
  split
  · split
    · exact takeVehicle_decoder _ _
    · rfl
  · rfl

/-- Settles O30: an edge in a burst and behind one, the bit a space spells, and the two outcomes of a quiet line. -/
theorem edgesSpellBits : Obligations.EdgesSpellBits := by
  refine ⟨fun s bits b q i hd hv hi hq => ?receiving, fun s m b q i hd hi hq => ?modes,
    fun s m b q i hd hi => ?burst, Burst.validMark_iff, fun s d q hd hq hn => ?quiet⟩
  case receiving =>
    refine ⟨_, exec_irRisingEdge i s, ?_⟩
    rw [risingEdge_after_burst hd hi hq, hv]
    refine ⟨fun hl low high => ?_, fun hl low high => ?_, fun h => ?_, rfl, rfl⟩
    · simp only [modeAfter, afterSpace_appends (spaceBit_zero low high) hl]
      rfl
    · simp only [modeAfter, afterSpace_appends (spaceBit_one low high) hl]
      rfl
    · simp only [modeAfter, afterSpace_abandons h]
      rfl
  case modes =>
    intro after
    have edge : after (modeAfter m (b.validMark s.node.stc.cfg.carrier) (i - s.node.stc.cfg.carrier)) := by
      show exec (.irRisingEdge i) s = _
      rw [exec_irRisingEdge, risingEdge_after_burst hd hi hq]
      rfl
    refine ⟨?_, ?_, ?_, ?_⟩
    · rintro rfl
      exact edge
    · rintro rfl hv
      rwa [hv] at edge
    · rintro rfl hv low high
      have mode := afterSpace_appends (bits := []) (spaceBit_valid low high) (by decide)
      rw [hv] at edge
      exact mode ▸ edge
    · rintro bits rfl hv
      rwa [hv] at edge
  case burst =>
    rw [exec_irRisingEdge, risingEdge_in_burst hd hi]
    rfl
  case quiet =>
    refine ⟨_, exec_quietLineSeen hd hq hn, quietSeen_decoder hd, fun bits b hm hb hl hv => ?_, fun h => ?_⟩
    · rw [exec_quietLineSeen hd hq hn, quietSeen_takes hd hm hb hl hv, exec_vehicleFrame]
      exact congrArg (fun n => Host.Outcome.next { s with node := n })
        (vehicleFrame_takes (n := s.node.atFrameEnd) rfl (by simp [Decoder.atFrameEnd]) _).symm
    · rw [quietSeen_takes_none hd h]
      rfl

/-! ## The link leaves VALID (R24, R25, file 03 R60) -/

theorem linkLeft_degrades {n : Node} (hk : n.fcu.kind = some .comm) (hp : n.fcu.phase.ramping = true) :
    (linkLeft n).fcu = { n.fcu with kind := some .degraded } := by
  rw [linkLeft, if_pos ⟨hk, .inl hp⟩]
  rfl

theorem linkLeft_not_comm {n : Node} (hk : n.fcu.kind ≠ some .comm) : linkLeft n = n := if_neg fun h => hk h.1

theorem vlrReject_valid {n : Node} (h : n.vlr.link = .valid) :
    vlrReject n = linkLeft { n with vlr.link := .rejected } := if_pos (decide_eq_true h)

theorem vlrReject_ignored {n : Node} (h : n.vlr.link ≠ .valid) : vlrReject n = n := if_neg (by simpa [Node.linkValid])

theorem Vlr.silent_of_age {v : Vlr} {x : Side} {a : Nat} (hd : v.decoder.isSome = true) (hl : v.link = .valid)
    (hx : v.declares x = true) (ha : (v.side x).age = some a) (hn : 1000 ≤ a) : v.silent x = true := by
  simp [silent, hd, hl, hx, ha, hn]

theorem exec_sideSilentExpiry {s : State} {x : Side} (h : s.node.vlr.silent x = true) :
    exec (.sideSilentExpiry x) s = .next { s with node := linkLeft { s.node with vlr.link := .lost } } := by
  show execSideSilentExpiry x s = _
  rw [execSideSilentExpiry, State.act_eq, h, Node.onlyIf_true]

/-- Settles O29: the link lost to silence, the reject request, and the control period that sends one. -/
theorem silentSideLosesTheLink : Obligations.SilentSideLosesTheLink := by
  refine ⟨fun s x a hd hl hx ha hn => ?lost, fun n hl => ?reject, fun n hl => vlrReject_ignored hl,
    fun n c hk hc => ?sends, fun n h => ?silent⟩
  case lost =>
    have only := linkLeft_only { s.node with vlr.link := .lost }
    exact ⟨_, exec_sideSilentExpiry (Vlr.silent_of_age hd hl hx ha hn), only.vlr (by decide),
      fun hk hp => linkLeft_degrades (n := { s.node with vlr.link := .lost }) hk hp,
      fun hk => by dsimp only; rw [linkLeft_not_comm (n := { s.node with vlr.link := .lost }) hk],
      only.isc (by decide), only.bcu (by decide), only.liu (by decide), only.mpu (by decide)⟩
  case reject =>
    rw [vlrReject_valid hl]
    exact ⟨(linkLeft_only _).vlr (by decide),
      fun hk hp => linkLeft_degrades (n := { n with vlr.link := .rejected }) hk hp⟩
  case sends => rw [periodVehicle, if_pos hk, hc]
  case silent =>
    unfold periodVehicle
    split
    · rename_i hk
      rw [h.resolve_left (· hk)]
    · rfl

end Sys2Proof.Machine

/-! # The safety of every step, the target pressure and the stops of a command (file 03 R30, R52) -/

namespace Sys2Proof.Machine

/-! ## What keeps a node safe -/

/-- What keeps everything keeps a safe node safe. -/
theorem Kept.safe {n m : Node} (h : Kept n m) (s : n.Safe) : m.Safe where
  bounds := h.bounds s.bounds
  draws := fun b => h.draw s.bounds b (s.draws b)
  counts := by rw [Node.faultCountsBounded, h.consecutive, h.total]; exact s.counts
  runs := by rw [Node.runsBounded, h.inputs]; exact s.runs
  decoder := by rw [Node.decoderBounded, h.decoder]; exact s.decoder

/-- A command keeps a safe node safe if the counts, the input records and the decoder it may change keep their bounds. -/
theorem KeptBut.safe {x : List Item} {n m : Node} (h : KeptBut x n m) (s : n.Safe)
    (counts : .wire ∈ x → m.faultCountsBounded) (runs : .inputs ∈ x → m.runsBounded)
    (decoder : .decoder ∈ x → m.decoderBounded) : m.Safe where
  bounds := h.bounds s.bounds
  draws := fun b => h.draw s.bounds b (s.draws b)
  counts := by
    by_cases hx : .wire ∈ x
    · exact counts hx
    · obtain ⟨-, hc, ht⟩ := h.wire hx
      rw [Node.faultCountsBounded, hc, ht]
      exact s.counts
  runs := by
    by_cases hx : .inputs ∈ x
    · exact runs hx
    · rw [Node.runsBounded, h.inputs hx]
      exact s.runs
  decoder := by
    by_cases hx : .decoder ∈ x
    · exact decoder hx
    · rw [Node.decoderBounded, h.decoder hx]
      exact s.decoder

/-! ## The passing of 1 ms -/

theorem InputRec.sample_run (r : InputRec) : r.sample.1.run ≤ 9 := by
  unfold InputRec.sample
  split
  · exact Nat.zero_le 9
  · split
    · exact Nat.zero_le 9
    · next hr => exact Nat.not_le.mp hr

theorem later_runs {n : Node} (h : n.runsBounded) : n.later.runsBounded := by
  intro i
  by_cases hp : n.stc.phase = .held
  · have : n.later.isc.inputs = n.isc.inputs := by simp [Node.later, sampleInputs, hp]
    rw [this]
    exact h i
  · rw [later_inputs hp]
    exact InputRec.sample_run _

theorem later_decoder (n : Node) : n.later.vlr.decoder = n.vlr.decoder := by rw [later_vlr, Vlr.older_eq]

theorem later_safe {n : Node} (s : n.Safe) : n.later.Safe := by
  have frame := later_only n
  have hfcu : n.later.fcu = n.fcu := frame.fcu (by decide)
  have hbcu : n.later.bcu = n.bcu := frame.bcu (by decide)
  have hrst : n.later.rst = n.rst := frame.rst (by decide)
  have hhsu : n.later.hsu = n.hsu := frame.hsu (by decide)
  have hliu : n.later.liu = n.liu := frame.liu (by decide)
  refine ⟨?_, fun b => drawClaimed_congr (by rw [hfcu]) (by rw [hbcu]) (s.draws b), ?_, later_runs s.runs, ?_⟩
  · exact bounds_congr (by simp only [Node.queueBounded, hliu]; exact id) (by rw [hbcu]) (by rw [hrst]) (by rw [hrst])
      (by rw [hrst]; exact id) (by simp only [Node.reservationLegal, hhsu]; exact id) s.bounds
  · rw [Node.faultCountsBounded, hliu]
    exact s.counts
  · rw [Node.decoderBounded, later_decoder]
    exact s.decoder

/-! ## Start-ups -/

/-- Blocks at their start-up values are safe over a store of 64 slots, with no run on an input. -/
theorem blocksStartUp_safe {n : Node} (hs : n.rst.slots.length = 64) (hr : n.runsBounded) : (blocksStartUp n).Safe where
  bounds := ⟨⟨Nat.zero_le 10, Nat.zero_le 5⟩, ⟨Nat.zero_le 2, Nat.zero_le 1, List.nodup_nil⟩, ⟨hs, .inl rfl, Nat.zero_le 4⟩, .inl rfl⟩
  draws := fun b h => by simp [blocksStartUp] at h
  counts := ⟨Nat.succ_pos 15, Nat.zero_le _⟩
  runs := hr
  decoder := fun d h => by cases h

theorem startUpLevels_run (levels : Levels) (i : Input) : ((Isc.startUp levels).inputs.get i).run ≤ 9 := by
  simp [Isc.startUp]

theorem holdPart_safe (cause : StartCause) {n : Node} (s : n.Safe) : (holdPart cause n).Safe :=
  blocksStartUp_safe s.bounds.store.1 (startUpLevels_run .inactive)

theorem beginStartUp_safe (straps : BitVec 3) (levels : Levels) {n : Node} (s : n.Safe) :
    (beginStartUp straps levels n).Safe :=
  (beginStartUp_kept straps levels n).safe (blocksStartUp_safe s.bounds.store.1 (startUpLevels_run levels))

/-- CHECK begins the store scan, which keeps the shape of the store, or the STATUS grid. -/
theorem checkConfig_safe (block : List Byte) {n : Node} (s : n.Safe) : (checkConfig block n).Safe := by
  unfold checkConfig
  dsimp only
  split
  · obtain ⟨slots, -, -, requests, table⟩ := scanBegin_kept n.rst
    obtain ⟨h64, htable, hreq⟩ := s.bounds.store
    exact ⟨⟨s.bounds.queue, s.bounds.claims, ⟨by rw [← h64, ← slots]; rfl, table h64 htable, requests ▸ hreq⟩,
      s.bounds.reservation⟩, s.draws, s.counts, s.runs, s.decoder⟩
  · exact (beginStatusGrid_kept _).safe ⟨⟨s.bounds.queue, s.bounds.claims, s.bounds.store, s.bounds.reservation⟩,
      s.draws, s.counts, s.runs, s.decoder⟩

theorem onlyIf_safe {n : Node} {c : Bool} {f : Node → Node} (s : n.Safe) (h : c = true → (f n).Safe) :
    (n.onlyIf c f).Safe := by
  cases c
  · exact s
  · exact h rfl

/-! ## The counts of line faults (file 10 R169, R170) -/

theorem faultCounts_bounded {n : Node} (h : n.faultCountsBounded) : (faultCounts n).faultCountsBounded := by
  obtain ⟨hc, -⟩ := h
  unfold faultCounts
  split
  · exact ⟨Nat.succ_pos 15, Nat.min_le_right _ _⟩
  · next h16 => exact ⟨by dsimp only; omega, Nat.min_le_right _ _⟩

theorem Kept.faultCountsBounded {n m : Node} (h : Kept n m) (s : n.faultCountsBounded) : m.faultCountsBounded := by
  rw [Node.faultCountsBounded, h.consecutive, h.total]
  exact s

theorem liuAttempt_counts {n : Node} (h : n.faultCountsBounded) : (liuAttempt n).faultCountsBounded := by
  unfold liuAttempt
  split
  · exact h
  · split
    · exact h
    · exact h

theorem liuSent_counts {n : Node} (h : n.faultCountsBounded) : (liuSent n).faultCountsBounded := by
  unfold liuSent
  split
  · exact (sentEffect_kept _ _ _).faultCountsBounded ⟨Nat.succ_pos 15, h.2⟩
  · exact h

theorem liuYield_counts (p : Nat) {n : Node} (h : n.faultCountsBounded) : (liuYield p n).faultCountsBounded := by
  unfold liuYield
  split
  · split
    · exact h
    · exact h
  · exact h

theorem liuFault_counts (p : Nat) {n : Node} (h : n.faultCountsBounded) : (liuFault p n).faultCountsBounded := by
  have counts := faultCounts_bounded (n := { n with liu.wire := none }) h
  unfold liuFault
  dsimp only
  split
  · split
    · split
      · exact (dropReport_kept _ _).faultCountsBounded counts
      · exact counts
    · exact h
  · exact h

theorem exec_counts {c : Instr} {s t : State} (hw : .wire ∈ mayChange c) (e : exec c s = .next t)
    (h : s.node.faultCountsBounded) : t.node.faultCountsBounded := by
  obtain rfl | rfl | ⟨p, rfl⟩ | ⟨p, rfl⟩ := wire_mem_mayChange hw
  · rw [act_next (f := liuAttempt) e]
    exact liuAttempt_counts h
  · rw [act_next (f := liuSent) e]
    exact liuSent_counts h
  · rw [act_next (f := liuYield p) e]
    exact liuYield_counts p h
  · rw [act_next (f := liuFault p) e]
    exact liuFault_counts p h

/-! ## The run counts of the inputs (file 01 R8) -/

theorem levelTaken_runs (i : Input) (l : Bool) {n : Node} (h : n.runsBounded) : (levelTaken i l n).runsBounded := by
  intro j
  by_cases hp : n.stc.phase = .held ∨ n.level i = l
  · rw [levelTaken, if_pos hp]
    exact h j
  · obtain ⟨hp, hl⟩ := not_or.mp hp
    rw [levelTaken_inputs hp hl, PerInput.get_set]
    split
    · exact Nat.zero_le 9
    · exact h j

theorem exec_runs {c : Instr} {s t : State} (hi : .inputs ∈ mayChange c) (e : exec c s = .next t)
    (h : s.node.runsBounded) : t.node.runsBounded := by
  obtain ⟨i, l, rfl⟩ := inputs_mem_mayChange hi
  rw [execDiLevelTaken_next e]
  exact levelTaken_runs i l h

/-! ## The bits of a frame in reception (file 02 R18) -/

theorem decoder_mem_mayChange {c : Instr} (h : .decoder ∈ mayChange c) : (∃ i l, c = .diLevelTaken i l) ∨
    c = .listenEnd ∨ (∃ p, c = .vehicleFrame p) ∨ (∃ i, c = .irRisingEdge i) ∨ c = .quietLineSeen := by
  unfold mayChange at h
  split at h
  all_goals simp at h ⊢

theorem afterSpace_bounded (bits : Bits) (space : Nat) (b : Option Burst) (q : Option Nat) :
    (Decoder.mk (afterSpace bits space) b q).bounded := by
  unfold afterSpace
  split
  · trivial
  · split
    · trivial
    · next hlen =>
      simp only [Decoder.bounded, List.length_append, List.length_singleton]
      omega

theorem modeAfter_bounded (m : DecoderMode) (valid : Bool) (space : Nat) (b : Option Burst) (q : Option Nat) :
    (Decoder.mk (modeAfter m valid space) b q).bounded := by
  unfold modeAfter
  split
  · trivial
  · split
    · exact afterSpace_bounded _ _ _ _
    · trivial
  · split
    · exact afterSpace_bounded _ _ _ _
    · trivial

/-- The bound speaks of the decoder's mode alone. -/
theorem Decoder.bounded_of_mode {d : Decoder} (h : d.bounded) (b : Option Burst) (q : Option Nat) :
    (Decoder.mk d.mode b q).bounded := h

theorem decoderBounded_of_decoder {n m : Node} (h : m.vlr.decoder = n.vlr.decoder) (hn : n.decoderBounded) :
    m.decoderBounded := by
  rw [Node.decoderBounded, h]
  exact hn

theorem decoderBounded_some {n : Node} {d : Decoder} (h : n.vlr.decoder = some d) (hd : d.bounded) : n.decoderBounded := by
  intro d' h'
  rw [h] at h'
  cases h'
  exact hd

theorem vehicleFrame_decoderBounded (p : List Byte) {n : Node} (h : n.decoderBounded) :
    (vehicleFrame p n).decoderBounded := by
  unfold vehicleFrame
  dsimp only
  split
  · exact h
  · split
    · exact decoderBounded_some rfl trivial
    · exact decoderBounded_some (takeVehicle_decoder p _) trivial

theorem quietSeen_decoderBounded {n : Node} (h : n.decoderBounded) : (quietSeen n).decoderBounded := by
  cases hd : n.vlr.decoder with
  | none => rwa [show quietSeen n = n by simp [quietSeen, hd]]
  | some d => exact decoderBounded_some (quietSeen_decoder hd) trivial

theorem beginBurst_decoderBounded {n : Node} (h : n.decoderBounded) : (beginBurst n).decoderBounded := by
  intro d hd
  obtain ⟨d₀, h₀, rfl⟩ := Option.map_eq_some_iff.mp hd
  exact Decoder.bounded_of_mode (h d₀ h₀) _ _

theorem risingEdge_decoderBounded (i : Nat) {n : Node} (h : n.decoderBounded) : (risingEdge i n).decoderBounded := by
  unfold risingEdge
  dsimp only
  split
  · exact h
  · next d hd =>
    split
    · exact beginBurst_decoderBounded h
    · split
      · exact decoderBounded_some rfl (Decoder.bounded_of_mode (h d hd) _ _)
      · split
        · exact decoderBounded_some rfl (Decoder.bounded_of_mode (h d hd) _ _)
        · split
          · exact beginBurst_decoderBounded (quietSeen_decoderBounded h)
          · exact decoderBounded_some rfl (modeAfter_bounded _ _ _ _ _)

/-- A coupling starts the decoder, a decoupling stops it, and no other edge event touches it. -/
theorem edgeEvent_decoderBounded (i : Input) (l : Bool) {n : Node} (h : n.decoderBounded) :
    (edgeEvent i l n).decoderBounded := by
  by_cases hc : i = .coupled
  · subst hc
    cases l with
    | true => exact decoderBounded_some rfl trivial
    | false =>
      have : (edgeEvent .coupled false n).vlr.decoder = none := (endTest_kept (vlrDecouple n)).decoder
      intro d hd
      rw [this] at hd
      cases hd
  · refine decoderBounded_of_decoder ?_ h
    cases i <;> cases l
    case coupled.true | coupled.false => exact absurd rfl hc
    case start.true => exact (Kept.onlyIf fun _ => startFill_kept n).decoder
    case stop.true => exact (fcuStop_kept _ n).decoder
    case holstered.true => exact (Kept.onlyIf fun _ => fcuIdle_kept n).decoder
    case breakaway.true => exact (endTest_kept n).decoder
    all_goals rfl

theorem levelTaken_decoderBounded (i : Input) (l : Bool) {n : Node} (h : n.decoderBounded) :
    (levelTaken i l n).decoderBounded := by
  unfold levelTaken
  dsimp only
  split
  · exact h
  · have effect : (levelEffect i l (setLevel i l n)).decoderBounded :=
      decoderBounded_of_decoder (levelEffect_kept i l (setLevel i l n)).decoder h
    unfold Node.onlyIf
    split
    · exact edgeEvent_decoderBounded i l effect
    · exact effect

theorem beginRun_decoderBounded (n : Node) : (beginRun n).decoderBounded := by
  intro d hd
  rw [beginRun, (beginStatusGrid_kept _).decoder] at hd
  split at hd
  · cases hd
    trivial
  · cases hd

theorem onlyIf_decoderBounded {n : Node} {c : Bool} {f : Node → Node} (h : n.decoderBounded)
    (hf : (f n).decoderBounded) : (n.onlyIf c f).decoderBounded := by
  cases c
  · exact h
  · exact hf

theorem exec_decoderBounded {c : Instr} {s t : State} (hd : .decoder ∈ mayChange c) (e : exec c s = .next t)
    (h : s.node.decoderBounded) : t.node.decoderBounded := by
  obtain ⟨i, l, rfl⟩ | rfl | ⟨p, rfl⟩ | ⟨i, rfl⟩ | rfl := decoder_mem_mayChange hd
  · rw [execDiLevelTaken_next e]
    exact levelTaken_decoderBounded i l h
  · rw [act_next e]
    exact onlyIf_decoderBounded h (beginRun_decoderBounded _)
  · rw [act_next (f := vehicleFrame p) e]
    exact vehicleFrame_decoderBounded p h
  · rw [act_next (f := risingEdge i) e]
    exact risingEdge_decoderBounded i h
  · rw [act_next e]
    exact onlyIf_decoderBounded h (quietSeen_decoderBounded h)

/-! ## Every step, and the reset -/

theorem exec_safe (c : Instr) {s t : State} (h : s.node.Safe) (e : exec c s = .next t) : t.node.Safe := by
  by_cases hCause : ∃ k, c = .startUpCause k
  · obtain ⟨k, rfl⟩ := hCause
    rw [act_next (f := holdPart k) e]
    exact holdPart_safe k h
  by_cases hStart : ∃ a b, c = .startUp a b
  · obtain ⟨a, b, rfl⟩ := hStart
    rw [act_next e]
    exact onlyIf_safe h fun _ => beginStartUp_safe a b h
  by_cases hRead : ∃ a, c = .configReadDone a
  · obtain ⟨a, rfl⟩ := hRead
    rw [act_next e]
    exact onlyIf_safe h fun _ => checkConfig_safe a h
  have kept := (exec_but c (fun k hc => hCause ⟨k, hc⟩) (fun a b hc => hStart ⟨a, b, hc⟩)
    (fun a hc => hRead ⟨a, hc⟩) e).1
  exact kept.safe h (fun hx => exec_counts hx e h.counts) (fun hx => exec_runs hx e h.runs)
    (fun hx => exec_decoderBounded hx e h.decoder)

/-- Settles O11: 1 ms keeps every bound, start-ups set the start-up values, and every other command keeps the bounds
and the claims behind open draw valves, its own items being looked at one by one. -/
theorem everyStepKeepsTheNodeSafe : Obligations.EveryStepKeepsTheNodeSafe := by
  intro s t h e
  cases hq : s.pending with
  | nil =>
    rw [step_idle hq] at e
    cases e
    exact later_safe h
  | cons c rest =>
    have front : exec c { s with pending := rest } = .next t := by simpa [step, hq] using e
    exact exec_safe c (s := { s with pending := rest }) h front

/-- Settles O12: at reset every block stands at its start-up values over a store of 64 slots. -/
theorem resetIsSafe : Obligations.ResetIsSafe where
  bounds := ⟨by decide, by decide, by decide, by decide⟩
  draws := fun b => by cases b <;> decide
  counts := by decide
  runs := fun i => by cases i <;> decide
  decoder := fun d h => by cases h

/-! ## The target pressure (R52) -/

/-- Settles O13: a start-up sets the target pressure to 0, and no other command but CONFIG_READ_DONE touches the hose
class. -/
theorem rampStaysWithinTheHoseLimit : Obligations.RampStaysWithinTheHoseLimit := by
  intro c s t hRead0 h e
  by_cases hCause : ∃ k, c = .startUpCause k
  · obtain ⟨k, rfl⟩ := hCause
    rw [act_next (f := holdPart k) e]
    exact Nat.zero_le _
  by_cases hStart : ∃ a b, c = .startUp a b
  · obtain ⟨a, b, rfl⟩ := hStart
    by_cases hp : s.node.stc.phase = .held
    · rw [exec_startUp_held hp] at e
      cases e
      exact (beginStartUp_kept a b s.node).ramp (Nat.zero_le _)
    · rw [exec_startUp_other hp] at e
      cases e
      exact h
  by_cases hRead : ∃ a, c = .configReadDone a
  · obtain ⟨a, rfl⟩ := hRead
    by_cases hp : s.node.stc.phase = .configRead
    · rw [Node.rampBounded, (execConfigReadDone_only e).fcu (by decide), hRead0 hp]
      exact Nat.zero_le _
    · rw [act_next e]
      simpa [hp] using h
  exact (exec_but c (fun k hc => hCause ⟨k, hc⟩) (fun a b hc => hStart ⟨a, b, hc⟩)
    (fun a hc => hRead ⟨a, hc⟩) e).1.ramp h

/-! ## How a command stops (logs 7 and 24) -/

/-- A reception goes on, or it is refused for the frame it read. -/
theorem receive_stops (s : State) (want : Arrival) (bits : Bits) (act : LineFrame → Node → Node) :
    completes (s.receive want bits act) ∨
      (s.receive want bits act = .refused .otherFrame ∧ ∃ f, receive bits = some f) := by
  unfold State.receive
  split
  · exact .inl ⟨_, rfl⟩
  · next f hf =>
    split
    · exact .inl ⟨_, rfl⟩
    · split
      · exact .inl ⟨_, rfl⟩
      · exact .inr ⟨rfl, f, hf⟩

/-- The refusal of a reception, for a command of the list of receptions. -/
theorem stops_of_receive {c : Instr} {s : State} {want : Arrival} {bits : Bits} {act : LineFrame → Node → Node}
    (he : exec c s = s.receive want bits act)
    (hc : c ∈ [Instr.esdClear bits, .authorize bits, .stop bits, .peerStatus bits, .peerClaim bits, .peerRelease bits,
        .peerHeat bits, .conflictFrame bits, .price bits, .query bits, .collect bits, .readTotals bits]) :
    completes (exec c s) ∨
    (exec c s = .fault .noSlot ∧ c = .diLevelTaken .start true ∧ s.node.inRun = true ∧ s.node.startTaken = true ∧
      s.node.rst.chooseSlot = none) ∨
    (exec c s = .refused .otherFrame ∧ ∃ bits f, receive bits = some f ∧
      c ∈ [Instr.esdClear bits, .authorize bits, .stop bits, .peerStatus bits, .peerClaim bits, .peerRelease bits,
        .peerHeat bits, .conflictFrame bits, .price bits, .query bits, .collect bits, .readTotals bits]) := by
  rw [he]
  obtain h | ⟨h, f, hf⟩ := receive_stops s want bits act
  · exact .inl h
  · exact .inr (.inr ⟨h, bits, f, hf, hc⟩)

/-- A level is taken, or it is a START press of a fill to be started with no slot to take. -/
theorem diLevelTaken_stops (i : Input) (l : Bool) (s : State) : completes (exec (.diLevelTaken i l) s) ∨
    (exec (.diLevelTaken i l) s = .fault .noSlot ∧ i = .start ∧ l = true ∧ s.node.inRun = true ∧
      s.node.startTaken = true ∧ s.node.rst.chooseSlot = none) := by
  show completes (execDiLevelTaken i l s) ∨ (execDiLevelTaken i l s = _ ∧ _)
  unfold execDiLevelTaken
  split
  · next h =>
    simp only [Node.startWithoutSlot, Bool.and_eq_true, decide_eq_true_eq, Option.isNone_iff_eq_none] at h
    obtain ⟨⟨⟨⟨⟨hrun, hi⟩, hl⟩, -⟩, hstart⟩, hslot⟩ := h
    exact .inr ⟨rfl, hi, hl, hrun, hstart, hslot⟩
  · exact .inl ⟨_, rfl⟩

/-- Settles O15: a level stops by its one fault, a reception by its one refusal, and every other command acts. -/
theorem commandsStopOnlyByName : Obligations.CommandsStopOnlyByName := by
  intro c s
  cases c
  case diLevelTaken i l =>
    obtain h | ⟨h, rfl, rfl, rest⟩ := diLevelTaken_stops i l s
    · exact .inl h
    · exact .inr (.inl ⟨h, rfl, rest⟩)
  case esdClear | authorize | stop | peerStatus | peerClaim | peerRelease | peerHeat | conflictFrame | price | query |
      collect | readTotals => exact stops_of_receive rfl (by simp)
  all_goals exact .inl ⟨_, rfl⟩

end Sys2Proof.Machine

/-! # AUTHORIZE, its time-out, and STOP (file 03 R31 to R37) -/

namespace Sys2Proof.Machine

/-! ## The checks of R31, in their order -/

theorem Four.ofNum_eq_none_iff {x : Nat} : Four.ofNum x = none ↔ x < 1 ∨ 4 < x := by
  unfold Four.ofNum
  split
  case h_5 =>
    simp only [imp_false, true_iff] at *
    omega
  all_goals simp

theorem limitKindOf_eq_none_iff {x : Nat} : limitKindOf x = none ↔ 2 < x := by
  unfold limitKindOf
  split
  case h_4 =>
    simp only [imp_false, true_iff] at *
    omega
  all_goals simp

theorem limitKindOf_none {x : Nat} (h : limitKindOf x = some .none) : x = 0 := by
  unfold limitKindOf at h
  split at h <;> first | rfl | cases h

section
variable {a : AuthorizeFields} {n : Node}

theorem authCheck_conflict (h : n.stc.conflict = true) : authCheck a n = .error .notReady := by simp [authCheck, h]

variable (hc : n.stc.conflict = false)
include hc

/-- A field out of its range. -/
theorem authCheck_badField (h : a.row < 1 ∨ 4 < a.row ∨ 2 < a.limitKind ∨ a.number = 0 ∨
    (a.limitKind ≠ 0 ∧ (a.limitValue = 0 ∨ 99999999 < a.limitValue))) : authCheck a n = .error .badField := by
  cases hrow : Four.ofNum a.row with
  | none => simp [authCheck, hc, hrow]
  | some row =>
    cases hkind : limitKindOf a.limitKind with
    | none => simp [authCheck, hc, hrow, hkind]
    | some kind =>
      have hr : ¬ (a.row < 1 ∨ 4 < a.row) := by rw [← Four.ofNum_eq_none_iff, hrow]; exact Option.some_ne_none _
      have hk : ¬ 2 < a.limitKind := by rw [← limitKindOf_eq_none_iff, hkind]; exact Option.some_ne_none _
      have bad : a.number = 0 ∨ (kind ≠ .none ∧ (a.limitValue = 0 ∨ 99999999 < a.limitValue)) := by
        obtain h | h | h | h | ⟨hne, h⟩ := h
        · exact absurd (.inl h) hr
        · exact absurd (.inr h) hr
        · exact absurd h hk
        · exact .inl h
        · exact .inr ⟨fun e => hne (limitKindOf_none (e ▸ hkind)), h⟩
      simp only [authCheck, hc, hrow, hkind, if_pos bad, Bool.false_eq_true, if_false]

variable {row : Four} {kind : LimitKind} (hrow : Four.ofNum a.row = some row)
  (hkind : limitKindOf a.limitKind = some kind) (hnum : a.number ≠ 0)
  (hlim : kind ≠ .none → 1 ≤ a.limitValue ∧ a.limitValue ≤ 99999999)
include hrow hkind hnum hlim

/-- The fields in their ranges, the checks go on with the price row. -/
theorem authCheck_fields : authCheck a n =
    match n.mpu.prices.get row with
    | none => .error .noPrice
    | some price =>
      if n.rst.freeSlots = 0 then .error .storeFull
      else if n.mpu.creepFlag ∨ n.level .meterFault = true then .error .meterFault
      else if n.isc.loop ≠ .normal then .error .lockedEsd
      else .ok (row, price, kind) := by
  have good : ¬ (a.number = 0 ∨ (kind ≠ .none ∧ (a.limitValue = 0 ∨ 99999999 < a.limitValue))) := by
    rintro (h | ⟨hk, h⟩)
    · exact hnum h
    · have := hlim hk
      omega
  simp only [authCheck, hc, hrow, hkind, if_neg good, Bool.false_eq_true, if_false] <;> rfl

theorem authCheck_noPrice (hp : n.mpu.prices.get row = none) : authCheck a n = .error .noPrice := by
  rw [authCheck_fields hc hrow hkind hnum hlim, hp]

variable {price : Nat} (hp : n.mpu.prices.get row = some price)
include hp

theorem authCheck_storeFull (hs : n.rst.freeSlots = 0) : authCheck a n = .error .storeFull := by
  rw [authCheck_fields hc hrow hkind hnum hlim, hp]
  exact if_pos hs

variable (hs : n.rst.freeSlots ≠ 0)
include hs

theorem authCheck_meterFault (hm : n.mpu.creepFlag = true ∨ n.level .meterFault = true) :
    authCheck a n = .error .meterFault := by
  rw [authCheck_fields hc hrow hkind hnum hlim, hp]
  simp [hs, hm]

variable (hm : n.mpu.creepFlag = false) (hl : n.level .meterFault = false)
include hm hl

theorem authCheck_lockedEsd (h : n.isc.loop ≠ .normal) : authCheck a n = .error .lockedEsd := by
  rw [authCheck_fields hc hrow hkind hnum hlim, hp]
  simp [hs, hm, hl, h]

theorem authCheck_ok (h : n.isc.loop = .normal) : authCheck a n = .ok (row, price, kind) := by
  rw [authCheck_fields hc hrow hkind hnum hlim, hp]
  simp [hs, hm, hl, h]

end

/-! ## AUTHORIZE by phase (R31 to R33) -/

section
variable {f : LineFrame} {n : Node}

theorem authorize_refused (hp : n.fcu.phase = .idle) {r : Result} (h : authCheck (readAuthorize f.payload) n = .error r) :
    authorize f n = offer (.answer f.source.toNat kindAuthorize r 0) n := by
  simp [authorize, hp, h, answer, LineFrame.terminal]

/-- The authorization is taken, its timer starts, and its limit mass is echoed. -/
theorem authorize_taken (hp : n.fcu.phase = .idle) {row : Four} {price : Nat} {kind : LimitKind}
    (h : authCheck (readAuthorize f.payload) n = .ok (row, price, kind)) :
    authorize f n =
      let auth := authOf n.stc.cfg.hose (readAuthorize f.payload) f.source.toNat row price kind
      offer (.answer f.source.toNat kindAuthorize .ok auth.limitMass) { n with
        fcu := { n.fcu with phase := .authorized, auth := some auth, authSince := some n.now } } := by
  simp [authorize, hp, h, answer, LineFrame.terminal]

theorem authorize_held (hp : n.fcu.phase = .authorized) {held : Auth} (ha : n.fcu.auth = some held)
    (h : (readAuthorize f.payload).number = held.number) :
    authorize f n = offer (.answer f.source.toNat kindAuthorize .ok held.limitMass) n := by
  simp [authorize, hp, ha, h, answer, LineFrame.terminal]

theorem authorize_another (hp : n.fcu.phase = .authorized) {held : Auth} (ha : n.fcu.auth = some held)
    (h : (readAuthorize f.payload).number ≠ held.number) :
    authorize f n = offer (.answer f.source.toNat kindAuthorize .busy 0) n := by
  simp [authorize, hp, ha, Ne.symm h, answer, LineFrame.terminal]

theorem authorize_busy (hi : n.fcu.phase ≠ .idle) (ha : n.fcu.phase ≠ .authorized) :
    authorize f n = offer (.answer f.source.toNat kindAuthorize .busy 0) n := by
  unfold authorize
  dsimp only
  split
  · contradiction
  · contradiction
  · rfl

end

theorem exec_authorize_run {s : State} {bits : Bits} {f : LineFrame} (hf : receive bits = some f)
    (ha : arrivalOf s.node.stc.node f = .command kindAuthorize) (hp : s.node.stc.phase = .run)
    (hb : badField false f = false) : exec (.authorize bits) s = .next { s with node := authorize f s.node } := by
  show execAuthorize bits s = _
  rw [execAuthorize, receive_taken hf ha, onCommand_run hp hb]

/-- Settles O31: the checks of R31 one by one, then the two other answers by phase. -/
theorem authorizeIsCheckedInOrder : Obligations.AuthorizeIsCheckedInOrder := by
  refine ⟨?_, commandGate_of_exec fun _ _ => rfl⟩
  rintro s bits f a hf ha hrun hb rfl answered
  have refused {r : Result} (hi : s.node.fcu.phase = .idle)
      (h : authCheck (readAuthorize f.payload) s.node = .error r) : answered r 0 := by
    show exec _ _ = _
    rw [exec_authorize_run hf ha hrun hb, authorize_refused hi h]
  refine ⟨fun hi => ⟨fun hc => refused hi (authCheck_conflict hc), fun hc =>
    ⟨fun h => refused hi (authCheck_badField hc h), fun row kind hrow hkind hnum hlim => ?_⟩⟩,
    fun held hp hheld => ⟨fun h => ?_, fun h => ?_⟩, fun hi hau => ?_⟩
  · refine ⟨fun hprice => refused hi (authCheck_noPrice hc hrow hkind hnum hlim hprice), fun price hprice =>
      ⟨fun hs => refused hi (authCheck_storeFull hc hrow hkind hnum hlim hprice hs), fun hs =>
      ⟨fun hm => refused hi (authCheck_meterFault hc hrow hkind hnum hlim hprice hs hm), fun hm hl =>
      ⟨fun h => refused hi (authCheck_lockedEsd hc hrow hkind hnum hlim hprice hs hm hl h), ?_⟩⟩⟩⟩
    rintro h mass rfl
    rw [exec_authorize_run hf ha hrun hb, authorize_taken hi (authCheck_ok hc hrow hkind hnum hlim hprice hs hm hl h)]
    cases kind <;> rfl
  · show exec _ _ = _
    rw [exec_authorize_run hf ha hrun hb, authorize_held hp hheld h]
  · show exec _ _ = _
    rw [exec_authorize_run hf ha hrun hb, authorize_another hp hheld h]
  · show exec _ _ = _
    rw [exec_authorize_run hf ha hrun hb, authorize_busy hi hau]

/-! ## The end of an authorization (R34, R37) -/

/-- A timer that runs and has reached its limit. -/
theorem reached_some {n : Node} {a ms : Nat} (h : ms ≤ n.now - a) : n.reached (some a) ms = true := by
  simpa [Node.reached, Node.elapsed] using h

theorem authCancel_authorized {n : Node} (h : n.fcu.phase = .authorized) : authCancel n = fcuIdle n := if_pos h

theorem authCancel_other {n : Node} (h : n.fcu.phase ≠ .authorized) : authCancel n = n := if_neg h

/-- Settles O32: the timer has reached 120 s, and the authorization is cancelled. -/
theorem authorizationTimesOut : Obligations.AuthorizationTimesOut := by
  intro s a hp ha ht
  show execAuthorizationTimeout s = _
  rw [execAuthorizationTimeout, State.act_eq, ha, reached_some ht, Node.onlyIf_true, authCancel_authorized hp]
  rfl

theorem exec_stop_run {s : State} {bits : Bits} {f : LineFrame} (hf : receive bits = some f)
    (ha : arrivalOf s.node.stc.node f = .command kindStop) (hp : s.node.stc.phase = .run)
    (hb : badField false f = false) : exec (.stop bits) s =
      .next { s with node := fcuStop .stopTerminal (offer (.answer f.source.toNat kindStop .ok 0) s.node) } := by
  show execStop bits s = _
  rw [execStop, receive_taken hf ha, onCommand_run hp hb]
  rfl

@[simp] theorem offer_fcu (b : FrameBody) (n : Node) : (offer b n).fcu = n.fcu := (offer_only b n).fcu (by decide)

theorem fcuStop_filling {n : Node} (h : n.fcu.phase.filling = true) (r : EndReason) : fcuStop r n = endFill r n :=
  if_pos h

theorem fcuStop_not_filling {n : Node} (h : n.fcu.phase.filling = false) (r : EndReason) :
    fcuStop r n = authCancel n := by simp [fcuStop, h]

/-- Settles O33: the answer is offered first, and leaves the phase by which STOP then acts. -/
theorem stopEndsTheFill : Obligations.StopEndsTheFill := by
  refine ⟨fun s bits f hf ha hrun hb => ⟨_, exec_stop_run hf ha hrun hb, fun hfill => ?_, fun hau => ?_,
    fun hfill hau => ?_⟩, commandGate_of_exec fun _ _ => rfl⟩
  · rw [fcuStop_filling (by rw [offer_fcu]; exact hfill)]
    have ended := endFill_ended .stopTerminal (offer (.answer f.source.toNat kindStop .ok 0) s.node)
    exact ⟨rfl, ended.phase, ended.reason, ended.flow, ended.period, ended.pauses, ended.shut⟩
  · rw [fcuStop_not_filling (by rw [offer_fcu, hau]; rfl), authCancel_authorized (by rw [offer_fcu, hau]), fcuIdle,
      offer_fcu]
  · rw [fcuStop_not_filling (by rw [offer_fcu]; exact hfill), authCancel_other (by rw [offer_fcu]; exact hau)]

end Sys2Proof.Machine

/-! # The travels of the valves (file 03 R30, R61 to R63) -/

namespace Sys2Proof.Machine

/-! ## Claims given back (file 04 R79) -/

theorem Bcu.find_without (c : Bcu) (b : Bank) (k : ClaimKind) : (c.without b k).find b k = none := by
  simp only [Bcu.find, Bcu.without, List.find?_eq_none, List.mem_filter]
  rintro o ⟨-, ho⟩ hf
  rw [hf] at ho
  cases ho

theorem bcuRelease_find (b : Bank) (k : ClaimKind) (n : Node) : (bcuRelease b k n).bcu.find b k = none := by
  unfold bcuRelease
  split
  · assumption
  · split
    · exact Bcu.find_without _ _ _
    · rw [offer_bcu]
      exact Bcu.find_without _ _ _

/-! ## A draw valve has arrived, part by part (R30, R39, R41, R45, R61) -/

/-- A draw valve stands in its commanded position. -/
def Node.drawArrived (b : Bank) (n : Node) : Node := { n with fcu.vb := n.fcu.vb.set b (n.fcu.vb.get b).arrive }

/-- The draw claim that waited for the closure is released. -/
def releasedAtClosure (b : Bank) (n : Node) : Node :=
  if (n.fcu.vb.get b).closed ∧ n.fcu.relOnClose.get b = true then
    bcuRelease b .draw { n with fcu.relOnClose := n.fcu.relOnClose.set b false }
  else n

/-- OPENING goes on with PULSE, and REZERO with its vent. -/
def checkArrived (b : Bank) (n : Node) : Node :=
  if n.fcu.phase = .checking then
    if n.fcu.check = .opening ∧ n.fcu.stepSince.isSome = true ∧ n.fcu.checkBank = some b ∧
        (n.fcu.vb.get b).ready = true then beginPulse n
    else if n.fcu.check = .rezero ∧ n.fcu.rezeroVent = none ∧ n.drawValvesClosed = true then
      ventValve true { n with fcu.rezeroVent := some n.now }
    else n
  else n

theorem fcuDrawArrived_eq (b : Bank) (n : Node) : fcuDrawArrived b n =
    fcuClosingDone (fcuSwitchDone (fcuSourceReady (checkArrived b (releasedAtClosure b (n.drawArrived b))))) := rfl

theorem drawArrived_vb (b : Bank) (n : Node) : (n.drawArrived b).fcu.vb.get b = ⟨(n.fcu.vb.get b).opened, none⟩ :=
  Quad.get_set_same _ _ _

theorem releasedAtClosure_fcu (b : Bank) (n : Node) :
    ∃ q, (releasedAtClosure b n).fcu = { n.fcu with relOnClose := q } := by
  unfold releasedAtClosure
  split
  · exact ⟨n.fcu.relOnClose.set b false, by rw [(bcuRelease_only _ _ _).fcu (by decide)]⟩
  · exact ⟨n.fcu.relOnClose, rfl⟩

theorem releasedAtClosure_only (b : Bank) (n : Node) : Only [.fcu, .bcu, .liu] n (releasedAtClosure b n) := by
  unfold releasedAtClosure
  exact .ite ((bcuRelease_only _ _ _).after fcu_only) (.refl _ n)

theorem releasedAtClosure_find {b : Bank} {n : Node} (hc : (n.fcu.vb.get b).closed = true)
    (hr : n.fcu.relOnClose.get b = true) : (releasedAtClosure b n).bcu.find b .draw = none := by
  rw [releasedAtClosure, if_pos ⟨hc, hr⟩]
  exact bcuRelease_find _ _ _

theorem checkArrived_only (b : Bank) (n : Node) : Only [.fcu] n (checkArrived b n) := by
  unfold checkArrived
  exact .ite (.ite fcu_only (.ite (Only.after (x := [.fcu]) fcu_only fcu_only) (.refl _ n))) (.refl _ n)

theorem checkArrived_vb (b : Bank) (n : Node) : (checkArrived b n).fcu.vb = n.fcu.vb := by
  unfold checkArrived
  split
  · split
    · rfl
    · split <;> rfl
  · rfl

theorem fcuSourceReady_vb (n : Node) : (fcuSourceReady n).fcu.vb = n.fcu.vb := by
  unfold fcuSourceReady
  split <;> rfl

theorem fcuSwitchDone_vb (n : Node) : (fcuSwitchDone n).fcu.vb = n.fcu.vb := by
  unfold fcuSwitchDone
  split <;> rfl

theorem fcuClosingDone_vb (n : Node) : (fcuClosingDone n).fcu.vb = n.fcu.vb := by
  obtain h | ⟨-, h⟩ := fcuClosingDone_fcu n <;> rw [h]

theorem fcuDrawArrived_vb (b : Bank) (n : Node) : (fcuDrawArrived b n).fcu.vb = (n.drawArrived b).fcu.vb := by
  obtain ⟨q, released⟩ := releasedAtClosure_fcu b (n.drawArrived b)
  rw [fcuDrawArrived_eq, fcuClosingDone_vb, fcuSwitchDone_vb, fcuSourceReady_vb, checkArrived_vb, released]

theorem fcuDrawArrived_bcu (b : Bank) (n : Node) :
    (fcuDrawArrived b n).bcu = (releasedAtClosure b (n.drawArrived b)).bcu := by
  rw [fcuDrawArrived_eq, (fcuClosingDone_only _).bcu (by decide), (fcuSwitchDone_only _).bcu (by decide),
    (fcuSourceReady_only _).bcu (by decide), (checkArrived_only _ _).bcu (by decide)]

/-! ## The valves of the compressor have arrived (file 07 R117, R126, R128) -/

theorem ccuTry_vr (bs : List Bank) (n : Node) : (ccuTry bs n).ccu.vr = n.ccu.vr := by
  induction bs generalizing n with
  | nil => rfl
  | cons b bs ih =>
    have request := (bcuRequest_only b .refill n).ccu (by decide)
    unfold ccuTry
    split
    · next m e =>
      rw [e] at request
      show m.ccu.vr = n.ccu.vr
      rw [request]
    · next m e =>
      rw [e] at request
      rw [ih m, request]

theorem ccuChoose_vr (skip : Option Bank) (n : Node) : (ccuChoose skip n).ccu.vr = n.ccu.vr := by
  unfold ccuChoose
  split
  · exact ccuTry_vr _ n
  · rfl

/-- A stop without a refill claim only commands the valves closed. -/
theorem ccuHalt_vr {n : Node} (h : n.ccu.claim = none) (st : CompState) (b : Bank) :
    (ccuHalt st n).ccu.vr.get b = (n.ccu.vr.get b).command false n.now := by
  simp [ccuHalt, ccuGiveClaim, closeCompressorValves, h]

/-- A choice in IDLE_RUN and the test after it leave a valve that is commanded closed as it is. -/
theorem ccuIdleChoice_vr {n : Node} {b : Bank} (h : (n.ccu.vr.get b).opened = false) (skip : Option Bank) :
    (ccuIdleChoice skip n).ccu.vr.get b = n.ccu.vr.get b := by
  have shut : (ccuChoose skip n).ccu.vr.get b = n.ccu.vr.get b := by rw [ccuChoose_vr]
  unfold ccuIdleChoice
  split
  · unfold ccuIdleTest
    split
    · next idle =>
      rw [ccuHalt_vr idle.2.1, shut, ← h]
      exact ValveRec.command_same _ _
    · exact shut
  · rfl

theorem ccuRefillArrived_vr (b : Bank) (n : Node) :
    (ccuRefillArrived b n).ccu.vr.get b = ⟨(n.ccu.vr.get b).opened, none⟩ := by
  have arrived : (n.ccu.vr.set b (n.ccu.vr.get b).arrive).get b = ⟨(n.ccu.vr.get b).opened, none⟩ :=
    Quad.get_set_same _ _ _
  unfold ccuRefillArrived
  dsimp only
  split
  · next h =>
    have released (m : Node) : (bcuRelease b .refill m).ccu = m.ccu := (bcuRelease_only b .refill m).ccu (by decide)
    have shut : (n.ccu.vr.get b).opened = false := by simpa [arrived, ValveRec.closed] using h.2
    rw [ccuIdleChoice_vr (by rw [released, arrived, shut]), released]
    exact arrived
  · exact arrived

theorem fcuDirectReady_only (n : Node) : Only [.fcu, .bcu, .rst, .liu] n (fcuDirectReady n) := by
  unfold fcuDirectReady
  exact .ite ((fcuSwitchDone_only _).after ((fcuSourceReady_only _).after (x := [.fcu, .bcu, .rst, .liu])
    (takeSource_only .direct n))) (.refl _ n)

theorem ccuDirectArrived_vdir (n : Node) : (ccuDirectArrived n).ccu.vdir = ⟨n.ccu.vdir.opened, none⟩ := by
  unfold ccuDirectArrived
  dsimp only
  split
  · rw [(fcuDirectReady_only _).ccu (by decide)]
    rfl
  · rfl

/-! ## The vent valve has arrived (R62, R63) -/

theorem enterClosingRecord_fcu (n : Node) : (enterClosingRecord n).fcu = { n.fcu with phase := .closingRecord } := by
  rw [enterClosingRecord, (raiseRecord_only _ _).fcu (by decide), (mpuFinal_only _).fcu (by decide)]

theorem fcuVentArrived_vvent (n : Node) : (fcuVentArrived n).fcu.vvent = ⟨n.fcu.vvent.opened, none⟩ := by
  unfold fcuVentArrived
  dsimp only
  split
  · rw [enterClosingRecord_fcu]
    rfl
  · rfl

/-! ## VALVE_TRAVEL_END -/

theorem valveArrived_valve (v : Valve) (n : Node) : (valveArrived v n).valve v = ⟨(n.valve v).opened, none⟩ := by
  cases v with
  | draw b =>
    show (fcuDrawArrived b n).fcu.vb.get b = _
    rw [fcuDrawArrived_vb]
    exact drawArrived_vb b n
  | refill b => exact ccuRefillArrived_vr b n
  | direct => exact ccuDirectArrived_vdir n
  | vent => exact fcuVentArrived_vvent n

theorem exec_valveTravelEnd_due {s : State} {v : Valve} {a : Nat} (h : (s.node.valve v).since = some a)
    (ht : 400 ≤ s.node.now - a) :
    exec (.valveTravelEnd v) s = .next { s with node := valveArrived v s.node } := by
  show execValveTravelEnd v s = _
  simp [execValveTravelEnd, ValveRec.travelEnded, h, ht]

theorem exec_valveTravelEnd_early {s : State} {v : Valve} (h : (s.node.valve v).travelEnded s.node.now = false) :
    exec (.valveTravelEnd v) s = .next s := by
  show execValveTravelEnd v s = _
  rw [execValveTravelEnd, State.act_eq, h, Node.onlyIf_false]

/-- Settles O34: the position by kind of valve, the release of a draw claim, and the two cases with no travel ended. -/
theorem valvesArriveAfterTheirTravel : Obligations.ValvesArriveAfterTheirTravel := by
  refine ⟨fun s v a h ht => ⟨_, exec_valveTravelEnd_due h ht, valveArrived_valve v s.node, ?_⟩, fun s v h => ?_,
    fun s v a h ht => ?_⟩
  · rintro b rfl hshut hrel
    show (fcuDrawArrived b s.node).bcu.find b .draw = none
    rw [fcuDrawArrived_bcu]
    refine releasedAtClosure_find ?_ hrel
    rw [drawArrived_vb]
    exact decide_eq_true ⟨hshut, rfl⟩
  · exact exec_valveTravelEnd_early (by simp [ValveRec.travelEnded, h])
  · exact exec_valveTravelEnd_early (by simp [ValveRec.travelEnded, h, ht])

end Sys2Proof.Machine

/-! # The repeated search for a bank (file 03 R38, R44, R46, file 04 R70, R73) -/

namespace Sys2Proof.Machine

/-! ## A request for a claim, taken or not (file 04 R70, R73) -/

/-- An offer that is not kept leaves the queue as it was. -/
theorem queueOffer_refused {b : FrameBody} {q : List QFrame} (h : (queueOffer b q).2 = false) :
    (queueOffer b q).1 = q := by
  unfold queueOffer at h ⊢
  split at h
  · cases h
  · split at h
    · cases h
    · next h1 h2 =>
      rw [if_neg h1, if_neg h2]
      split at h
      · next h3 => rw [if_pos h3]
      · next h3 =>
        rw [if_neg h3]
        split at h
        · cases h
        · next h4 =>
          rw [if_neg h4]
          split at h
          · next h5 => rw [if_pos h5]
          · next h5 =>
            rw [if_neg h5]
            split at h
            · cases h
            · rfl

/-- What a request that passes the request check has met. -/
theorem request_accepted {n : Node} {b : Bank} {k : ClaimKind} (h : n.requestRefused b k = false) :
    n.stc.conflict = false ∧ b.num ≤ n.stc.cfg.bankCount ∧ n.available b = true ∧ n.bcu.find b k = none := by
  simp only [Node.requestRefused, Bool.or_eq_false_iff, decide_eq_false_iff_not, Bool.not_eq_eq_eq_not,
    Bool.not_false, Option.isSome_eq_false_iff, Option.isNone_iff_eq_none] at h
  obtain ⟨⟨⟨⟨⟨⟨⟨-, conflict⟩, -⟩, count⟩, available⟩, -⟩, find⟩, -⟩ := h
  exact ⟨conflict, Nat.not_lt.mp count, available, find⟩

theorem grants_num {n : Node} {b : Bank} {k : ClaimKind} (h : n.grants b k) : b.num ≤ n.stc.cfg.bankCount :=
  (request_accepted h.1).2.1

theorem grants_available {n : Node} {b : Bank} {k : ClaimKind} (h : n.grants b k) : n.available b = true :=
  (request_accepted h.1).2.2.1

/-- Without a claim to drop, an appended claim that is dropped again leaves the list. -/
theorem Bcu.without_append {c : Bcu} {b : Bank} {k : ClaimKind} (h : c.find b k = none) (o : OwnClaim)
    (hb : o.bank = b) (hk : o.kind = k) : (⟨c.own ++ [o]⟩ : Bcu).without b k = c := by
  have keep : c.own.filter (fun x => !(decide (x.bank = b) && decide (x.kind = k))) = c.own := by
    rw [List.filter_eq_self]
    intro x hx
    exact (Bool.not_eq_true' _).mpr (Bool.eq_false_iff.mpr (List.find?_eq_none.mp h x hx))
  have drop : [o].filter (fun x => !(decide (x.bank = b) && decide (x.kind = k))) = [] := by simp [hb, hk]
  rw [Bcu.without, List.filter_append, keep, drop, List.append_nil]

theorem bcuRequest_granted {n : Node} {b : Bank} {k : ClaimKind} (h : n.grants b k) :
    bcuRequest b k n = (n.requesting b k, true) := by
  obtain ⟨refused, kept⟩ := h
  obtain ⟨conflict, -⟩ := request_accepted refused
  simp [bcuRequest, refused, liuOffer, conflict, kept, Node.requesting]

theorem bcuRequest_denied {n : Node} {b : Bank} {k : ClaimKind} (h : ¬ n.grants b k) :
    bcuRequest b k n = (n, false) := by
  cases refused : n.requestRefused b k with
  | true => simp [bcuRequest, refused]
  | false =>
    obtain ⟨conflict, -, -, find⟩ := request_accepted refused
    have dropped : (queueOffer (.claim b k) n.liu.queue).2 = false := by simpa [refused] using h
    simp [bcuRequest, refused, liuOffer, conflict, dropped, queueOffer_refused dropped,
      Bcu.without_append find ⟨b, k, .requested⟩ rfl rfl]

/-! ## The searches, as the first bank that fits -/

/-- The check search takes the first bank whose draw claim is granted, or sets BANK_WAIT (R38). -/
theorem checkSearch_eq (bs : List Bank) (n : Node) : checkSearch bs n =
    (bs.find? fun b => decide (n.grants b .draw)).elim (setBankWait n)
      fun b => { n.requesting b .draw with fcu.checkBank := some b } := by
  induction bs with
  | nil => rfl
  | cons b bs ih =>
    by_cases h : n.grants b .draw
    · rw [checkSearch, if_pos (grants_available h), bcuRequest_granted h, List.find?_cons_of_pos (by simpa using h)]
      rfl
    · rw [checkSearch, bcuRequest_denied h, List.find?_cons_of_neg (by simpa using h), ← ih]
      exact ite_id _

/-- The switch search takes the first bank that passes the candidate test and whose draw claim is granted, or asks for
DIRECT (R44). -/
theorem switchSearch_eq (bs : List Bank) (n : Node) : switchSearch bs n =
    (bs.find? fun b => n.switchCandidate b && decide (n.grants b .draw)).elim (askDirect n)
      fun b => setTarget (.bank b) (n.requesting b .draw) := by
  induction bs with
  | nil => rfl
  | cons b bs ih =>
    cases hc : n.switchCandidate b with
    | false =>
      rw [switchSearch, hc, List.find?_cons_of_neg (by simp [hc]), ← ih]
      rfl
    | true =>
      by_cases h : n.grants b .draw
      · rw [switchSearch, hc, bcuRequest_granted h, List.find?_cons_of_pos (by simp [hc, h])]
        rfl
      · rw [switchSearch, hc, bcuRequest_denied h, List.find?_cons_of_neg (by simp [h]), ← ih]
        rfl

/-- The banks stand in ascending order: the first that fits is the lowest. -/
theorem find_lowest_bank {p : Bank → Bool} {b : Bank} (hb : p b = true) (h : ∀ c : Bank, c.num < b.num → p c = false) :
    Four.all.find? p = some b := by
  have lower (c : Bank) (hc : c.num < b.num) : ¬ p c = true := by simp [h c hc]
  cases b
  case one => exact List.find?_cons_of_pos hb
  case two =>
    rw [Four.all, List.find?_cons_of_neg (lower .one (by decide))]
    exact List.find?_cons_of_pos hb
  case three =>
    rw [Four.all, List.find?_cons_of_neg (lower .one (by decide)), List.find?_cons_of_neg (lower .two (by decide))]
    exact List.find?_cons_of_pos hb
  case four =>
    rw [Four.all, List.find?_cons_of_neg (lower .one (by decide)), List.find?_cons_of_neg (lower .two (by decide)),
      List.find?_cons_of_neg (lower .three (by decide))]
    exact List.find?_cons_of_pos hb

theorem banksUpTo_find {count : Nat} {p : Bank → Bool} {b : Bank} (hn : b.num ≤ count) (hb : p b = true)
    (h : ∀ c : Bank, c.num < b.num → p c = false) : (banksUpTo count).find? p = some b := by
  rw [banksUpTo, List.find?_filter]
  exact find_lowest_bank (by simp [hn, hb]) fun c hc => by simp [h c hc]

theorem banksAbove_find {count : Nat} {k : Bank} {p : Bank → Bool} {b : Bank} (hk : k.num < b.num) (hn : b.num ≤ count)
    (hb : p b = true) (h : ∀ c : Bank, c.num < b.num → k.num < c.num → p c = false) :
    (banksAbove count k).find? p = some b := by
  rw [banksAbove, List.find?_filter]
  refine banksUpTo_find hn (by simp [hk, hb]) fun c hc => ?_
  by_cases hkc : k.num < c.num
  · simp [h c hc hkc]
  · simp [hkc]

theorem banksAbove_find_none {count : Nat} {k : Bank} {p : Bank → Bool} (h : ∀ c : Bank, k.num < c.num → p c = false) :
    (banksAbove count k).find? p = none := by
  rw [List.find?_eq_none]
  intro c hc
  have above := (List.mem_filter.mp hc).2
  simp [h c (by simpa using above)]

/-! ## A search that finds nothing (R38, R46) -/

/-- In CLAIM_WAIT a pause changes nothing. -/
theorem pauseEffect_claimWait {n : Node} (hp : n.fcu.phase = .checking) (hc : n.fcu.check = .claimWait) :
    pauseEffect n = n := by
  simp [pauseEffect, hp, hc, Phase.ramping, CheckStep.ofAttempt]

theorem pauseEffect_ramping {n : Node} (h : n.fcu.phase.ramping = true) :
    pauseEffect n = { n with fcu := { n.fcu with phase := .paused, fCmd := 0 } } := if_pos h

/-- Under BANK_WAIT its timer goes on, and the next repeat counts from now. -/
theorem setBankWait_again {n : Node} (h : n.fcu.pauses.bankWait.isSome = true) :
    setBankWait n = pauseEffect { n with fcu := { n.fcu with exhausted := true, searchAt := some n.now } } := by
  obtain ⟨t, ht⟩ := Option.isSome_iff_exists.mp h
  have same : ({ n.fcu.pauses with bankWait := some t } : Pauses) = n.fcu.pauses := by rw [← ht]
  simp only [setBankWait, ht, same]

/-- In CLAIM_WAIT nothing else changes. -/
theorem setBankWait_claimWait {n : Node} (hp : n.fcu.phase = .checking) (hc : n.fcu.check = .claimWait)
    (hw : n.fcu.pauses.bankWait.isSome = true) :
    setBankWait n = { n with fcu := { n.fcu with exhausted := true, searchAt := some n.now } } := by
  rw [setBankWait_again hw]
  exact pauseEffect_claimWait hp hc

/-- The source is a bank less than 0.50 MPa above P_H. -/
theorem marginBelow_iff {n : Node} : n.marginBelow 50 = true ↔
    ∃ b, n.fcu.source = some (.bank b) ∧ n.pB b < n.pH + 50 := by
  cases hs : n.fcu.source with
  | none => simp [Node.marginBelow, hs]
  | some x =>
    cases x with
    | direct => simp [Node.marginBelow, hs]
    | bank b =>
      have margin : n.marginBelow 50 = decide ((n.pB b : Int) - n.pH < 50) := by
        rw [Node.marginBelow, hs]
        rfl
      simp only [margin, decide_eq_true_eq, Option.some.injEq, Source.bank.injEq, exists_eq_left']
      omega

/-- Under BANK_WAIT a search without a result pauses a fill whose source is absent or spent. -/
theorem endSearch_paused {n : Node} (hr : n.fcu.phase.ramping = true) (hw : n.fcu.pauses.bankWait.isSome = true)
    (h : n.fcu.source = none ∨ ∃ b, n.fcu.source = some (.bank b) ∧ n.pB b < n.pH + 50) :
    endSearch n = { n with fcu := { n.fcu with
      phase := .paused, fCmd := 0, exhausted := true, noTarget := true, searchAt := some n.now } } := by
  have spent : n.fcu.source = none ∨ n.marginBelow 50 = true := h.imp_right marginBelow_iff.mpr
  rw [endSearch, if_pos spent, setBankWait_again (n := { n with fcu := { n.fcu with noTarget := true } }) hw]
  exact if_pos hr

theorem endSearch_goes_on {n : Node} {b : Bank} (hs : n.fcu.source = some (.bank b)) (h : n.pH + 50 ≤ n.pB b) :
    endSearch n = { n with fcu := { n.fcu with noTarget := true, searchAt := some n.now } } := by
  refine if_neg ?_
  rintro (h0 | hm)
  · rw [hs] at h0
    cases h0
  · obtain ⟨c, hc, hlow⟩ := marginBelow_iff.mp hm
    rw [hs] at hc
    cases hc
    omega

/-- A DIRECT request that is not taken changes nothing. -/
theorem directRequest_denied {n : Node} (h : (directRequest n).2 = false) : directRequest n = (n, false) := by
  unfold directRequest at h ⊢
  split at h
  · next hr => rw [if_pos hr]
  · next hr =>
    rw [if_neg hr]
    split at h
    · split at h
      · cases h
      · next hp => exact if_neg hp
    · cases h
    · cases h
    · cases h
    · rfl
    · rfl
    · rfl

theorem askDirect_taken {n : Node} (ha : n.stc.cfg.directAllowed = true) (h : (directRequest n).2 = true) :
    askDirect n = setTarget .direct (directRequest n).1 := by
  have e : directRequest n = ((directRequest n).1, true) := Prod.ext rfl h
  rw [askDirect, if_pos ha, e]

theorem askDirect_denied {n : Node}
    (h : n.stc.cfg.directAllowed = false ∨ (directRequest n).2 = false) : askDirect n = endSearch n := by
  cases ha : n.stc.cfg.directAllowed with
  | false => simp [askDirect, ha]
  | true =>
    have denied := h.resolve_left (by rw [ha]; exact Bool.noConfusion)
    rw [askDirect, if_pos ha, directRequest_denied denied]

/-- The target is present in a node that has the fill control of `k`. -/
theorem setTarget_eq {n k : Node} (h : n.fcu = k.fcu) (x : Source) : setTarget x n = { n with fcu := { k.fcu with
    target := some x, targetTaken := false, targetWaits := false, noTarget := false
    phase := if k.fcu.phase = .flowing then .switching else k.fcu.phase } } := by
  rw [← h]
  rfl

/-! ## BANK_SEARCH_RETRY (R38, R46) -/

theorem exec_bankSearchRetry_due {s : State} (h : s.node.retryDue = true) :
    exec .bankSearchRetry s = .next { s with node := bankSearchRetry s.node } := by
  show execBankSearchRetry s = _
  rw [execBankSearchRetry, State.act_eq, h, Node.onlyIf_true]

theorem exec_bankSearchRetry_checking {s : State} {a : Nat} (hp : s.node.fcu.phase = .checking)
    (hc : s.node.fcu.check = .claimWait) (hb : s.node.fcu.checkBank = none)
    (hw : s.node.fcu.pauses.bankWait.isSome = true) (ha : s.node.fcu.searchAt = some a) (ht : 1000 ≤ s.node.now - a) :
    exec .bankSearchRetry s =
      .next { s with node := checkSearch (banksUpTo s.node.stc.cfg.bankCount) s.node } := by
  rw [exec_bankSearchRetry_due (by simp [Node.retryDue, hp, hc, hb, hw, ha, reached_some ht]), bankSearchRetry, if_pos hp]

theorem exec_bankSearchRetry_ramping {s : State} {a : Nat} {k : Bank} (hr : s.node.fcu.phase.ramping = true)
    (ht : s.node.fcu.target = none) (hd : s.node.fcu.source ≠ some .direct)
    (hl : s.node.fcu.lastSource = some (.bank k)) (hw : s.node.fcu.pauses.bankWait.isSome = true)
    (ha : s.node.fcu.searchAt = some a) (hn : 1000 ≤ s.node.now - a) :
    exec .bankSearchRetry s =
      .next { s with node := switchSearch (banksAbove s.node.stc.cfg.bankCount k) s.node } := by
  have hp : s.node.fcu.phase ≠ .checking := fun e => by rw [e] at hr; cases hr
  rw [exec_bankSearchRetry_due (by simp [Node.retryDue, hr, ht, hd, hw, ha, reached_some hn]), bankSearchRetry,
    if_neg hp, Node.banksAhead, hl]

/-- Settles O35: each search takes the lowest bank that fits, by its place in the ascending list; without one it ends in
BANK_WAIT, in a DIRECT request, or without a target. -/
theorem checkBankSearchIsRepeated : Obligations.CheckBankSearchIsRepeated := by
  refine ⟨fun s a hp hc hb hw ha ht => ⟨fun b hg hlow => ?_, fun hnone => ?_⟩,
    fun s a k hr htarget hd hl hw ha ht => ?_⟩
  · rw [exec_bankSearchRetry_checking hp hc hb hw ha ht, checkSearch_eq, banksUpTo_find (grants_num hg) (decide_eq_true hg)
      fun c hc => decide_eq_false (hlow c hc)]
    rfl
  · have none : (banksUpTo s.node.stc.cfg.bankCount).find? (fun b => decide (s.node.grants b .draw)) = none :=
      List.find?_eq_none.mpr fun b _ => by simpa using hnone b
    rw [exec_bankSearchRetry_checking hp hc hb hw ha ht, checkSearch_eq, none, Option.elim_none,
      setBankWait_claimWait hp hc hw]
  · intro fits ends aims
    have search {m : Node} (h : switchSearch (banksAbove s.node.stc.cfg.bankCount k) s.node = m) :
        exec .bankSearchRetry s = .next { s with node := m } := by
      rw [exec_bankSearchRetry_ramping hr htarget hd hl hw ha ht, h]
    have fits_iff {b : Bank} (hk : k.num < b.num) :
        (s.node.switchCandidate b && decide (s.node.grants b .draw)) = true ↔ fits b := by
      simp only [Node.switchCandidate, Bool.and_eq_true, decide_eq_true_eq]
      exact ⟨fun h => ⟨hk, h.1.2, h.2⟩, fun h => ⟨⟨grants_available h.2.2, h.2.1⟩, h.2.2⟩⟩
    have misfit {b : Bank} (h : ¬ fits b) (hk : k.num < b.num) :
        (s.node.switchCandidate b && decide (s.node.grants b .draw)) = false :=
      Bool.eq_false_iff.mpr fun hb => h ((fits_iff hk).mp hb)
    have asks (hnone : ∀ b, ¬ fits b) :
        switchSearch (banksAbove s.node.stc.cfg.bankCount k) s.node = askDirect s.node := by
      rw [switchSearch_eq, banksAbove_find_none fun c hk => misfit (hnone c) hk, Option.elim_none]
    have ended (hnone : ∀ b, ¬ fits b) (h : askDirect s.node = endSearch s.node) : ends s.node :=
      ⟨fun hs => search ((asks hnone).trans (h.trans (endSearch_paused hr hw hs))),
        fun b hs hm => search ((asks hnone).trans (h.trans (endSearch_goes_on hs hm)))⟩
    refine ⟨fun b hb hlow => search ?_, fun hnone => ⟨fun hdir => ended hnone (askDirect_denied (.inl hdir)),
      fun hdir => ⟨fun htaken => search ?_, fun hdenied => ended hnone (askDirect_denied (.inr hdenied))⟩⟩⟩
    · have found := banksAbove_find hb.1 (grants_num hb.2.2) ((fits_iff hb.1).mpr hb)
        fun c hc hk => misfit (hlow c hc) hk
      rw [switchSearch_eq, found]
      rfl
    · rw [asks hnone, askDirect_taken hdir htaken, setTarget_eq ((directRequest_only s.node).fcu (by decide))]

end Sys2Proof.Machine

/-! # The steps of the leak check (file 03 R39 to R43) -/

namespace Sys2Proof.Machine

/-! ## P0 is read (R39, R40) -/

/-- In CHECKING the fill kind is not yet known: a link that leaves VALID tells the fill nothing. -/
theorem linkLeft_checking {n : Node} (h : n.fcu.phase = .checking) : linkLeft n = n := by
  simp [linkLeft, h, Phase.ramping]

/-- The node with P0 read, a link whose data does not fit it rejected. -/
def Node.p0Taken (n : Node) : Node :=
  { n with
    fcu.p0 := some n.pH, fcu.awaiting := false
    vlr.link := if n.p0Implausible n.pH then .rejected else n.vlr.link }

theorem p0Implausible_valid {n : Node} {p : Nat} (h : n.p0Implausible p = true) : n.linkValid = true :=
  (Bool.and_eq_true_iff.mp h).1

theorem p0Rejected_eq {n : Node} (hp : n.fcu.phase = .checking) :
    (if n.p0Implausible n.pH then vlrReject { n with fcu.p0 := some n.pH, fcu.awaiting := false }
      else { n with fcu.p0 := some n.pH, fcu.awaiting := false }) = n.p0Taken := by
  cases h : n.p0Implausible n.pH with
  | false => simp [Node.p0Taken, h]
  | true =>
    have valid : n.vlr.link = .valid := of_decide_eq_true (p0Implausible_valid h)
    have reject := vlrReject_valid (n := { n with fcu.p0 := some n.pH, fcu.awaiting := false }) valid
    rw [if_pos rfl, reject]
    simp [linkLeft_checking, hp, Node.p0Taken, h]

theorem readP0_first {n : Node} (hp : n.fcu.phase = .checking) (ha : n.fcu.attempt = 1) :
    readP0 n = p0Tests n.pH n.p0Taken := by
  unfold readP0
  dsimp only
  rw [if_pos ha, ← p0Rejected_eq hp]

theorem readP0_later {n : Node} (hp : n.fcu.phase = .checking) (ha : n.fcu.attempt ≠ 1) :
    readP0 n = beginHold n.p0Taken := by
  unfold readP0
  dsimp only
  rw [if_neg ha, ← p0Rejected_eq hp]

/-! ## The tests of P0 in the first attempt (R40) -/

theorem p0Tests_empty {p : Nat} (h : p < 50) (n : Node) : p0Tests p n = endFill .emptyTank n := if_pos h

theorem hoseLimit_ge (h : HoseClass) : 50 ≤ hoseLimit h := by cases h <;> decide

theorem p0Tests_full {p : Nat} {n : Node} (h : hoseLimit n.stc.cfg.hose ≤ p) : p0Tests p n = endFill .fullTank n := by
  have := hoseLimit_ge n.stc.cfg.hose
  rw [p0Tests, if_neg (by omega), if_pos h]

/-- The target SOC at P0: that of COMM fills while the link is VALID (R40). -/
def Node.p0Goal (n : Node) : Nat := if n.linkValid then n.stc.cfg.commTarget else n.stc.cfg.nonCommTarget

/-- The state of charge at P0 (R40). -/
def Node.p0Soc (p : Nat) (n : Node) : Nat := soc n.stc.cfg.hose p n.p0Temperature

section
variable {p : Nat} {n : Node} (hlo : 50 ≤ p) (hhi : p < hoseLimit n.stc.cfg.hose)
include hlo hhi

theorem p0Tests_charged (h : n.p0Goal ≤ n.p0Soc p) :
    p0Tests p n = endFill .fullTank { n with fcu.lastSoc := some (n.p0Soc p) } := by
  rw [p0Tests, if_neg (Nat.not_lt.mpr hlo), if_neg (Nat.not_le.mpr hhi)]
  exact if_pos h

theorem p0Tests_holds (h : n.p0Soc p < n.p0Goal) :
    p0Tests p n = beginHold { n with fcu.lastSoc := some (n.p0Soc p) } := by
  rw [p0Tests, if_neg (Nat.not_lt.mpr hlo), if_neg (Nat.not_le.mpr hhi)]
  exact if_neg (Nat.not_le.mpr h)

end

/-- The tests of P0 end the fill or begin HOLD. -/
theorem p0Tests_cases (p : Nat) (n : Node) :
    (∃ r k, k.fcu.p0 = n.fcu.p0 ∧ p0Tests p n = endFill r k) ∨
      ∃ charge, p0Tests p n = beginHold { n with fcu.lastSoc := some charge } := by
  by_cases hlo : p < 50
  · exact .inl ⟨.emptyTank, n, rfl, p0Tests_empty hlo n⟩
  by_cases hhi : hoseLimit n.stc.cfg.hose ≤ p
  · exact .inl ⟨.fullTank, n, rfl, p0Tests_full hhi⟩
  by_cases hg : n.p0Goal ≤ n.p0Soc p
  · exact .inl ⟨.fullTank, { n with fcu.lastSoc := some (n.p0Soc p) }, rfl, p0Tests_charged (Nat.not_lt.mp hlo) (Nat.not_le.mp hhi) hg⟩
  · exact .inr ⟨n.p0Soc p, p0Tests_holds (Nat.not_lt.mp hlo) (Nat.not_le.mp hhi) (Nat.not_le.mp hg)⟩

/-! ## The vehicle data at P0 (R40) -/

section
variable {n : Node} {c : Combined}

theorem p0Implausible_not_valid (h : n.vlr.link ≠ .valid) (p : Nat) : n.p0Implausible p = false := by
  simp [Node.p0Implausible, Node.linkValid, h]

theorem p0Implausible_iff (hl : n.vlr.link = .valid) (hc : n.vlr.combined = some c) (p : Nat) :
    n.p0Implausible p = true ↔ p + 200 < c.pressure ∨ c.pressure + 200 < p := by
  simp [Node.p0Implausible, Node.linkValid, hl, hc]

theorem p0Taken_fits (h : n.p0Implausible n.pH = false) : n.p0Taken.vlr = n.vlr := by
  simp [Node.p0Taken, h]

theorem p0Taken_rejects (h : n.p0Implausible n.pH = true) : n.p0Taken.vlr = { n.vlr with link := .rejected } := by
  simp [Node.p0Taken, h]

/-- Vehicle data that fits P0 gives the temperature and the target of the test. -/
theorem p0Taken_vehicle (hl : n.vlr.link = .valid) (hc : n.vlr.combined = some c)
    (h : n.p0Implausible n.pH = false) :
    n.p0Taken.p0Temperature = c.temperature ∧ n.p0Taken.p0Goal = n.stc.cfg.commTarget := by
  have valid : n.p0Taken.linkValid = true := by simp [Node.linkValid, p0Taken_fits h, hl]
  have combined : n.p0Taken.vlr.combined = some c := by rw [p0Taken_fits h, hc]
  exact ⟨by simp [Node.p0Temperature, valid, combined], if_pos valid⟩

/-- Vehicle data absent or rejected leaves T_A. -/
theorem p0Taken_ambient (h : n.vlr.link ≠ .valid ∨ n.p0Implausible n.pH = true) :
    n.p0Taken.p0Temperature = n.tA ∧ n.p0Taken.p0Goal = n.stc.cfg.nonCommTarget := by
  have invalid : n.p0Taken.linkValid = false := by
    cases hi : n.p0Implausible n.pH with
    | true => simp [Node.linkValid, p0Taken_rejects hi]
    | false =>
      have hl := h.resolve_right (by rw [hi]; exact Bool.false_ne_true)
      simp [Node.linkValid, p0Taken_fits hi, hl]
  exact ⟨if_neg (by simp [invalid]), if_neg (by simp [invalid])⟩

end

/-! ## What a reading of P0 leaves (R39, R40) -/

theorem endFill_awaiting (r : EndReason) (n : Node) : (endFill r n).fcu.awaiting = false := by
  have ending (k : Node) : (fcuClosingDone (hsuFillEnd (ccuHandBack k))).fcu.awaiting = k.fcu.awaiting := by
    obtain ⟨⟨flow, hflow⟩, -⟩ := hsuFillEnd_flow (ccuHandBack k)
    have back := (ccuHandBack_only k).fcu (by decide)
    obtain e | ⟨-, e⟩ := fcuClosingDone_fcu (hsuFillEnd (ccuHandBack k)) <;> rw [e, hflow, back]
  unfold endFill
  dsimp only
  obtain ⟨v, q, hback, -⟩ := giveBacks_fcu Four.all { n with
      fcu.phase := .closing, fcu.endReason := some r, fcu.fCmd := 0, fcu.periodNext := none, fcu.pauses := .none
      fcu.stepSince := none, fcu.awaiting := false, fcu.rezeroVent := none, fcu.givenUp := none, fcu.checkBank := none
      fcu.target := none, fcu.targetTaken := false, fcu.targetWaits := false }
  rw [ending, hback]

/-- Either way P0 stands and nothing is awaited. -/
theorem p0Tests_reading (p : Nat) {n : Node} (h : n.fcu.awaiting = false) :
    (p0Tests p n).fcu.p0 = n.fcu.p0 ∧ (p0Tests p n).fcu.awaiting = false := by
  obtain ⟨r, k, hk, e⟩ | ⟨charge, e⟩ := p0Tests_cases p n
  · rw [e]
    exact ⟨(endFill_ended r k).p0.trans hk, endFill_awaiting r k⟩
  · rw [e]
    exact ⟨rfl, h⟩

section
variable {n : Node} (hp : n.fcu.phase = .checking)
include hp

theorem readP0_reading : (readP0 n).fcu.p0 = some n.pH ∧ (readP0 n).fcu.awaiting = false := by
  by_cases ha : n.fcu.attempt = 1
  · rw [readP0_first hp ha]
    exact p0Tests_reading n.pH (n := n.p0Taken) rfl
  · rw [readP0_later hp ha]
    exact ⟨rfl, rfl⟩

theorem readP0_vlr : (readP0 n).vlr = n.p0Taken.vlr := by
  by_cases ha : n.fcu.attempt = 1
  · rw [readP0_first hp ha, (p0Tests_only _ _).vlr (by decide)]
  · rw [readP0_later hp ha]
    rfl

theorem readP0_holds (ha : n.fcu.attempt ≠ 1) :
    (readP0 n).fcu.check = .hold ∧ (readP0 n).fcu.stepSince = some n.now := by
  rw [readP0_later hp ha]
  exact ⟨rfl, rfl⟩

variable (ha : n.fcu.attempt = 1)
include ha

theorem readP0_empty (h : n.pH < 50) : Ended .emptyTank n.p0Taken (readP0 n) := by
  rw [readP0_first hp ha, p0Tests_empty h]
  exact endFill_ended _ _

theorem readP0_full (h : hoseLimit n.stc.cfg.hose ≤ n.pH) : (readP0 n).fcu.endReason = some .fullTank := by
  rw [readP0_first hp ha, p0Tests_full (n := n.p0Taken) h]
  exact (endFill_ended _ _).reason

/-- Between the limits the state of charge at P0 decides. -/
theorem readP0_soc (hlo : 50 ≤ n.pH) (hhi : n.pH < hoseLimit n.stc.cfg.hose) {temperature goal : Nat}
    (h : n.p0Taken.p0Temperature = temperature ∧ n.p0Taken.p0Goal = goal) {charge : Nat}
    (hs : charge = soc n.stc.cfg.hose n.pH temperature) :
    (readP0 n).fcu.lastSoc = some charge ∧ (goal ≤ charge → (readP0 n).fcu.endReason = some .fullTank) ∧
      (charge < goal → (readP0 n).fcu.phase = .checking ∧ (readP0 n).fcu.check = .hold ∧
        (readP0 n).fcu.stepSince = some n.now ∧ (readP0 n).fcu.fCmd = 0) := by
  have figure : n.p0Taken.p0Soc n.pH = charge := by rw [Node.p0Soc, h.1, hs]; rfl
  rw [readP0_first hp ha]
  by_cases hg : goal ≤ charge
  · rw [p0Tests_charged (n := n.p0Taken) hlo hhi (by rw [figure, h.2]; exact hg), figure]
    have ended := endFill_ended .fullTank { n.p0Taken with fcu.lastSoc := some charge }
    exact ⟨ended.soc, fun _ => ended.reason, fun hlt => absurd hg (Nat.not_le.mpr hlt)⟩
  · rw [p0Tests_holds (n := n.p0Taken) hlo hhi (by rw [figure, h.2]; exact Nat.not_le.mp hg), figure]
    exact ⟨rfl, fun hge => absurd hge hg, fun _ => ⟨hp, rfl, rfl, rfl⟩⟩

end

/-! ## The attempt is judged (R41, R43) -/

theorem judge_passes {n : Node} (h : n.fcu.p0.getD 0 ≤ n.pH + 20) : judge n = enterRamping n := if_pos h

theorem judge_fails {n : Node} (h : n.pH + 20 < n.fcu.p0.getD 0) : judge n = attemptFailed n :=
  if_neg (Nat.not_le.mpr h)

theorem attemptFailed_last {n : Node} (h : n.fcu.attempt = 4) : attemptFailed n = endFill .leak n := if_pos h

theorem attemptFailed_third {n : Node} (h : n.fcu.attempt = 3) : attemptFailed n = beginRezero n := by
  simp [attemptFailed, h]

theorem attemptFailed_again {n : Node} (h : n.fcu.attempt < 3) :
    attemptFailed n = beginAttempt { n with fcu.attempt := n.fcu.attempt + 1 } := by
  rw [attemptFailed, if_neg (by omega), if_neg (by omega)]

theorem openBank_fcu (b : Bank) (n : Node) : ∃ v, (openBank b n).fcu = { n.fcu with vb := v } := by
  unfold openBank Node.onlyIf
  split
  · exact ⟨_, rfl⟩
  · exact ⟨n.fcu.vb, rfl⟩

theorem beginAttempt_sameAttempt (n : Node) : SameAttempt n (beginAttempt n) := by
  unfold beginAttempt
  split
  · exact .of_fcu rfl
  · split
    · exact ⟨id, rfl, rfl⟩
    · split
      · exact ⟨id, rfl, rfl⟩
      · next b _ _ _ =>
        obtain ⟨v, e⟩ := openBank_fcu b { n with
          fcu.check := .opening, fcu.stepSince := some n.now, fcu.awaiting := false, fcu.fCmd := 0 }
        unfold beginOpening
        constructor <;> rw [e]
        exact id

/-! ## PULSE_END, EQUALIZE_END and HOLD_END -/

theorem stepEnded_of {n : Node} {c : CheckStep} {a ms : Nat} (hp : n.fcu.phase = .checking) (hc : n.fcu.check = c)
    (hw : n.fcu.awaiting = false) (ha : n.fcu.stepSince = some a) (ht : ms ≤ n.now - a) : n.stepEnded c ms = true := by
  simp [Node.stepEnded, hp, hc, hw, ha, reached_some ht]

theorem readingOrWait_stale {n : Node} (h : n.olderThan .pH 200 = true) (reading : Node → Node) :
    readingOrWait reading n = { n with fcu := { n.fcu with awaiting := true } } := if_pos h

theorem readingOrWait_fresh {n : Node} (h : n.olderThan .pH 200 = false) (reading : Node → Node) :
    readingOrWait reading n = reading n := if_neg (by simp [h])

theorem exec_pulseEnd_due {s : State} (h : s.node.stepEnded .pulse 1000 = true) :
    exec .pulseEnd s = .next { s with node := beginEqualize s.node } := by
  show execPulseEnd s = _
  rw [execPulseEnd, State.act_eq, h, Node.onlyIf_true]

theorem exec_equalizeEnd_due {s : State} (h : s.node.stepEnded .equalize 2000 = true) :
    exec .equalizeEnd s = .next { s with node := readingOrWait readP0 s.node } := by
  show execEqualizeEnd s = _
  rw [execEqualizeEnd, State.act_eq, h, Node.onlyIf_true]

theorem exec_holdEnd_due {s : State} (h : s.node.stepEnded .hold 5000 = true) :
    exec .holdEnd s = .next { s with node := readingOrWait judge s.node } := by
  show execHoldEnd s = _
  rw [execHoldEnd, State.act_eq, h, Node.onlyIf_true]

/-! ## A reading that waited for an accepted P_H sample (R39) -/

/-- The node at the readings of an accepted P_H sample that tests neither overpressure nor rupture. -/
def Node.sampled (v : Nat) (n : Node) : Node := fcuWindow v ((n.accepting .pH v).overChecked v)

section
variable {n : Node} {v : Nat} (hv : v ≤ hoseLimit n.stc.cfg.hose + 200)
include hv

theorem sampled_fcu : ∃ w, (n.sampled v).fcu = { n.fcu with window := w } := by
  have tested : ((n.accepting .pH v).overChecked v).fcu = n.fcu := overChecked_normal_fcu (n := n.accepting .pH v) hv
  refine ⟨((n.accepting .pH v).overChecked v).windowNow ++ [(v, ((n.accepting .pH v).overChecked v).now)], ?_⟩
  rw [Node.sampled, fcuWindow, tested]

theorem sampled_pH : (n.sampled v).pH = v := by
  show ((n.sampled v).isc.channels.get .pH).value.getD 0 = v
  have isc : (n.sampled v).isc = { (n.accepting .pH v).isc with overMark := false } :=
    overChecked_normal_isc (n := n.accepting .pH v) hv
  rw [isc]
  show ((n.isc.channels.set .pH ⟨some v, some n.now, .ok⟩).get .pH).value.getD 0 = v
  rw [Channels.get_set_same]
  rfl

theorem sampled_only : Only [.isc, .fcu, .mpu] n (n.sampled v) := by
  have tested : Only [.isc, .mpu] (n.accepting .pH v) ((n.accepting .pH v).overChecked v) := by
    rw [overChecked_normal (n := n.accepting .pH v) hv]
    exact (mpuProject_only _).after isc_only
  exact Only.after (x := [.isc, .fcu, .mpu]) (a := [.fcu]) fcu_only
    (Only.after (x := [.isc, .mpu]) tested (b := [.isc]) isc_only)

end

/-- An accepted sample without flow: the reading that waits for it, and the vents (R39, R41, R62). -/
theorem exec_converterAnswer_sampled {s : State} {i : BitVec 16} {v : Nat} (ha : s.awaits .pH) (hlo : 3600 ≤ i.toNat)
    (hhi : i.toNat ≤ 21000) (hv : v = codeOfCurrent .pH i.toNat) (hlim : v ≤ hoseLimit s.node.stc.cfg.hose + 200)
    (hf : s.node.fcu.fCmd = 0) :
    exec (.converterAnswer 0 i) s =
      .next { s with node := exchangeEnded (fcuVentSample v (fcuAwaited (s.node.sampled v))) } := by
  have steady : ((s.node.accepting .pH v).overChecked v).ruptured v = false := by
    rw [overChecked_normal_ruptured (n := s.node.accepting .pH v) hlim]
    exact ruptured_eq_false (.inl hf)
  have sample : judgeAnswer .pH i.toNat s.node = fcuVentSample v (fcuAwaited (s.node.sampled v)) := by
    rw [judgeAnswer_accepted ⟨hlo, hhi⟩, ← hv]
    show sampleP_H v (s.node.accepting .pH v) = _
    rw [sampleP_H_eq, ruptureChecked_steady steady]
    rfl
  rw [← sample]
  exact exec_converterAnswer_awaited ha i

theorem fcuAwaited_equalize {n : Node} (hp : n.fcu.phase = .checking) (hw : n.fcu.awaiting = true)
    (hc : n.fcu.check = .equalize) : fcuAwaited n = readP0 n := by
  rw [fcuAwaited, if_pos ⟨hp, hw⟩, hc]

theorem fcuAwaited_hold {n : Node} (hp : n.fcu.phase = .checking) (hw : n.fcu.awaiting = true)
    (hc : n.fcu.check = .hold) : fcuAwaited n = judge { n with fcu.awaiting := false } := by
  rw [fcuAwaited, if_pos ⟨hp, hw⟩, hc]

/-- Outside REZERO the vents of a sample change at most the vent valve. -/
theorem fcuVentSample_fcu {n : Node} (h : n.fcu.phase = .checking → n.fcu.check ≠ .rezero) (v : Nat) :
    ∃ w, (fcuVentSample v n).fcu = { n.fcu with vvent := w } := by
  unfold fcuVentSample
  split
  · split
    · exact ⟨_, rfl⟩
    · rw [if_neg fun e => h e.1 e.2.1]
      exact ⟨n.fcu.vvent, rfl⟩
  · exact ⟨n.fcu.vvent, rfl⟩

/-- A reading of P0 does not lead to REZERO. -/
theorem readP0_not_rezero {n : Node} (hp : n.fcu.phase = .checking) :
    (readP0 n).fcu.phase = .checking → (readP0 n).fcu.check ≠ .rezero := by
  by_cases ha : n.fcu.attempt = 1
  · rw [readP0_first hp ha]
    obtain ⟨r, k, -, e⟩ | ⟨charge, e⟩ := p0Tests_cases n.pH n.p0Taken
    · intro hc
      rw [e] at hc
      have ended := (endFill_ended r k).notFilling
      rw [hc] at ended
      cases ended
    · rw [e]
      exact fun _ => CheckStep.noConfusion
  · rw [readP0_later hp ha]
    exact fun _ => CheckStep.noConfusion

section
variable {n : Node} {v : Nat} (hlim : v ≤ hoseLimit n.stc.cfg.hose + 200) (hp : n.fcu.phase = .checking)
  (hw : n.fcu.awaiting = true)
include hlim hp hw

/-- The sample makes the reading of P0 that waits. -/
theorem sampled_reads_p0 (hc : n.fcu.check = .equalize) :
    ∃ w, (fcuVentSample v (fcuAwaited (n.sampled v))).fcu = { (readP0 (n.sampled v)).fcu with vvent := w } := by
  obtain ⟨w, hfcu⟩ := sampled_fcu hlim
  have checking : (n.sampled v).fcu.phase = .checking := by rw [hfcu]; exact hp
  rw [fcuAwaited_equalize checking (by rw [hfcu]; exact hw) (by rw [hfcu]; exact hc)]
  exact fcuVentSample_fcu (readP0_not_rezero checking) v

variable (hc : n.fcu.check = .hold)
include hc

/-- The sample makes the judgment that waits. -/
theorem sampled_judges : fcuAwaited (n.sampled v) = judge { n.sampled v with fcu.awaiting := false } := by
  obtain ⟨w, hfcu⟩ := sampled_fcu hlim
  exact fcuAwaited_hold (by rw [hfcu]; exact hp) (by rw [hfcu]; exact hw) (by rw [hfcu]; exact hc)

/-- The attempt passes on the sample. -/
theorem sampled_passes (h : n.fcu.p0.getD 0 ≤ v + 20) :
    (fcuVentSample v (fcuAwaited (n.sampled v))).fcu.phase = (if n.fcu.pauses.any then .paused else .flowing) ∧
      (fcuVentSample v (fcuAwaited (n.sampled v))).fcu.pRamp = min v (hoseLimit n.stc.cfg.hose) := by
  obtain ⟨w, hfcu⟩ := sampled_fcu hlim
  have passes : judge { n.sampled v with fcu.awaiting := false } =
      enterRamping { n.sampled v with fcu.awaiting := false } := judge_passes (by
    show (n.sampled v).fcu.p0.getD 0 ≤ (n.sampled v).pH + 20
    rw [hfcu, sampled_pH hlim]
    exact h)
  have phase : (enterRamping { n.sampled v with fcu.awaiting := false }).fcu.phase =
      if n.fcu.pauses.any then .paused else .flowing := by
    show (if (n.sampled v).fcu.pauses.any then Phase.paused else .flowing) = _
    rw [hfcu]
  obtain ⟨vent, hvent⟩ := fcuVentSample_fcu (n := enterRamping { n.sampled v with fcu.awaiting := false })
    (fun e => by rw [phase] at e; split at e <;> cases e) v
  rw [sampled_judges hlim hp hw hc, passes, hvent]
  refine ⟨phase, ?_⟩
  show min (n.sampled v).pH (hoseLimit (n.sampled v).stc.cfg.hose) = _
  rw [sampled_pH hlim, (sampled_only hlim).stc (by decide)]

/-- The fourth attempt fails on the sample. -/
theorem sampled_leaks (h : v + 20 < n.fcu.p0.getD 0) (h4 : n.fcu.attempt = 4) :
    (fcuVentSample v (fcuAwaited (n.sampled v))).fcu.endReason = some .leak := by
  obtain ⟨w, hfcu⟩ := sampled_fcu hlim
  have fails : judge { n.sampled v with fcu.awaiting := false } =
      attemptFailed { n.sampled v with fcu.awaiting := false } := judge_fails (by
    show (n.sampled v).pH + 20 < (n.sampled v).fcu.p0.getD 0
    rw [hfcu, sampled_pH hlim]
    exact h)
  have last : (n.sampled v).fcu.attempt = 4 := by rw [hfcu]; exact h4
  have ended := endFill_ended .leak { n.sampled v with fcu.awaiting := false }
  obtain ⟨vent, hvent⟩ := fcuVentSample_fcu (n := endFill .leak { n.sampled v with fcu.awaiting := false })
    (fun e => by have := ended.notFilling; rw [e] at this; cases this) v
  rw [sampled_judges hlim hp hw hc, fails, attemptFailed_last (n := { n.sampled v with fcu.awaiting := false }) last,
    hvent]
  exact ended.reason

end

/-- Settles O36: the steps by their ends; P0 by attempt, limits and vehicle data; the judgment by the fall and the
attempt; and the same readings at an accepted sample. -/
theorem checkStepsEnd : Obligations.CheckStepsEnd := by
  refine ⟨fun s a hp hc hw ha ht => exec_pulseEnd_due (stepEnded_of hp hc hw ha ht), fun s a hp hc hw ha ht => ?_,
    fun s a hp hc hw ha ht => ?_, fun s i v ha hlo hhi hv hlim hf hp hw => ?_⟩
  · have due := exec_equalizeEnd_due (stepEnded_of hp hc hw ha ht)
    refine ⟨fun hold => by rw [due, readingOrWait_stale hold], fun hnew =>
      ⟨_, by rw [due, readingOrWait_fresh hnew], (readP0_reading hp).1, readP0_holds hp,
        fun h1 hlow => (readP0_empty hp h1 hlow).reason, readP0_full hp, fun c hl hcomb => ⟨fun hfar => ?_,
        fun hle hge => ?_⟩, fun hl => ?_, fun σ goal h1 h50 hmax hcase => ?_⟩⟩
    · have implausible := (p0Implausible_iff hl hcomb s.node.pH).mpr hfar
      rw [readP0_vlr hp, p0Taken_rejects implausible]
    · have plausible : s.node.p0Implausible s.node.pH = false :=
        Bool.eq_false_iff.mpr fun h => by have := (p0Implausible_iff hl hcomb s.node.pH).mp h; omega
      rw [readP0_vlr hp, p0Taken_fits plausible]
    · rw [readP0_vlr hp, p0Taken_fits (p0Implausible_not_valid hl _)]
    · obtain ⟨c, hl, hcomb, hle, hge, rfl, rfl⟩ | ⟨hfar, rfl, rfl⟩ := hcase
      · have plausible : s.node.p0Implausible s.node.pH = false :=
          Bool.eq_false_iff.mpr fun h => by have := (p0Implausible_iff hl hcomb s.node.pH).mp h; omega
        exact readP0_soc hp h1 h50 hmax (p0Taken_vehicle hl hcomb plausible) rfl
      · have ambient : s.node.vlr.link ≠ .valid ∨ s.node.p0Implausible s.node.pH = true := by
          by_cases hl : s.node.vlr.link = .valid
          · obtain ⟨c, hcomb, hfar⟩ := hfar.resolve_left (not_not.mpr hl)
            exact .inr ((p0Implausible_iff hl hcomb _).mpr hfar)
          · exact .inl hl
        exact readP0_soc hp h1 h50 hmax (p0Taken_ambient ambient) rfl
  · have due := exec_holdEnd_due (stepEnded_of hp hc hw ha ht)
    refine ⟨fun hold => by rw [due, readingOrWait_stale hold], fun hnew =>
      ⟨_, by rw [due, readingOrWait_fresh hnew], fun hpass => ?_, fun hfail h3 => ?_, fun hfail h4 => ?_,
        fun hfail hless => ?_⟩⟩
    · rw [judge_passes hpass]
      exact ⟨rfl, rfl, rfl, rfl, rfl, rfl⟩
    · rw [judge_fails hfail, attemptFailed_third h3]
      exact ⟨rfl, rfl, fun b => by rw [beginRezero, closeBanks_vb, ValveRec.command_opened]⟩
    · rw [judge_fails hfail, attemptFailed_last h4]
      exact (endFill_ended _ _).reason
    · rw [judge_fails hfail, attemptFailed_again hless]
      have attempt := beginAttempt_sameAttempt { s.node with fcu.attempt := s.node.fcu.attempt + 1 }
      exact ⟨attempt.phase hp, attempt.attempt⟩
  · refine ⟨_, exec_converterAnswer_sampled ha hlo hhi hv hlim hf, ?_⟩
    simp only [exchangeEnded_fcu]
    refine ⟨fun hc => ?_, fun hc => ⟨sampled_passes hlim hp hw hc, sampled_leaks hlim hp hw hc⟩⟩
    obtain ⟨w, hfcu⟩ := sampled_fcu hlim
    have checking : (s.node.sampled v).fcu.phase = .checking := by rw [hfcu]; exact hp
    obtain ⟨p0, waits⟩ := readP0_reading checking
    obtain ⟨vent, hvent⟩ := sampled_reads_p0 hlim hp hw hc
    rw [hvent]
    refine ⟨by rw [p0, sampled_pH hlim], waits, fun hne => ?_, fun h1 hlow => ?_⟩
    · obtain ⟨check, since⟩ := readP0_holds checking (by rw [hfcu]; exact hne)
      exact ⟨check, by rw [since, (sampled_only hlim).now]⟩
    · exact (readP0_empty checking (by rw [hfcu]; exact h1) (by rw [sampled_pH hlim]; exact hlow)).reason

end Sys2Proof.Machine

/-! # The vents, the end of CLOSING and the figures of the close (file 03 R41, R61 to R63, file 08 R147, file 09 R160) -/

namespace Sys2Proof.Machine

/-! ## What the store takes (file 09 R158, R160) -/

theorem oldestItem_mem {xs : List (Nat × StoreItem)} {x : Nat × StoreItem} (h : oldestItem xs = some x) : x ∈ xs := by
  induction xs with
  | nil => cases h
  | cons y ys ih =>
    unfold oldestItem at h
    split at h
    · cases h
      exact List.mem_cons_self
    · next z hz =>
      split at h
      · cases h
        exact List.mem_cons_of_mem _ (ih hz)
      · cases h
        exact List.mem_cons_self

/-- A record that waits is the one of the record mark. -/
theorem waiting_record {r : Rst} {t : Nat} {kind : RecordWrite} (h : oldestItem r.waiting = some (t, .record kind)) :
    r.recordMark.map (·.kind) = some kind := by
  have mem := oldestItem_mem h
  unfold Rst.waiting at mem
  simp only [List.mem_append] at mem
  obtain (mem | mem) | mem := mem
  · split at mem
    · cases mem
    · next m hm =>
      have e := List.mem_singleton.mp mem
      cases e
      rw [hm]
      rfl
  · split at mem
    · cases mem
    · cases List.mem_singleton.mp mem
  · split at mem
    · cases mem
    · cases List.mem_singleton.mp mem

/-- A request served changes of the store at most the write it begins. -/
theorem serveRequest_rst (q : LineRequest) (n : Node) : ∃ w, (serveRequest q n).rst = { n.rst with write := w } := by
  have answered (t : Nat) (c : BitVec 6) (r : Result) (x : Nat) :
      ∃ w, (answer t c r x n).rst = { n.rst with write := w } :=
    ⟨n.rst.write, by rw [(answer_only t c r x n).rst (by decide)]⟩
  unfold serveRequest
  split
  · unfold serveQuery
    split
    · exact ⟨n.rst.write, by rw [(offerRecord_only _ _ n).rst (by decide)]⟩
    · exact answered _ _ _ _
  · exact ⟨n.rst.write, by rw [(offer_only _ n).rst (by decide)]⟩
  · unfold serveCollect
    split
    · exact answered _ _ _ _
    · split
      · exact answered _ _ _ _
      · split
        · exact ⟨_, rfl⟩
        · exact ⟨_, rfl⟩
        · exact answered _ _ _ _
        · exact answered _ _ _ _

/-- A record write changes the image by its running fields, and that of a close not at all. -/
theorem beginRecordWrite_image {kind : RecordWrite} {n : Node} {im : Image} (hi : n.rst.image = some im) :
    (beginRecordWrite kind n).rst.image = some (if kind = .close then im else n.snapshot im) := by
  simp [beginRecordWrite, hi]

/-- What the running fields of a record write leave true of the image, the store leaves true; under the mark of a close it
leaves everything true. -/
theorem storeTake_image {P : Image → Prop} (fuel : Nat) {n : Node} {im : Image} (hi : n.rst.image = some im) (hP : P im)
    (hs : n.rst.recordMark.map (·.kind) ≠ some .close → ∀ (m : Node) (k : Image), P k → P (m.snapshot k)) :
    ∃ k, (storeTake fuel n).rst.image = some k ∧ P k := by
  induction fuel generalizing n with
  | zero => exact ⟨im, hi, hP⟩
  | succ fuel ih =>
    unfold storeTake
    split
    · exact ⟨im, hi, hP⟩
    · split
      · exact ⟨im, hi, hP⟩
      · next t kind hk =>
        have mark := waiting_record hk
        refine ⟨_, beginRecordWrite_image hi, ?_⟩
        split
        · exact hP
        · next hne => exact hs (by rw [mark]; simpa using hne) n im hP
      · exact ⟨im, hi, hP⟩
      · next q _ =>
        obtain ⟨w, hw⟩ := serveRequest_rst q { n with rst.requests := n.rst.requests.tail }
        exact ih (by rw [hw]; exact hi) (by rw [hw]; exact hs)

/-- A busy store takes nothing. -/
theorem storeKick_busy {n : Node} (h : n.rst.write.isSome = true) : storeKick n = n := by
  unfold storeKick storeTake
  exact if_pos h

theorem mergeWrite_close (k : RecordWrite) : mergeWrite k .close = .close := by cases k <;> rfl

/-- The record mark after a close is asked. -/
def Rst.closeMark (r : Rst) : RecordMark :=
  match r.recordMark with
  | none => ⟨.close, r.ticket⟩
  | some m => ⟨.close, m.ticket⟩

theorem Rst.closeMark_kind (r : Rst) : r.closeMark.kind = .close := by
  unfold Rst.closeMark
  split <;> rfl

theorem raiseRecord_close (n : Node) : raiseRecord .close n = storeKick { n with
    rst := { n.rst with recordMark := some n.rst.closeMark, ticket := n.rst.ticket + 1 } } := by
  unfold raiseRecord Rst.closeMark
  cases n.rst.recordMark with
  | none => rfl
  | some m => simp only [mergeWrite_close]

/-- The figures of a close stay as they are while the store takes what waits. -/
theorem raiseRecord_close_image {n : Node} {im : Image} (h : n.rst.image = some im) :
    (raiseRecord .close n).rst.image = some im := by
  rw [raiseRecord_close]
  obtain ⟨k, hk, rfl⟩ := storeTake_image (P := fun k => k = im) (n.rst.requests.length + 1) (n := { n with
    rst := { n.rst with recordMark := some n.rst.closeMark, ticket := n.rst.ticket + 1 } }) h rfl
    (fun hne => absurd (congrArg some n.rst.closeMark_kind) hne)
  exact hk

theorem raiseRecord_close_idle {n : Node} {im : Image} (h : n.rst.image = some im) (hw : n.rst.write = none)
    (hr : n.rst.recordMark = none) (hc : n.rst.creepMark = none) (hq : n.rst.requests = []) :
    (raiseRecord .close n).rst.write = some (.record .close im) := by
  simp [raiseRecord, storeKick, storeTake, Rst.waiting, oldestItem, beginRecordWrite, h, hw, hr, hc, hq]

theorem raiseRecord_close_busy {n : Node} (h : n.rst.write.isSome = true) :
    (raiseRecord .close n).rst.write = n.rst.write ∧
      ∃ k, (raiseRecord .close n).rst.recordMark = some ⟨.close, k⟩ := by
  rw [raiseRecord_close, storeKick_busy (n := { n with
    rst := { n.rst with recordMark := some n.rst.closeMark, ticket := n.rst.ticket + 1 } }) h]
  exact ⟨rfl, n.rst.closeMark.ticket, congrArg some (by rw [← n.rst.closeMark_kind])⟩

/-! ## The end of CLOSING (R61, R62) -/

theorem enterVenting_fcu (n : Node) : (enterVenting n).fcu = { n.fcu with
    phase := .venting, pEnd := some n.pH, tEnd := some n.tD, ventSince := some n.now
    vvent := n.fcu.vvent.command true n.now } := by
  unfold enterVenting
  rw [(mpuProject_only _).fcu (by decide)]
  rfl

theorem fcuClosingDone_venting {n : Node} (hp : n.fcu.phase = .closing) (h : n.drawValvesClosed = true) :
    fcuClosingDone n = enterVenting n := if_pos ⟨hp, h⟩

theorem drawValvesClosed_of {n : Node} (h : ∀ c : Bank, (n.fcu.vb.get c).closed = true) : n.drawValvesClosed = true := by
  simp only [Node.drawValvesClosed, Quad.toList, List.all_cons, List.all_nil, Bool.and_true, Bool.and_eq_true]
  exact ⟨h .one, h .two, h .three, h .four⟩

theorem checkArrived_not_checking {n : Node} (h : n.fcu.phase ≠ .checking) (b : Bank) : checkArrived b n = n := if_neg h

theorem fcuSourceReady_not_ramping {n : Node} (h : n.fcu.phase.ramping = false) : fcuSourceReady n = n :=
  if_neg fun e => by rw [h] at e; cases e.1

theorem fcuSwitchDone_not_ramping {n : Node} (h : n.fcu.phase.ramping = false) : fcuSwitchDone n = n :=
  if_neg fun e => by rw [h] at e; cases e.1

/-- Of a draw valve that arrives in CLOSING only its release and the end of CLOSING follow. -/
theorem fcuDrawArrived_closing {n : Node} (hp : n.fcu.phase = .closing) (b : Bank) :
    fcuDrawArrived b n = fcuClosingDone (releasedAtClosure b (n.drawArrived b)) := by
  obtain ⟨q, released⟩ := releasedAtClosure_fcu b (n.drawArrived b)
  have closing : (releasedAtClosure b (n.drawArrived b)).fcu.phase = .closing := by rw [released]; exact hp
  rw [fcuDrawArrived_eq, checkArrived_not_checking (by rw [closing]; decide),
    fcuSourceReady_not_ramping (by rw [closing]; rfl), fcuSwitchDone_not_ramping (by rw [closing]; rfl)]

/-- With the last draw valve closed VENTING begins. -/
theorem fcuDrawArrived_last {n : Node} {b : Bank} (hp : n.fcu.phase = .closing)
    (hb : (n.fcu.vb.get b).opened = false) (hc : ∀ c : Bank, c ≠ b → n.fcu.vb.get c = ⟨false, none⟩) :
    fcuDrawArrived b n = enterVenting (releasedAtClosure b (n.drawArrived b)) := by
  obtain ⟨q, released⟩ := releasedAtClosure_fcu b (n.drawArrived b)
  rw [fcuDrawArrived_closing hp, fcuClosingDone_venting (by rw [released]; exact hp)]
  refine drawValvesClosed_of fun c => ?_
  rw [released]
  show ((n.fcu.vb.set b (n.fcu.vb.get b).arrive).get c).closed = true
  by_cases h : c = b
  · rw [h, Quad.get_set_same]
    exact decide_eq_true ⟨hb, rfl⟩
  · rw [Quad.get_set, if_neg h, hc c h]
    rfl

/-! ## The limits of the vents (R41, R62) -/

theorem exec_rezeroVentTimeout_due {s : State} {a : Nat} (hp : s.node.fcu.phase = .checking)
    (hc : s.node.fcu.check = .rezero) (ha : s.node.fcu.rezeroVent = some a) (ht : 20000 ≤ s.node.now - a) :
    exec .rezeroVentTimeout s = .next { s with node := rezeroTimeout s.node } := by
  show execRezeroVentTimeout s = _
  simp [execRezeroVentTimeout, hp, hc, ha, reached_some ht]

theorem exec_ventTimeout_due {s : State} {a : Nat} (hp : s.node.fcu.phase = .venting)
    (ho : s.node.fcu.vvent.opened = true) (ha : s.node.fcu.ventSince = some a) (ht : 20000 ≤ s.node.now - a) :
    exec .ventTimeout s = .next { s with node := ventTimeout s.node } := by
  show execVentTimeout s = _
  simp [execVentTimeout, hp, ho, ha, reached_some ht]

/-- An open vent valve commanded closed. -/
theorem ventValve_closes {n : Node} (h : n.fcu.vvent.opened = true) :
    ventValve false n = { n with fcu := { n.fcu with vvent := ⟨false, some n.now⟩ } } := by
  simp [ventValve, ValveRec.command, h]

/-- A sample below 0.50 MPa in VENTING. -/
theorem fcuVentSample_venting {n : Node} {v : Nat} (hv : v < 50) (hp : n.fcu.phase = .venting)
    (ho : n.fcu.vvent.opened = true) : fcuVentSample v n = ventValve false n := by
  rw [fcuVentSample, if_pos ⟨hv, ho⟩, if_pos hp]
  rfl

/-! ## The figures of the close (R63, file 08 R147, R148) -/

theorem fcuVentArrived_closed {n : Node} (hp : n.fcu.phase = .venting) (ho : n.fcu.vvent.opened = false) :
    fcuVentArrived n = enterClosingRecord { n with fcu.vvent := n.fcu.vvent.arrive } :=
  if_pos ⟨hp, decide_eq_true ⟨ho, rfl⟩⟩

theorem overshoot_eq (t : Terms) (net amount : Nat) :
    overshoot t net amount = decide (if t.limitKind = .amount then t.limitValue < amount else t.limitMass < net) := by
  cases h : t.limitKind <;> simp [overshoot, h]

theorem enterClosingRecord_window (n : Node) : (enterClosingRecord n).mpu.windowOpen = false := by
  rw [enterClosingRecord, (raiseRecord_only _ _).mpu (by decide)]
  rfl

/-- The close asks for its write with the figures in the image. -/
theorem enterClosingRecord_rst {n : Node} {im : Image}
    (h : (mpuFinal { n with fcu.phase := .closingRecord }).rst.image = some im) :
    (enterClosingRecord n).rst.image = some im ∧
      (n.rst.write = none → n.rst.recordMark = none → n.rst.creepMark = none → n.rst.requests = [] →
        (enterClosingRecord n).rst.write = some (.record .close im)) ∧
      (n.rst.write.isSome = true → (enterClosingRecord n).rst.write = n.rst.write ∧
        ∃ k, (enterClosingRecord n).rst.recordMark = some ⟨.close, k⟩) :=
  ⟨raiseRecord_close_image h, fun hw hr hc hq => raiseRecord_close_idle h hw hr hc hq, fun hw =>
    raiseRecord_close_busy (n := mpuFinal { n with fcu.phase := .closingRecord }) hw⟩

/-- Settles O37: the two limits, the end of CLOSING, the end of a vent at a sample, and the figures of the close. -/
theorem ventsTimeOut : Obligations.VentsTimeOut := by
  refine ⟨fun s a hp hc ha ht => ⟨_, exec_rezeroVentTimeout_due hp hc ha ht, ?_⟩, fun s a hp ho ha ht => ?_,
    fun s b a hp hb ht hc => ?_, fun s i ha hlo hhi hv hp ho hf => ?_,
    fun s a p q gross tm im closed hp hv ht hpe hte htm hg him hclosed => ?_⟩
  · have ended := endFill_ended .leak (ventValve false { s.node with fcu.ventFail := true })
    exact ⟨ended.phase, ended.reason, ended.ventFail, ended.flow, ended.shut⟩
  · rw [exec_ventTimeout_due hp ho ha ht, ventTimeout, ventingEnd,
      ventValve_closes (n := { s.node with fcu.ventFail := true }) ho]
  · have shut : (s.node.fcu.vb.get b).opened = false := by rw [hb]
    refine ⟨_, exec_valveTravelEnd_due (v := .draw b) (a := a) (congrArg ValveRec.since hb) ht, ?_⟩
    have frame := releasedAtClosure_only b (s.node.drawArrived b)
    have isc : (releasedAtClosure b (s.node.drawArrived b)).isc = s.node.isc := frame.isc (by decide)
    show (fcuDrawArrived b s.node).fcu.phase = _ ∧ (fcuDrawArrived b s.node).fcu.pEnd = _ ∧
      (fcuDrawArrived b s.node).fcu.tEnd = _ ∧ (fcuDrawArrived b s.node).fcu.ventSince = _ ∧
      (fcuDrawArrived b s.node).fcu.vvent.opened = true
    rw [fcuDrawArrived_last hp shut hc, enterVenting_fcu]
    simp only [Node.pH, Node.tD, Node.chan, isc, frame.now, ValveRec.command_opened]
    exact ⟨trivial, trivial, trivial, rfl, trivial⟩
  · have hlim : codeOfCurrent .pH i.toNat ≤ hoseLimit s.node.stc.cfg.hose + 200 := by omega
    obtain ⟨w, hfcu⟩ := sampled_fcu hlim
    have venting : (s.node.sampled (codeOfCurrent .pH i.toNat)).fcu.phase = .venting := by rw [hfcu]; exact hp
    have opened : (s.node.sampled (codeOfCurrent .pH i.toNat)).fcu.vvent.opened = true := by rw [hfcu]; exact ho
    refine ⟨_, exec_converterAnswer_sampled ha hlo hhi rfl hlim hf, ?_⟩
    simp only [exchangeEnded_fcu]
    rw [fcuAwaited_not_filling (by rw [venting]; rfl), fcuVentSample_venting hv venting opened,
      ventValve_closes opened, (sampled_only hlim).now, hfcu]
    exact ⟨hp, rfl, rfl⟩
  · refine ⟨_, exec_valveTravelEnd_due (v := .vent) (a := a) (congrArg ValveRec.since hv) ht, ?_⟩
    have arrived : valveArrived .vent s.node =
        enterClosingRecord { s.node with fcu.vvent := s.node.fcu.vvent.arrive } :=
      fcuVentArrived_closed hp (by rw [hv])
    have figures : (mpuFinal { s.node with
        fcu := { s.node.fcu with vvent := s.node.fcu.vvent.arrive, phase := .closingRecord } }).rst.image = some closed := by
      subst hg
      simp [mpuFinal, onImage, him, hclosed, Node.ventEstimate, Node.ventInputs, hpe, hte, htm, overshoot_eq, priced,
        peakFor]
    dsimp only
    rw [arrived]
    refine ⟨by rw [enterClosingRecord_fcu], enterClosingRecord_window _, ?_⟩
    exact enterClosingRecord_rst (n := { s.node with fcu.vvent := s.node.fcu.vvent.arrive }) figures

end Sys2Proof.Machine

/-! # The control period (file 03 R50, R57, R58, R61) -/

namespace Sys2Proof.Machine

/-! ## What the steps of a period keep -/

/-- A fill stays in progress, or stays out of it, with its next period as it was, and a PAUSED fill without flow stays
one. -/
structure SamePeriod (n m : Node) : Prop where
  filling : m.fcu.phase.filling = n.fcu.phase.filling
  next : m.fcu.periodNext = n.fcu.periodNext
  stops : (n.fcu.phase = .paused → n.fcu.fCmd = 0) → m.fcu.phase = .paused → m.fcu.fCmd = 0

theorem SamePeriod.trans {n k m : Node} (h : SamePeriod n k) (g : SamePeriod k m) : SamePeriod n m where
  filling := g.filling.trans h.filling
  next := g.next.trans h.next
  stops := fun x => g.stops (h.stops x)

/-- The last operation first. -/
theorem SamePeriod.after {n k m : Node} (g : SamePeriod k m) (h : SamePeriod n k) : SamePeriod n m := h.trans g

/-- Phase, flow and period are as they were. -/
theorem SamePeriod.of_fields {n m : Node} (hp : m.fcu.phase = n.fcu.phase) (hn : m.fcu.periodNext = n.fcu.periodNext)
    (hf : m.fcu.fCmd = n.fcu.fCmd) : SamePeriod n m where
  filling := by rw [hp]
  next := hn
  stops := by rw [hp, hf]; exact id

theorem SamePeriod.of_fcu {n m : Node} (h : m.fcu = n.fcu) : SamePeriod n m :=
  .of_fields (by rw [h]) (by rw [h]) (by rw [h])

theorem SamePeriod.refl (n : Node) : SamePeriod n n := .of_fcu rfl

/-- The flow command becomes 0. -/
theorem SamePeriod.of_stop {n m : Node} (hp : m.fcu.phase.filling = n.fcu.phase.filling)
    (hn : m.fcu.periodNext = n.fcu.periodNext) (hf : m.fcu.fCmd = 0) : SamePeriod n m :=
  ⟨hp, hn, fun _ _ => hf⟩

/-- The fill goes on in a phase other than PAUSED. -/
theorem SamePeriod.of_phase {n m : Node} (hp : m.fcu.phase.filling = n.fcu.phase.filling)
    (hn : m.fcu.periodNext = n.fcu.periodNext) (hne : m.fcu.phase ≠ .paused) : SamePeriod n m :=
  ⟨hp, hn, fun _ h => absurd h hne⟩

theorem pauseEffect_samePeriod (n : Node) : SamePeriod n (pauseEffect n) := by
  have filling := pauseEffect_filling n
  unfold pauseEffect at filling ⊢
  split
  · next h =>
    rw [if_pos h] at filling
    exact .of_stop filling rfl rfl
  · split
    · exact .of_stop rfl rfl rfl
    · exact .refl n

theorem setBankWait_samePeriod (n : Node) : SamePeriod n (setBankWait n) :=
  (pauseEffect_samePeriod _).after (.of_fields rfl rfl rfl)

theorem setTarget_samePeriod (x : Source) (n : Node) : SamePeriod n (setTarget x n) := by
  by_cases h : n.fcu.phase = .flowing
  · have phase : (setTarget x n).fcu.phase = .switching := if_pos h
    exact .of_phase (by rw [phase, h]; rfl) rfl (by rw [phase]; decide)
  · exact .of_fields (if_neg h) rfl rfl

theorem endSearch_samePeriod (n : Node) : SamePeriod n (endSearch n) := by
  unfold endSearch
  dsimp only
  split
  · exact (setBankWait_samePeriod _).after (.of_fields rfl rfl rfl)
  · exact .of_fields rfl rfl rfl

theorem askDirect_samePeriod (n : Node) : SamePeriod n (askDirect n) := by
  cases ha : n.stc.cfg.directAllowed with
  | false =>
    rw [askDirect_denied (.inl ha)]
    exact endSearch_samePeriod n
  | true =>
    cases hr : (directRequest n).2 with
    | false =>
      rw [askDirect_denied (.inr hr)]
      exact endSearch_samePeriod n
    | true =>
      rw [askDirect_taken ha hr]
      exact (setTarget_samePeriod _ _).after (.of_fcu ((directRequest_only n).fcu (by decide)))

theorem switchSearch_samePeriod (bs : List Bank) (n : Node) : SamePeriod n (switchSearch bs n) := by
  rw [switchSearch_eq]
  cases bs.find? fun b => n.switchCandidate b && decide (n.grants b .draw) with
  | none => exact askDirect_samePeriod n
  | some b => exact (setTarget_samePeriod _ _).after (.of_fcu rfl)

theorem giveBack_samePeriod (b : Bank) (n : Node) : SamePeriod n (giveBack b n) := by
  obtain ⟨q, h⟩ := giveBack_fcu b n
  exact .of_fields (by rw [h]) (by rw [h]) (by rw [h])

theorem flowNeedsSource_samePeriod (n : Node) : SamePeriod n (flowNeedsSource n) := by
  unfold flowNeedsSource
  split
  · exact .of_stop rfl rfl rfl
  · exact .refl n

/-- The bank of the old source is given back. -/
def leaveSource (n : Node) : Node :=
  match n.fcu.source with
  | some (.bank b) => giveBack b n
  | _ => n

/-- The source changes to the target. -/
def Node.onSource (x : Source) (n : Node) : Node :=
  { n with fcu.source := some x, fcu.lastSource := some x, fcu.targetTaken := true, fcu.targetWaits := false }

theorem takeSource_eq (x : Source) (n : Node) :
    takeSource x n = rstAppend x (flowNeedsSource ((leaveSource n).onSource x)) := rfl

theorem leaveSource_samePeriod (n : Node) : SamePeriod n (leaveSource n) := by
  unfold leaveSource
  split
  · exact giveBack_samePeriod _ n
  · exact .refl n

theorem takeSource_samePeriod (x : Source) (n : Node) : SamePeriod n (takeSource x n) := by
  have taken : SamePeriod (leaveSource n) ((leaveSource n).onSource x) := .of_fields rfl rfl rfl
  rw [takeSource_eq]
  exact SamePeriod.after (.of_fcu ((rstAppend_only _ _).fcu (by decide)))
    ((flowNeedsSource_samePeriod _).after (taken.after (leaveSource_samePeriod n)))

theorem openBank_samePeriod (b : Bank) (n : Node) : SamePeriod n (openBank b n) := by
  obtain ⟨v, h⟩ := openBank_fcu b n
  exact .of_fields (by rw [h]) (by rw [h]) (by rw [h])

theorem quietReopen_samePeriod (n : Node) : SamePeriod n (quietReopen n) := by
  unfold quietReopen
  split
  · split
    · split
      · exact (takeSource_samePeriod _ _).after (openBank_samePeriod _ n)
      · exact .refl n
    · split
      · exact openBank_samePeriod _ n
      · exact .refl n
  · exact .refl n

theorem seat_samePeriod (n : Node) : SamePeriod n (seat n) := .of_fields rfl rfl rfl

theorem beginAttempt_samePeriod {n : Node} (h : n.fcu.phase = .checking) : SamePeriod n (beginAttempt n) := by
  unfold beginAttempt
  split
  · exact .refl n
  · split
    · exact .of_stop rfl rfl rfl
    · split
      · exact .of_phase rfl rfl (by rw [show (beginPulse n).fcu.phase = .checking from h]; decide)
      · exact (openBank_samePeriod _ _).after (.of_stop rfl rfl rfl)

theorem fcuResume_samePeriod (n : Node) : SamePeriod n (fcuResume n) := by
  unfold fcuResume
  split
  · next hp =>
    split
    · refine (seat_samePeriod _).after ?_
      cases n.fcu.target.isSome with
      | true => exact .of_phase (by rw [hp]; rfl) rfl Phase.noConfusion
      | false => exact .of_phase (by rw [hp]; rfl) rfl Phase.noConfusion
    · exact .refl n
  · split
    · next h => exact beginAttempt_samePeriod h.1
    · exact .refl n

/-! ## The steps of a period -/

theorem closeBanks_samePeriod (n : Node) : SamePeriod n (closeBanks n) := .of_fields rfl rfl rfl

theorem periodPauses_samePeriod (n : Node) : SamePeriod n (periodPauses n) := by
  have evaluated : SamePeriod n (evaluatePauses n) := .of_fields rfl rfl rfl
  have quiet (k : Node) (h : SamePeriod n k) :
      SamePeriod n (if k.fcu.pauses.any then pauseEffect k else fcuResume k) := by
    split
    · exact (pauseEffect_samePeriod k).after h
    · exact (fcuResume_samePeriod k).after h
  unfold periodPauses
  dsimp only
  refine quiet _ ?_
  split
  · exact (closeBanks_samePeriod _).after evaluated
  · split
    · exact (quietReopen_samePeriod _).after evaluated
    · exact evaluated

theorem periodRamp_samePeriod (n : Node) : SamePeriod n (periodRamp n) := by
  unfold periodRamp
  split
  · exact .refl n
  · exact .of_fields rfl rfl rfl

/-- A PAUSED fill has no flow after step 4, whatever it had (R53). -/
theorem periodFlow_samePeriod (n : Node) : SamePeriod n (periodFlow n) :=
  ⟨rfl, rfl, fun _ hp => if_pos (.inl hp)⟩

theorem periodSwitch_samePeriod (n : Node) : SamePeriod n (periodSwitch n) := by
  unfold periodSwitch
  split
  · exact .refl n
  · split
    · exact switchSearch_samePeriod _ n
    · exact .refl n

theorem linkLeft_samePeriod (n : Node) : SamePeriod n (linkLeft n) := by
  unfold linkLeft
  split
  · exact .of_fields rfl rfl rfl
  · exact .refl n

theorem periodVehicle_samePeriod (n : Node) : SamePeriod n (periodVehicle n) := by
  unfold periodVehicle vlrReject
  split
  · split
    · split
      · split
        · exact (linkLeft_samePeriod _).after (.of_fcu rfl)
        · exact .refl n
      · exact .refl n
    · exact .refl n
  · exact .refl n

theorem periodSoc_samePeriod (n : Node) : SamePeriod n (periodSoc n) := by
  unfold periodSoc
  split
  · split
    · exact .of_fields rfl rfl rfl
    · exact .refl n
  · exact .of_fields rfl rfl rfl

/-- Steps 2 to 5 of a period in RAMPING. -/
def periodRamping (n : Node) : Node := periodSoc (periodVehicle (periodSwitch (periodFlow (periodRamp n))))

theorem periodRamping_samePeriod (n : Node) : SamePeriod n (periodRamping n) :=
  (periodSoc_samePeriod _).after ((periodVehicle_samePeriod _).after ((periodSwitch_samePeriod _).after
    ((periodFlow_samePeriod _).after (periodRamp_samePeriod n))))

/-- Whatever flow it had before, a PAUSED fill has none after them. -/
theorem periodRamping_stops {n : Node} (h : (periodRamping n).fcu.phase = .paused) : (periodRamping n).fcu.fCmd = 0 :=
  ((periodSoc_samePeriod _).after ((periodVehicle_samePeriod _).after (periodSwitch_samePeriod (periodFlow (periodRamp n))))).stops
    (fun hp => if_pos (.inl hp)) h

theorem periodRamping_inputs (n : Node) : (periodRamping n).isc.inputs = n.isc.inputs :=
  ((periodSoc_kept _).after ((periodVehicle_kept _).after ((periodSwitch_kept _).after ((periodFlow_kept _).after
    (periodRamp_kept n))))).inputs

/-- The node at the end test of a period. -/
def Node.atEndTest (n : Node) : Node := if n.fcu.phase.ramping then periodRamping n else n

theorem controlPeriod_eq (n : Node) : controlPeriod n = endTest (periodPauses n).atEndTest := by
  unfold controlPeriod Node.atEndTest
  dsimp only
  split <;> rfl

theorem atEndTest_ramping {n : Node} (h : n.fcu.phase.ramping = true) : n.atEndTest = periodRamping n := if_pos h

theorem atEndTest_checking {n : Node} (h : n.fcu.phase = .checking) : n.atEndTest = n :=
  if_neg (by rw [h]; exact Bool.false_ne_true)

theorem atEndTest_samePeriod (n : Node) : SamePeriod n n.atEndTest := by
  unfold Node.atEndTest
  split
  · exact periodRamping_samePeriod n
  · exact .refl n

theorem atEndTest_inputs (n : Node) : n.atEndTest.isc.inputs = n.isc.inputs := by
  unfold Node.atEndTest
  split
  · exact periodRamping_inputs n
  · rfl

theorem atEndTest_stops {n : Node} (h : n.atEndTest.fcu.phase = .paused) : n.atEndTest.fcu.fCmd = 0 := by
  unfold Node.atEndTest at h ⊢
  split at h
  · next hr =>
    rw [if_pos hr]
    exact periodRamping_stops h
  · next hr =>
    rw [h] at hr
    exact absurd rfl hr

/-! ## The end test of a period (R58, R61) -/

theorem endReasonNow_meterFault {n : Node} (h : n.level .meterFault = true) : ∃ r, n.endReasonNow = some r :=
  endReasonNow_some (r := .meterFault) (by simp [Node.endConditions, h])

/-- The test leaves the fill as it is or ends it. -/
theorem endTest_goes_on_or_ended {n : Node} (h : n.fcu.phase.filling = true) :
    (endTest n = n ∧ n.endReasonNow = none) ∨ ∃ r, Ended r n (endTest n) := by
  obtain ⟨e, hf | hr⟩ | ⟨r, -, hr, -⟩ := endTest_cases n
  · rw [h] at hf
    cases hf
  · exact .inl ⟨e, hr⟩
  · exact .inr ⟨r, endTest_ended h hr⟩

theorem exec_controlPeriod_due {s : State} {g : Nat} (hf : s.node.fcu.phase.filling = true)
    (hg : s.node.fcu.periodNext = some g) (hn : g ≤ s.node.now) : exec .controlPeriod s = .next { s with
      node := controlPeriod { s.node with fcu := { s.node.fcu with periodNext := some (g + 100) } } } := by
  show execControlPeriod s = _
  simp [execControlPeriod, hf, hg, gridDue_some hn]

/-- Settles O38: the steps keep the fill and its grid up to the end test, which leaves it so or ends it. -/
theorem controlPeriodsRunOrEndTheFill : Obligations.ControlPeriodsRunOrEndTheFill := by
  intro s g hf hg hn
  refine ⟨_, exec_controlPeriod_due hf hg hn, ?_⟩
  rw [controlPeriod_eq]
  generalize hn₀ : ({ s.node with fcu := { s.node.fcu with periodNext := some (g + 100) } } : Node) = n₀
  have same : SamePeriod n₀ (periodPauses n₀).atEndTest := (atEndTest_samePeriod _).after (periodPauses_samePeriod n₀)
  have filling : (periodPauses n₀).atEndTest.fcu.phase.filling = true := by rw [same.filling, ← hn₀]; exact hf
  have next : (periodPauses n₀).atEndTest.fcu.periodNext = some (g + 100) := by rw [same.next, ← hn₀]
  have inputs : (periodPauses n₀).atEndTest.isc.inputs = s.node.isc.inputs := by
    rw [atEndTest_inputs, (periodPauses_kept n₀).inputs, ← hn₀]
  refine ⟨?_, fun hmeter => ?_, fun hpaused => ?_, ?_⟩
  · obtain ⟨e, -⟩ | ⟨r, ended⟩ := endTest_goes_on_or_ended filling
    · rw [e]
      exact .inl ⟨filling, next⟩
    · exact .inr ⟨ended.phase, by rw [ended.reason]; rfl, ended.period, ended.flow⟩
  · obtain ⟨r, hr⟩ := endReasonNow_meterFault (n := (periodPauses n₀).atEndTest) (by rw [Node.level, inputs]; exact hmeter)
    exact (endTest_ended filling hr).notFilling
  · obtain ⟨e, -⟩ | ⟨r, ended⟩ := endTest_goes_on_or_ended filling
    · dsimp only at hpaused ⊢
      rw [e] at hpaused ⊢
      exact atEndTest_stops hpaused
    · exact ended.flow
  · rintro n rfl
    exact ⟨fun hp => by rw [atEndTest_checking hp], fun hr => by rw [atEndTest_ramping hr]; rfl⟩

end Sys2Proof.Machine

/-! # Pause reasons, their limits and the grace, where they are read (file 03 R56 to R58, file 06 R100) -/

namespace Sys2Proof.Machine

/-! ## The causes of the pause reasons (section 3.7) -/

theorem reached_iff (n : Node) (since : Option Nat) (ms : Nat) :
    n.reached since ms = true ↔ ∃ a, since = some a ∧ ms ≤ n.now - a := by
  cases since <;> simp [Node.reached]

theorem marginBack_iff (n : Node) : n.marginBack = true ↔
    n.sourceReady = true ∧ ∃ b, n.fcu.source = some (.bank b) ∧ n.pH + 200 ≤ n.pB b := by
  have reading (b : Bank) : (200 : Int) ≤ n.margin b ↔ n.pH + 200 ≤ n.pB b := by
    unfold Node.margin
    omega
  cases hs : n.fcu.source with
  | none => simp [Node.marginBack, hs]
  | some x =>
    cases x with
    | direct => simp [Node.marginBack, hs]
    | bank b => simp [Node.marginBack, hs, reading]

theorem validCommand_iff (n : Node) (x : VehicleCmd) : n.validCommand = some x ↔
    n.vlr.link = .valid ∧ ∃ c, n.vlr.combined = some c ∧ c.command = x := by
  by_cases h : n.vlr.link = .valid
  · simp [Node.validCommand, Node.linkValid, h]
  · simp [Node.validCommand, Node.linkValid, h]

theorem pauseCause_sampleAge (n : Node) : n.pauseCause .sampleAge = true ↔
    n.olderThan .pH 200 = true ∨ n.olderThan .tS 200 = true ∨ n.olderThan .tD 200 = true := by
  simp [Node.pauseCause, Node.sampleOlder, or_assoc]

/-- BANK_WAIT, once set, holds until the margin is back (log 49). -/
theorem pauseCause_bankWait_set {n : Node} (h : n.fcu.pauses.bankWait.isSome = true) :
    n.pauseCause .bankWait = true ↔ ¬ (n.fcu.phase.ramping = true ∧ n.sourceReady = true ∧
      ∃ b, n.fcu.source = some (.bank b) ∧ n.pH + 200 ≤ n.pB b) := by
  rw [← marginBack_iff, ← Bool.and_eq_true, Bool.not_eq_true, ← Bool.not_eq_true']
  simp only [Node.pauseCause, h, if_true]

theorem pauseCause_bankWait_clear {n : Node} (h : n.fcu.pauses.bankWait = none) :
    n.pauseCause .bankWait = n.bankWaitDue := by
  simp [Node.pauseCause, h]

theorem bankWaitDue_iff (n : Node) : n.bankWaitDue = true ↔ n.fcu.phase.ramping = true ∧
    ((n.fcu.noTarget = true ∧ n.fcu.source = none) ∨
      ((n.fcu.noTarget = true ∨ (n.fcu.target.isSome = true ∧ n.fcu.targetTaken = false)) ∧
        ∃ b, n.fcu.source = some (.bank b) ∧ n.pB b < n.pH + 50)) := by
  rw [← marginBelow_iff]
  simp only [Node.bankWaitDue, Node.targetPending, Bool.and_eq_true, Bool.or_eq_true, Option.isNone_iff_eq_none,
    Bool.not_eq_true']
  tauto

/-! ## The reasons after the test of their causes (R56) -/

theorem reasonAfter_eq (n : Node) (r : PauseReason) :
    n.reasonAfter r = if n.pauseCause r then some ((n.fcu.pauses.get r).getD n.now) else none := by
  unfold Node.reasonAfter
  cases n.fcu.pauses.get r <;> rfl

theorem evaluatePauses_get (n : Node) (r : PauseReason) : (evaluatePauses n).fcu.pauses.get r = n.reasonAfter r := by
  cases r <;> rfl

theorem Pauses.any_of_get {p : Pauses} (r : PauseReason) (h : (p.get r).isSome = true) : p.any = true := by
  cases r <;> simp only [Pauses.get] at h <;> simp [Pauses.any, h]

theorem Pauses.get_of_not_any {p : Pauses} (h : p.any = false) (r : PauseReason) : p.get r = .none := by
  cases hr : p.get r with
  | none => rfl
  | some t =>
    rw [Pauses.any_of_get r (by rw [hr]; rfl)] at h
    cases h

/-! ## Step 1 of a period (R56, R57) -/

/-- Phase, reasons and mark of a fill are as they were. -/
structure SamePauses (n m : Node) : Prop where
  phase : m.fcu.phase = n.fcu.phase
  pauses : m.fcu.pauses = n.fcu.pauses
  exhausted : m.fcu.exhausted = n.fcu.exhausted

theorem SamePauses.of_fcu {n m : Node} (h : m.fcu = n.fcu) : SamePauses n m := ⟨by rw [h], by rw [h], by rw [h]⟩

theorem SamePauses.refl (n : Node) : SamePauses n n := .of_fcu rfl

/-- The last operation first. -/
theorem SamePauses.after {n k m : Node} (g : SamePauses k m) (h : SamePauses n k) : SamePauses n m :=
  ⟨g.phase.trans h.phase, g.pauses.trans h.pauses, g.exhausted.trans h.exhausted⟩

theorem closeBanks_samePauses (n : Node) : SamePauses n (closeBanks n) := ⟨rfl, rfl, rfl⟩

theorem openBank_samePauses (b : Bank) (n : Node) : SamePauses n (openBank b n) := by
  obtain ⟨v, h⟩ := openBank_fcu b n
  constructor <;> rw [h]

theorem leaveSource_samePauses (n : Node) : SamePauses n (leaveSource n) := by
  unfold leaveSource
  split
  · next b _ =>
    obtain ⟨q, h⟩ := giveBack_fcu b n
    constructor <;> rw [h]
  · exact .refl n

theorem flowNeedsSource_samePauses (n : Node) : SamePauses n (flowNeedsSource n) := by
  unfold flowNeedsSource
  split
  · exact ⟨rfl, rfl, rfl⟩
  · exact .refl n

theorem takeSource_samePauses (x : Source) (n : Node) : SamePauses n (takeSource x n) := by
  have taken : SamePauses (leaveSource n) ((leaveSource n).onSource x) := ⟨rfl, rfl, rfl⟩
  rw [takeSource_eq]
  exact SamePauses.after (.of_fcu ((rstAppend_only _ _).fcu (by decide)))
    ((flowNeedsSource_samePauses _).after (taken.after (leaveSource_samePauses n)))

theorem quietReopen_samePauses (n : Node) : SamePauses n (quietReopen n) := by
  unfold quietReopen
  split
  · split
    · split
      · exact (takeSource_samePauses _ _).after (openBank_samePauses _ n)
      · exact .refl n
    · split
      · exact openBank_samePauses _ n
      · exact .refl n
  · exact .refl n

/-- The bank valves as a LINE_QUIET that begins or clears at this step leaves them (R57). -/
def quietChanged (n : Node) : Node :=
  if n.fcu.pauses.lineQuiet = none ∧ (evaluatePauses n).fcu.pauses.lineQuiet.isSome = true then
    closeBanks (evaluatePauses n)
  else if n.fcu.pauses.lineQuiet.isSome = true ∧ (evaluatePauses n).fcu.pauses.lineQuiet = none ∧
      n.fcu.lineFault = false then quietReopen (evaluatePauses n)
  else evaluatePauses n

theorem periodPauses_eq (n : Node) : periodPauses n =
    if (quietChanged n).fcu.pauses.any then pauseEffect (quietChanged n) else fcuResume (quietChanged n) := rfl

theorem quietChanged_samePauses (n : Node) : SamePauses (evaluatePauses n) (quietChanged n) := by
  unfold quietChanged
  split
  · exact closeBanks_samePauses _
  · split
    · exact quietReopen_samePauses _
    · exact .refl _

/-- An active reason pauses a fill in RAMPING, whose flow stops. -/
theorem periodPauses_pauses {n : Node} (hr : n.fcu.phase.ramping = true)
    (ha : (evaluatePauses n).fcu.pauses.any = true) :
    (periodPauses n).fcu.phase = .paused ∧ (periodPauses n).fcu.fCmd = 0 ∧
      (periodPauses n).fcu.pauses = (evaluatePauses n).fcu.pauses ∧
      (periodPauses n).fcu.exhausted = (evaluatePauses n).fcu.exhausted := by
  have same := quietChanged_samePauses n
  have ramping : (quietChanged n).fcu.phase.ramping = true := by rw [same.phase]; exact hr
  rw [periodPauses_eq, if_pos (by rw [same.pauses]; exact ha), pauseEffect_ramping ramping]
  exact ⟨rfl, rfl, same.pauses, same.exhausted⟩

/-- A margin that sets BANK_WAIT pauses the fill at once (R46, R48). -/
theorem periodPauses_bankWait {n : Node} (hw : n.fcu.pauses.bankWait = none) (hd : n.bankWaitDue = true) :
    (periodPauses n).fcu.pauses.bankWait = some n.now ∧ (periodPauses n).fcu.exhausted = true ∧
      (periodPauses n).fcu.phase = .paused ∧ (periodPauses n).fcu.fCmd = 0 := by
  have set : (evaluatePauses n).fcu.pauses.bankWait = some n.now := by
    have timer : n.fcu.pauses.get .bankWait = none := hw
    rw [evaluatePauses_bankWait, reasonAfter_eq, pauseCause_bankWait_clear hw, hd, timer]
    rfl
  have exhausted : (evaluatePauses n).fcu.exhausted = true := by
    simp [Node.bankWaitBegins, hw, hd]
  obtain ⟨phase, flow, pauses, mark⟩ := periodPauses_pauses ((bankWaitDue_iff n).mp hd).1
    (Pauses.any_of_get .bankWait (congrArg Option.isSome set))
  exact ⟨by rw [pauses, set], by rw [mark, exhausted], phase, flow⟩

/-- With no reason active, and none but LINE_QUIET able to move valves, a PAUSED fill resumes or waits for its source. -/
theorem periodPauses_resumes {n : Node} (ha : (evaluatePauses n).fcu.pauses.any = false)
    (hq : n.fcu.pauses.lineQuiet = none) : periodPauses n = fcuResume (evaluatePauses n) := by
  have clear : (evaluatePauses n).fcu.pauses.lineQuiet = none := Pauses.get_of_not_any ha .lineQuiet
  have still : quietChanged n = evaluatePauses n := by simp [quietChanged, hq, clear]
  rw [periodPauses_eq, still, if_neg (by simp [ha])]

theorem fcuResume_seated {n : Node} (hp : n.fcu.phase = .paused) (hs : n.sourceReady = true) : fcuResume n =
    seat { n with fcu.noSource := false, fcu.phase := if n.fcu.target.isSome then .switching else .flowing } := by
  rw [fcuResume, if_pos hp, if_pos hs]

theorem fcuResume_waits {n : Node} (hp : n.fcu.phase = .paused) (hs : n.sourceReady = false) : fcuResume n = n := by
  simp [fcuResume, hp, hs]

/-! ## The limits, at the end test (R56, R58) -/

/-- A condition that holds leaves no fill in progress. -/
theorem endTest_not_filling {n : Node} {r : EndReason} (h : (r, true) ∈ n.endConditions) :
    (endTest n).fcu.phase.filling = false := by
  obtain ⟨r', hr⟩ := endReasonNow_some h
  cases hf : n.fcu.phase.filling with
  | true => exact (endTest_ended hf hr).notFilling
  | false => rw [endTest_resting hf, hf]

/-- The reason the test gives is that of a condition that holds. -/
theorem endReasonNow_holds {n : Node} {r : EndReason} (h : n.endReasonNow = some r) : (r, true) ∈ n.endConditions := by
  obtain ⟨⟨x, c⟩, hx, rfl⟩ := Option.map_eq_some_iff.mp h
  have holds := List.find?_some hx
  rw [show c = true from holds] at hx
  exact List.mem_of_find?_eq_some hx

theorem limit_ends {n : Node}
    (h : (n.fcu.phase.ramping = true ∧ ∃ a, n.fcu.pauses.precoolUnfit = some a ∧ 60000 ≤ n.now - a) ∨
      (∃ a, n.fcu.pauses.heatShare = some a ∧ 120000 ≤ n.now - a) ∨
      (∃ a, n.fcu.pauses.vehicleHalt = some a ∧ 10000 ≤ n.now - a) ∨
      (∃ a, n.fcu.pauses.sampleAge = some a ∧ 2000 ≤ n.now - a) ∨
      (∃ a, n.liu.quietSince = some a ∧ 1800 ≤ n.now - a)) : (endTest n).fcu.phase.filling = false := by
  simp only [← reached_iff] at h
  obtain ⟨hr, h⟩ | h | h | h | h := h
  · exact endTest_not_filling (r := .precoolFail) (by simp [Node.endConditions, hr, h])
  · exact endTest_not_filling (r := .heatShareTimeout) (by simp [Node.endConditions, h])
  · exact endTest_not_filling (r := .vehicleHalt) (by simp [Node.endConditions, h])
  · exact endTest_not_filling (r := .sensorStale) (by simp [Node.endConditions, h])
  · exact endTest_not_filling (r := .lineFault) (by simp [Node.endConditions, Node.quietAtLeast, h])

section
variable {n : Node}

theorem precoolFail_limit (h : n.endReasonNow = some .precoolFail) :
    n.fcu.phase.ramping = true ∧ ∃ a, n.fcu.pauses.precoolUnfit = some a ∧ 60000 ≤ n.now - a := by
  rw [← reached_iff]
  simpa [Node.endConditions] using endReasonNow_holds h

theorem heatShareTimeout_limit (h : n.endReasonNow = some .heatShareTimeout) :
    ∃ a, n.fcu.pauses.heatShare = some a ∧ 120000 ≤ n.now - a := by
  rw [← reached_iff]
  simpa [Node.endConditions] using endReasonNow_holds h

theorem vehicleHalt_limit (h : n.endReasonNow = some .vehicleHalt) :
    ∃ a, n.fcu.pauses.vehicleHalt = some a ∧ 10000 ≤ n.now - a := by
  rw [← reached_iff]
  simpa [Node.endConditions] using endReasonNow_holds h

theorem sensorStale_limit (h : n.endReasonNow = some .sensorStale) :
    (∃ a, n.fcu.pauses.sampleAge = some a ∧ 2000 ≤ n.now - a) ∨ n.sampleOlder 2000 = true := by
  rw [← reached_iff, or_comm]
  simpa [Node.endConditions] using endReasonNow_holds h

theorem banksExhausted_limit (h : n.endReasonNow = some .banksExhausted) :
    ∃ a, n.fcu.pauses.bankWait = some a ∧ 30000 ≤ n.now - a := by
  rw [← reached_iff]
  simpa [Node.endConditions] using endReasonNow_holds h

theorem lineFault_limit (h : n.endReasonNow = some .lineFault) :
    n.fcu.lineFault = true ∨ ∃ a, n.liu.quietSince = some a ∧ 1800 ≤ n.now - a := by
  rw [← reached_iff]
  simpa [Node.endConditions, Node.quietAtLeast] using endReasonNow_holds h

end

/-! ## The precool class (file 06 R100) -/

section
variable {n : Node} {a : Nat} (hs : n.fcu.rampSince = some a)
include hs

theorem precoolClass_grade (h : precoolGrade (n.chan .tD).value ≠ .unfit ∨ n.fcu.phase.ramping = false ∨
    30000 ≤ n.now - a) : n.precoolClass = precoolGrade (n.chan .tD).value := by
  refine if_neg ?_
  rintro ⟨hu, hr, hgrace⟩
  obtain h | h | h := h
  · exact h hu
  · rw [h] at hr
    cases hr
  · rw [hs, reached_some h] at hgrace
    cases hgrace

theorem precoolClass_grace (hu : precoolGrade (n.chan .tD).value = .unfit) (hr : n.fcu.phase.ramping = true)
    (hg : n.now - a < 30000) : n.precoolClass = .warm := by
  have grace : n.reached n.fcu.rampSince 30000 = false := by simp [Node.reached, hs, hg]
  exact if_pos ⟨hu, hr, grace⟩

end

/-- Settles O39: the two commands that change nothing, the causes one by one, step 1 with and without a reason, the limits
both ways, and the grace. -/
theorem limitsActWhenTheyAreRead : Obligations.LimitsActWhenTheyAreRead := by
  refine ⟨fun s r => rfl, fun s => rfl, fun n a ha ht _ => ?_, fun n r => ?_, fun n => ?_, fun n hr ha => ?_,
    fun n b hr hw hs hm ht => ?_, fun n hp ha hq => ?_, fun n hf => ⟨limit_ends, precoolFail_limit,
    heatShareTimeout_limit, vehicleHalt_limit, sensorStale_limit, banksExhausted_limit, lineFault_limit⟩,
    fun n a grade hg hs => ?_⟩
  · exact endTest_not_filling (r := .banksExhausted) (by simp [Node.endConditions, ha, reached_some ht])
  · rw [evaluatePauses_get, reasonAfter_eq]
  · refine ⟨by simp [Node.pauseCause], Iff.rfl, ?_, pauseCause_sampleAge n, pauseCause_bankWait_set, fun hw => ?_,
      reached_iff n n.liu.quietSince 1000⟩
    · rw [← validCommand_iff]
      exact decide_eq_true_iff
    · rw [pauseCause_bankWait_clear hw, bankWaitDue_iff]
  · obtain ⟨phase, flow, pauses, -⟩ := periodPauses_pauses hr ha
    exact ⟨phase, flow, pauses⟩
  · exact periodPauses_bankWait hw ((bankWaitDue_iff n).mpr ⟨hr, .inr ⟨ht, b, hs, hm⟩⟩)
  · rw [periodPauses_resumes ha hq]
    refine ⟨fun hready => ?_, fun hready => fcuResume_waits (n := evaluatePauses n) hp hready⟩
    rw [fcuResume_seated (n := evaluatePauses n) hp hready]
    exact ⟨rfl, rfl, rfl⟩
  · have grade_eq : grade = precoolGrade (n.chan .tD).value := by rw [hg]; rfl
    rw [grade_eq]
    exact ⟨precoolClass_grade hs, precoolClass_grace hs⟩

end Sys2Proof.Machine

/-! # The end test, in the order of R58 (file 03 R58) -/

namespace Sys2Proof.Machine

/-! ## The first condition of a list that holds -/

def firstReason (l : List (EndReason × Bool)) : Option EndReason := (l.find? (·.2)).map (·.1)

theorem firstReason_cons (r : EndReason) (c : Bool) (l : List (EndReason × Bool)) :
    firstReason ((r, c) :: l) = if c = true then some r else firstReason l := by
  cases c <;> rfl

@[simp] theorem firstReason_nil : firstReason [] = none := rfl

theorem endReasonNow_eq (n : Node) : n.endReasonNow = firstReason n.endConditions := rfl

/-! ## Rows 9 to 20 -/

/-- Row 13: the SOC has reached the target of the fill kind. -/
def Node.socReached (n : Node) : Bool :=
  match n.fcu.lastSoc with
  | some s => decide (n.socTarget ≤ s)
  | none => false

/-- Rows 9 to 20 of R58. -/
def Node.laterConditions (n : Node) : List (EndReason × Bool) :=
  let ramp := n.fcu.phase.ramping
  [ (.lineFault, n.fcu.lineFault || n.quietAtLeast 1800),
    (.numberConflict, n.stc.conflict),
    (.tempLimit, n.tempLimit),
    (.pressureLimit, decide (hoseLimit n.stc.cfg.hose ≤ n.pH)),
    (.targetSoc, ramp && n.socReached),
    (.massLimit, ramp && n.mpu.limit && !n.amountKind),
    (.amountLimit, ramp && n.mpu.limit && n.amountKind),
    (.sensorStale, n.sampleOlder 2000 || n.reached n.fcu.pauses.sampleAge 2000),
    (.precoolFail, ramp && n.reached n.fcu.pauses.precoolUnfit 60000),
    (.heatShareTimeout, n.reached n.fcu.pauses.heatShare 120000),
    (.vehicleHalt, n.reached n.fcu.pauses.vehicleHalt 10000),
    (.banksExhausted, n.reached n.fcu.pauses.bankWait 30000) ]

/-- Rows 1 to 8, then rows 9 to 20. -/
theorem endConditions_eq (n : Node) : n.endConditions =
    [ (.esd, decide (n.isc.loop = .tripped) && !n.isc.latch.isSome),
      (.breakaway, decide (n.isc.latch = some .breakaway) || n.level .breakaway),
      (.hoseRupture, decide (n.isc.latch = some .hoseRupture)),
      (.overpressure, decide (n.isc.latch = some .overpressure)),
      (.vehicleAbort, decide (n.validCommand = some .abort)),
      (.disconnect, !n.level .coupled && !n.level .breakaway),
      (.sensorFail, n.chanFailed .pH || n.chanFailed .tS || n.chanFailed .tD),
      (.meterFault, n.level .meterFault) ] ++ n.laterConditions := rfl

theorem tempLimit_iff (n : Node) : n.tempLimit = true ↔
    n.vlr.link = .valid ∧ (n.fcu.kind = none ∨ n.fcu.kind = some .comm) ∧
      3582 ≤ ((n.vlr.combined.map (·.temperature)).getD 0) := by
  cases hc : n.vlr.combined <;> simp [Node.tempLimit, Node.linkValid, hc, and_assoc]

theorem socReached_iff (n : Node) : n.socReached = true ↔ n.fcu.lastSoc.isSome = true ∧
    (if n.fcu.kind = some .comm then n.stc.cfg.commTarget else n.stc.cfg.nonCommTarget) ≤ n.fcu.lastSoc.getD 0 := by
  cases hs : n.fcu.lastSoc with
  | none => simp [Node.socReached, hs]
  | some charge =>
    have reached : n.socReached = decide (n.socTarget ≤ charge) := by rw [Node.socReached, hs]
    rw [reached, decide_eq_true_iff]
    exact ⟨fun h => ⟨rfl, h⟩, fun h => h.2⟩

theorem amountKind_iff (n : Node) : n.amountKind = true ↔ n.mpu.terms.map (·.limitKind) = some .amount := by
  cases ht : n.mpu.terms <;> simp [Node.amountKind, ht]

/-- The two rows of a limit, one for each kind, as one row that gives the kind. -/
theorem limitRows (n : Node) (later : Option EndReason) :
    (if (n.fcu.phase.ramping && n.mpu.limit && !n.amountKind) = true then some .massLimit
      else if (n.fcu.phase.ramping && n.mpu.limit && n.amountKind) = true then some .amountLimit else later) =
    if n.fcu.phase.ramping = true ∧ n.mpu.limit = true then
      some (if n.mpu.terms.map (·.limitKind) = some .amount then .amountLimit else .massLimit)
    else later := by
  simp only [← amountKind_iff, ← Bool.and_eq_true]
  cases n.fcu.phase.ramping && n.mpu.limit <;> cases n.amountKind <;> rfl

/-- Rows 9 to 20 as one chain. -/
theorem laterConditions_first (n : Node) : firstReason n.laterConditions =
    (if n.fcu.lineFault = true ∨ n.quietAtLeast 1800 = true then some .lineFault
     else if n.stc.conflict = true then some .numberConflict
     else if n.vlr.link = .valid ∧ (n.fcu.kind = none ∨ n.fcu.kind = some .comm) ∧
        3582 ≤ ((n.vlr.combined.map (·.temperature)).getD 0) then some .tempLimit
     else if hoseLimit n.stc.cfg.hose ≤ n.pH then some .pressureLimit
     else if n.fcu.phase.ramping = true ∧ n.fcu.lastSoc.isSome = true ∧
        (if n.fcu.kind = some .comm then n.stc.cfg.commTarget else n.stc.cfg.nonCommTarget) ≤
          n.fcu.lastSoc.getD 0 then some .targetSoc
     else if n.fcu.phase.ramping = true ∧ n.mpu.limit = true then
       some (if n.mpu.terms.map (·.limitKind) = some .amount then .amountLimit else .massLimit)
     else if n.sampleOlder 2000 = true ∨ n.reached n.fcu.pauses.sampleAge 2000 = true then some .sensorStale
     else if n.fcu.phase.ramping = true ∧ n.reached n.fcu.pauses.precoolUnfit 60000 = true then some .precoolFail
     else if n.reached n.fcu.pauses.heatShare 120000 = true then some .heatShareTimeout
     else if n.reached n.fcu.pauses.vehicleHalt 10000 = true then some .vehicleHalt
     else if n.reached n.fcu.pauses.bankWait 30000 = true then some .banksExhausted
     else none) := by
  simp only [Node.laterConditions, firstReason_cons, firstReason_nil, limitRows]
  simp only [Bool.or_eq_true, Bool.and_eq_true, decide_eq_true_eq, tempLimit_iff, socReached_iff]

/-! ## Rows 1 to 8 -/

section
variable {n : Node}

theorem endReasonNow_latch_breakaway (h : n.isc.latch = some .breakaway) : n.endReasonNow = some .breakaway := by
  simp [endReasonNow_eq, endConditions_eq, firstReason_cons, h]

theorem endReasonNow_level_breakaway (h : n.isc.loop ≠ .tripped ∨ n.isc.latch.isSome = true)
    (hb : n.level .breakaway = true) : n.endReasonNow = some .breakaway := by
  have no_esd : ¬ (n.isc.loop = .tripped ∧ n.isc.latch = none) := by
    rintro ⟨ht, hl⟩
    obtain h | h := h
    · exact h ht
    · rw [hl] at h
      cases h
  simp [endReasonNow_eq, endConditions_eq, firstReason_cons, hb, no_esd]

theorem endReasonNow_hoseRupture (hb : n.level .breakaway = false) (h : n.isc.latch = some .hoseRupture) :
    n.endReasonNow = some .hoseRupture := by
  simp [endReasonNow_eq, endConditions_eq, firstReason_cons, hb, h]

theorem endReasonNow_overpressure (hb : n.level .breakaway = false) (h : n.isc.latch = some .overpressure) :
    n.endReasonNow = some .overpressure := by
  simp [endReasonNow_eq, endConditions_eq, firstReason_cons, hb, h]

/-- With the loop not tripped, the latch clear and no breakaway the first four rows do not hold. -/
theorem endReasonNow_sound (hl : n.isc.loop ≠ .tripped) (hc : n.isc.latch = none) (hb : n.level .breakaway = false) :
    n.endReasonNow =
      if n.validCommand = some .abort then some .vehicleAbort
      else if n.level .coupled = false then some .disconnect
      else if n.chanFailed .pH = true ∨ n.chanFailed .tS = true ∨ n.chanFailed .tD = true then some .sensorFail
      else if n.level .meterFault = true then some .meterFault
      else firstReason n.laterConditions := by
  simp [endReasonNow_eq, endConditions_eq, firstReason_cons, hl, hc, hb, or_assoc]

end

theorem endTest_reason {n : Node} {r : EndReason} (hf : n.fcu.phase.filling = true) (h : n.endReasonNow = some r) :
    (endTest n).fcu.endReason = some r := (endTest_ended hf h).reason

theorem endTest_none {n : Node} (hf : n.fcu.phase.filling = true) (h : n.endReasonNow = none) : endTest n = n := by
  simp [endTest, hf, h]

/-- Settles O40: the reason of each row is that of the first condition that holds. -/
theorem endTestTakesTheFirstReason : Obligations.EndTestTakesTheFirstReason := by
  intro n hf
  refine ⟨fun hl hc => endTest_reason hf (endReasonNow_esd hl hc), fun h => endTest_reason hf (endReasonNow_latch_breakaway h),
    fun h hb => endTest_reason hf (endReasonNow_level_breakaway h hb),
    fun hb h => endTest_reason hf (endReasonNow_hoseRupture hb h),
    fun hb h => endTest_reason hf (endReasonNow_overpressure hb h), fun hl hc hb => ?_⟩
  have sound := endReasonNow_sound hl hc hb
  refine ⟨fun ha => endTest_reason hf (by rw [sound, if_pos ha]), fun ha => ?_⟩
  rw [if_neg ha] at sound
  refine ⟨fun hd => endTest_reason hf (by rw [sound, if_pos hd]), fun hd hx => ?_, fun hd h1 h2 h3 => ?_⟩
  · exact endTest_reason hf (by rw [sound, if_neg (by simp [hd]), if_pos hx])
  · rw [if_neg (by simp [hd]), if_neg (by simp [h1, h2, h3])] at sound
    refine ⟨fun hm => endTest_reason hf (by rw [sound, if_pos hm]), fun hm r hr => ?_⟩
    rw [if_neg (by simp [hm]), laterConditions_first, ← hr] at sound
    exact ⟨fun x hx => ⟨endTest_reason hf (sound.trans hx), (endTest_ended hf (sound.trans hx)).notFilling⟩,
      fun hx => endTest_none hf (sound.trans hx)⟩

end Sys2Proof.Machine


/-! # The figures of a fill (file 03 R51 to R53, R55, file 08 R144, R145) -/

namespace Sys2Proof.Machine

/-! ## State of charge and vent mass -/

theorem soc_no_pressure (h : HoseClass) (t : Nat) : soc h 0 t = 0 := rfl

theorem soc_le (h : HoseClass) (p t : Nat) : soc h p t ≤ 1200 := by
  dsimp only [soc]
  split
  · exact Nat.zero_le _
  · exact Nat.min_le_right ..

/-- In the SOC range of T and up to 100.00 MPa nothing is clamped. -/
theorem soc_in_range (h : HoseClass) {p t : Nat} (ht : 2132 ≤ t) (ht' : t ≤ 3832) (hp : 1 ≤ p) (hp' : p ≤ 10000) :
    soc h p t = min ((1000 * p * dRef h + (hoseNominal h * (t + kP p)) / 2) / (hoseNominal h * (t + kP p))) 1200 := by
  have hclamp : clamp t 2132 3832 = t := by unfold clamp; omega
  unfold soc
  rw [Nat.min_eq_left hp', hclamp]
  exact if_neg (by omega)

theorem ventMass_no_pressure (vh t : Nat) : ventMass vh 0 t = 0 := rfl

theorem ventMass_pressure (vh : Nat) {p : Nat} (t : Nat) (hp : 1 ≤ p) :
    ventMass vh p t = (vh * 2425 * p + (100 * (t + kP p)) / 2) / (100 * (t + kP p)) := if_neg (by omega)

/-- The vent mass is largest at the top of the pressure span and the bottom of the temperature span. The linear bound on
`kP` is too weak for the last three pressures, where the rounding gives the same `kP`. -/
theorem ventMass_le {vh p t : Nat} (hp : 1 ≤ p) (ht : 2132 ≤ t) (hv : vh ≤ 200) (hp' : p ≤ 10000) :
    ventMass vh p t ≤ 11881 := by
  have hmass : vh * 2425 * p ≤ 200 * 2425 * p := Nat.mul_le_mul_right p (Nat.mul_le_mul_right 2425 hv)
  have hbound : 485000 * p < 1188150 * (t + kP p) := by
    unfold kP
    by_cases htop : 9998 ≤ p
    · have hk : 1950 ≤ (p * 39 + 100) / 200 := by omega
      omega
    · omega
  rw [ventMass_pressure vh t hp]
  refine Nat.le_of_lt_succ (Nat.div_lt_of_lt_mul ?_)
  omega

/-! ## Ramp rate and ramp -/

theorem aprrNow_eq {n : Node} {base k : Nat} (hb : base = aprrBase n.stc.cfg.hose n.precoolClass)
    (hk : k = derating (n.chanFailed .tA) n.tA) :
    n.aprrNow = (if n.fcu.kind = some .comm then base else base * 3 / 4) * (32 - k) / 32 := by
  subst hb hk
  simp only [Node.aprrNow, aprr, decide_eq_true_eq]

theorem periodRamp_still {n : Node} (h : n.fcu.phase = .paused ∨ n.sourceReady = false ∨ n.sampleOlder 200 = true) :
    periodRamp n = n := if_pos h

theorem periodRamp_step {n : Node} (hp : n.fcu.phase ≠ .paused) (hr : n.sourceReady = true)
    (hs : n.sampleOlder 200 = false) :
    (periodRamp n).fcu.pRamp = min (n.fcu.pRamp + (n.aprrNow + n.fcu.rem) / 600) (hoseLimit n.stc.cfg.hose) ∧
    (periodRamp n).fcu.rem = (n.aprrNow + n.fcu.rem) % 600 := by
  rw [periodRamp, if_neg (by simp [hp, hr, hs])]
  exact ⟨rfl, rfl⟩

/-! ## Flow command -/

theorem periodFlow_fCmd (n : Node) : (periodFlow n).fcu.fCmd = n.flowCommand := rfl

theorem flowCommand_none {n : Node} (h : n.fcu.phase = .paused ∨ n.sourceReady = false) : n.flowCommand = 0 := if_pos h

theorem flowCommand_some {n : Node} (hp : n.fcu.phase ≠ .paused) (hr : n.sourceReady = true) :
    n.flowCommand = n.flowMax * min (n.fcu.pRamp - n.pH) 50 / 50 := if_neg (by simp [hp, hr])

/-- A limit that is not in force counts as PEAK_FLOW in the statement and as the ceiling in the model: below the smaller
of the two both make no difference. -/
theorem flowMax_eq (n : Node) : n.flowMax = min (min n.hsu.ceiling n.stc.cfg.peakFlow)
    (min (if n.fcu.source = some .direct then n.stc.cfg.directFlow else n.stc.cfg.peakFlow)
      (if n.mpu.slow = true then 50 else n.stc.cfg.peakFlow)) := by
  unfold Node.flowMax
  split <;> split <;> omega

theorem flowCommand_le (n : Node) : n.flowCommand ≤ n.flowMax := by
  by_cases h : n.fcu.phase = .paused ∨ n.sourceReady = false
  · rw [flowCommand_none h]
    exact Nat.zero_le _
  · have herr : pressureError n.fcu.pRamp n.pH ≤ 50 := Nat.min_le_right ..
    calc n.flowCommand = n.flowMax * pressureError n.fcu.pRamp n.pH / 50 := if_neg h
      _ ≤ n.flowMax * 50 / 50 := Nat.div_le_div_right (Nat.mul_le_mul_left _ herr)
      _ = n.flowMax := Nat.mul_div_cancel _ (by decide)

/-- Settles O41: each figure by its formula, a flow command by the limits of F_max. -/
theorem figuresFollowTheirFormulas : Obligations.FiguresFollowTheirFormulas := by
  unfold Obligations.FiguresFollowTheirFormulas
  refine ⟨fun h p t => ⟨soc_le h p t, soc_no_pressure h t⟩,
    fun t ht ht' p hp hp' => ⟨soc_in_range .car70 ht ht' hp hp', soc_in_range .bus35 ht ht' hp hp'⟩,
    ventMass_no_pressure, fun vh p t hp ht => ⟨ventMass_pressure vh t hp, ventMass_le hp ht⟩, fun _ _ => rfl,
    fun n base k hb hk => aprrNow_eq (hb.trans ?_) hk, fun n hp hr hs => ?_, fun n => periodRamp_still,
    fun n => ⟨rfl, flowCommand_none, fun hp hr fmax hf => ?_⟩, fun n => ?_⟩
  · rfl
  · obtain ⟨hpRamp, hrem⟩ := periodRamp_step hp hr hs
    rw [hpRamp, hrem]
    omega
  · rw [periodFlow_fCmd, flowCommand_some hp hr, flowMax_eq, hf]
  · have hle := flowCommand_le n
    rw [flowMax_eq] at hle
    rw [periodFlow_fCmd]
    refine ⟨by omega, by omega, fun hs => ?_, fun hd => ?_⟩
    · rw [if_pos hs] at hle
      omega
    · rw [if_pos hd] at hle
      omega

end Sys2Proof.Machine


/-! # Settled claims, the switch and a bank given up (file 03 R38, R45 to R47, R53, R57, file 04 R66, R74) -/

namespace Sys2Proof.Machine

/-! ## The own claims -/

theorem Bcu.find_hold {c : Bcu} {b : Bank} {k : ClaimKind} {o : OwnClaim} (h : c.find b k = some o) (t : Nat) :
    (c.hold b k t).find b k = some { o with state := .held t } := by
  have found : o.bank = b ∧ o.kind = k := by simpa using List.find?_some h
  have keep : (fun o : OwnClaim => decide (o.bank = b) && decide (o.kind = k)) ∘
      (fun o : OwnClaim => if o.bank = b ∧ o.kind = k then { o with state := .held t } else o) =
      fun o => decide (o.bank = b) && decide (o.kind = k) := by
    funext x
    dsimp only [Function.comp_apply]
    split <;> rfl
  rw [Bcu.find] at h
  rw [Bcu.find, Bcu.hold, List.find?_map, keep, h, Option.map_some, if_pos found]

theorem Bcu.find_without_other {b d : Bank} (h : d ≠ b) (c : Bcu) (j k : ClaimKind) :
    (c.without b j).find d k = c.find d k := by
  rw [Bcu.find, Bcu.find, Bcu.without, List.find?_filter]
  congr 1
  funext o
  by_cases hd : o.bank = d
  · simp [hd, h]
  · simp [hd]

theorem bcuRelease_find_other {b d : Bank} (h : d ≠ b) (j k : ClaimKind) (n : Node) :
    (bcuRelease b j n).bcu.find d k = n.bcu.find d k := by
  unfold bcuRelease
  split
  · rfl
  · split
    · exact Bcu.find_without_other h n.bcu j k
    · rw [offer_bcu]
      exact Bcu.find_without_other h n.bcu j k

theorem giveBack_find_other {b d : Bank} (h : d ≠ b) (k : ClaimKind) (n : Node) :
    (giveBack b n).bcu.find d k = n.bcu.find d k := by
  unfold giveBack
  dsimp only
  split
  · exact bcuRelease_find_other h .draw k _
  · rfl

theorem leaveSource_find {b : Bank} {n : Node} (h : n.fcu.source ≠ some (.bank b)) (k : ClaimKind) :
    (leaveSource n).bcu.find b k = n.bcu.find b k := by
  unfold leaveSource
  split
  · next o ho => exact giveBack_find_other (fun e => h (by rw [ho, e])) k n
  · rfl

theorem drawHeld_of_find {n : Node} {b : Bank} {a : Nat} (h : n.bcu.find b .draw = some ⟨b, .draw, .held a⟩) :
    n.drawHeld b = true := by
  simp [Node.drawHeld, h, ClaimState.isHeld]

/-! ## A held target is taken (R45, R53) -/

theorem leaveSource_fcu (n : Node) : ∃ v q, (leaveSource n).fcu = { n.fcu with vb := v, relOnClose := q } ∧
    (∀ o : Bank, n.fcu.source = some (.bank o) → (v.get o).opened = false) ∧
    ∀ d : Bank, n.fcu.source ≠ some (.bank d) → v.get d = n.fcu.vb.get d := by
  unfold leaveSource
  split
  · next o ho =>
    obtain ⟨q, h⟩ := giveBack_fcu o n
    refine ⟨_, q, h, fun o' ho' => ?_, fun d hd => ?_⟩
    · cases ho.symm.trans ho'
      simp
    · rw [Quad.get_set, if_neg]
      rintro rfl
      exact hd ho
  · next hno => exact ⟨n.fcu.vb, n.fcu.relOnClose, rfl, fun o ho => absurd ho (hno o), fun _ _ => rfl⟩

theorem leaveSource_only (n : Node) : Only [.fcu, .bcu, .liu] n (leaveSource n) := by
  unfold leaveSource
  split
  · exact giveBack_only _ n
  · exact .refl _ n

/-- The flow command, perhaps, and nothing else. -/
theorem flowNeedsSource_fcu (n : Node) : ∃ f, (flowNeedsSource n).fcu = { n.fcu with fCmd := f } ∧
    (n.fcu.phase.ramping = true → n.sourceReady = false → f = 0) := by
  unfold flowNeedsSource
  split
  · exact ⟨0, rfl, fun _ _ => rfl⟩
  · next h => exact ⟨n.fcu.fCmd, rfl, fun hr hs => absurd ⟨hr, hs⟩ h⟩

/-- The stage entry is in the image, whatever the store takes for the checkpoint. -/
theorem rstAppend_stages (x : Source) {n : Node} {im : Image} (h : n.rst.image = some im) :
    ∃ k, (rstAppend x n).rst.image = some k ∧ k.body.stages = im.body.stages ++ [⟨some x, 0, 0⟩] := by
  unfold rstAppend raiseRecord storeKick
  refine storeTake_image (P := fun k => k.body.stages = im.body.stages ++ ([⟨some x, 0, 0⟩] : List Stage))
    (im := { im with body.stages := im.body.stages ++ [⟨some x, 0, 0⟩] }) _ ?_ rfl fun _ _ _ hk => hk
  show n.rst.image.map _ = _
  rw [h, Option.map_some]

section
variable {b : Bank} {n : Node}

theorem openBank_opened (h : n.drawHeld b = true) (d : Bank) :
    ((openBank b n).fcu.vb.get d) = if d = b then (n.fcu.vb.get b).command true n.now else n.fcu.vb.get d := by
  rw [openBank, h, Node.onlyIf_true, drawValve_vb]

theorem takeTarget_find (h : n.fcu.source ≠ some (.bank b)) (k : ClaimKind) :
    (takeTarget b n).bcu.find b k = n.bcu.find b k := by
  obtain ⟨v, opened⟩ := openBank_fcu b n
  have source : (openBank b n).fcu.source ≠ some (.bank b) := by rw [opened]; exact h
  rw [takeTarget, takeSource_eq, (rstAppend_only _ _).bcu (by decide), (flowNeedsSource_only _).bcu (by decide)]
  show (leaveSource (openBank b n)).bcu.find b k = _
  rw [leaveSource_find source, (openBank_only b n).bcu (by decide)]

theorem takeTarget_image {im : Image} (h : n.rst.image = some im) : ∃ k, (takeTarget b n).rst.image = some k ∧
    k.body.stages = im.body.stages ++ [⟨some (.bank b), 0, 0⟩] := by
  rw [takeTarget, takeSource_eq]
  refine rstAppend_stages _ ?_
  rw [(flowNeedsSource_only _).rst (by decide)]
  show (leaveSource (openBank b n)).rst.image = _
  rw [(leaveSource_only _).rst (by decide), (openBank_only b n).rst (by decide), h]

/-- The valves after the target is taken, and the flow that waits for its valve. -/
theorem takeTarget_fcu (hs : n.fcu.source ≠ some (.bank b)) (hh : n.drawHeld b = true) (hr : n.fcu.phase.ramping = true) :
    ∃ v q f, (takeTarget b n).fcu = { n.fcu with
        vb := v, relOnClose := q, fCmd := f
        source := some (.bank b), lastSource := some (.bank b), targetTaken := true, targetWaits := false } ∧
      (v.get b).opened = true ∧ (∀ o : Bank, n.fcu.source = some (.bank o) → (v.get o).opened = false) ∧
      (v.get b ≠ ⟨true, none⟩ → f = 0) := by
  obtain ⟨w, opening⟩ := openBank_fcu b n
  obtain ⟨v, q, left, shut, others⟩ := leaveSource_fcu (openBank b n)
  obtain ⟨f, flow, stops⟩ := flowNeedsSource_fcu ((leaveSource (openBank b n)).onSource (.bank b))
  have source : (openBank b n).fcu.source = n.fcu.source := by rw [opening]
  rw [source] at shut others
  have taken : ((leaveSource (openBank b n)).onSource (.bank b)).fcu = { n.fcu with
      vb := v, relOnClose := q
      source := some (.bank b), lastSource := some (.bank b), targetTaken := true, targetWaits := false } := by
    simp only [Node.onSource, left, opening]
  refine ⟨v, q, f, ?_, ?_, shut, fun hv => stops ?_ ?_⟩
  · rw [takeTarget, takeSource_eq, (rstAppend_only _ _).fcu (by decide), flow, taken]
  · rw [others b hs, openBank_opened hh, if_pos rfl, ValveRec.command_opened]
  · rw [taken]
    exact hr
  · simp only [Node.sourceReady, taken, ValveRec.ready]
    refine decide_eq_false fun ready => hv ?_
    exact congrArg₂ ValveRec.mk ready.1 ready.2

end

/-! ## SETTLE_EXPIRY (file 04 R74) -/

/-- The node with the own claim on a bank of a kind HELD. -/
def Node.holding (b : Bank) (k : ClaimKind) (a : Nat) (n : Node) : Node := { n with bcu := n.bcu.hold b k a }

theorem exec_settleExpiry_due {s : State} {b : Bank} {k : ClaimKind} {a : Nat}
    (h : s.node.bcu.find b k = some ⟨b, k, .settling a⟩) (ht : 150 ≤ s.node.now - a) :
    exec (.settleExpiry b k) s = .next { s with node := reportHeld b k (s.node.holding b k a) } := by
  have settled : s.node.settled b k = some a := by simp [Node.settled, h, Node.elapsed, ht]
  show execSettleExpiry b k s = _
  rw [execSettleExpiry, State.act_eq, settleExpiry, settled]
  rfl

theorem holding_find {n : Node} {b : Bank} {k : ClaimKind} {a : Nat} (h : n.bcu.find b k = some ⟨b, k, .settling a⟩) :
    (n.holding b k a).bcu.find b k = some ⟨b, k, .held a⟩ := Bcu.find_hold h a

theorem fcuHeld_check {b : Bank} {n : Node} (hp : n.fcu.phase = .checking) (hc : n.fcu.check = .claimWait)
    (hb : n.fcu.checkBank = some b) : fcuHeld b n = checkHeld b n := by
  rw [fcuHeld, if_pos hp, if_pos ⟨hc, hb⟩]

theorem ramping_not_checking {p : Phase} (h : p.ramping = true) : p ≠ .checking := by
  rintro rfl
  cases h

section
variable {b : Bank} {n : Node} (hr : n.fcu.phase.ramping = true) (ht : n.fcu.target = some (.bank b))
  (hn : n.fcu.targetTaken = false)
include hr ht hn

theorem fcuHeld_target (hq : n.fcu.pauses.lineQuiet = none) : fcuHeld b n = takeTarget b n := by
  rw [fcuHeld, if_neg (ramping_not_checking hr), if_pos ⟨hr, ht, hn⟩, hq]
  rfl

theorem fcuHeld_quiet (hq : n.fcu.pauses.lineQuiet.isSome = true) :
    fcuHeld b n = { n with fcu.targetWaits := true } := by
  rw [fcuHeld, if_neg (ramping_not_checking hr), if_pos ⟨hr, ht, hn⟩, if_pos hq]

end

/-- What the FCU makes of a held draw claim gives back the old source only. -/
theorem fcuHeld_find {b : Bank} {n : Node} (h : n.fcu.source ≠ some (.bank b)) (k : ClaimKind) :
    (fcuHeld b n).bcu.find b k = n.bcu.find b k := by
  unfold fcuHeld
  split
  · split
    · rw [(checkHeld_only b n).bcu (by decide)]
    · rfl
  · split
    · split
      · rfl
      · exact takeTarget_find h k
    · rfl

theorem reportHeld_find {b : Bank} {k : ClaimKind} {n : Node} (h : k = .draw → n.fcu.source ≠ some (.bank b)) :
    (reportHeld b k n).bcu.find b k = n.bcu.find b k := by
  cases k with
  | draw => exact fcuHeld_find (h rfl) .draw
  | refill => exact congrArg (·.find b .refill) ((ccuHeld_only b n).bcu (by decide))

/-- An attempt that no pause reason holds back begins on a valve commanded open. -/
theorem beginAttempt_opened {b : Bank} {n : Node} (hb : n.fcu.checkBank = some b) (hp : n.fcu.pauses.any = false)
    (hh : n.drawHeld b = true) :
    ((beginAttempt n).fcu.vb.get b).opened = true ∧ (beginAttempt n).fcu.pauses = n.fcu.pauses := by
  simp only [beginAttempt, hb, hp, Bool.false_eq_true, if_false]
  split
  · next ready => exact ⟨(of_decide_eq_true ready).1, rfl⟩
  · obtain ⟨v, opening⟩ := openBank_fcu b { n with
      fcu.check := .opening, fcu.stepSince := some n.now, fcu.awaiting := false, fcu.fCmd := 0 }
    refine ⟨?_, by rw [beginOpening, opening]⟩
    rw [beginOpening, openBank_opened (by exact hh), if_pos rfl, ValveRec.command_opened]

theorem checkHeld_opened {b : Bank} {n : Node} (hb : n.fcu.checkBank = some b)
    (hp : ({ n.fcu.pauses with bankWait := none } : Pauses).any = false) (hh : n.drawHeld b = true) :
    ((checkHeld b n).fcu.vb.get b).opened = true ∧ (checkHeld b n).fcu.pauses.bankWait = none := by
  obtain ⟨opened, pauses⟩ := beginAttempt_opened
    (n := rstSetFirstSource b { n with fcu.pauses.bankWait := none, fcu.lastSource := some (.bank b) }) hb hp hh
  exact ⟨opened, congrArg Pauses.bankWait pauses⟩

/-! ## The switch completes (R45, R46) -/

theorem switchValvesDone_of {n : Node} {b : Bank} (hs : n.fcu.source = some (.bank b))
    (hb : n.fcu.vb.get b = ⟨true, none⟩) (hc : ∀ c : Bank, c ≠ b → n.fcu.vb.get c = ⟨false, none⟩) :
    n.switchValvesDone = true := by
  have others : n.otherDrawValvesClosed b = true := by
    refine List.all_eq_true.mpr fun c _ => ?_
    by_cases h : c = b
    · simp [h]
    · simp [hc c h, ValveRec.closed]
  simp [Node.switchValvesDone, hs, hb, others, ValveRec.ready]

theorem fcuSwitchDone_done {n : Node} (hr : n.fcu.phase.ramping = true) (ht : n.fcu.targetTaken = true)
    (hv : n.switchValvesDone = true) : fcuSwitchDone n = clearTarget { n with fcu.pauses.bankWait := none } :=
  if_pos ⟨hr, ht, hv⟩

/-- A source that becomes open and ready seats the ramp, and nothing else. -/
theorem fcuSourceReady_fcu (n : Node) : ∃ p r x, (fcuSourceReady n).fcu = { n.fcu with pRamp := p, rem := r, noSource := x } := by
  unfold fcuSourceReady
  split
  · exact ⟨_, _, _, rfl⟩
  · exact ⟨n.fcu.pRamp, n.fcu.rem, n.fcu.noSource, rfl⟩

theorem fcuClosingDone_not_closing {n : Node} (h : n.fcu.phase ≠ .closing) : fcuClosingDone n = n :=
  if_neg fun e => h e.1

/-- The last old valve of a switch has closed: only the ramp, perhaps, is seated beside the end of the switch. -/
theorem fcuDrawArrived_switch {n : Node} {b o : Bank} {a : Nat} (hr : n.fcu.phase.ramping = true)
    (hs : n.fcu.source = some (.bank b)) (ht : n.fcu.targetTaken = true) (hb : n.fcu.vb.get b = ⟨true, none⟩)
    (ho : n.fcu.vb.get o = ⟨false, some a⟩) (hc : ∀ c : Bank, c ≠ b → c ≠ o → n.fcu.vb.get c = ⟨false, none⟩) :
    ∃ v q p r x, (fcuDrawArrived o n).fcu = { n.fcu with
      vb := v, relOnClose := q, pRamp := p, rem := r, noSource := x, pauses := { n.fcu.pauses with bankWait := none }
      target := none, targetTaken := false, targetWaits := false
      phase := if n.fcu.phase = .switching then .flowing else n.fcu.phase } := by
  have apart : b ≠ o := by
    rintro rfl
    cases hb.symm.trans ho
  obtain ⟨q, released⟩ := releasedAtClosure_fcu o (n.drawArrived o)
  have check : checkArrived o (releasedAtClosure o (n.drawArrived o)) = releasedAtClosure o (n.drawArrived o) :=
    checkArrived_not_checking (by rw [released]; exact ramping_not_checking hr) o
  obtain ⟨p, r, x, ready⟩ := fcuSourceReady_fcu (releasedAtClosure o (n.drawArrived o))
  rw [released] at ready
  have stands : (fcuSourceReady (releasedAtClosure o (n.drawArrived o))).switchValvesDone = true := by
    refine switchValvesDone_of (by rw [ready]; exact hs) ?_ fun c hcb => ?_
    · rw [ready]
      show (n.fcu.vb.set o _).get b = _
      rw [Quad.get_set, if_neg apart, hb]
    · rw [ready]
      show (n.fcu.vb.set o _).get c = _
      by_cases hco : c = o
      · rw [hco, Quad.get_set_same, ho]
        rfl
      · rw [Quad.get_set, if_neg hco, hc c hcb hco]
  have done := fcuSwitchDone_done (by rw [ready]; exact hr) (by rw [ready]; exact ht) stands
  refine ⟨(n.drawArrived o).fcu.vb, q, p, r, x, ?_⟩
  rw [fcuDrawArrived_eq, check, fcuClosingDone_not_closing, done, clearTarget, ready]
  · rfl
  · rw [done, clearTarget, ready]
    show (if n.fcu.phase = .switching then Phase.flowing else n.fcu.phase) ≠ .closing
    split
    · decide
    · intro h
      rw [h] at hr
      cases hr

/-! ## A bank becomes UNAVAILABLE (file 04 R66, file 03 R47) -/

theorem available_failed {i : Nat} (hi : i < 3600 ∨ 21000 < i) (b : Bank) (n : Node) :
    (exchangeEnded (judgeAnswer (.pB b) i n)).available b = false := by
  rw [Node.available, exchangeEnded_chan, Node.chan, judgeAnswer_failed_channels hi, Channels.get_set_same]
  simp [ChannelRec.sound]

/-- With the draw claim the only own one on the bank, the FCU alone hears of the failure. -/
theorem judgeAnswer_bank_failed {i : Nat} (hi : i < 3600 ∨ 21000 < i) {b : Bank} {n : Node} {st : ClaimState}
    (hs : (n.chan (.pB b)).sound = true)
    (ho : (n.bcu.own.filter fun o => decide (o.bank = b)) = [⟨b, .draw, st⟩]) :
    judgeAnswer (.pB b) i n = fcuUnavailable b (n.failing (.pB b)) := by
  rw [judgeAnswer_failed hi]
  show (n.failing (.pB b)).onlyIf (n.chan (.pB b)).sound (bankUnavailable b) = _
  rw [hs, Node.onlyIf_true, bankUnavailable]
  show ((n.bcu.own.filter fun o => decide (o.bank = b)).foldl _ _) = _
  rw [ho]
  rfl

theorem ramping_filling {p : Phase} (h : p.ramping = true) : p.filling = true := by
  cases p <;> first | rfl | cases h

theorem giveUpSource_fcu (n : Node) : (giveUpSource n).fcu.source = none ∧ (giveUpSource n).fcu.noSource = true ∧
    (giveUpSource n).fcu.fCmd = 0 ∧ (giveUpSource n).fcu.vb = n.fcu.vb := by
  unfold giveUpSource
  split <;> exact ⟨rfl, rfl, rfl, rfl⟩

/-- A fill whose source is the bank has no source then, with the bank valve commanded closed. -/
theorem fcuUnavailable_source {b : Bank} {n : Node} (hr : n.fcu.phase.ramping = true) (hs : n.fcu.source = some (.bank b))
    (ht : n.fcu.target ≠ some (.bank b) ∨ n.fcu.targetTaken = true) :
    (fcuUnavailable b n).fcu.source = none ∧ (fcuUnavailable b n).fcu.noSource = true ∧
      (fcuUnavailable b n).fcu.fCmd = 0 ∧ ((fcuUnavailable b n).fcu.vb.get b).opened = false := by
  obtain ⟨q, given⟩ := giveBack_fcu b n
  have forsaken : fcuForsaken b (giveBack b n) = giveUpSource (giveBack b n) := by
    have pending : ¬(n.fcu.target = some (.bank b) ∧ n.fcu.targetTaken = false) := by
      rintro ⟨target, untaken⟩
      obtain other | taken := ht
      · exact other target
      · rw [taken] at untaken
        cases untaken
    rw [fcuForsaken, given, if_neg (ramping_not_checking hr), if_pos hr, if_neg pending, if_pos hs]
  obtain ⟨source, noSource, flow, valves⟩ := giveUpSource_fcu (giveBack b n)
  rw [fcuUnavailable, if_pos (ramping_filling hr), forsaken]
  refine ⟨source, noSource, flow, ?_⟩
  rw [valves, given, Quad.get_set_same, ValveRec.command_opened]

/-- Settles O42: the claim that settled, the switch that completes, the bank that fails. -/
theorem settledClaimsAreHeld : Obligations.SettledClaimsAreHeld := by
  refine ⟨fun s b k a h ht hs => ?_, fun s b o a hr hs ht hb ho ha hc => ?_, fun s b i st ha hi hs ho => ?_⟩
  · have found := holding_find h
    refine ⟨_, exec_settleExpiry_due h ht, (reportHeld_find (n := s.node.holding b k a) hs).trans found, ?_, ?_⟩
    · rintro rfl hp hw hb hany
      have report : reportHeld b .draw (s.node.holding b .draw a) = checkHeld b (s.node.holding b .draw a) :=
        fcuHeld_check (n := s.node.holding b .draw a) hp hw hb
      rw [report]
      exact checkHeld_opened hb hany (drawHeld_of_find found)
    · rintro rfl hr htarget hn
      refine ⟨fun hq => ?_, fun hq => congrArg Node.fcu (fcuHeld_quiet (n := s.node.holding b .draw a) hr htarget hn hq)⟩
      have report : reportHeld b .draw (s.node.holding b .draw a) = takeTarget b (s.node.holding b .draw a) :=
        fcuHeld_target (n := s.node.holding b .draw a) hr htarget hn hq
      obtain ⟨v, q, f, taken, opened, shut, stops⟩ := takeTarget_fcu (n := s.node.holding b .draw a) (hs rfl)
        (drawHeld_of_find found) hr
      simp only [report, taken]
      exact ⟨trivial, trivial, htarget, trivial, opened, shut, stops, fun im him => takeTarget_image him⟩
  · obtain ⟨v, q, p, r, x, arrived⟩ := fcuDrawArrived_switch hr hs ht hb ho hc
    have step := exec_valveTravelEnd_due (s := s) (v := .draw o) (a := a) (by rw [Node.valve, ho]) ha
    refine ⟨_, step, ?_⟩
    simp only [valveArrived, arrived]
    refine ⟨trivial, trivial, trivial, hs, fun hw => if_pos hw, fun hrel => ?_⟩
    rw [fcuDrawArrived_bcu]
    refine releasedAtClosure_find ?_ hrel
    rw [drawArrived_vb, ho]
    rfl
  · refine ⟨_, exec_converterAnswer_awaited ha i, available_failed hi b s.node, fun hr hsource ht => ?_⟩
    simp only [exchangeEnded_fcu, judgeAnswer_bank_failed hi hs ho]
    exact fcuUnavailable_source (n := s.node.failing (.pB b)) hr hsource ht

end Sys2Proof.Machine

/-! # The admission walk (file 04 R68, R72, R76) -/

namespace Sys2Proof.Machine

/-! ## The order of the view (R68 step 1) -/

theorem ViewClaim.before_iff (x y : ViewClaim) : x.before y = true ↔
    x.instant < y.instant ∨ (x.instant = y.instant ∧ (x.holder < y.holder ∨
      (x.holder = y.holder ∧ (x.kind = .draw ∨ y.kind = .refill)))) := by
  simp [ViewClaim.before]

theorem ViewClaim.before_total (x y : ViewClaim) : x.before y = true ∨ y.before x = true := by
  simp only [before_iff]
  obtain hi | hi | hi := lt_trichotomy x.instant y.instant
  · exact .inl (.inl hi)
  · obtain hh | hh | hh := lt_trichotomy x.holder y.holder
    · exact .inl (.inr ⟨hi, .inl hh⟩)
    · cases hk : x.kind <;> simp [hi, hh]
    · exact .inr (.inr ⟨hi.symm, .inl hh⟩)
  · exact .inr (.inl hi)

theorem ViewClaim.before_trans {x y z : ViewClaim} (hxy : x.before y = true) (hyz : y.before z = true) :
    x.before z = true := by
  have kinds (hx : x.kind = .draw ∨ y.kind = .refill) (hy : y.kind = .draw ∨ z.kind = .refill) :
      x.kind = .draw ∨ z.kind = .refill := by
    cases hk : y.kind <;> simp_all
  rw [before_iff] at *
  obtain hi | ⟨hi, hx⟩ := hxy
  · exact .inl (by omega)
  · obtain hj | ⟨hj, hy⟩ := hyz
    · exact .inl (by omega)
    · refine .inr ⟨hi.trans hj, ?_⟩
      obtain hh | ⟨hh, hx⟩ := hx
      · exact .inl (by omega)
      · obtain hg | ⟨hg, hy⟩ := hy
        · exact .inl (by omega)
        · exact .inr ⟨hh.trans hg, kinds hx hy⟩

theorem insertClaim_eq_orderedInsert (c : ViewClaim) (cs : List ViewClaim) :
    insertClaim c cs = cs.orderedInsert (fun x y => x.before y = true) c := by
  induction cs with
  | nil => rfl
  | cons d ds ih => simp [insertClaim, ih]

theorem sortClaims_eq_insertionSort (cs : List ViewClaim) :
    sortClaims cs = cs.insertionSort fun x y => x.before y = true := by
  induction cs with
  | nil => rfl
  | cons c cs ih => simp [sortClaims, ih, insertClaim_eq_orderedInsert]

theorem sortClaims_perm (cs : List ViewClaim) : (sortClaims cs).Perm cs := by
  rw [sortClaims_eq_insertionSort]
  exact List.perm_insertionSort _ cs

theorem sortClaims_pairwise (cs : List ViewClaim) : (sortClaims cs).Pairwise fun x y => x.before y = true := by
  have : Std.Total fun x y : ViewClaim => x.before y = true := ⟨ViewClaim.before_total⟩
  have : IsTrans ViewClaim fun x y => x.before y = true := ⟨fun _ _ _ => ViewClaim.before_trans⟩
  rw [sortClaims_eq_insertionSort]
  exact List.pairwise_insertionSort _ cs

/-! ## The view of a bank (section 4.3) -/

theorem OwnClaim.view_eq_some_iff {node : Nat} {c : OwnClaim} {v : ViewClaim} :
    c.view node = some v ↔
      ∃ t : Nat, (c.state = .settling t ∨ c.state = .held t) ∧ v = ⟨(t : Int), node, c.bank, c.kind⟩ := by
  unfold OwnClaim.view
  cases c.state <;> simp [eq_comm]

theorem mem_bankView_iff {n : Node} {b : Bank} {v : ViewClaim} : v ∈ n.bankView b ↔
    (∃ p ∈ n.ptb.peers, ∃ c ∈ p.claims, c.bank = b ∧ v = ⟨c.instant, p.node, b, c.kind⟩) ∨
    (∃ c ∈ n.bcu.own, c.bank = b ∧ ∃ t : Nat, (c.state = .settling t ∨ c.state = .held t) ∧
      v = ⟨(t : Int), n.stc.node, b, c.kind⟩) := by
  have peers : v ∈ n.ptb.peers.flatMap (·.viewOf b) ↔
      ∃ p ∈ n.ptb.peers, ∃ c ∈ p.claims, c.bank = b ∧ v = ⟨c.instant, p.node, b, c.kind⟩ := by
    simp [Peer.viewOf, and_assoc, eq_comm]
  have own : v ∈ (n.bcu.own.filter fun c => decide (c.bank = b)).filterMap (·.view n.stc.node) ↔
      ∃ c ∈ n.bcu.own, c.bank = b ∧ ∃ t : Nat, (c.state = .settling t ∨ c.state = .held t) ∧
        v = ⟨(t : Int), n.stc.node, b, c.kind⟩ := by
    simp only [List.mem_filterMap, List.mem_filter, decide_eq_true_eq, and_assoc, OwnClaim.view_eq_some_iff]
    refine exists_congr fun c => and_congr_right fun _ => and_congr_right fun hb => ?_
    rw [hb]
  rw [Node.bankView, mem_sortClaims, List.mem_append, peers, own]

/-! ## One claim after another (R68) -/

/-- The draws among claims. -/
def drawsOf (cs : List ViewClaim) : Nat := (cs.filter fun c => decide (c.kind = .draw)).length

/-- A refill is among claims. -/
def anyRefill (cs : List ViewClaim) : Bool := cs.any fun c => decide (c.kind = .refill)

@[simp] theorem drawsOf_nil : drawsOf [] = 0 := rfl

@[simp] theorem anyRefill_nil : anyRefill [] = false := rfl

theorem drawsOf_cons (c : ViewClaim) (cs : List ViewClaim) :
    drawsOf (c :: cs) = if c.kind = .draw then drawsOf cs + 1 else drawsOf cs := by
  by_cases h : c.kind = .draw <;> simp [drawsOf, h]

theorem anyRefill_cons (c : ViewClaim) (cs : List ViewClaim) :
    anyRefill (c :: cs) = (decide (c.kind = .refill) || anyRefill cs) := rfl

/-- The walk of a list in two parts: the second starts from what the first has admitted. -/
theorem walk_append (limit d : Nat) (r : Bool) (xs ys : List ViewClaim) :
    walk limit d r (xs ++ ys) =
      ((walk limit d r xs).1 ++
          (walk limit (d + drawsOf (walk limit d r xs).1) (r || anyRefill (walk limit d r xs).1) ys).1,
        (walk limit d r xs).2 ++
          (walk limit (d + drawsOf (walk limit d r xs).1) (r || anyRefill (walk limit d r xs).1) ys).2) := by
  induction xs generalizing d r with
  | nil => simp [walk]
  | cons x xs ih =>
    simp only [List.cons_append, walk]
    split
    · have draws (m : Nat) : (if x.kind = .draw then d + 1 else d) + m = d + if x.kind = .draw then m + 1 else m := by
        split <;> omega
      simp [ih, draws, drawsOf_cons, anyRefill_cons, Bool.or_assoc]
    · simp [ih]

/-- The claim fits behind the admitted ones: a draw where only draws, and fewer than the limit, were admitted, a refill
where nothing was. -/
def FitsBehind (limit : Nat) (admitted : List ViewClaim) (c : ViewClaim) : Prop :=
  (c.kind = .draw ∧ (∀ a ∈ admitted, a.kind = .draw) ∧ admitted.length < limit) ∨ (c.kind = .refill ∧ admitted = [])

theorem ClaimKind.ne_refill_iff (k : ClaimKind) : k ≠ .refill ↔ k = .draw := by cases k <;> simp

theorem anyRefill_eq_false_iff {cs : List ViewClaim} : anyRefill cs = false ↔ ∀ a ∈ cs, a.kind = .draw := by
  simp [anyRefill, ClaimKind.ne_refill_iff]

theorem drawsOf_of_draws {cs : List ViewClaim} (h : ∀ a ∈ cs, a.kind = .draw) : drawsOf cs = cs.length := by
  rw [drawsOf, List.filter_eq_self.mpr fun a ha => by simp [h a ha]]

theorem admits_iff_fitsBehind {limit : Nat} {admitted : List ViewClaim} {c : ViewClaim} :
    admits limit (drawsOf admitted) (anyRefill admitted) c.kind = true ↔ FitsBehind limit admitted c := by
  by_cases h : ∀ a ∈ admitted, a.kind = .draw
  · rw [drawsOf_of_draws h, anyRefill_eq_false_iff.mpr h]
    cases hk : c.kind <;> simp [admits, FitsBehind, hk]
    exact fun _ => h
  · have refill : anyRefill admitted = true := by
      rw [← Bool.not_eq_false, anyRefill_eq_false_iff]
      exact h
    have some_admitted : admitted ≠ [] := fun e => h (by simp [e])
    cases hk : c.kind <;> simp [admits, FitsBehind, hk, refill, h, some_admitted]

theorem walk_concat_fits {limit : Nat} {xs : List ViewClaim} {c : ViewClaim}
    (h : FitsBehind limit (walk limit 0 false xs).1 c) :
    walk limit 0 false (xs ++ [c]) = ((walk limit 0 false xs).1 ++ [c], (walk limit 0 false xs).2) := by
  simp [walk_append, walk, admits_iff_fitsBehind.mpr h]

theorem walk_concat_drops {limit : Nat} {xs : List ViewClaim} {c : ViewClaim}
    (h : ¬FitsBehind limit (walk limit 0 false xs).1 c) :
    walk limit 0 false (xs ++ [c]) = ((walk limit 0 false xs).1, (walk limit 0 false xs).2 ++ [c]) := by
  have refused := mt admits_iff_fitsBehind.mp h
  simp [walk_append, walk, refused]

/-! ## What the walk admits (R68) -/

/-- Claims that a bank can carry at once: draws within the limit, or a refill alone. -/
def WithinLimit (limit : Nat) (cs : List ViewClaim) : Prop :=
  ((∀ a ∈ cs, a.kind = .draw) ∧ cs.length ≤ limit) ∨ ∃ c : ViewClaim, c.kind = .refill ∧ cs = [c]

theorem withinLimit_nil (limit : Nat) : WithinLimit limit [] := .inl ⟨by simp, Nat.zero_le _⟩

theorem withinLimit_singleton {limit : Nat} (h : 1 ≤ limit) (c : ViewClaim) : WithinLimit limit [c] := by
  cases hk : c.kind with
  | draw => exact .inl ⟨by simp [hk], h⟩
  | refill => exact .inr ⟨c, hk, rfl⟩

theorem WithinLimit.draws {limit : Nat} {cs : List ViewClaim} (h : WithinLimit limit cs) : drawsOf cs ≤ limit := by
  obtain ⟨hd, hl⟩ | ⟨c, hc, rfl⟩ := h
  · rwa [drawsOf_of_draws hd]
  · simp [drawsOf, hc]

theorem WithinLimit.refill_alone {limit : Nat} {cs : List ViewClaim} (h : WithinLimit limit cs) {c : ViewClaim}
    (hc : c ∈ cs) (hk : c.kind = .refill) : cs = [c] := by
  obtain ⟨hd, -⟩ | ⟨d, -, rfl⟩ := h
  · rw [hd c hc] at hk
    cases hk
  · rw [List.mem_singleton.mp hc]

theorem WithinLimit.of_subperm {limit : Nat} {xs ys : List ViewClaim} (h : WithinLimit limit ys) (hs : xs.Subperm ys) :
    WithinLimit limit xs := by
  obtain ⟨hd, hl⟩ | ⟨c, hc, rfl⟩ := h
  · exact .inl ⟨fun a ha => hd a (hs.subset ha), hs.length_le.trans hl⟩
  · cases xs with
    | nil => exact withinLimit_nil limit
    | cons x xs =>
      have alone : x = c ∧ xs = [] := by
        have := hs.length_le
        exact ⟨by simpa using hs.subset (List.mem_cons_self ..), List.eq_nil_of_length_eq_zero (by simpa using this)⟩
      obtain ⟨rfl, rfl⟩ := alone
      exact .inr ⟨x, hc, rfl⟩

/-- A claim fits behind claims exactly where they can be carried with it. -/
theorem withinLimit_concat_iff {limit : Nat} {cs : List ViewClaim} {c : ViewClaim} :
    WithinLimit limit (cs ++ [c]) ↔ WithinLimit limit cs ∧ FitsBehind limit cs c := by
  constructor
  · intro h
    refine ⟨h.of_subperm (List.sublist_append_left cs [c]).subperm, ?_⟩
    obtain ⟨hd, hl⟩ | ⟨d, hd, e⟩ := h
    · exact .inl ⟨hd c (by simp), fun a ha => hd a (by simp [ha]), by simpa using hl⟩
    · obtain ⟨rfl, rfl⟩ : cs = [] ∧ c = d := by simpa using List.append_eq_singleton_iff.mp e
      exact .inr ⟨hd, rfl⟩
  · rintro ⟨-, ⟨hk, hd, hl⟩ | ⟨hk, rfl⟩⟩
    · refine .inl ⟨fun a ha => ?_, by simpa using hl⟩
      obtain ha | ha := List.mem_append.mp ha
      · exact hd a ha
      · rwa [List.mem_singleton.mp ha]
    · exact .inr ⟨c, hk, rfl⟩

theorem walk_withinLimit (limit : Nat) (cs : List ViewClaim) : WithinLimit limit (walk limit 0 false cs).1 := by
  induction cs using List.reverseRecOn with
  | nil => exact withinLimit_nil limit
  | append_singleton xs c ih =>
    by_cases h : FitsBehind limit (walk limit 0 false xs).1 c
    · rw [walk_concat_fits h]
      exact withinLimit_concat_iff.mpr ⟨ih, h⟩
    · rwa [walk_concat_drops h]

theorem walk_admitted_sublist (limit d : Nat) (r : Bool) (cs : List ViewClaim) : (walk limit d r cs).1.Sublist cs := by
  induction cs generalizing d r with
  | nil => exact .slnil
  | cons c cs ih =>
    simp only [walk]
    split
    · exact (ih _ _).cons_cons c
    · exact (ih _ _).cons c

/-- The walk loses no claim: each is admitted or dropped. -/
theorem walk_perm (limit d : Nat) (r : Bool) (cs : List ViewClaim) :
    ((walk limit d r cs).1 ++ (walk limit d r cs).2).Perm cs := by
  induction cs generalizing d r with
  | nil => exact .nil
  | cons c cs ih =>
    simp only [walk]
    split
    · exact (ih _ _).cons c
    · exact List.perm_middle.trans ((ih _ _).cons c)

theorem walk_admits_first {limit : Nat} (h : 1 ≤ limit) (c : ViewClaim) (cs : List ViewClaim) :
    c ∈ (walk limit 0 false (c :: cs)).1 := by
  have first : admits limit 0 false c.kind = true := by cases c.kind <;> simp [admits]; omega
  simp [walk, first]

/-- The walk drops nothing exactly where the bank can carry all the claims, in whatever order they come. -/
theorem walk_drops_none_iff {limit : Nat} {cs : List ViewClaim} :
    (walk limit 0 false cs).2 = [] ↔ WithinLimit limit cs := by
  constructor
  · intro h
    have all : (walk limit 0 false cs).1 = cs := by
      refine (walk_admitted_sublist limit 0 false cs).eq_of_length ?_
      simpa [h] using (walk_perm limit 0 false cs).length_eq
    rw [← all]
    exact walk_withinLimit limit cs
  · intro h
    induction cs using List.reverseRecOn with
    | nil => rfl
    | append_singleton xs c ih =>
      obtain ⟨hxs, hc⟩ := withinLimit_concat_iff.mp h
      have all : (walk limit 0 false xs).1 = xs := by
        refine (walk_admitted_sublist limit 0 false xs).eq_of_length ?_
        simpa [ih hxs] using (walk_perm limit 0 false xs).length_eq
      rw [walk_concat_fits (by rwa [all]), ih hxs]

/-! ## A claim that enters as the youngest (R76) -/

theorem enteredLast_of_mem {c : ViewClaim} {cs : List ViewClaim} (h : c ∈ cs) :
    enteredLast c cs = (cs.filter fun d => decide (d ≠ c)) ++ [c] := by
  simp [enteredLast, h]

/-- Behind claims that the bank can carry, only the youngest can lose. -/
theorem walk_youngest_dropped {limit : Nat} {xs : List ViewClaim} (h : WithinLimit limit xs) {c d : ViewClaim}
    (hd : d ∈ (walk limit 0 false (xs ++ [c])).2) : d = c := by
  have none_dropped := walk_drops_none_iff.mpr h
  by_cases hf : FitsBehind limit (walk limit 0 false xs).1 c
  · simp [walk_concat_fits hf, none_dropped] at hd
  · simpa [walk_concat_drops hf, none_dropped] using hd

theorem dropped_entered {n : Node} {b : Bank} {c : ViewClaim} (h : c ∈ n.bankView b) :
    n.dropped b (some c) = (walk (n.stc.cfg.drawLimit.get b) 0 false
      (((n.bankView b).filter fun d => decide (d ≠ c)) ++ [c])).2 := by
  rw [Node.dropped, Node.walkOrder, enteredLast_of_mem h]

/-- Settles O43: the walk is characterised claim by claim, and what it admits is within the limit. -/
theorem walkAdmitsWithinTheLimit : Obligations.WalkAdmitsWithinTheLimit := by
  unfold Obligations.WalkAdmitsWithinTheLimit
  refine ⟨fun limit cs => ⟨(walk_withinLimit limit cs).draws, fun c hc hk => (walk_withinLimit limit cs).refill_alone hc hk,
      walk_admitted_sublist limit 0 false cs, walk_perm limit 0 false cs, ?_, fun c h d hd => ?_⟩,
    fun limit xs c => ⟨walk_concat_fits, walk_concat_drops⟩,
    fun n b => ⟨?_, fun x => mem_bankView_iff, rfl, fun c hc => dropped_entered hc⟩⟩
  · rintro c rest rfl hl
    exact walk_admits_first hl c rest
  · have others : WithinLimit limit (cs.filter fun e => decide (e ≠ c)) :=
      (walk_drops_none_iff.mp h).of_subperm (List.filter_sublist (l := cs)).subperm
    rw [enteredLast_of_mem (by simp)] at hd
    refine walk_youngest_dropped others (c := c) ?_
    simpa using hd
  · exact (sortClaims_pairwise _).imp fun h => (ViewClaim.before_iff _ _).mp h

end Sys2Proof.Machine

/-! # The Peer Table: entries, STATUS, CLAIM and RELEASE (file 05 R86 to R92, file 04 R76 to R78) -/

namespace Sys2Proof.Machine

/-! ## Frames of peers -/

/-- A frame of a peer has its effect at a node that hears it (R86). -/
theorem receive_peer_heard {s : State} {bits : Bits} {f : LineFrame} {k : BitVec 6} (hf : receive bits = some f)
    (ha : arrivalOf s.node.stc.node f = .peer k) (hh : s.node.hears = true) (act : LineFrame → Node → Node) :
    s.receive (.peer k) bits (onPeer act) = .next { s with node := act f s.node } := by
  simp [State.receive, hf, ha, onPeer, hh]

/-- A frame of a peer has no effect at a node that does not hear it (file 10 R172). -/
theorem receive_peer_unheard {s : State} {bits : Bits} {f : LineFrame} {k : BitVec 6} (hf : receive bits = some f)
    (ha : arrivalOf s.node.stc.node f = .peer k) (hh : s.node.hears = false) (act : LineFrame → Node → Node) :
    s.receive (.peer k) bits (onPeer act) = .next s := by
  simp [State.receive, hf, ha, onPeer, hh]

theorem arrivalOf_peer_source {node : Nat} {f : LineFrame} {k : BitVec 6} (h : arrivalOf node f = .peer k) :
    f.source.toNat ≠ node := by
  intro e
  simp [arrivalOf, e] at h

/-! ## Entries put and found -/

theorem insertPeer_perm (p : Peer) (qs : List Peer) : (insertPeer p qs).Perm (p :: qs) := by
  induction qs with
  | nil => exact .refl _
  | cons q qs ih =>
    simp only [insertPeer]
    split
    · exact .refl _
    · exact (ih.cons q).trans (.swap p q qs)

theorem find?_insertPeer_other {p : Peer} {y : Nat} (h : y ≠ p.node) (qs : List Peer) :
    (insertPeer p qs).find? (fun e => decide (e.node = y)) = qs.find? fun e => decide (e.node = y) := by
  induction qs with
  | nil => simp [insertPeer, h.symm]
  | cons q qs ih =>
    simp only [insertPeer]
    split
    · rw [List.find?_cons_of_neg (by simpa using h.symm)]
    · simp only [List.find?_cons, ih]

theorem Ptb.find_node {t : Ptb} {x : Nat} {p : Peer} (h : t.find x = some p) : p ∈ t.peers ∧ p.node = x :=
  ⟨List.mem_of_find?_eq_some h, by simpa using List.find?_some h⟩

@[simp] theorem Ptb.find_put_same (t : Ptb) (p : Peer) : (t.put p).find p.node = some p := by
  obtain ⟨q, hq⟩ : ∃ q, (t.put p).find p.node = some q := by
    refine Option.isSome_iff_exists.mp (List.find?_isSome.mpr ⟨p, ?_, by simp⟩)
    exact (insertPeer_perm p _).mem_iff.mpr (List.mem_cons_self ..)
  obtain ⟨hm, hn⟩ := Ptb.find_node hq
  obtain rfl | hm := List.mem_cons.mp ((insertPeer_perm p _).mem_iff.mp hm)
  · exact hq
  · simp [Ptb.without, hn] at hm

theorem Ptb.find_put_other {p : Peer} {y : Nat} (h : y ≠ p.node) (t : Ptb) : (t.put p).find y = t.find y := by
  have kept (e : Peer) : ((!decide (e.node = p.node)) && decide (e.node = y)) = decide (e.node = y) := by
    by_cases he : e.node = y <;> simp [he, h]
  simp [Ptb.find, Ptb.put, find?_insertPeer_other h, Ptb.without, List.find?_filter, kept]

/-- A change of the entries that keeps their node numbers is found as the change of the entry. -/
theorem Ptb.find_map {f : Peer → Peer} (hf : ∀ p, (f p).node = p.node) (ps : List Peer) (x : Nat) :
    (⟨ps.map f⟩ : Ptb).find x = ((⟨ps⟩ : Ptb).find x).map f := by
  simp [Ptb.find, List.find?_map, hf]

/-! ## The walk of a bank at the Peer Table (file 04 R68, R78) -/

@[simp] theorem Peer.withoutClaims_node (p : Peer) (gone : List ViewClaim) : (p.withoutClaims gone).node = p.node := rfl

theorem dropped_bank {n : Node} {b : Bank} {last : Option ViewClaim} {v : ViewClaim} (h : v ∈ n.dropped b last) :
    v.bank = b := bankView_bank (mem_walkOrder (mem_walk_dropped h))

theorem Peer.mem_withoutClaims {p : Peer} {gone : List ViewClaim} {c : PeerClaim} :
    c ∈ (p.withoutClaims gone).claims ↔ c ∈ p.claims ∧ (⟨c.instant, p.node, c.bank, c.kind⟩ : ViewClaim) ∉ gone := by
  simp [Peer.withoutClaims]

theorem Peer.withoutClaims_eq {p : Peer} {gone : List ViewClaim}
    (h : ∀ c ∈ p.claims, (⟨c.instant, p.node, c.bank, c.kind⟩ : ViewClaim) ∉ gone) : p.withoutClaims gone = p := by
  rw [Peer.withoutClaims, List.filter_eq_self.mpr fun c hc => by simp [h c hc]]

@[simp] theorem Peer.withoutClaims_nil (p : Peer) : p.withoutClaims [] = p := Peer.withoutClaims_eq (by simp)

theorem bcuWalk_find (b : Bank) (last : Option ViewClaim) (n : Node) (x : Nat) :
    (bcuWalk b last n).1.ptb.find x = (n.ptb.find x).map (·.withoutClaims (n.dropped b last)) :=
  Ptb.find_map (fun p => p.withoutClaims_node _) n.ptb.peers x

theorem bcuWalk_bankView_other {b d : Bank} (h : d ≠ b) (last : Option ViewClaim) (n : Node) :
    (bcuWalk b last n).1.bankView d = n.bankView d := by
  have peers (p : Peer) : (p.withoutClaims (n.dropped b last)).viewOf d = p.viewOf d := by
    simp only [Peer.viewOf, Peer.withoutClaims, List.filter_filter]
    congr 1
    refine List.filter_congr fun c _ => ?_
    by_cases hc : c.bank = d
    · have kept : (⟨c.instant, p.node, c.bank, c.kind⟩ : ViewClaim) ∉ n.dropped b last :=
        fun hd => h (hc.symm.trans (dropped_bank hd))
      simp [hc, hc ▸ kept]
    · simp [hc]
  have own : (bcuWalk b last n).1.bcu.own.filter (fun c => decide (c.bank = d)) =
      n.bcu.own.filter fun c => decide (c.bank = d) := by
    simp only [bcuWalk, List.filter_filter]
    refine List.filter_congr fun c _ => ?_
    by_cases hc : c.bank = d
    · cases hv : c.view n.stc.node with
      | none => simp
      | some v =>
        have kept : v ∉ n.dropped b last := fun hd => h (by rw [← hc, ← (OwnClaim.view_eq hv).2.1, dropped_bank hd])
        simp [hc, kept]
    · simp [hc]
  simp only [Node.bankView, own]
  simp only [bcuWalk, List.flatMap_map, peers]

theorem bcuWalk_dropped_other {b d : Bank} (h : d ≠ b) (last : Option ViewClaim) (n : Node) :
    (bcuWalk b last n).1.dropped d none = n.dropped d none := by
  simp only [Node.dropped, Node.walkOrder, bcuWalk_bankView_other h]
  rfl

/-- An entry after the walks of several banks: without the claims that the walk of their bank drops. -/
def Peer.afterWalks (n : Node) (banks : List Bank) (p : Peer) : Peer :=
  { p with claims := p.claims.filter fun c =>
      !(banks.contains c.bank && (n.dropped c.bank none).contains ⟨c.instant, p.node, c.bank, c.kind⟩) }

@[simp] theorem Peer.afterWalks_node (n : Node) (banks : List Bank) (p : Peer) : (p.afterWalks n banks).node = p.node :=
  rfl

@[simp] theorem Peer.afterWalks_nil (n : Node) : Peer.afterWalks n [] = id := by
  funext p
  rw [Peer.afterWalks, List.filter_eq_self.mpr fun c _ => by simp, id]

/-- Walks of different banks do not disturb one another (file 04 R78). -/
theorem Peer.afterWalks_cons {b : Bank} {bs : List Bank} (hb : b ∉ bs) (n : Node) (p : Peer) :
    (p.withoutClaims (n.dropped b none)).afterWalks (bcuWalk b none n).1 bs = p.afterWalks n (b :: bs) := by
  simp only [Peer.afterWalks, Peer.withoutClaims, List.filter_filter]
  congr 1
  refine List.filter_congr fun c _ => ?_
  by_cases hc : c.bank = b
  · simp [hc, hb]
  · have kept : (⟨c.instant, p.node, c.bank, c.kind⟩ : ViewClaim) ∉ n.dropped b none := fun hd => hc (dropped_bank hd)
    simp [bcuWalk_dropped_other hc, hc, kept]

theorem bcuWalks_peers {banks : List Bank} (h : banks.Nodup) (n : Node) :
    (bcuWalks banks n).1.ptb.peers = n.ptb.peers.map (Peer.afterWalks n banks) := by
  induction banks generalizing n with
  | nil => simp [bcuWalks]
  | cons b bs ih =>
    obtain ⟨hb, hbs⟩ := List.nodup_cons.mp h
    calc (bcuWalks (b :: bs) n).1.ptb.peers
      _ = (n.ptb.peers.map (·.withoutClaims (n.dropped b none))).map (Peer.afterWalks (bcuWalk b none n).1 bs) := ih hbs _
      _ = n.ptb.peers.map (Peer.afterWalks n (b :: bs)) := by simp [Peer.afterWalks_cons hb]

theorem bcuWalks_find {banks : List Bank} (h : banks.Nodup) (n : Node) (x : Nat) :
    (bcuWalks banks n).1.ptb.find x = (n.ptb.find x).map (Peer.afterWalks n banks) := by
  rw [Ptb.find, bcuWalks_peers h]
  exact Ptb.find_map (Peer.afterWalks_node n banks) n.ptb.peers x

/-- Where every claim of an entry lies on a bank that is walked, the walk of its bank decides about it. -/
theorem Peer.afterWalks_claims {n : Node} {banks : List Bank} {p : Peer} (h : ∀ c ∈ p.claims, c.bank ∈ banks) :
    (p.afterWalks n banks).claims = p.claims.filter fun c =>
      decide ((⟨c.instant, p.node, c.bank, c.kind⟩ : ViewClaim) ∉ n.dropped c.bank none) := by
  refine List.filter_congr fun c hc => ?_
  simp [h c hc]

/-! ## STATUS (R89, R90) -/

theorem Four.nodup_all : Four.all.Nodup := by decide

theorem Four.mem_all (b : Four) : b ∈ Four.all := by cases b <;> decide

theorem banksTouched_nodup (old new : Option Peer) : (banksTouched old new).Nodup := Four.nodup_all.filter _

theorem mem_banksTouched_new {old : Option Peer} {p : Peer} {c : PeerClaim} (h : c ∈ p.claims) :
    c.bank ∈ banksTouched old (some p) := by
  have listed : c.bank ∈ banksOf (some p) :=
    List.mem_filter.mpr ⟨Four.mem_all _, List.any_eq_true.mpr ⟨c, h, by simp⟩⟩
  exact List.mem_filter.mpr ⟨Four.mem_all _, by simp [listed]⟩

/-- After a STATUS the sender's entry is the merged one without what the walks of its banks drop. -/
theorem ptbStatus_find (x : Nat) (f : StatusFields) (n : Node) {new : Peer}
    (hnew : mergedStatus n.now n.stc.cfg.bankCount x (n.ptb.find x) f = new) :
    (ptbStatus x f n).ptb.find x =
      some (new.afterWalks { n with ptb := n.ptb.put new } (banksTouched (n.ptb.find x) (some new))) := by
  have node : new.node = x := by rw [← hnew]; rfl
  have walked : (ptbStatus x f n).ptb = (bcuWalks (banksTouched (n.ptb.find x) (some new))
      { n with ptb := n.ptb.put new }).1.ptb := by
    simp only [ptbStatus, hnew]
    rw [(handLatch_only _ _).ptb (by decide), (handHeat_only _ _ _).ptb (by decide), viewChanged_ptb]
  rw [walked, bcuWalks_find (banksTouched_nodup _ _)]
  simp [← node]

theorem peerStatus_none {f : LineFrame} (h : readStatus f.payload = none) (n : Node) : peerStatus f n = n := by
  simp [peerStatus, h]

theorem peerStatus_some {f : LineFrame} {x : StatusFields} (h : readStatus f.payload = some x) (n : Node) :
    peerStatus f n = ptbStatus f.source.toNat x n := by
  simp [peerStatus, h]

theorem instantOf_agrees {r a : Nat} {h : Int} (ha : ageAgrees r a h = true) : instantOf r a (some h) = h := if_pos ha

theorem instantOf_differs {r a : Nat} {h : Int} (ha : ageAgrees r a h = false) :
    instantOf r a (some h) = instantOf r a none := by
  simp [instantOf, ha]

theorem ageAgrees_open {a : Nat} (ha : a < 65535) (r : Nat) (h : Int) : ageAgrees r a h = true ↔
    10 * (a : Int) ≤ (r : Int) - h ∧ (r : Int) - h ≤ 10 * ((a : Int) + 1) := by
  simp [ageAgrees, ha]

theorem ageAgrees_saturated (r : Nat) (h : Int) : ageAgrees r 65535 h = true ↔ 655350 ≤ (r : Int) - h := by
  simp [ageAgrees]

/-- Settles O44: the walks that follow a STATUS are those of the merged entry's banks, each of its own. -/
theorem statusIsMerged : Obligations.StatusIsMerged := by
  unfold Obligations.StatusIsMerged
  refine ⟨fun s bits f hf ha => ⟨fun hh x hx => ?_, fun h => ?_⟩, fun r a h => ⟨fun ha => ?_, ?_, ?_, ?_, ?_, ?_⟩⟩
  · have step : exec (.peerStatus bits) s = .next { s with node := ptbStatus f.source.toNat x s.node } := by
      rw [← peerStatus_some hx]
      exact receive_peer_heard hf ha hh peerStatus
    refine ⟨_, _, step, ptbStatus_find _ x s.node rfl, rfl, rfl, rfl, rfl, rfl, rfl, rfl, rfl, fun c hc => ?_, rfl, ?_⟩
    · obtain ⟨l, hl, rfl⟩ := List.mem_map.mp (List.mem_filter.mp hc).1
      obtain ⟨hl, hb⟩ := List.mem_filter.mp hl
      exact ⟨by simpa using hb, l, hl, rfl, rfl⟩
    · exact Peer.afterWalks_claims fun c hc => mem_banksTouched_new hc
  · show s.receive (.peer kindStatus) bits (onPeer peerStatus) = .next s
    cases hh : s.node.hears with
    | false => exact receive_peer_unheard hf ha hh peerStatus
    | true =>
      have unread : readStatus f.payload = none := h.resolve_right (by simp [hh])
      rw [receive_peer_heard hf ha hh, peerStatus_none unread]
  · exact if_pos ha
  · rintro rfl
    rfl
  · exact fun ha h1 h2 => instantOf_agrees ((ageAgrees_open ha r h).mpr ⟨h1, h2⟩)
  · refine fun ha hd => instantOf_differs ?_
    rw [Bool.eq_false_iff, Ne, ageAgrees_open ha]
    omega
  · rintro rfl h1
    exact instantOf_agrees ((ageAgrees_saturated r h).mpr h1)
  · rintro rfl hd
    refine instantOf_differs ?_
    rw [Bool.eq_false_iff, Ne, ageAgrees_saturated]
    omega

end Sys2Proof.Machine

/-! # CLAIM and RELEASE of a peer (file 05 R91, R92, file 04 R76, R77) -/

namespace Sys2Proof.Machine

/-! ## Merging a CLAIM (R91) -/

/-- The claim as the view holds it: entered by node `x` on bank `b` at this instant. -/
def Node.entering (n : Node) (x : Nat) (b : Bank) (k : ClaimKind) : ViewClaim := ⟨(n.now : Int), x, b, k⟩

/-- An entry with the claim as its youngest, in place of an older one of the same bank and kind. -/
def Peer.entered (p : Peer) (now : Nat) (b : Bank) (k : ClaimKind) : Peer :=
  { p with claims := (p.withRelease b k).claims ++ [⟨b, k, (now : Int)⟩] }

/-- The node with that entry, before the walk of the bank. -/
def Node.enteredBy (n : Node) (p : Peer) (b : Bank) (k : ClaimKind) : Node :=
  { n with ptb := n.ptb.put (p.entered n.now b k) }

theorem Peer.mem_withRelease {p : Peer} {b : Bank} {k : ClaimKind} {c : PeerClaim} :
    c ∈ (p.withRelease b k).claims ↔ c ∈ p.claims ∧ ¬(c.bank = b ∧ c.kind = k) := by
  simp only [Peer.withRelease, List.mem_filter, Bool.not_eq_true', Bool.and_eq_false_iff, decide_eq_false_iff_not, not_and_or]

theorem Peer.mem_entered {p : Peer} {now : Nat} {b : Bank} {k : ClaimKind} {c : PeerClaim} :
    c ∈ (p.entered now b k).claims ↔ (c ∈ p.claims ∧ ¬(c.bank = b ∧ c.kind = k)) ∨ c = ⟨b, k, (now : Int)⟩ := by
  simp only [Peer.entered, List.mem_append, Peer.mem_withRelease, List.mem_singleton]

theorem Peer.withClaim_full {p : Peer} {b : Bank} {k : ClaimKind} (h : 4 ≤ (p.withRelease b k).claims.length) (r : Nat) :
    p.withClaim r b k = p := if_pos h

theorem Peer.withClaim_open {p : Peer} {b : Bank} {k : ClaimKind} (h : (p.withRelease b k).claims.length < 4) (r : Nat) :
    p.withClaim r b k = p.entered r b k := if_neg (Nat.not_le.mpr h)

theorem ptbClaim_empty {n : Node} {x : Nat} (h : n.ptb.find x = none) (b : Bank) (k : ClaimKind) :
    ptbClaim x b k n = n := by
  simp [ptbClaim, h]

theorem ptbClaim_ignored {n : Node} {x : Nat} {p : Peer} {b : Bank} {k : ClaimKind} (h : n.ptb.find x = some p)
    (hi : n.stc.cfg.bankCount < b.num ∨ p.withClaim n.now b k = p) : ptbClaim x b k n = n := by
  simp [ptbClaim, h, hi]

theorem ptbClaim_entered {n : Node} {x : Nat} {p : Peer} {b : Bank} {k : ClaimKind} (h : n.ptb.find x = some p)
    (hb : b.num ≤ n.stc.cfg.bankCount) (hr : (p.withRelease b k).claims.length < 4) (hp : p.entered n.now b k ≠ p) :
    ptbClaim x b k n = claimEntered (n.entering x b k) (n.enteredBy p b k) := by
  simp only [ptbClaim, h, Peer.withClaim_open hr, if_neg (not_or.mpr ⟨Nat.not_lt.mpr hb, hp⟩)]
  rfl

theorem peerClaim_eq {f : LineFrame} {b : Bank} {k : ClaimKind} (h : readClaim f.payload = some (b, k)) (n : Node) :
    peerClaim f n = ptbClaim f.source.toNat b k n := by
  simp [peerClaim, h]

theorem peerRelease_eq {f : LineFrame} {b : Bank} {k : ClaimKind} (h : readClaim f.payload = some (b, k)) (n : Node) :
    peerRelease f n = ptbRelease f.source.toNat b k n := by
  simp [peerRelease, h]

/-! ## The view with the claim entered -/

theorem bankView_perm (n : Node) (b : Bank) : (n.bankView b).Perm (n.ptb.peers.flatMap (·.viewOf b) ++
    (n.bcu.own.filter fun c => decide (c.bank = b)).filterMap (·.view n.stc.node)) := sortClaims_perm _

/-- An entry and those of the other nodes stand in the table. -/
theorem Ptb.cons_without_subperm {t : Ptb} {p : Peer} (h : p ∈ t.peers) :
    (p :: (t.without p.node).peers).Subperm t.peers := by
  have alone : [p].Sublist (t.peers.filter fun e => decide (e.node = p.node)) :=
    List.singleton_sublist.mpr (List.mem_filter.mpr ⟨h, by simp⟩)
  have parts : (t.peers.filter (fun e => decide (e.node = p.node)) ++ (t.without p.node).peers).Perm t.peers := by
    simpa [Ptb.without] using List.filter_append_perm (fun e : Peer => decide (e.node = p.node)) t.peers
  exact (alone.append (.refl _)).subperm.trans parts.subperm

theorem entered_viewOf_sublist (p : Peer) (now : Nat) (b : Bank) (k : ClaimKind) :
    (((p.entered now b k).viewOf b).filter fun d => decide (d ≠ ⟨(now : Int), p.node, b, k⟩)).Sublist (p.viewOf b) := by
  have youngest : (p.entered now b k).viewOf b = (p.withRelease b k).viewOf b ++ [⟨(now : Int), p.node, b, k⟩] := by
    simp [Peer.viewOf, Peer.entered, Peer.withRelease]
  have older : ((p.withRelease b k).viewOf b).Sublist (p.viewOf b) :=
    ((List.filter_sublist (l := p.claims)).filter _).map _
  simpa [youngest] using List.filter_sublist.trans older

/-- But for the claim that enters, the view of the bank holds what it held, or less. -/
theorem enteredBy_view_subperm {n : Node} {p : Peer} (h : p ∈ n.ptb.peers) (b : Bank) (k : ClaimKind) :
    (((n.enteredBy p b k).bankView b).filter fun d => decide (d ≠ n.entering p.node b k)).Subperm (n.bankView b) := by
  have put : (n.enteredBy p b k).ptb.peers.Perm (p.entered n.now b k :: (n.ptb.without p.node).peers) :=
    insertPeer_perm _ _
  have view := ((bankView_perm (n.enteredBy p b k) b).trans ((put.flatMap_right (·.viewOf b)).append_right _)).filter
    fun d => decide (d ≠ n.entering p.node b k)
  have table : ((p :: (n.ptb.without p.node).peers).flatMap (·.viewOf b)).Subperm (n.ptb.peers.flatMap (·.viewOf b)) := by
    obtain ⟨l, hl, hs⟩ := Ptb.cons_without_subperm h
    exact ⟨_, hl.flatMap_right _, hs.flatMap _⟩
  refine view.subperm.trans (.trans ?_ ((List.subperm_append_right _).mpr table |>.trans (bankView_perm n b).symm.subperm))
  rw [List.filter_append, List.flatMap_cons, List.filter_append, List.flatMap_cons]
  exact (((entered_viewOf_sublist p n.now b k).append List.filter_sublist).append List.filter_sublist).subperm

theorem entering_mem_view (n : Node) (p : Peer) (b : Bank) (k : ClaimKind) :
    n.entering p.node b k ∈ (n.enteredBy p b k).bankView b :=
  mem_bankView_iff.mpr (.inl ⟨p.entered n.now b k, (insertPeer_perm _ _).mem_iff.mpr (List.mem_cons_self ..),
    ⟨b, k, (n.now : Int)⟩, Peer.mem_entered.mpr (.inr rfl), rfl, rfl⟩)

/-- Where the view of the bank stood whole, no other claim loses to the one that enters (R76). -/
theorem enteredBy_dropped {n : Node} {p : Peer} (h : p ∈ n.ptb.peers) {b : Bank} {k : ClaimKind}
    (hw : WithinLimit (n.stc.cfg.drawLimit.get b) (n.bankView b)) {d : ViewClaim}
    (hd : d ∈ (n.enteredBy p b k).dropped b (some (n.entering p.node b k))) : d = n.entering p.node b k := by
  rw [dropped_entered (entering_mem_view n p b k)] at hd
  exact walk_youngest_dropped (hw.of_subperm (enteredBy_view_subperm h b k)) hd

/-- On a bank with no claim the one that enters is admitted (R76). -/
theorem enteredBy_admitted {n : Node} {p : Peer} (h : p ∈ n.ptb.peers) {b : Bank} {k : ClaimKind}
    (hv : n.bankView b = []) (hl : 1 ≤ n.stc.cfg.drawLimit.get b) :
    (n.enteredBy p b k).dropped b (some (n.entering p.node b k)) = [] := by
  have others := enteredBy_view_subperm h b k
  rw [hv, List.subperm_nil] at others
  rw [dropped_entered (entering_mem_view n p b k), others]
  exact walk_drops_none_iff.mpr (withinLimit_singleton hl _)

/-! ## What the walk of the claim leaves -/

theorem claimEntered_find (c : ViewClaim) (n : Node) (y : Nat) :
    (claimEntered c n).ptb.find y = (n.ptb.find y).map (·.withoutClaims (n.dropped c.bank (some c))) := by
  rw [claimEntered_ptb, bcuWalk_find]

theorem retest_none_requested {banks : List Bank} {n : Node}
    (h : ∀ o ∈ n.bcu.own, o.bank ∈ banks → o.state ≠ .requested) : retest banks n = n := by
  have none_requested : (n.bcu.own.filter fun o => decide (o.state = .requested) && banks.contains o.bank) = [] :=
    List.filter_eq_nil_iff.mpr fun o ho => by simpa using fun hs hb => h o ho hb hs
  rw [retest, none_requested]
  rfl

section
variable {n : Node} {b : Bank} {last : Option ViewClaim} (h : ∀ d ∈ n.dropped b last, d.holder ≠ n.stc.node)
include h

/-- A walk that drops no own claim leaves the own claims. -/
theorem bcuWalk_own : (bcuWalk b last n).1.bcu.own = n.bcu.own := by
  refine List.filter_eq_self.mpr fun o _ => ?_
  cases hv : o.view n.stc.node with
  | none => simp
  | some v =>
    have kept : v ∉ n.dropped b last := fun hd => h v hd (OwnClaim.view_eq hv).1
    simpa using kept

theorem bcuWalk_lost : (bcuWalk b last n).2 = [] :=
  List.map_eq_nil_iff.mpr (List.filter_eq_nil_iff.mpr fun d hd => by simpa using h d hd)

theorem bcuWalk_ptb_only : (bcuWalk b last n).1 = { n with ptb := (bcuWalk b last n).1.ptb } :=
  congrArg (fun o => { n with bcu.own := o, ptb := (bcuWalk b last n).1.ptb }) (bcuWalk_own h)

end

/-- The walk of an entered claim that drops no own claim is felt by the Peer Table alone. -/
theorem walkEntry_ptb_only {n : Node} {c : ViewClaim} (h : ∀ d ∈ n.dropped c.bank (some c), d.holder ≠ n.stc.node) :
    walkEntry c n = { n with ptb := (bcuWalk c.bank (some c) n).1.ptb } := by
  rw [walkEntry, bcuWalk_lost h]
  exact bcuWalk_ptb_only h

theorem claimEntered_ptb_only {n : Node} {c : ViewClaim} (h : ∀ d ∈ n.dropped c.bank (some c), d.holder ≠ n.stc.node)
    (hr : ∀ o ∈ n.bcu.own, o.bank = c.bank → o.state ≠ .requested) :
    claimEntered c n = { n with ptb := (claimEntered c n).ptb } := by
  rw [claimEntered_ptb]
  unfold claimEntered
  rw [walkEntry_ptb_only h]
  exact retest_none_requested (by simpa using hr)

/-- An entry of another node than the only claim that can lose keeps its claims. -/
theorem Peer.withoutClaims_other {p : Peer} {gone : List ViewClaim} {c : ViewClaim} (h : ∀ d ∈ gone, d = c)
    (hn : p.node ≠ c.holder) : p.withoutClaims gone = p :=
  Peer.withoutClaims_eq fun a _ hd => hn (by rw [← h _ hd])

/-- The sender's entry where only the claim that enters can lose: with it or without it. -/
theorem entered_withoutClaims {p : Peer} {now : Nat} {b : Bank} {k : ClaimKind} {gone : List ViewClaim}
    (h : ∀ d ∈ gone, d = ⟨(now : Int), p.node, b, k⟩) :
    ((p.entered now b k).withoutClaims gone).claims = (p.withRelease b k).claims ∨
      ((p.entered now b k).withoutClaims gone).claims = (p.withRelease b k).claims ++ [⟨b, k, (now : Int)⟩] := by
  have older : ((p.withRelease b k).claims.filter fun c : PeerClaim =>
      !gone.contains ⟨c.instant, p.node, c.bank, c.kind⟩) = (p.withRelease b k).claims := by
    refine List.filter_eq_self.mpr fun c hc => ?_
    have kept : (⟨c.instant, p.node, c.bank, c.kind⟩ : ViewClaim) ∉ gone := fun hd => by
      have same := h _ hd
      simp only [ViewClaim.mk.injEq] at same
      exact (Peer.mem_withRelease.mp hc).2 same.2.2
    simp [kept]
  have split : ((p.entered now b k).withoutClaims gone).claims = (p.withRelease b k).claims ++
      [(⟨b, k, (now : Int)⟩ : PeerClaim)].filter fun c => !gone.contains ⟨c.instant, p.node, c.bank, c.kind⟩ := by
    simp only [Peer.withoutClaims, Peer.entered, List.filter_append, older]
  by_cases hd : (⟨(now : Int), p.node, b, k⟩ : ViewClaim) ∈ gone
  · exact .inl (by simp [split, hd])
  · exact .inr (by simp [split, hd])

/-- What a CLAIM that is taken leaves of `n`: the claim stands in the sender's entry `p`, and the claims `gone` have left
the view of its bank. -/
structure ClaimTaken (n m : Node) (p : Peer) (b : Bank) (k : ClaimKind) (gone : List ViewClaim) : Prop where
  find : ∀ y, m.ptb.find y = ((n.enteredBy p b k).ptb.find y).map (·.withoutClaims gone)
  bank : ∀ d ∈ gone, d.bank = b
  admitted : n.bankView b = [] → 1 ≤ n.stc.cfg.drawLimit.get b → gone = []
  youngest : WithinLimit (n.stc.cfg.drawLimit.get b) (n.bankView b) → ∀ d ∈ gone, d = n.entering p.node b k
  frame : WithinLimit (n.stc.cfg.drawLimit.get b) (n.bankView b) →
    (∀ o ∈ n.bcu.own, o.bank = b → o.state ≠ .requested) → m = { n with ptb := m.ptb }

/-- A CLAIM on a bank of the site whose sender's entry has room is taken; one that the entry ends in already changes
nothing (R91). -/
theorem ptbClaim_taken {n : Node} {x : Nat} {p : Peer} {b : Bank} {k : ClaimKind} (h : n.ptb.find x = some p)
    (hx : x ≠ n.stc.node) (hb : b.num ≤ n.stc.cfg.bankCount) (hr : (p.withRelease b k).claims.length < 4) :
    ∃ gone, ClaimTaken n (ptbClaim x b k n) p b k gone := by
  obtain ⟨hp, rfl⟩ := Ptb.find_node h
  by_cases he : p.entered n.now b k = p
  · rw [ptbClaim_ignored h (.inr ((Peer.withClaim_open hr _).trans he))]
    have put (y : Nat) : (n.enteredBy p b k).ptb.find y = n.ptb.find y := by
      simp only [Node.enteredBy, he]
      by_cases hy : y = p.node
      · rw [hy, Ptb.find_put_same, h]
      · exact Ptb.find_put_other hy _
    exact ⟨[], fun y => by simp [put], by simp, fun _ _ => rfl, by simp, fun _ _ => rfl⟩
  · rw [ptbClaim_entered h hb hr he]
    refine ⟨_, claimEntered_find _ _, fun d hd => dropped_bank hd, enteredBy_admitted hp,
      fun hw d hd => enteredBy_dropped hp hw hd, fun hw ho => ?_⟩
    exact claimEntered_ptb_only (n := n.enteredBy p b k) (fun d hd => enteredBy_dropped hp hw hd ▸ hx) ho

section
variable {n m : Node} {p : Peer} {b : Bank} {k : ClaimKind} {gone : List ViewClaim} (h : ClaimTaken n m p b k gone)
include h

theorem ClaimTaken.sender : m.ptb.find p.node = some ((p.entered n.now b k).withoutClaims gone) := by
  rw [h.find, Node.enteredBy]
  exact congrArg _ (Ptb.find_put_same n.ptb (p.entered n.now b k))

theorem ClaimTaken.other {y : Nat} (hy : y ≠ p.node) : m.ptb.find y = (n.ptb.find y).map (·.withoutClaims gone) := by
  rw [h.find, Node.enteredBy]
  exact congrArg _ (Ptb.find_put_other (p := p.entered n.now b k) hy n.ptb)

/-- Claims on other banks stay, in every entry. -/
theorem ClaimTaken.mem_other_bank (q : Peer) {c : PeerClaim} (hc : c.bank ≠ b) :
    c ∈ (q.withoutClaims gone).claims ↔ c ∈ q.claims :=
  Peer.mem_withoutClaims.trans (and_iff_left fun hd => hc (h.bank _ hd))

/-- The other entries stay where only the claim that enters can lose. -/
theorem ClaimTaken.other_same (hw : WithinLimit (n.stc.cfg.drawLimit.get b) (n.bankView b)) {y : Nat} (hy : y ≠ p.node) :
    m.ptb.find y = n.ptb.find y := by
  rw [h.other hy]
  cases hq : n.ptb.find y with
  | none => rfl
  | some q =>
    have node : q.node ≠ p.node := by rwa [(Ptb.find_node hq).2]
    exact congrArg some (Peer.withoutClaims_other (h.youngest hw) node)

end

/-- Settles O45: the walk that a CLAIM runs touches its bank alone, and where that stood whole only the new claim. -/
theorem peerClaimsComeAndGo : Obligations.PeerClaimsComeAndGo := by
  unfold Obligations.PeerClaimsComeAndGo
  intro s bits f b k hf hh hc rest
  refine ⟨fun ha => ?_, fun ha => ?_⟩
  · have step : exec (.peerClaim bits) s = .next { s with node := ptbClaim f.source.toNat b k s.node } := by
      rw [← peerClaim_eq hc]
      exact receive_peer_heard hf ha hh peerClaim
    refine ⟨fun ignored => ?_, fun p hp hb hr => ?_⟩
    · rw [step]
      obtain h | h | ⟨p, hp, h⟩ := ignored
      · rw [ptbClaim_empty h]
      · cases hp : s.node.ptb.find f.source.toNat with
        | none => rw [ptbClaim_empty hp]
        | some p => rw [ptbClaim_ignored hp (.inl h)]
      · rw [ptbClaim_ignored hp (.inr (Peer.withClaim_full h _))]
    · have hnode := (Ptb.find_node hp).2
      have source := arrivalOf_peer_source ha
      obtain ⟨gone, taken⟩ := ptbClaim_taken hp source hb hr
      rw [← hnode] at step taken ⊢
      have mem {c : PeerClaim} (hc : c ∈ ((p.entered s.node.now b k).withoutClaims gone).claims) :=
        Peer.mem_entered.mp (Peer.mem_withoutClaims.mp hc).1
      refine ⟨_, _, step, taken.sender, rfl, fun c hc hb hk => ?_, fun c hb => ?_, fun c hc _ hk => ?_, fun hv hl => ?_,
        fun y e hy he => ?_, fun y hy => ?_, fun hw ho => ?_⟩
      · obtain ⟨-, other⟩ | rfl := mem hc
        · exact absurd ⟨hb, hk⟩ other
        · rfl
      · have older : c ≠ ⟨b, k, (s.node.now : Int)⟩ := fun e => hb (by rw [e])
        rw [taken.mem_other_bank _ hb, Peer.mem_entered]
        simp [hb, older]
      · obtain ⟨held, -⟩ | rfl := mem hc
        · exact held
        · exact absurd rfl hk
      · refine Peer.mem_withoutClaims.mpr ⟨Peer.mem_entered.mpr (.inr rfl), ?_⟩
        simp [taken.admitted hv hl]
      · exact ⟨_, by rw [taken.other hy, he]; rfl, rfl, fun c hb => taken.mem_other_bank e hb⟩
      · have other : y ≠ p.node := fun e => by simp [e, hnode, hp] at hy
        rw [taken.other other, hy]
        rfl
      · have whole := walk_drops_none_iff.mp hw
        exact ⟨taken.frame whole ho, fun y hy => taken.other_same whole hy,
          entered_withoutClaims (taken.youngest whole)⟩
  · have step : exec (.peerRelease bits) s = .next { s with node := ptbRelease f.source.toNat b k s.node } := by
      rw [← peerRelease_eq hc]
      exact receive_peer_heard hf ha hh peerRelease
    rw [step]
    exact ⟨fun h => by simp [ptbRelease, h], fun p hp => by simp only [ptbRelease, hp]; rfl⟩

end Sys2Proof.Machine

/-! # Fields of the payloads of own frames (file 12 R189) -/

namespace Sys2Proof.Machine

/-! ## Figures in bytes -/

@[simp] theorem bigEndian_length (k x : Nat) : (bigEndian k x).length = k := by simp [bigEndian]

theorem natOfBytes_append_singleton (bs : List Byte) (b : Byte) :
    natOfBytes (bs ++ [b]) = 256 * natOfBytes bs + b.toNat := by
  simp [natOfBytes]

/-- A figure sent in `k` bytes is read back, saturated (file 12, conventions). -/
theorem natOfBytes_bigEndian (k x : Nat) : natOfBytes (bigEndian k x) = min x (256 ^ k - 1) := by
  have leading (j : Nat) (hj : j ≤ k) : natOfBytes ((List.range j).map fun i =>
      BitVec.ofNat 8 (min x (256 ^ k - 1) / 256 ^ (k - 1 - i))) = min x (256 ^ k - 1) / 256 ^ (k - j) := by
    induction j with
    | zero =>
      have : 0 < 256 ^ k := Nat.pos_of_ne_zero (by simp)
      have saturated : min x (256 ^ k - 1) < 256 ^ k := by omega
      exact (Nat.div_eq_of_lt saturated).symm
    | succ j ih =>
      have next : k - j = k - 1 - j + 1 := by omega
      have last : k - (j + 1) = k - 1 - j := by omega
      rw [List.range_succ, List.map_append, List.map_singleton, natOfBytes_append_singleton, ih (by omega), next, last,
        Nat.pow_succ, ← Nat.div_div_eq_div_mul, BitVec.toNat_ofNat]
      exact Nat.div_add_mod _ 256
  simpa [bigEndian] using leading k (Nat.le_refl k)

/-- The field that stands first. -/
theorem fieldAt_first (k x : Nat) (rest : List Byte) : fieldAt (bigEndian k x ++ rest) 0 k = min x (256 ^ k - 1) := by
  rw [fieldAt, List.drop_zero, List.take_left' (bigEndian_length k x), natOfBytes_bigEndian]

theorem fieldAt_only (k x : Nat) : fieldAt (bigEndian k x) 0 k = min x (256 ^ k - 1) := by
  simpa using fieldAt_first k x []

/-- A field behind the first one. -/
theorem fieldAt_behind {j o : Nat} (h : j ≤ o) (x k : Nat) (rest : List Byte) :
    fieldAt (bigEndian j x ++ rest) o k = fieldAt rest (o - j) k := by
  have past : (bigEndian j x).drop o = [] := List.drop_eq_nil_of_le (by simpa using h)
  simp [fieldAt, List.drop_append, past]

/-- A field of one byte. -/
theorem fieldAt_one (bs : List Byte) (o : Nat) : fieldAt bs o 1 = (byteAt bs o).toNat := by
  rw [fieldAt, byteAt, List.getD_eq_getElem?_getD, List.take_one, List.head?_drop]
  cases bs[o]? <;> simp [natOfBytes]

theorem byteAt_getLsbD (bs : List Byte) (o i : Nat) : (byteAt bs o).getLsbD i = (fieldAt bs o 1).testBit i := by
  rw [fieldAt_one, BitVec.getLsbD]

theorem fieldAt_add (bs : List Byte) (a o k : Nat) : fieldAt bs (a + o) k = fieldAt (bs.drop a) o k := by
  simp [fieldAt]

/-! ## Codes fit in their bits -/

theorem phaseCode_le (p : Phase) : phaseCode p ≤ 255 := by cases p <;> decide

theorem pauseShownCode_eq (p : Pauses) : pauseShownCode p = (p.shown.map pauseCode).getD 0 := by
  unfold pauseShownCode
  cases p.shown <;> rfl

theorem pauseShownCode_le (p : Pauses) : pauseShownCode p ≤ 255 := by
  unfold pauseShownCode
  split
  · rename_i r _
    cases r <;> decide
  · decide

theorem sourceCode_le (s : Option Source) : sourceCode s ≤ 255 := by
  obtain _ | ⟨b⟩ | _ := s
  · decide
  · have := b.num_pos
    simp only [sourceCode]
    omega
  · decide

theorem compCode_le (c : CompState) : compCode c ≤ 6 := by cases c <;> decide

theorem loopCode_le (l : LoopState) : loopCode l ≤ 2 := by cases l <;> simp [loopCode]

theorem latchCode_le (l : Option LatchCause) : latchCode l ≤ 3 := by
  cases l with
  | none => decide
  | some c => cases c <;> decide

/-! ## Parts of a STATUS -/

theorem faultByte_eq (n : Node) : n.faultByte =
    Nat.bit n.hsu.waiting (Nat.bit (decide (n.stc.phase = .startFault)) (Nat.bit n.stc.conflict (Nat.bit n.mpu.creepFlag
      (Nat.bit (decide (n.ccu.state = .lockout)) (Nat.bit n.liu.silentEnded 0))))) := by
  simp only [Node.faultByte, Nat.bit_val]
  omega

theorem rowMask_eq (n : Node) : n.rowMask =
    Nat.bit n.mpu.prices.one.isSome (Nat.bit n.mpu.prices.two.isSome (Nat.bit n.mpu.prices.three.isSome
      (Nat.bit n.mpu.prices.four.isSome 0))) := by
  simp only [Node.rowMask, Nat.bit_val]
  omega

theorem faultByte_le (n : Node) : n.faultByte ≤ 255 := by
  unfold Node.faultByte
  linarith [Bool.toNat_le n.hsu.waiting, Bool.toNat_le (decide (n.stc.phase = .startFault)),
    Bool.toNat_le n.stc.conflict, Bool.toNat_le n.mpu.creepFlag, Bool.toNat_le (decide (n.ccu.state = .lockout)),
    Bool.toNat_le n.liu.silentEnded]

theorem rowMask_le (n : Node) : n.rowMask ≤ 255 := by
  unfold Node.rowMask
  linarith [Bool.toNat_le n.mpu.prices.one.isSome, Bool.toNat_le n.mpu.prices.two.isSome,
    Bool.toNat_le n.mpu.prices.three.isSome, Bool.toNat_le n.mpu.prices.four.isSome]

theorem rowMask_testBit (n : Node) (r : Four) : n.rowMask.testBit (r.num - 1) = (n.mpu.prices.get r).isSome := by
  rw [rowMask_eq]
  cases r <;> simp [Four.num, Quad.get, Nat.testBit_bit_succ]

theorem refillBankCode_le (n : Node) : n.refillBankCode ≤ 4 := by
  unfold Node.refillBankCode
  split
  · exact (Four.num_pos _).2
  · omega

theorem refillBankCode_loaded {n : Node} {c : RefillClaim} (hs : n.ccu.state = .loadedRefill) (hc : n.ccu.claim = some c) :
    n.refillBankCode = c.bank.num := by
  simp [Node.refillBankCode, hs, hc]

theorem refillBankCode_other {n : Node} (hs : n.ccu.state ≠ .loadedRefill) : n.refillBankCode = 0 := by
  unfold Node.refillBankCode
  split
  · contradiction
  · rfl

/-- Byte 11 of a STATUS: loop state, latch and its cause. -/
theorem loopByte_fields {l s c : Nat} (hl : l ≤ 2) (hs : s ≤ 1) (hc : c ≤ 3) :
    l + 4 * s + 16 * c ≤ 255 ∧ (l + 4 * s + 16 * c) % 4 = l ∧ (l + 4 * s + 16 * c) / 16 = c ∧
      (l + 4 * s + 16 * c).testBit 2 = decide (s = 1) := by
  refine ⟨by omega, by omega, by omega, ?_⟩
  rw [Nat.testBit_eq_decide_div_mod_eq]
  exact decide_eq_decide.mpr (by omega)

theorem raiseAge_none {n : Node} (h : n.hsu.rOwn = 0) : n.raiseAge = 0 := if_pos h

theorem raiseAge_some {n : Node} {r : Nat} (h : 0 < n.hsu.rOwn) (hr : n.hsu.raise = some r) :
    n.raiseAge = min ((n.now - r) / 10) 65535 := by
  simp [Node.raiseAge, Nat.ne_of_gt h, hr, reportedAge]

/-! ## The claim entries of a STATUS (R82) -/

@[simp] theorem claimEntry_length (now : Nat) (c : ViewClaim) : (claimEntry now c).length = 3 := by simp [claimEntry]

theorem claimEntries_bytes_length (now : Nat) (cs : List ViewClaim) :
    (cs.flatMap (claimEntry now)).length = 3 * cs.length := by
  simp [List.length_flatMap, Nat.mul_comm]

theorem claimEntries_length (now : Nat) (cs : List ViewClaim) : (claimEntries now cs).length = 12 := by
  simp only [claimEntries, List.length_append, List.length_replicate, claimEntries_bytes_length, List.length_take]
  omega

theorem drop_claimEntry_bytes (now i : Nat) (cs : List ViewClaim) :
    (cs.flatMap (claimEntry now)).drop (3 * i) = (cs.drop i).flatMap (claimEntry now) := by
  induction i generalizing cs with
  | zero => rfl
  | succ i ih =>
    cases cs with
    | nil => simp
    | cons c cs =>
      have behind : 3 * (i + 1) = (claimEntry now c).length + 3 * i := by rw [claimEntry_length]; omega
      rw [List.flatMap_cons, behind, List.drop_append, List.drop_eq_nil_of_le (by simp), List.nil_append,
        Nat.add_sub_cancel_left, ih]
      rfl

/-- The entry of a listed claim. -/
theorem claimEntries_listed {cs : List ViewClaim} {i : Nat} {c : ViewClaim} (hi : i < 4) (h : cs[i]? = some c) (now : Nat) :
    ∃ rest, (claimEntries now cs).drop (3 * i) = claimEntry now c ++ rest := by
  have listed : (cs.take 4).drop i = c :: (cs.take 4).drop (i + 1) := by
    have hc : (cs.take 4)[i]? = some c := by rw [List.getElem?_take_of_lt hi, h]
    obtain ⟨hl, hc⟩ := List.getElem?_eq_some_iff.mp hc
    rw [List.drop_eq_getElem_cons hl, hc]
  have within : 3 * i ≤ ((cs.take 4).flatMap (claimEntry now)).length := by
    have := (List.getElem?_eq_some_iff.mp h).1
    rw [claimEntries_bytes_length, List.length_take]
    omega
  simp only [claimEntries, List.drop_append_of_le_length within, drop_claimEntry_bytes, listed, List.flatMap_cons,
    List.append_assoc]
  exact ⟨_, rfl⟩

theorem natOfBytes_replicate_zero (k : Nat) : natOfBytes (List.replicate k 0) = 0 := by
  induction k with
  | zero => rfl
  | succ k ih => rw [List.replicate_succ', natOfBytes_append_singleton, ih]; rfl

/-- Behind the listed claims stand zeros. -/
theorem claimEntries_unlisted {cs : List ViewClaim} {i : Nat} (h : cs.length ≤ i) (now k : Nat) :
    fieldAt ((claimEntries now cs).drop (3 * i)) 0 k = 0 := by
  have behind : ((cs.take 4).flatMap (claimEntry now)).length ≤ 3 * i := by
    rw [claimEntries_bytes_length, List.length_take]
    omega
  simp only [claimEntries, fieldAt, List.drop_append, List.drop_eq_nil_of_le behind, List.nil_append,
    List.drop_replicate, List.take_replicate, natOfBytes_replicate_zero]

/-! ## The payloads -/

/-- The fields of a STATUS before they are taken apart into codes and flags (R189). -/
structure StatusRead (n : Node) (p : List Byte) : Prop where
  length : p.length = 29
  phase : fieldAt p 0 1 = phaseCode n.fcu.phase
  pause : fieldAt p 1 1 = pauseShownCode n.fcu.pauses
  hose : fieldAt p 2 1 = min n.stc.hoseCode 255
  faults : fieldAt p 3 1 = n.faultByte
  reservation : fieldAt p 4 3 = min n.hsu.rOwn 16777215
  raise : fieldAt p 7 2 = min n.raiseAge 65535
  compressor : fieldAt p 9 1 = 16 * compCode n.ccu.state + n.refillBankCode
  loop : fieldAt p 10 1 = loopCode n.isc.loop + 4 * n.isc.latch.isSome.toNat + 16 * latchCode n.isc.latch
  total : fieldAt p 11 2 = min n.liu.total 65535
  rows : fieldAt p 13 1 = n.rowMask
  free : fieldAt p 14 1 = min n.rst.freeSlots 255
  uncollected : fieldAt p 15 1 = min n.rst.uncollected 255
  count : fieldAt p 16 1 = min n.listedClaims.length 4
  entries : p.drop 17 = claimEntries n.now n.listedClaims

theorem statusPayload_read (n : Node) : StatusRead n n.statusPayload := by
  have loop := (loopByte_fields (loopCode_le n.isc.loop) (Bool.toNat_le n.isc.latch.isSome) (latchCode_le n.isc.latch)).1
  have compressor : 16 * compCode n.ccu.state + n.refillBankCode ≤ 255 := by
    have := compCode_le n.ccu.state
    have := refillBankCode_le n
    omega
  constructor
  case length => simp [Node.statusPayload, claimEntries_length]
  case entries => simp [Node.statusPayload, List.drop_append, List.drop_eq_nil_of_le]
  all_goals simp only [Node.statusPayload, List.append_assoc, fieldAt_behind, fieldAt_first, Nat.reduceLeDiff,
    Nat.reduceSub, Nat.reducePow]
  case phase => exact Nat.min_eq_left (phaseCode_le _)
  case pause => exact Nat.min_eq_left (pauseShownCode_le _)
  case faults => exact Nat.min_eq_left (faultByte_le n)
  case compressor => exact Nat.min_eq_left compressor
  case loop => exact Nat.min_eq_left loop
  case rows => exact Nat.min_eq_left (rowMask_le n)
  case count => exact Nat.min_eq_left (by omega)

/-- The fields of a PROGRESS before they are taken apart (R179, R189). -/
structure ProgressRead (n : Node) (p : List Byte) : Prop where
  length : p.length = 19
  number : fieldAt p 0 2 = min n.rst.lastIssued 65535
  phase : fieldAt p 2 1 = phaseCode n.fcu.phase
  source : fieldAt p 3 1 = sourceCode n.fcu.lastSource
  gross : fieldAt p 4 4 = min n.mpu.gross 4294967295
  net : fieldAt p 8 4 = min n.mpu.projNet 4294967295
  amount : fieldAt p 12 4 = min n.mpu.projAmount 4294967295
  soc : fieldAt p 16 2 = min (n.fcu.lastSoc.getD 65535) 65535
  pause : fieldAt p 18 1 = pauseShownCode n.fcu.pauses

theorem progressPayload_read (n : Node) : ProgressRead n n.progressPayload := by
  constructor
  case length => simp [Node.progressPayload]
  all_goals simp only [Node.progressPayload, List.append_assoc, fieldAt_behind, fieldAt_first, fieldAt_only,
    Nat.reduceLeDiff, Nat.reduceSub, Nat.reducePow]
  case phase => exact Nat.min_eq_left (phaseCode_le _)
  case source => exact Nat.min_eq_left (sourceCode_le _)
  case pause => exact Nat.min_eq_left (pauseShownCode_le _)

/-! ## The fields of a STATUS, code by code -/

section
variable {n : Node} {p : List Byte} (h : StatusRead n p)
include h

theorem StatusRead.faultBits : (byteAt p 3).getLsbD 0 = n.hsu.waiting ∧
    (byteAt p 3).getLsbD 1 = decide (n.stc.phase = .startFault) ∧ (byteAt p 3).getLsbD 2 = n.stc.conflict ∧
    (byteAt p 3).getLsbD 3 = n.mpu.creepFlag ∧ (byteAt p 3).getLsbD 4 = decide (n.ccu.state = .lockout) ∧
    (byteAt p 3).getLsbD 5 = n.liu.silentEnded := by
  simp only [byteAt_getLsbD, h.faults, faultByte_eq]
  simp [Nat.testBit_bit_succ]

theorem StatusRead.raiseAge : (n.hsu.rOwn = 0 → fieldAt p 7 2 = 0) ∧
    ∀ r, 0 < n.hsu.rOwn → n.hsu.raise = some r → fieldAt p 7 2 = min ((n.now - r) / 10) 65535 := by
  rw [h.raise]
  refine ⟨fun h0 => ?_, fun r hr hs => ?_⟩
  · rw [raiseAge_none h0]
    rfl
  · rw [raiseAge_some hr hs, Nat.min_assoc, Nat.min_self]

theorem StatusRead.compressorCodes : fieldAt p 9 1 / 16 = compCode n.ccu.state ∧
    (∀ c, n.ccu.state = .loadedRefill → n.ccu.claim = some c → fieldAt p 9 1 % 16 = c.bank.num) ∧
    (n.ccu.state ≠ .loadedRefill → fieldAt p 9 1 % 16 = 0) := by
  have bank := refillBankCode_le n
  rw [h.compressor]
  refine ⟨by omega, fun c hs hc => ?_, fun hs => ?_⟩
  · rw [← refillBankCode_loaded hs hc]
    omega
  · rw [← refillBankCode_other hs]
    omega

theorem StatusRead.loopCodes : fieldAt p 10 1 % 4 = loopCode n.isc.loop ∧
    (byteAt p 10).getLsbD 2 = n.isc.latch.isSome ∧ fieldAt p 10 1 / 16 = latchCode n.isc.latch := by
  obtain ⟨-, loop, cause, latch⟩ :=
    loopByte_fields (loopCode_le n.isc.loop) (Bool.toNat_le n.isc.latch.isSome) (latchCode_le n.isc.latch)
  rw [byteAt_getLsbD, h.loop]
  exact ⟨loop, latch.trans (by simp), cause⟩

theorem StatusRead.rowBits (r : Four) : (byteAt p 13).getLsbD (r.num - 1) = (n.mpu.prices.get r).isSome := by
  rw [byteAt_getLsbD, h.rows, rowMask_testBit]

theorem StatusRead.entryField (i o k : Nat) :
    fieldAt p (17 + 3 * i + o) k = fieldAt ((claimEntries n.now n.listedClaims).drop (3 * i)) o k := by
  rw [fieldAt_add, ← h.entries, List.drop_drop]

theorem StatusRead.listed {i : Nat} {c : ViewClaim} (hi : i < 4) (hc : n.listedClaims[i]? = some c) :
    byteAt p (17 + 3 * i) = claimByte c.bank c.kind ∧
      fieldAt p (18 + 3 * i) 2 = min (((n.now : Int) - c.instant).toNat / 10) 65535 := by
  obtain ⟨rest, entry⟩ := claimEntries_listed hi hc n.now
  have head : fieldAt p (17 + 3 * i + 0) 1 = (claimByte c.bank c.kind).toNat := by
    rw [h.entryField, entry, fieldAt_one]
    rfl
  have age : fieldAt p (17 + 3 * i + 1) 2 = min (((n.now : Int) - c.instant).toNat / 10) 65535 := by
    rw [h.entryField, entry, claimEntry, List.cons_append]
    have behind (b : Byte) (bs : List Byte) : fieldAt (b :: bs) 1 2 = fieldAt bs 0 2 := rfl
    rw [behind, fieldAt_first]
    omega
  refine ⟨BitVec.eq_of_toNat_eq ?_, ?_⟩
  · rw [← fieldAt_one, ← head]
    rfl
  · rw [← age]
    congr 1
    omega

theorem StatusRead.unlisted {i : Nat} (hi : n.listedClaims.length ≤ i) : fieldAt p (17 + 3 * i) 3 = 0 :=
  (h.entryField i 0 3).trans (claimEntries_unlisted hi n.now 3)

end

/-! # Attempts to send and their ends (file 10 R167, R168, R174, R178, file 04 R72) -/

/-! ## The frame on the wire in its place -/

section
variable {q : QFrame} {qs : List QFrame}

theorem wireFrame_first (hq : q.onWire = true) : wireFrame (q :: qs) = some q := by simp [wireFrame, hq]

theorem withoutWire_first (hq : q.onWire = true) (hr : ∀ r ∈ qs, r.onWire = false) : withoutWire (q :: qs) = qs := by
  have rest : qs.filter (fun f => !f.onWire) = qs := List.filter_eq_self.mpr fun r h => by simp [hr r h]
  simp [withoutWire, hq, rest]

theorem attemptBack_first (hq : q.onWire = true) (hd : q.doomed = false)
    (hr : ∀ r ∈ qs, r.onWire = false ∧ r.body ≠ q.body) (faults : Nat) :
    attemptBack q faults (q :: qs) = { q with onWire := false, faults := faults } :: qs := by
  have none_newer : qs.any (QFrame.waits q.body) = false := by
    refine List.any_eq_false.mpr fun r h => ?_
    simp [QFrame.waits, (hr r h).2]
  have rest : qs.map (fun g => if g.onWire then { g with onWire := false, faults := faults } else g) = qs := by
    refine (List.map_congr_left fun r h => ?_).trans (List.map_id qs)
    simp [(hr r h).1]
  simp [attemptBack, hd, withoutWire_first hq fun r h => (hr r h).1, none_newer, hq, rest]

end

/-- The node with the wire free and no fault in a row, its queue as given (R169). -/
def Node.wireLeft (n : Node) (queue : List QFrame) : Node :=
  { n with liu.wire := none, liu.consecutive := 0, liu.queue := queue }

/-- The frame has left the wire (R167). -/
theorem liuSent_first {n : Node} {q : QFrame} {qs : List QFrame} {w : LineFrame} (hl : n.liu.queue = q :: qs)
    (hq : q.onWire = true) (hw : n.liu.wire = some w) : liuSent n =
    sentEffect q w (n.wireLeft (releaseInPlace n.stc.conflict q (q :: qs))) := by
  simp only [liuSent, hl, wireFrame_first hq, hw, Node.wireLeft]

theorem liuYield_first {n : Node} {q : QFrame} {qs : List QFrame} {w : LineFrame} {x : Nat} (hl : n.liu.queue = q :: qs)
    (hq : q.onWire = true) (hw : n.liu.wire = some w) (hy : isYield w x = true) :
    liuYield x n = { n with liu.wire := none, liu.queue := attemptBack q q.faults (q :: qs) } := by
  simp only [liuYield, hl, wireFrame_first hq, hw, hy, if_true]

theorem liuAttempt_first {n : Node} {q : QFrame} {qs : List QFrame} (hl : n.liu.queue = q :: qs) (hm : n.maySend = true) :
    liuAttempt n = { n with liu.wire := some (n.form q.body), liu.queue := { q with onWire := true } :: qs } := by
  simp only [liuAttempt, hl, hm, if_true]

theorem ccuUnhold_none {n : Node} (h : n.ccu.hold = false) : ccuUnhold n = n := by simp [ccuUnhold, h]

/-- After an own STATUS the quiet timer is back at 0, and the mark is off where the STATUS carried it (R170, R178). -/
theorem statusSent_unheld {n : Node} {a : Nat} (ha : n.liu.quietSince = some a) (hh : n.ccu.hold = false) (w : LineFrame) :
    statusSent w n = { n with
      liu.quietSince := some n.now, liu.silentEnded := n.liu.silentEnded && !(byteAt w.payload 3).getLsbD 5 } := by
  rw [statusSent, ha]
  exact ccuUnhold_none hh

/-! ## The CLAIM of a REQUESTED claim has left the wire (file 04 R72) -/

/-- The own claim after its announcement: SETTLING from now where it was REQUESTED. -/
def OwnClaim.announced (now : Nat) (b : Bank) (k : ClaimKind) (o : OwnClaim) : OwnClaim :=
  if o.bank = b ∧ o.kind = k ∧ o.state = .requested then { o with state := .settling now } else o

@[simp] theorem OwnClaim.announced_bank (now : Nat) (b : Bank) (k : ClaimKind) (o : OwnClaim) :
    (o.announced now b k).bank = o.bank := by
  unfold OwnClaim.announced
  split <;> rfl

@[simp] theorem OwnClaim.announced_kind (now : Nat) (b : Bank) (k : ClaimKind) (o : OwnClaim) :
    (o.announced now b k).kind = o.kind := by
  unfold OwnClaim.announced
  split <;> rfl

theorem OwnClaim.announced_requested (now : Nat) (b : Bank) (k : ClaimKind) :
    (⟨b, k, .requested⟩ : OwnClaim).announced now b k = ⟨b, k, .settling now⟩ := by
  simp [OwnClaim.announced]

theorem OwnClaim.announced_cases (now : Nat) (b : Bank) (k : ClaimKind) (o : OwnClaim) :
    (o.bank = b ∧ o.kind = k ∧ (o.announced now b k).state = .settling now) ∨ o.announced now b k = o := by
  unfold OwnClaim.announced
  split
  · rename_i h
    exact .inl ⟨h.1, h.2.1, rfl⟩
  · exact .inr rfl

/-- The node with the claim SETTLING from now, before the walk of its bank. -/
def Node.announcing (n : Node) (b : Bank) (k : ClaimKind) : Node :=
  { n with bcu.own := n.bcu.own.map (OwnClaim.announced n.now b k) }

theorem claimAnnounced_eq (b : Bank) (k : ClaimKind) (n : Node) :
    claimAnnounced b k n = walkEntry (n.entering n.stc.node b k) (n.announcing b k) := rfl

theorem announcing_find {n : Node} {b : Bank} {k : ClaimKind} (h : n.bcu.find b k = some ⟨b, k, .requested⟩) :
    (n.announcing b k).bcu.find b k = some ⟨b, k, .settling n.now⟩ := by
  rw [Bcu.find] at h
  simp [Bcu.find, Node.announcing, List.find?_map, h, OwnClaim.announced_requested]

/-- On a bank with no claim the announced claim stands alone in the view. -/
theorem announcing_view {n : Node} {b : Bank} {k : ClaimKind} (hv : n.bankView b = []) {v : ViewClaim}
    (h : v ∈ (n.announcing b k).bankView b) : v = n.entering n.stc.node b k := by
  have none_before (x : ViewClaim) : x ∉ n.bankView b := by simp [hv]
  obtain peer | ⟨o, ho, hb, t, hs, rfl⟩ := mem_bankView_iff.mp h
  · exact absurd ((mem_bankView_iff (n := n)).mpr (.inl peer)) (none_before v)
  · obtain ⟨a, ha, rfl⟩ := List.mem_map.mp ho
    obtain ⟨-, hk, settling⟩ | same := OwnClaim.announced_cases n.now b k a
    · obtain rfl : n.now = t := by simpa [settling] using hs
      simp [Node.entering, Node.announcing, hk]
    · rw [same] at hb hs
      exact absurd (mem_bankView_iff.mpr (.inr ⟨a, ha, hb, t, hs, rfl⟩)) (none_before _)

theorem announcing_mem_view {n : Node} {b : Bank} {k : ClaimKind} (h : n.bcu.find b k = some ⟨b, k, .requested⟩) :
    n.entering n.stc.node b k ∈ (n.announcing b k).bankView b := by
  have found := List.mem_of_find?_eq_some (announcing_find h)
  exact mem_bankView_iff.mpr (.inr ⟨_, found, rfl, n.now, .inl rfl, rfl⟩)

/-- A walk that drops nothing changes nothing. -/
theorem walkEntry_whole {n : Node} {c : ViewClaim} (h : n.dropped c.bank (some c) = []) : walkEntry c n = n := by
  have table : (bcuWalk c.bank (some c) n).1.ptb = n.ptb := by simp [bcuWalk, h]
  rw [walkEntry_ptb_only (by simp [h]), table]

theorem announcing_dropped {n : Node} {b : Bank} {k : ClaimKind} (hv : n.bankView b = [])
    (hl : 1 ≤ n.stc.cfg.drawLimit.get b) (h : n.bcu.find b k = some ⟨b, k, .requested⟩) :
    (n.announcing b k).dropped b (some (n.entering n.stc.node b k)) = [] := by
  have alone : (((n.announcing b k).bankView b).filter fun d => decide (d ≠ n.entering n.stc.node b k)) = [] :=
    List.filter_eq_nil_iff.mpr fun v hm => by simp [announcing_view hv hm]
  rw [dropped_entered (announcing_mem_view h), alone]
  exact walk_drops_none_iff.mpr (withinLimit_singleton hl _)

theorem claimAnnounced_admitted {n : Node} {b : Bank} {k : ClaimKind} (hv : n.bankView b = [])
    (hl : 1 ≤ n.stc.cfg.drawLimit.get b) (h : n.bcu.find b k = some ⟨b, k, .requested⟩) :
    claimAnnounced b k n = n.announcing b k := by
  rw [claimAnnounced_eq]
  exact walkEntry_whole (announcing_dropped hv hl h)

theorem maySend_of {n : Node} (hp : n.stc.phase = .run ∨ n.stc.phase = .startFault) (hs : n.liu.silentSince = none)
    (hw : n.liu.wire = none) : n.maySend = true := by
  obtain hp | hp := hp <;> simp [Node.maySend, hp, hs, hw]

theorem isYield_of {w : LineFrame} {p : Nat} (hl : 8 ≤ p) (hu : p < 14) (hb : (wireBits w)[p]? = some true) :
    isYield w p = true := by
  simp [isYield, inArbitration, wireBit, hl, hu, hb]

theorem form_status (n : Node) :
    n.form .status = ⟨1, BitVec.ofNat 4 n.stc.node, 0, kindStatus, n.statusPayload⟩ := rfl

theorem form_progress (n : Node) (x : Nat) :
    n.form (.progress x) = ⟨2, BitVec.ofNat 4 n.stc.node, BitVec.ofNat 4 x, kindProgress, n.progressPayload⟩ := rfl

/-- The own claims that a STATUS lists stand oldest first. -/
theorem listedClaims_pairwise (n : Node) : n.listedClaims.Pairwise fun a b => a.instant ≤ b.instant := by
  refine (sortClaims_pairwise _).imp fun {a b} h => ?_
  obtain earlier | ⟨same, -⟩ := (ViewClaim.before_iff a b).mp h
  · exact Int.le_of_lt earlier
  · exact Int.le_of_eq same

/-- Settles O58: the ends of an attempt by the place of its frame in the queue, the payloads field by field. -/
theorem attemptsBeginAndEnd : Obligations.AttemptsBeginAndEnd := by
  unfold Obligations.AttemptsBeginAndEnd
  refine ⟨fun s q qs hl hp hs hw => ?_, fun s q qs w a hl hq hb hw ha hh hr => ?_,
    fun s q qs w b k hl hq hd hb hw _ hc hv hlim => ?_, fun s q qs w p hl hq hd hw h8 h14 hbit hr => ?_,
    fun n p hp => ?_, fun n x p hp => ?_⟩
  · exact congrArg (fun m => Host.Outcome.next { s with node := m }) (liuAttempt_first hl (maySend_of hp hs hw))
  · have left : releaseInPlace s.node.stc.conflict q (q :: qs) = qs := by
      rw [releaseInPlace, hb, withoutWire_first hq hr]
    have step : exec .frameSent s = .next { s with node := liuSent s.node } := rfl
    have effect : sentEffect q w (s.node.wireLeft qs) = statusSent w (s.node.wireLeft qs) := by simp only [sentEffect, hb]
    rw [step, liuSent_first hl hq hw, left, effect, statusSent_unheld (n := s.node.wireLeft qs) ha hh]
    rfl
  · have step : exec .frameSent s = .next { s with node := liuSent s.node } := rfl
    have effect (n : Node) : sentEffect q w n = claimAnnounced b k n := by
      simp only [sentEffect, hb, hd, Bool.false_eq_true, if_false]
    have admitted (r : List QFrame) : claimAnnounced b k (s.node.wireLeft r) = (s.node.wireLeft r).announcing b k :=
      claimAnnounced_admitted hv hlim hc
    rw [step, liuSent_first hl hq hw, effect, admitted]
    exact ⟨_, rfl, announcing_find hc, rfl, rfl⟩
  · have step : exec (.arbitrationYield p) s = .next { s with node := liuYield p s.node } := rfl
    rw [step, liuYield_first hl hq hw (isYield_of h8 h14 hbit), attemptBack_first hq hd hr]
  · have read : StatusRead n p := hp ▸ statusPayload_read n
    obtain ⟨waiting, startFault, conflict, creep, lockout, silent⟩ := read.faultBits
    obtain ⟨raise_none, raise_some⟩ := read.raiseAge
    obtain ⟨comp, bank, no_bank⟩ := read.compressorCodes
    obtain ⟨loop, latch, cause⟩ := read.loopCodes
    exact ⟨by rw [hp, form_status], read.length, read.phase, read.pause.trans (pauseShownCode_eq _), read.hose, waiting,
      startFault, conflict, creep, lockout, silent, read.reservation, raise_none, raise_some, comp, bank, no_bank, loop,
      latch, cause, read.total, read.rowBits, read.free, read.uncollected, read.count, fun i c hi hc => read.listed hi hc,
      fun i _ hi => read.unlisted hi, sortClaims_perm _, listedClaims_pairwise n⟩
  · have read : ProgressRead n p := hp ▸ progressPayload_read n
    exact ⟨by rw [hp, form_progress], read.length, read.number, read.phase, read.source, read.gross, read.net, read.amount,
      fun h => by rw [read.soc, h]; rfl, fun v h => by rw [read.soc, h]; rfl, read.pause.trans (pauseShownCode_eq _)⟩

end Sys2Proof.Machine

/-! # HEAT of a peer, and the ageing of the Peer Table's entries (file 05 R87, R88, R93) -/

namespace Sys2Proof.Machine

/-! ## HEAT (R93) -/

theorem peerHeat_some {f : LineFrame} {x : HeatFields} (h : readHeat f.payload = some x) (n : Node) :
    peerHeat f n = ptbHeat f.source.toNat x n := by
  rw [peerHeat, h]

theorem ptbHeat_empty {x : Nat} {n : Node} (h : n.ptb.find x = none) (f : HeatFields) : ptbHeat x f n = n := by
  rw [ptbHeat, h]

theorem ptbHeat_known {x : Nat} {n : Node} {p : Peer} (h : n.ptb.find x = some p) (f : HeatFields) :
    ptbHeat x f n = handHeat (some p) (some (p.withHeat n.now f)) { n with ptb := n.ptb.put (p.withHeat n.now f) } := by
  rw [ptbHeat, h]

/-- Settles O46: the entry is put with the figures of the frame, and the hand-off to the HSU leaves table, claims,
compressor, inputs and meter. -/
theorem heatIsMerged : Obligations.HeatIsMerged := by
  intro s bits f x hf ha hh hx
  have step : exec (.peerHeat bits) s = .next { s with node := ptbHeat f.source.toNat x s.node } := by
    rw [← peerHeat_some hx]
    exact receive_peer_heard hf ha hh peerHeat
  refine ⟨fun p hp => ?_, fun hp => ?_⟩
  · rw [ptbHeat_known hp] at step
    have frame := handHeat_only (some p) (some (p.withHeat s.node.now x))
      { s.node with ptb := s.node.ptb.put (p.withHeat s.node.now x) }
    exact ⟨_, step, frame.ptb (by decide), frame.bcu (by decide), frame.ccu (by decide), frame.isc (by decide),
      frame.mpu (by decide)⟩
  · rw [step, ptbHeat_empty hp]

/-! ## Entries age and are forgotten (R87, R88) -/

@[simp] theorem Ptb.find_without_same (t : Ptb) (x : Nat) : (t.without x).find x = none := by
  refine List.find?_eq_none.mpr fun e he => ?_
  simpa using (List.mem_filter.mp he).2

/-- Another entry is found as after a put, which takes the old entry of its node away first. -/
theorem Ptb.find_without_other {p : Peer} {y : Nat} (h : y ≠ p.node) (t : Ptb) :
    (t.without p.node).find y = t.find y :=
  (find?_insertPeer_other h _).symm.trans (Ptb.find_put_other h t)

theorem ptbStale_due {x : Nat} {n : Node} {p : Peer} (h : n.ptb.find x = some p) (hs : p.stale = false)
    (ht : 350 ≤ n.now - p.last) : ptbStale x n =
      handHeat (some p) (some { p with stale := true }) { n with ptb := n.ptb.put { p with stale := true } } := by
  have due : ¬(p.stale = true ∨ n.now - p.last < 350) := by simp [hs, ht]
  rw [ptbStale, h]
  exact if_neg due

theorem ptbForget_due {x : Nat} {n : Node} {p : Peer} (h : n.ptb.find x = some p) (ht : 2000 ≤ n.now - p.last) :
    ptbForget x n = handHeat (some p) none { n with ptb := n.ptb.without x } := by
  rw [ptbForget, h]
  exact if_neg (Nat.not_lt.mpr ht)

/-- Settles O48: the entry is put STALE or taken from the table, and the hand-off to the HSU leaves table and claims. -/
theorem entriesAgeAndAreForgotten : Obligations.EntriesAgeAndAreForgotten := by
  refine fun s x p hp => ⟨fun hs ht => ?_, fun ht => ?_⟩
  · have step : exec (.entryStale x) s = .next { s with node := ptbStale x s.node } := rfl
    rw [ptbStale_due hp hs ht] at step
    have frame := handHeat_only (some p) (some { p with stale := true })
      { s.node with ptb := s.node.ptb.put { p with stale := true } }
    exact ⟨_, step, frame.ptb (by decide), frame.bcu (by decide)⟩
  · have step : exec (.entryForgotten x) s = .next { s with node := ptbForget x s.node } := rfl
    rw [ptbForget_due hp ht] at step
    have frame := handHeat_only (some p) none { s.node with ptb := s.node.ptb.without x }
    have table := frame.ptb (by decide)
    refine ⟨_, step, ?_, fun y hy => ?_, frame.bcu (by decide)⟩
    · rw [table, Ptb.find_without_same]
    · obtain ⟨-, rfl⟩ := Ptb.find_node hp
      rw [table, Ptb.find_without_other hy]

end Sys2Proof.Machine

/-! # NUMBER_CONFLICT (file 05 R96, R97, file 04 R81, file 10 R180) -/

namespace Sys2Proof.Machine

/-! ## No authorization comes back -/

/-- What keeps a fill in progress, and the FCU at rest otherwise, authorizes nothing. -/
theorem not_authorized_of_filling {n m : Node} (filling : m.fcu.phase.filling = n.fcu.phase.filling)
    (resting : n.fcu.phase.filling = false → m.fcu = n.fcu) (h : n.fcu.phase ≠ .authorized) :
    m.fcu.phase ≠ .authorized := by
  cases hf : n.fcu.phase.filling with
  | false => rwa [resting hf]
  | true =>
    intro ha
    rw [ha, hf] at filling
    cases filling

theorem authCancel_not_authorized (n : Node) : (authCancel n).fcu.phase ≠ .authorized := by
  by_cases h : n.fcu.phase = .authorized
  · rw [authCancel_authorized h]
    exact Phase.noConfusion
  · rwa [authCancel_other h]

/-- A DENIED draw claim only sends the search of a fill onward (file 03 R38, R45). -/
theorem fcuDenied_filling (b : Bank) (n : Node) : (fcuDenied b n).fcu.phase.filling = n.fcu.phase.filling := by
  unfold fcuDenied
  split
  · next hp =>
    split
    · have checking : (checkOnward b n).fcu.phase = .checking := (checkSearch_sameAttempt _ _).phase hp
      rw [checking, hp]
    · rfl
  · split
    · exact (switchSearch_samePeriod _ _).filling.trans (clearTarget_filling n)
    · rfl

theorem fcuDenied_resting {n : Node} (h : n.fcu.phase.filling = false) (b : Bank) : fcuDenied b n = n := by
  have checking : n.fcu.phase ≠ .checking := fun e => by
    rw [e] at h
    cases h
  simp [fcuDenied, checking, Phase.ramping_of_not_filling h]

theorem reportDenied_not_authorized {n : Node} (h : n.fcu.phase ≠ .authorized) (b : Bank) (k : ClaimKind) :
    (reportDenied b k n).fcu.phase ≠ .authorized := by
  cases k with
  | draw =>
    exact not_authorized_of_filling (fcuDenied_filling b n) (fun hf => congrArg Node.fcu (fcuDenied_resting hf b)) h
  | refill =>
    have fcu : (reportDenied b .refill n).fcu = n.fcu := (ccuDenied_only b n).fcu (by decide)
    rwa [fcu]

theorem bcuConflict_not_authorized {n : Node} (h : n.fcu.phase ≠ .authorized) :
    (bcuConflict n).fcu.phase ≠ .authorized := by
  refine List.foldlRecOn (motive := fun m : Node => m.fcu.phase ≠ .authorized) _ _ h fun m hm o _ => ?_
  cases m.bcu.own.contains o with
  | false => exact hm
  | true => exact reportDenied_not_authorized (n := bcuWithdraw o.bank o.kind m) hm o.bank o.kind

theorem ccuStop_not_authorized {n : Node} (h : n.fcu.phase ≠ .authorized) : (ccuStop n).fcu.phase ≠ .authorized :=
  not_authorized_of_filling (ccuStop_filling n) (fun hf => ccuStop_resting_fcu (Phase.ramping_of_not_filling hf)) h

/-! ## The compressor and the queue -/

theorem ccuStop_not_running (n : Node) : (ccuStop n).ccu.state.running = false := by
  rw [ccuStop_state]
  split
  · rfl
  · next h => exact Bool.eq_false_iff.mpr h

/-- A STATUS stays, and the frame on the wire is removed at the end of its attempt (file 10 R180). -/
theorem mem_conflictQueue {f : QFrame} {q : List QFrame} (h : f ∈ conflictQueue q) :
    f.body = .status ∨ f.onWire = true ∧ f.doomed = true := by
  obtain ⟨g, hg, rfl⟩ := List.mem_map.mp h
  by_cases status : g.body = .status
  · left
    rwa [if_pos status]
  · have wire : g.onWire = true := by simpa [status] using (List.mem_filter.mp hg).2
    right
    rw [if_neg status]
    exact ⟨wire, rfl⟩

/-! ## CONFLICT_FRAME -/

/-- A frame with the own number as its source has its effect at a node that hears it (R96). -/
theorem exec_conflictFrame_heard {s : State} {bits : Bits} {f : LineFrame} (hf : receive bits = some f)
    (ha : arrivalOf s.node.stc.node f = .conflict) (hh : s.node.hears = true) :
    exec (.conflictFrame bits) s = .next { s with node := conflictBegin s.node } := by
  show s.receive .conflict bits (onPeer fun _ => conflictBegin) = _
  simp [State.receive, hf, ha, onPeer, hh]

theorem conflictBegin_again {n : Node} (h : n.stc.conflict = true) : conflictBegin n = n := if_pos h

/-- What the blocks other than the LIU make of a conflict (R97). -/
def conflictStops (n : Node) : Node := ccuStop (bcuConflict (authCancel { n with stc.conflict := true }))

theorem conflictBegin_first {n : Node} (h : n.stc.conflict = false) : conflictBegin n =
    { conflictStops n with liu.queue := conflictQueue (conflictStops n).liu.queue } :=
  if_neg (by simp [h])

theorem conflictStops_stc (n : Node) : (conflictStops n).stc = { n.stc with conflict := true } := by
  rw [conflictStops, (ccuStop_only _).stc (by decide), (bcuConflict_only _).stc (by decide),
    (authCancel_only _).stc (by decide)]

theorem conflictStops_not_authorized (n : Node) : (conflictStops n).fcu.phase ≠ .authorized :=
  ccuStop_not_authorized (bcuConflict_not_authorized (authCancel_not_authorized _))

/-- Settles O47: the authorization is cancelled and nothing authorizes again, the compressor is stopped after it, and
the queue is cleared after them. -/
theorem conflictSilencesTheNode : Obligations.ConflictSilencesTheNode := by
  refine fun s bits f hf ha hh => ⟨fun hc => ?_, fun hc => ?_⟩
  · have step := exec_conflictFrame_heard hf ha hh
    rw [conflictBegin_first hc] at step
    exact ⟨_, step, conflictStops_stc s.node, conflictStops_not_authorized s.node, ccuStop_not_running _,
      fun q hq => mem_conflictQueue hq⟩
  · rw [exec_conflictFrame_heard hf ha hh, conflictBegin_again hc]

end Sys2Proof.Machine

/-! # The heat share (file 06 R101, R102, R104 to R107, R109, R110, R114) -/

namespace Sys2Proof.Machine

/-! ## The order of the reservations (R109) -/

theorem Reservation.before_iff (a b : Reservation) :
    a.before b = true ↔ a.instant < b.instant ∨ a.instant = b.instant ∧ a.holder ≤ b.holder := by
  simp [Reservation.before]

theorem Reservation.before_total (a b : Reservation) : a.before b = true ∨ b.before a = true := by
  rw [before_iff, before_iff]
  omega

theorem Reservation.before_trans {a b c : Reservation} (hab : a.before b = true) (hbc : b.before c = true) :
    a.before c = true := by
  rw [before_iff] at *
  omega

theorem insertReservation_eq_orderedInsert (c : Reservation) (rs : List Reservation) :
    insertReservation c rs = rs.orderedInsert (fun a b => a.before b = true) c := by
  induction rs with
  | nil => rfl
  | cons d ds ih => simp [insertReservation, ih]

theorem sortReservations_eq_insertionSort (rs : List Reservation) :
    sortReservations rs = rs.insertionSort fun a b => a.before b = true := by
  induction rs with
  | nil => rfl
  | cons c cs ih => simp [sortReservations, ih, insertReservation_eq_orderedInsert]

theorem sortReservations_perm (rs : List Reservation) : (sortReservations rs).Perm rs := by
  rw [sortReservations_eq_insertionSort]
  exact List.perm_insertionSort _ rs

theorem sortReservations_pairwise (rs : List Reservation) :
    (sortReservations rs).Pairwise fun a b => a.before b = true := by
  have : Std.Total fun a b : Reservation => a.before b = true := ⟨Reservation.before_total⟩
  have : IsTrans Reservation fun a b => a.before b = true := ⟨fun _ _ _ => Reservation.before_trans⟩
  rw [sortReservations_eq_insertionSort]
  exact List.pairwise_insertionSort _ rs

/-! ## The walk (R109) -/

@[simp] theorem portions_nil (left : Nat) : portions left [] = [] := rfl

@[simp] theorem portions_cons (left : Nat) (r : Reservation) (rs : List Reservation) :
    portions left (r :: rs) = (r.holder, min r.amount left) :: portions (left - r.amount) rs := rfl

@[simp] theorem portions_length (left : Nat) (rs : List Reservation) : (portions left rs).length = rs.length := by
  induction rs generalizing left with
  | nil => rfl
  | cons r rs ih => simp [ih]

theorem portions_sum_le (left : Nat) (rs : List Reservation) : ((portions left rs).map (·.2)).sum ≤ left := by
  induction rs generalizing left with
  | nil => exact Nat.zero_le _
  | cons r rs ih =>
    have rest := ih (left - r.amount)
    simp only [portions_cons, List.map_cons, List.sum_cons]
    omega

/-- What a portion leaves to those behind it is what the portions up to it leave. -/
theorem portions_getElem? (left i : Nat) (rs : List Reservation) : (portions left rs)[i]? = rs[i]?.map fun r =>
    (r.holder, min r.amount (left - (((portions left rs).take i).map (·.2)).sum)) := by
  induction rs generalizing left i with
  | nil => rfl
  | cons r rs ih =>
    cases i with
    | zero => simp
    | succ i =>
      have leaves (taken : Nat) : left - r.amount - taken = left - (min r.amount left + taken) := by omega
      simp [ih, leaves]

theorem portions_of_sum_le {left : Nat} {rs : List Reservation} (h : (rs.map (·.amount)).sum ≤ left) :
    portions left rs = rs.map fun r => (r.holder, r.amount) := by
  induction rs generalizing left with
  | nil => rfl
  | cons r rs ih =>
    rw [List.map_cons, List.sum_cons] at h
    rw [portions_cons, ih (by omega), Nat.min_eq_left (by omega), List.map_cons]

/-! ## What the shared operations make of the HSU (R106 to R108) -/

theorem fcuCeiling_eq (n : Node) : fcuCeiling n = { n with fcu := (fcuCeiling n).fcu } := by
  unfold fcuCeiling
  split
  · rfl
  · split <;> rfl

/-- The resend mark after a HEAT frame is offered (R108). -/
def Node.resendAfter (n : Node) : Bool :=
  if n.stc.conflict then n.hsu.resend else !(queueOffer .heat n.liu.queue).2

theorem hsuOffer_hsu (n : Node) : (hsuOffer n).hsu = { n.hsu with resend := n.resendAfter } := by
  unfold hsuOffer Node.resendAfter
  cases h : n.stc.conflict <;> simp [liuOffer, h]

theorem hsuSet_same {r : Nat} {w : Bool} {n : Node} (h : r = n.hsu.rOwn ∧ w = n.hsu.waiting) : hsuSet r w n = n :=
  if_pos h

theorem hsuSet_changed {r : Nat} {w : Bool} {n : Node} (h : ¬(r = n.hsu.rOwn ∧ w = n.hsu.waiting)) :
    (hsuSet r w n).hsu = { n.hsu with
      rOwn := r, waiting := w, raise := raiseAfter n.now n.hsu.rOwn r n.hsu.raise, resend := n.resendAfter } := by
  rw [hsuSet, if_neg h, hsuOffer_hsu, fcuCeiling_eq]
  rfl

theorem raiseAfter_zero {new : Nat} (h : new = 0) (now old : Nat) (r : Option Nat) : raiseAfter now old new r = none :=
  if_pos h

theorem raiseAfter_raise {old new : Nat} (h : old < new) (now : Nat) (r : Option Nat) :
    raiseAfter now old new r = some now := by
  simp [raiseAfter, h, show new ≠ 0 by omega]

theorem raiseAfter_decrease {old new : Nat} (hpos : 0 < new) (h : new ≤ old) (now : Nat) (r : Option Nat) :
    raiseAfter now old new r = r := by
  simp [raiseAfter, show new ≠ 0 by omega, show ¬ old < new by omega]

/-! ## The evaluation (R105, R106, R114) -/

theorem evaluation_quiet {n : Node} (h : n.quietAtLeast 1800 = true) : n.evaluation = (0, false) := if_pos (.inl h)

theorem evaluation_unwanted {n : Node} (h : n.hsu.rWant = 0) : n.evaluation = (0, false) := if_pos (.inr h)

theorem evaluation_waits {n : Node} (hq : n.quietAtLeast 1800 = false) (hw : n.hsu.rWant ≠ 0)
    (ht : n.heatTargetAllowed < 4000) : n.evaluation = (0, true) := by
  simp [Node.evaluation, hq, hw, ht]

theorem evaluation_reserves {n : Node} (hq : n.quietAtLeast 1800 = false) (hw : n.hsu.rWant ≠ 0)
    (ht : 4000 ≤ n.heatTargetAllowed) : n.evaluation = (n.heatTargetAllowed, false) := by
  simp [Node.evaluation, hq, hw, Nat.not_lt.mpr ht]

/-- Fair share and NUMBER_CONFLICT lower the target, they never lift it. -/
theorem heatTargetAllowed_le (n : Node) :
    n.heatTargetAllowed ≤ min n.hsu.rWant (n.hsu.cEff - n.countedPeerSum) := by
  have target : n.heatTarget ≤ min n.hsu.rWant (n.hsu.cEff - n.countedPeerSum) := by
    unfold Node.heatTarget
    dsimp only
    split
    · exact Nat.min_le_left _ _
    · exact Nat.le_refl _
  unfold Node.heatTargetAllowed
  split
  · exact (Nat.min_le_left _ _).trans target
  · exact target

theorem evaluation_fits (n : Node) : n.evaluation.1 = 0 ∨
    4000 ≤ n.evaluation.1 ∧ n.evaluation.1 ≤ n.hsu.rWant ∧ n.evaluation.1 + n.countedPeerSum ≤ n.hsu.cEff := by
  unfold Node.evaluation
  split
  · exact .inl rfl
  · split
    · exact .inl rfl
    · next reserved =>
      have within := heatTargetAllowed_le n
      exact .inr (by dsimp only; omega)

/-- An evaluation sets reservation and waiting flag, dates the reservation (one of 0 that stays 0 has no date to set),
and leaves the rest of the HSU but the resend mark. -/
theorem hsuEvaluate_hsu (n : Node) : ∃ raise resend, (hsuEvaluate n).hsu = { n.hsu with
      rOwn := n.evaluation.1, waiting := n.evaluation.2, raise := raise, resend := resend } ∧
    (0 < n.hsu.rOwn ∨ 0 < n.evaluation.1 →
      raise = raiseAfter n.now n.hsu.rOwn n.evaluation.1 n.hsu.raise) := by
  unfold hsuEvaluate
  by_cases same : n.evaluation.1 = n.hsu.rOwn ∧ n.evaluation.2 = n.hsu.waiting
  · obtain ⟨amount, flag⟩ := same
    have kept : 0 < n.hsu.rOwn ∨ 0 < n.hsu.rOwn →
        n.hsu.raise = raiseAfter n.now n.hsu.rOwn n.hsu.rOwn n.hsu.raise :=
      fun h => (raiseAfter_decrease (by omega) (Nat.le_refl _) _ _).symm
    rw [if_pos ⟨amount, flag⟩, amount, flag]
    split
    · exact ⟨_, _, hsuOffer_hsu n, kept⟩
    · exact ⟨_, _, rfl, kept⟩
  · rw [if_neg same]
    exact ⟨_, _, hsuSet_changed same, fun _ => rfl⟩

/-! ## EVALUATION_TICK (R102, R104) -/

/-- The node at a tick that was due at `g`: the grid moved on, ΔT10 and the want formed. -/
def Node.ticked (g : Nat) (n : Node) : Node :=
  { n with hsu := { n.hsu with
      gridNext := some (g + 1000)
      dT10 := tempDrop n.tS n.stc.cfg.tSet
      rWant := heatWant n.stc.cfg.peakFlow (tempDrop n.tS n.stc.cfg.tSet) } }

theorem exec_evaluationTick_due {s : State} {g : Nat} (hg : s.node.hsu.gridNext = some g) (hn : g ≤ s.node.now) :
    exec .evaluationTick s = .next { s with node := hsuEvaluate (fcuCeiling (s.node.ticked g)) } := by
  show execEvaluationTick s = _
  rw [execEvaluationTick, State.act_eq, hg, gridDue_some hn, Node.onlyIf_true, hg]
  rfl

theorem evaluation_fcuCeiling (n : Node) : (fcuCeiling n).evaluation = n.evaluation := by
  rw [fcuCeiling_eq]
  rfl

/-- The evaluation of a tick is that of the ticked node: the flow command lowered before it has no part in it. -/
theorem hsuEvaluate_ticked (g : Nat) (n : Node) : ∃ raise resend,
    (hsuEvaluate (fcuCeiling (n.ticked g))).hsu = { (n.ticked g).hsu with
      rOwn := (n.ticked g).evaluation.1, waiting := (n.ticked g).evaluation.2, raise := raise, resend := resend } ∧
    (0 < n.hsu.rOwn ∨ 0 < (n.ticked g).evaluation.1 →
      raise = raiseAfter n.now n.hsu.rOwn (n.ticked g).evaluation.1 n.hsu.raise) := by
  have evaluated := hsuEvaluate_hsu (fcuCeiling (n.ticked g))
  have frame := fcuCeiling_only (n.ticked g)
  rwa [evaluation_fcuCeiling, frame.hsu (by decide), frame.now] at evaluated

/-! ## The over-commit test and walk (R109, R110) -/

theorem hsuOverCommit_fits {n : Node} (h : n.hsu.rOwn + n.ptb.sum ≤ n.hsu.cEff) : hsuOverCommit n = n :=
  if_pos (.inl (decide_eq_false (Nat.not_lt.mpr h)))

theorem hsuOverCommit_whole {n : Node} (h : n.ownPortion = n.hsu.rOwn) : hsuOverCommit n = n := if_pos (.inr h)

section
variable {n : Node} (hover : n.hsu.cEff < n.hsu.rOwn + n.ptb.sum) (hlow : n.ownPortion < n.hsu.rOwn)
include hover hlow

theorem overCommit_acts : ¬(n.overCommitted = false ∨ n.ownPortion = n.hsu.rOwn) := by
  simp [Node.overCommitted, hover, Nat.ne_of_lt hlow]

theorem hsuOverCommit_lowers (h : 4000 ≤ n.ownPortion) : (hsuOverCommit n).hsu =
    { n.hsu with rOwn := n.ownPortion, resend := n.resendAfter } := by
  have changed : ¬(n.ownPortion = n.hsu.rOwn ∧ n.hsu.waiting = n.hsu.waiting) := by omega
  rw [hsuOverCommit, if_neg (overCommit_acts hover hlow), if_pos h, hsuSet_changed changed,
    raiseAfter_decrease (by omega) (Nat.le_of_lt hlow)]

theorem hsuOverCommit_takes_away (h : n.ownPortion < 4000) (hw : 0 < n.hsu.rWant) : (hsuOverCommit n).hsu =
    { n.hsu with rOwn := 0, waiting := true, raise := none, resend := n.resendAfter } := by
  have changed : ¬(0 = n.hsu.rOwn ∧ true = n.hsu.waiting) := by omega
  rw [hsuOverCommit, if_neg (overCommit_acts hover hlow), if_neg (Nat.not_le.mpr h), if_pos hw,
    hsuSet_changed changed, raiseAfter_zero rfl]

end

/-! ## The capacity (R101) -/

/-- Reservation and walk read no channel. -/
theorem hsuSet_isc (r : Nat) (w : Bool) (n : Node) (v : Isc) :
    (hsuSet r w { n with isc := v }).hsu = (hsuSet r w n).hsu := by
  by_cases same : r = n.hsu.rOwn ∧ w = n.hsu.waiting
  · rw [hsuSet_same same, hsuSet_same (n := { n with isc := v }) same]
  · rw [hsuSet_changed same, hsuSet_changed (n := { n with isc := v }) same]
    rfl

theorem hsuOverCommit_isc (n : Node) (v : Isc) : (hsuOverCommit { n with isc := v }).hsu = (hsuOverCommit n).hsu := by
  unfold hsuOverCommit
  simp only [apply_ite Node.hsu, hsuSet_isc]
  rfl

@[simp] theorem hsuSet_cEff (r : Nat) (w : Bool) (n : Node) : (hsuSet r w n).hsu.cEff = n.hsu.cEff := by
  by_cases same : r = n.hsu.rOwn ∧ w = n.hsu.waiting
  · rw [hsuSet_same same]
  · rw [hsuSet_changed same]

theorem hsuOverCommit_cEff (n : Node) : (hsuOverCommit n).hsu.cEff = n.hsu.cEff := by
  unfold hsuOverCommit
  simp only [apply_ite (fun m : Node => m.hsu.cEff), hsuSet_cEff, ite_self]

/-- C_eff as a T_K answer of `i` µA leaves it: scaled by the temperature, 0 on a current out of range. -/
def capacityAnswered (capacity i : Nat) : Nat :=
  if 3600 ≤ i ∧ i ≤ 21000 then
    if codeOfCurrent .tK i ≤ 2332 then capacity
    else if codeOfCurrent .tK i ≤ 2481 then capacity * (2482 - codeOfCurrent .tK i) / 150 else 0
  else 0

theorem judgeAnswer_tK (i : Nat) (n : Node) : ∃ v : Isc, judgeAnswer .tK i n = hsuCapacity { n with isc := v } ∧
    effectiveCapacity n.stc.cfg.capacity (v.channels.get .tK) = capacityAnswered n.stc.cfg.capacity i := by
  by_cases hi : 3600 ≤ i ∧ i ≤ 21000
  · refine ⟨_, judgeAnswer_accepted hi .tK n, ?_⟩
    rw [Channels.get_set_same, capacityAnswered, if_pos hi]
    rfl
  · refine ⟨_, judgeAnswer_failed (by omega) .tK n, ?_⟩
    rw [Channels.get_set_same, capacityAnswered, if_neg hi]
    rfl

/-- A fall of C_eff brings the over-commit test at once; a rise, or the same C_eff, changes nothing else. -/
theorem hsuCapacity_hsu {n : Node} {v : Isc} {c : Nat}
    (hc : effectiveCapacity n.stc.cfg.capacity (v.channels.get .tK) = c) :
    (hsuCapacity { n with isc := v }).hsu =
      if c < n.hsu.cEff then (hsuOverCommit { n with hsu.cEff := c }).hsu else { n.hsu with cEff := c } := by
  subst hc
  rw [← hsuOverCommit_isc _ v]
  exact apply_ite Node.hsu _ _ _

/-! ## A peer's reservation that rose (R109, file 05 R94) -/

theorem isDecrease_withHeat {p : Peer} {x : HeatFields} (rose : p.reservation < x.reservation)
    (waits : p.waiting = x.waiting) (r : Nat) : isDecrease (some p) (some (p.withHeat r x)) = false := by
  have counts : countsOf (some (p.withHeat r x)) = countsOf (some p) := by
    simp [countsOf, Peer.counts, Peer.withHeat, waits]
  have amount : ¬ reservationOf (some (p.withHeat r x)) < reservationOf (some p) := Nat.lt_asymm rose
  simp [isDecrease, counts, amount]

theorem isRise_withHeat {p : Peer} {x : HeatFields} (rose : p.reservation < x.reservation) (r : Nat) :
    isRise (some p) (some (p.withHeat r x)) = true := by
  have amount : reservationOf (some p) < reservationOf (some (p.withHeat r x)) := rose
  simp [isRise, amount]

theorem ptbHeat_rose {x : Nat} {n : Node} {p : Peer} {f : HeatFields} (hp : n.ptb.find x = some p)
    (rose : p.reservation < f.reservation) (waits : p.waiting = f.waiting) :
    ptbHeat x f n = hsuOverCommit { n with ptb := n.ptb.put (p.withHeat n.now f) } := by
  rw [ptbHeat_known hp, handHeat, isDecrease_withHeat rose waits, isRise_withHeat rose, Node.onlyIf_false,
    Node.onlyIf_true]

/-! ## The statement -/

/-- Settles O49: an evaluation by its target, the tick by what an evaluation sets, the T_K answer and the HEAT by the
over-commit test they bring, and the walk reservation by reservation. -/
theorem evaluationReservesWithinTheShare : Obligations.EvaluationReservesWithinTheShare := by
  refine ⟨fun s g hg hn => ?_, fun s i v c ha hv hc => ?_, fun s bits f x p hf harr hh hx hp rose waits => ?_,
    fun n => ?_, fun left rs => ?_⟩
  · intro want waiting sharers room share target
    have allowed : (s.node.ticked g).heatTargetAllowed = target := rfl
    have reserves := evaluation_reserves (n := s.node.ticked g)
    have waits := evaluation_waits (n := s.node.ticked g)
    have fits := evaluation_fits (s.node.ticked g)
    rw [allowed] at reserves waits
    obtain ⟨raise, resend, set, dated⟩ := hsuEvaluate_ticked g s.node
    have frame : Only [.fcu, .hsu, .liu] (s.node.ticked g) _ :=
      (hsuEvaluate_only _).after (fcuCeiling_only (s.node.ticked g))
    refine ⟨_, exec_evaluationTick_due hg hn, ?_⟩
    rw [set]
    refine ⟨fun hq hw ht => ?_, fun hq hw ht => ?_, fun hw => ?_, fun up => ?_, fun pos down => ?_, fun pos zero => ?_,
      rfl, rfl, rfl, fits, fun hq => ?_, rfl, frame.ptb (by decide), frame.bcu (by decide)⟩
    · exact Prod.mk.inj (reserves hq hw ht)
    · exact Prod.mk.inj (waits hq hw ht)
    · exact Prod.mk.inj (evaluation_unwanted (n := s.node.ticked g) hw)
    · exact (dated (.inr (Nat.zero_lt_of_lt up))).trans (raiseAfter_raise up _ _)
    · exact (dated (.inr pos)).trans (raiseAfter_decrease pos down _ _)
    · exact (dated (.inl pos)).trans (raiseAfter_zero zero _ _ _)
    · exact Prod.mk.inj (evaluation_quiet (n := s.node.ticked g) hq)
  · subst hv
    obtain ⟨w, judged, capacity⟩ := judgeAnswer_tK i.toNat s.node
    have answered : capacityAnswered s.node.stc.cfg.capacity i.toNat = c := hc.symm
    rw [answered] at capacity
    refine ⟨_, exec_converterAnswer_awaited ha i, ?_⟩
    rw [(exchangeEnded_only _).hsu (by decide), judged, hsuCapacity_hsu capacity]
    refine ⟨?_, fun rises => if_neg (Nat.not_lt.mpr rises), fun falls => if_pos falls⟩
    split
    · exact hsuOverCommit_cEff _
    · rfl
  · refine ⟨_, receive_peer_heard hf harr hh peerHeat, ?_⟩
    rw [peerHeat_some hx, ptbHeat_rose hp rose waits, (hsuOverCommit_only _).ptb (by decide)]
  · refine ⟨hsuOverCommit_fits, hsuOverCommit_whole, fun hover hlow => ⟨fun h => ?_, fun h hw => ?_⟩, rfl, rfl, rfl,
      sortReservations_perm _, (sortReservations_pairwise _).imp fun h => (Reservation.before_iff _ _).mp h⟩
    · rw [hsuOverCommit_lowers hover hlow h]
      exact ⟨rfl, rfl, rfl⟩
    · rw [hsuOverCommit_takes_away hover hlow h hw]
      exact ⟨rfl, rfl, rfl⟩
  · exact ⟨portions_sum_le left rs, portions_length left rs,
      fun i r h => by rw [portions_getElem?, h, Option.map_some], portions_of_sum_le⟩

end Sys2Proof.Machine

/-! # The survey of the compressor (file 07 R119 to R122) -/

namespace Sys2Proof.Machine

/-! ## The refill order (R121) -/

theorem mem_banksUpTo {count : Nat} {b : Bank} : b ∈ banksUpTo count ↔ b.num ≤ count := by
  simp [banksUpTo, Four.mem_all]

theorem banksUpTo_pairwise (count : Nat) : (banksUpTo count).Pairwise fun a b => a.num < b.num :=
  List.Pairwise.filter _ (show Four.all.Pairwise fun a b => a.num < b.num by decide)

theorem mem_refillOrder {order : RefillOrder} {count : Nat} {pointer : Option Bank} {b : Bank} :
    b ∈ refillOrder order count pointer ↔ b.num ≤ count := by
  cases order with
  | descending => simp [refillOrder, mem_banksUpTo]
  | rotating =>
    cases pointer with
    | none => exact mem_banksUpTo
    | some p =>
      simp only [refillOrder, List.mem_append, List.mem_filter, mem_banksUpTo, decide_eq_true_eq]
      omega

theorem refillOrder_descending_pairwise (count : Nat) (pointer : Option Bank) :
    (refillOrder .descending count pointer).Pairwise fun a b => b.num < a.num :=
  List.pairwise_reverse.mpr (banksUpTo_pairwise count)

theorem refillOrder_rotating_pairwise (count : Nat) :
    (refillOrder .rotating count none).Pairwise fun a b => a.num < b.num :=
  banksUpTo_pairwise count

/-- Behind the pointer first, then up to it. -/
theorem refillOrder_pointer_pairwise (count : Nat) (p : Bank) : (refillOrder .rotating count (some p)).Pairwise
    fun a b => (p.num < a.num ∧ (a.num < b.num ∨ b.num ≤ p.num)) ∨ (a.num < b.num ∧ b.num ≤ p.num) := by
  refine List.pairwise_append.mpr ⟨?_, ?_, fun a ha b hb => ?_⟩
  · exact ((banksUpTo_pairwise count).filter _).imp_of_mem fun {a b} ha _ lt =>
      .inl ⟨of_decide_eq_true (List.mem_filter.mp ha).2, .inl lt⟩
  · exact ((banksUpTo_pairwise count).filter _).imp_of_mem fun {a b} _ hb lt =>
      .inr ⟨lt, of_decide_eq_true (List.mem_filter.mp hb).2⟩
  · exact .inl ⟨of_decide_eq_true (List.mem_filter.mp ha).2, .inr (of_decide_eq_true (List.mem_filter.mp hb).2)⟩

/-! ## The candidates (R121) -/

theorem available_and_below_iff (n : Node) (b : Bank) (h x : Nat) : (n.available b = true ∧ n.pB b + h < x) ↔
    (n.chan (.pB b)).health = .ok ∧ ∃ v, (n.chan (.pB b)).value = some v ∧ v + h < x := by
  cases hv : (n.chan (.pB b)).value <;> simp [Node.available, ChannelRec.sound, Node.pB, hv]

theorem refilling_eq_false_iff (t : Ptb) (b : Bank) : t.refilling b = false ↔
    ∀ p ∈ t.peers, p.stale = false → p.comp = .loadedRefill → p.refillBank ≠ some b := by
  simp [Ptb.refilling]

theorem refillCandidate_iff (n : Node) (b : Bank) : n.refillCandidate b = true ↔ (n.chan (.pB b)).health = .ok ∧
    (∃ v, (n.chan (.pB b)).value = some v ∧ v + n.stc.cfg.hysteresis < n.stc.cfg.nominal.get b) ∧ n.bankView b = [] ∧
    (∀ p ∈ n.ptb.peers, p.stale = false → p.comp = .loadedRefill → p.refillBank ≠ some b) := by
  rw [← and_assoc, ← available_and_below_iff, ← refilling_eq_false_iff]
  simp [Node.refillCandidate, and_assoc]

theorem mem_refillCandidates {n : Node} {skip : Option Bank} {b : Bank} : b ∈ n.refillCandidates skip ↔
    b.num ≤ n.stc.cfg.bankCount ∧ n.refillCandidate b = true ∧ skip ≠ some b := by
  simp [Node.refillCandidates, mem_refillOrder]

/-- No bank needs gas. -/
theorem refillCandidates_full {n : Node} (h : ∀ b : Bank, n.stc.cfg.nominal.get b ≤ n.pB b + n.stc.cfg.hysteresis)
    (skip : Option Bank) : n.refillCandidates skip = [] := by
  refine List.eq_nil_iff_forall_not_mem.mpr fun b hb => ?_
  have candidate := (mem_refillCandidates.mp hb).2.1
  simp [Node.refillCandidate, Nat.not_lt.mpr (h b)] at candidate

/-! ## The start permission (R120) -/

/-- Below the saturation of the age, "not older" is a bound on the time since the acceptance (file 01 R5). -/
theorem olderThan_eq_false_iff {n : Node} {c : Channel} {ms : Nat} (h : ms < 65535) :
    n.olderThan c ms = false ↔ ∃ a, (n.chan c).acceptedAt = some a ∧ n.now - a ≤ ms := by
  cases ha : (n.chan c).acceptedAt with
  | none => simp [Node.olderThan, Node.chanAge, ha]
  | some a =>
    simp only [Node.olderThan, Node.chanAge, ha, Option.map_some, Bool.or_eq_false_iff, decide_eq_false_iff_not,
      Option.some.injEq, exists_eq_left']
    omega

theorem soundAndFresh_iff (n : Node) (c : Channel) : n.soundAndFresh c = true ↔
    (n.chan c).value.isSome = true ∧ (n.chan c).health = .ok ∧
      ∃ a, (n.chan c).acceptedAt = some a ∧ n.now - a ≤ 2000 := by
  rw [← olderThan_eq_false_iff (by decide)]
  simp [Node.soundAndFresh, ChannelRec.sound, and_assoc]

theorem coolEnough_iff {n : Node} (h : (n.chan .tC).value.isSome = true) :
    n.coolEnough = true ↔ ∀ v, (n.chan .tC).value = some v → v < 4332 := by
  obtain ⟨v, hv⟩ := Option.isSome_iff_exists.mp h
  simp [Node.coolEnough, hv]

theorem peerLatch_eq_false_iff (t : Ptb) : t.peerLatch = false ↔ ∀ p ∈ t.peers, p.latch = false := by
  simp [Ptb.peerLatch]

theorem peerStarting_eq_false_iff (t : Ptb) :
    t.peerStarting = false ↔ ∀ p ∈ t.peers, p.stale = false → p.comp ≠ .starting := by
  simp [Ptb.peerStarting]

theorem quietAtLeast_eq_false_iff (n : Node) (ms : Nat) :
    n.quietAtLeast ms = false ↔ ∀ a, n.liu.quietSince = some a → n.now - a < ms := by
  rw [Node.quietAtLeast, ← Bool.not_eq_true, reached_iff]
  simp

theorem startPermitted_iff (n : Node) : n.startPermitted = true ↔
    n.ccu.state = .off ∧ (∃ a, n.ccu.offSince = some a ∧ 60000 ≤ n.now - a) ∧
    n.ccu.starts.length < n.stc.cfg.maxStarts ∧ n.isc.loop = .normal ∧
    (∀ p ∈ n.ptb.peers, p.latch = false) ∧ (∀ p ∈ n.ptb.peers, p.stale = false → p.comp ≠ .starting) ∧
    (∀ c : Channel, c = .pC ∨ c = .tC → (n.chan c).value.isSome = true ∧ (n.chan c).health = .ok ∧
      ∃ a, (n.chan c).acceptedAt = some a ∧ n.now - a ≤ 2000) ∧
    (∀ v, (n.chan .tC).value = some v → v < 4332) ∧ n.level .motorRun = false ∧
    (∀ a, n.liu.quietSince = some a → n.now - a < 1000) ∧ n.stc.conflict = false := by
  have channels : (∀ c : Channel, c = .pC ∨ c = .tC → n.soundAndFresh c = true) ↔
      n.soundAndFresh .pC = true ∧ n.soundAndFresh .tC = true := by simp
  have cool {p : Prop} : n.soundAndFresh .tC = true ∧ n.coolEnough = true ∧ p ↔
      n.soundAndFresh .tC = true ∧ (∀ v, (n.chan .tC).value = some v → v < 4332) ∧ p :=
    and_congr_right fun fresh => and_congr_left' (coolEnough_iff ((soundAndFresh_iff n .tC).mp fresh).1)
  simp only [← reached_iff, ← peerLatch_eq_false_iff, ← peerStarting_eq_false_iff, ← soundAndFresh_iff,
    ← quietAtLeast_eq_false_iff, channels]
  simp only [Node.startPermitted, Bool.and_eq_true, decide_eq_true_eq, Bool.not_eq_true', and_assoc, cool]

/-! ## The survey (R119, R122) -/

/-- Banks that are refused at once are passed on (R122). -/
theorem ccuTry_refused {n : Node} {as : List Bank} (h : ∀ a ∈ as, n.requestRefused a .refill = true) (bs : List Bank) :
    ccuTry (as ++ bs) n = ccuTry bs n := by
  induction as with
  | nil => rfl
  | cons a as ih =>
    have denied : ¬ n.grants a .refill := fun ⟨granted, _⟩ => by
      rw [h a List.mem_cons_self] at granted
      cases granted
    rw [List.cons_append, ccuTry, bcuRequest_denied denied]
    exact ih fun x hx => h x (List.mem_cons_of_mem _ hx)

theorem queueOffer_claim_kept {q : List QFrame} (hu : urgentCount q < 5) (hq : q.length < 10) (b : Bank) (k : ClaimKind) :
    (queueOffer (.claim b k) q).2 = true := by
  simp [queueOffer, FrameBody.isProgress, FrameBody.cls, Nat.not_le.mpr hu, hq]

theorem ccuTry_granted {n : Node} {b : Bank} (h : n.grants b .refill) (bs : List Bank) :
    ccuTry (b :: bs) n = { n.requesting b .refill with ccu.claim := some ⟨b, .pending⟩ } := by
  rw [ccuTry, bcuRequest_granted h]

theorem ccuChoose_free {n : Node} (hc : n.ccu.claim = none) (hd : n.ccu.direct = .none) (skip : Option Bank) :
    ccuChoose skip n = ccuTry (n.refillCandidates skip) n := if_pos ⟨hc, hd⟩

/-- A choice without a candidate, or where each is refused at once, changes nothing. -/
theorem ccuChoose_refused {n : Node} {skip : Option Bank}
    (h : ∀ b ∈ n.refillCandidates skip, n.requestRefused b .refill = true) : ccuChoose skip n = n := by
  unfold ccuChoose
  split
  · rw [← List.append_nil (n.refillCandidates skip), ccuTry_refused h]
    rfl
  · rfl

theorem ccuSurvey_off_stays {n : Node} (hs : n.ccu.state = .off)
    (h : n.refillCandidates none = [] ∨ n.startPermitted = false ∨
      (∀ b ∈ n.refillCandidates none, n.requestRefused b .refill = true)) : ccuSurvey n = n := by
  rw [ccuSurvey, hs]
  dsimp only
  split
  · next asks =>
    obtain ⟨candidates, permitted, free⟩ := asks
    have refused : ∀ b ∈ n.refillCandidates none, n.requestRefused b .refill = true := by
      simpa [candidates, permitted] using h
    rw [ccuChoose_refused refused, free]
    rfl
  · rfl

/-- The first candidate that is granted starts the compressor. -/
theorem ccuSurvey_off_starts {n : Node} {as bs : List Bank} {b : Bank} (hs : n.ccu.state = .off)
    (hcs : n.refillCandidates none = as ++ b :: bs) (hp : n.startPermitted = true) (hc : n.ccu.claim = none)
    (hd : n.ccu.direct = .none) (has : ∀ a ∈ as, n.requestRefused a .refill = true) (hb : n.grants b .refill) :
    ccuSurvey n = ccuStart { n.requesting b .refill with ccu.claim := some ⟨b, .pending⟩ } := by
  have chosen : ccuChoose none n = { n.requesting b .refill with ccu.claim := some ⟨b, .pending⟩ } := by
    rw [ccuChoose_free hc hd, hcs, ccuTry_refused has, ccuTry_granted hb]
  rw [ccuSurvey, hs]
  dsimp only
  rw [if_pos ⟨by simp [hcs], hp, hc⟩, if_pos (by rw [chosen]; rfl), chosen]

/-- The node at a survey tick that was due at `g`. -/
def Node.surveyed (g : Nat) (n : Node) : Node := { n with ccu.surveyNext := some (g + 1000) }

theorem exec_surveyTick_due {s : State} {g : Nat} (hg : s.node.ccu.surveyNext = some g) (hn : g ≤ s.node.now) :
    exec .surveyTick s = .next { s with node := ccuSurvey (s.node.surveyed g) } := by
  show execSurveyTick s = _
  rw [execSurveyTick, State.act_eq, hg, gridDue_some hn, Node.onlyIf_true, hg]
  rfl

/-- Settles O50: the survey by the outcome of its requests, the permission row by row, and the candidates by the bank
test and the refill order. -/
theorem surveyStartsTheCompressor : Obligations.SurveyStartsTheCompressor := by
  refine ⟨fun s g hg hn hs => ⟨fun h => ?_, fun as b bs hcs hp hc hd has hb hu hq => ?_⟩, startPermitted_iff,
    fun n skip => ⟨fun b => ?_, fun ho => ?_, fun ho hp => ?_, fun p ho hp => ?_⟩⟩
  · rw [exec_surveyTick_due hg hn, ccuSurvey_off_stays (n := s.node.surveyed g) hs h]
    rfl
  · refine ⟨_, exec_surveyTick_due hg hn, ?_⟩
    rw [ccuSurvey_off_starts (n := s.node.surveyed g) hs hcs hp hc hd has ⟨hb, queueOffer_claim_kept hu hq _ _⟩]
    exact ⟨rfl, rfl, rfl⟩
  · rw [mem_refillCandidates, refillCandidate_iff]
    tauto
  · exact List.Pairwise.filter _ (ho ▸ refillOrder_descending_pairwise _ _)
  · exact List.Pairwise.filter _ (ho ▸ hp ▸ refillOrder_rotating_pairwise _)
  · exact List.Pairwise.filter _ (ho ▸ hp ▸ refillOrder_pointer_pairwise _ p)

end Sys2Proof.Machine

/-! # The timers of the compressor, the end of a refill and lockout (file 07 R117, R119, R123 to R128, R130, R131) -/

namespace Sys2Proof.Machine

/-! ## A halt of the compressor (R127, R131) -/

/-- A claim given up leaves valves that are commanded closed as they are. -/
theorem ccuGiveClaim_shut {n : Node} (h : ∀ b : Bank, (n.ccu.vr.get b).opened = false) :
    ∃ claim, (ccuGiveClaim n).ccu = { n.ccu with claim := claim } := by
  unfold ccuGiveClaim
  split
  · exact ⟨_, rfl⟩
  · next c _ =>
    split
    · exact ⟨_, rfl⟩
    · exact ⟨_, (bcuRelease_only _ _ _).ccu (by decide)⟩
    · split
      · exact ⟨_, (bcuRelease_only _ _ _).ccu (by decide)⟩
      · have shut : (n.ccu.vr.get c.bank).command false n.now = n.ccu.vr.get c.bank := by simp [ValveRec.command, h]
        refine ⟨some ⟨c.bank, .releasing⟩, ?_⟩
        simp only [refillValve, shut, Quad.set_get]

/-- The CCU as a halt leaves it, but for its claim. -/
def Node.haltedCcu (n : Node) (st : CompState) (claim : Option RefillClaim) : Ccu := { n.ccu with
  state := st
  since := n.now
  claim := claim
  direct := .none
  runSince := none
  absentSince := none
  offSince := some (n.ccu.offSince.getD n.now)
  passOver := none
  vr := n.ccu.vr.map (·.command false n.now)
  vdir := n.ccu.vdir.command false n.now }

theorem ccuHalt_ccu (st : CompState) (n : Node) : ∃ claim, (ccuHalt st n).ccu = n.haltedCcu st claim := by
  have shut (k : Node) (b : Bank) : ((closeCompressorValves k).ccu.vr.get b).opened = false := by
    simp [closeCompressorValves]
  refine (ccuGiveClaim_shut (shut _)).imp fun claim given => given.trans ?_
  cases h : n.ccu.offSince <;> simp [closeCompressorValves, Node.haltedCcu, h]

/-! ## The timers (R119, R123, R126, R127, R131) -/

theorem stateLasted_of {n : Node} {st : CompState} {ms : Nat} (hs : n.ccu.state = st) (ht : ms ≤ n.now - n.ccu.since) :
    n.stateLasted st ms = true := by
  simp [Node.stateLasted, Node.elapsed, hs, ht]

theorem exec_startingEnd_due {s : State} (h : s.node.stateLasted .starting 5000 = true) :
    exec .startingEnd s = .next { s with node := ccuStarted s.node } := by
  show execStartingEnd s = _
  rw [execStartingEnd, State.act_eq, h, Node.onlyIf_true]

theorem exec_stoppingEnd_due {s : State} (h : s.node.stateLasted .stopping 10000 = true) :
    exec .stoppingEnd s = .next { s with node := ccuOff s.node } := by
  show execStoppingEnd s = _
  rw [execStoppingEnd, State.act_eq, h, Node.onlyIf_true]

theorem exec_lockoutEnd_due {s : State} (h : s.node.stateLasted .lockout 600000 = true) :
    exec .lockoutEnd s = .next { s with node := ccuOff s.node } := by
  show execLockoutEnd s = _
  rw [execLockoutEnd, State.act_eq, h, Node.onlyIf_true]

theorem exec_runTimerExpiry (s : State) : exec .runTimerExpiry s = .next { s with node := ccuIdleTest s.node } := rfl

/-- Without the quiet hold a refill valve is commanded open. -/
theorem openRefill_free {n : Node} (h : n.ccu.hold = false) (b : Bank) : openRefill b n = refillValve b true n := by
  rw [openRefill, h, Bool.not_false, Node.onlyIf_true]

theorem openDirect_free {n : Node} (h : n.ccu.hold = false) : openDirect n = directValve true n := by
  rw [openDirect, h, Bool.not_false, Node.onlyIf_true]

theorem ccuStarted_held {n : Node} {b : Bank} (hd : n.ccu.direct ≠ .pending) (hc : n.ccu.claim = some ⟨b, .held⟩) :
    ccuStarted n = ccuLoad b { n with ccu.passOver := none } := by
  simp [ccuStarted, hd, hc]

theorem ccuStarted_direct {n : Node} (hd : n.ccu.direct = .pending) :
    ccuStarted n = ccuServe { n with ccu.passOver := none } := if_pos hd

theorem ccuIdleTest_stops {n : Node} {a : Nat} (hs : n.ccu.state = .idleRun) (hc : n.ccu.claim = none)
    (hd : n.ccu.direct = .none) (ha : n.ccu.runSince = some a) (ht : 120000 ≤ n.now - a) :
    ccuIdleTest n = ccuHalt .stopping n :=
  if_pos ⟨hs, hc, hd, by rw [ha, reached_some ht]⟩

theorem ccuIdleTest_runs_on {n : Node} {a : Nat} (ha : n.ccu.runSince = some a) (ht : n.now - a < 120000) :
    ccuIdleTest n = n :=
  if_neg fun ⟨_, _, _, reached⟩ => by simp [ha, Node.reached, Nat.not_le.mpr ht] at reached

/-! ## The end of a refill (R125) -/

theorem ccuGiveClaim_open {n : Node} {b : Bank} (hc : n.ccu.claim = some ⟨b, .held⟩)
    (ho : (n.ccu.vr.get b).opened = true) : ccuGiveClaim n = { n with ccu := { n.ccu with
      claim := some ⟨b, .releasing⟩, vr := n.ccu.vr.set b ⟨false, some n.now⟩ } } := by
  have travels : (n.ccu.vr.get b).closed = false := by simp [ValveRec.closed, ho]
  simp [ccuGiveClaim, hc, travels, refillValve, ValveRec.command_new, ho]

theorem ccuLeaveRefill_open {n : Node} {b : Bank} (hc : n.ccu.claim = some ⟨b, .held⟩)
    (ho : (n.ccu.vr.get b).opened = true) : ccuLeaveRefill n = { n with ccu := { n.ccu with
      state := .idleRun, since := n.now, claim := some ⟨b, .releasing⟩
      vr := n.ccu.vr.set b ⟨false, some n.now⟩ } } := by
  rw [ccuLeaveRefill, ccuGiveClaim_open (n := { n with ccu.state := .idleRun, ccu.since := n.now }) hc ho]
  rfl

theorem claimStage_same {n : Node} {b : Bank} {st : ClaimStage} (h : n.ccu.claim = some ⟨b, st⟩) :
    n.claimStage b = some st := by
  simp [Node.claimStage, h]

theorem sampleP_B_full {n : Node} {b : Bank} {v : Nat} (hs : n.ccu.state = .loadedRefill)
    (hc : n.ccu.claim = some ⟨b, .held⟩) (hv : n.stc.cfg.nominal.get b ≤ v) : sampleP_B b v n = ccuLeaveRefill n :=
  if_pos ⟨hs, claimStage_same hc, hv⟩

theorem sampleP_B_below {n : Node} {b : Bank} {v : Nat} (hv : v < n.stc.cfg.nominal.get b) : sampleP_B b v n = n :=
  if_neg fun ⟨_, _, full⟩ => Nat.not_le.mpr hv full

/-- An accepted bank sample, as the answer to its awaited exchange. -/
theorem exec_converterAnswer_bank {s : State} {b : Bank} {i : BitVec 16} (ha : s.awaits (.pB b)) (hlo : 3600 ≤ i.toNat)
    (hhi : i.toNat ≤ 21000) : exec (.converterAnswer (converterInput (.pB b)) i) s = .next { s with
      node := exchangeEnded (sampleP_B b (codeOfCurrent (.pB b) i.toNat)
        (s.node.accepting (.pB b) (codeOfCurrent (.pB b) i.toNat))) } := by
  rw [exec_converterAnswer_awaited ha, judgeAnswer_accepted ⟨hlo, hhi⟩]
  rfl

/-- The node with a refill valve at rest in the closed position and no claim in hand. -/
def Node.refillShut (b : Bank) (n : Node) : Node :=
  { n with ccu := { n.ccu with claim := none, vr := n.ccu.vr.set b ⟨false, none⟩ } }

/-- The valve of a RELEASING claim has closed: the claim is released, and a choice made. -/
theorem ccuRefillArrived_releases {n : Node} {b : Bank} (hc : n.ccu.claim = some ⟨b, .releasing⟩)
    (hv : (n.ccu.vr.get b).opened = false) :
    ccuRefillArrived b n = ccuIdleChoice none (bcuRelease b .refill (n.refillShut b)) := by
  have arrived : (n.ccu.vr.get b).arrive = ⟨false, none⟩ := by rw [ValveRec.arrive, hv]
  simp [ccuRefillArrived, claimStage_same hc, arrived, ValveRec.closed, Node.refillShut]

/-- With no bank that can be asked for, a choice before the end of the minimum run changes nothing. -/
theorem ccuIdleChoice_runs_on {n : Node} {skip : Option Bank} {a : Nat} (h : n.refillCandidates skip = [])
    (ha : n.ccu.runSince = some a) (ht : n.now - a < 120000) : ccuIdleChoice skip n = n := by
  unfold ccuIdleChoice
  split
  · rw [ccuChoose_refused (by simp [h]), ccuIdleTest_runs_on ha ht]
  · rfl

/-- Where no bank needs gas the compressor runs on after the release. -/
theorem ccuRefillArrived_runs_on {n : Node} {b : Bank} {r : Nat} (hc : n.ccu.claim = some ⟨b, .releasing⟩)
    (hv : (n.ccu.vr.get b).opened = false) (hr : n.ccu.runSince = some r) (ht : n.now - r < 120000)
    (full : ∀ c : Bank, n.stc.cfg.nominal.get c ≤ n.pB c + n.stc.cfg.hysteresis) :
    ccuRefillArrived b n = bcuRelease b .refill (n.refillShut b) := by
  have frame := bcuRelease_only b .refill (n.refillShut b)
  have satisfied : (bcuRelease b .refill (n.refillShut b)).refillCandidates none = [] :=
    refillCandidates_full (fun c => by
      rw [Node.pB, Node.chan, frame.stc (by decide), frame.isc (by decide)]
      exact full c) none
  have run : (bcuRelease b .refill (n.refillShut b)).ccu.runSince = some r := by
    rw [frame.ccu (by decide)]
    exact hr
  rw [ccuRefillArrived_releases hc hv, ccuIdleChoice_runs_on satisfied run (by rw [frame.now]; exact ht)]

/-- Settles O51: each timer by the test it has met, the end of a refill by its sample and by the arrival of its valve. -/
theorem compressorTimersAct : Obligations.CompressorTimersAct := by
  refine ⟨fun s b hs ht hd hc hh => ⟨_, exec_startingEnd_due (stateLasted_of hs ht), ?_⟩,
    fun s hs ht hd hh => ⟨_, exec_startingEnd_due (stateLasted_of hs ht), ?_⟩,
    fun s a hs hc hd ha ht => ⟨_, exec_runTimerExpiry s, ?_⟩,
    fun s hs ht => exec_stoppingEnd_due (stateLasted_of hs ht),
    fun s hs ht => exec_lockoutEnd_due (stateLasted_of hs ht),
    fun s => ⟨_, rfl, fun a => ?_⟩,
    fun s b i ha hlo hhi hv hs hc ho => ⟨_, exec_converterAnswer_bank ha hlo hhi, ?_⟩,
    fun s b i ha hlo hhi hv => ⟨_, exec_converterAnswer_bank ha hlo hhi, ?_⟩,
    fun s b a r hs hd hc hv ht hr hrun full => ⟨_, exec_valveTravelEnd_due (v := .refill b) (congrArg _ hv) ht, ?_⟩⟩
  · rw [ccuStarted_held hd hc, ccuLoad, openRefill_free (by exact hh)]
    exact ⟨rfl, rfl, rfl, by simp, rfl⟩
  · rw [ccuStarted_direct hd, ccuServe, openDirect_free (by exact hh)]
    exact ⟨rfl, by simp, rfl⟩
  · obtain ⟨claim, halted⟩ := ccuHalt_ccu .stopping s.node
    rw [ccuIdleTest_stops hs hc hd ha ht, Node.cmRun, halted, (ccuHalt_only _ _).fcu (by decide)]
    exact ⟨rfl, rfl, rfl, rfl, rfl, rfl⟩
  · rw [List.mem_filter, decide_eq_true_iff, Node.elapsed]
  · have frame := exchangeEnded_only (sampleP_B b (codeOfCurrent (.pB b) i.toNat)
      (s.node.accepting (.pB b) (codeOfCurrent (.pB b) i.toNat)))
    rw [Node.cmLoad, frame.ccu (by decide), frame.bcu (by decide), frame.fcu (by decide),
      sampleP_B_full (n := s.node.accepting _ _) hs hc hv, ccuLeaveRefill_open (n := s.node.accepting _ _) hc ho]
    exact ⟨rfl, Bool.and_false _, rfl, rfl⟩
  · rw [sampleP_B_below (n := s.node.accepting _ _) hv, (exchangeEnded_only _).ccu (by decide)]
    rfl
  · show (ccuRefillArrived b s.node).ccu = _ ∧ (ccuRefillArrived b s.node).bcu.find b .refill = none
    rw [ccuRefillArrived_runs_on hc (by rw [hv]) hr hrun full, (bcuRelease_only _ _ _).ccu (by decide)]
    exact ⟨rfl, bcuRelease_find _ _ _⟩

/-! ## Lockout (R130, R131) -/

theorem ccuGo_ccu (st : CompState) (n : Node) : (ccuGo st n).ccu = (ccuHalt st n).ccu :=
  (tellDirect_only _ _).ccu (by decide)

/-- A lockout cause acts on a running or stopping compressor: it is halted, and the start list stays. -/
theorem ccuLockout_locks {n : Node} (h : n.cmRun = true ∨ n.ccu.state = .stopping) :
    (ccuLockout n).ccu.state = .lockout ∧ (ccuLockout n).ccu.since = n.now ∧ (ccuLockout n).ccu.runSince = none ∧
    (ccuLockout n).ccu.absentSince = none ∧ (ccuLockout n).ccu.direct = .none ∧
    (ccuLockout n).ccu.vdir.opened = false ∧ (∀ b : Bank, ((ccuLockout n).ccu.vr.get b).opened = false) ∧
    (ccuLockout n).ccu.starts = n.ccu.starts := by
  have acts : (n.cmRun || decide (n.ccu.state = .stopping)) = true := by simpa using h
  obtain ⟨claim, halted⟩ := ccuHalt_ccu .lockout n
  rw [ccuLockout, acts, Node.onlyIf_true, ccuGo_ccu, halted]
  exact ⟨rfl, rfl, rfl, rfl, rfl, ValveRec.command_opened _ _ _, fun b => by simp [Node.haltedCcu], rfl⟩

theorem exec_channelAgeExpiry_old {s : State} {c : Channel} (hc : c = .pC ∨ c = .tC)
    (h : s.node.olderThan c 2000 = true) :
    exec (.channelAgeExpiry c) s = .next { s with node := ccuLockout s.node } := by
  show execChannelAgeExpiry c s = _
  obtain rfl | rfl := hc <;> rw [execChannelAgeExpiry, State.act_eq, channelAged, h, Node.onlyIf_true]

theorem exec_motorAbsentExpiry_due {s : State} {a : Nat} (h : s.node.ccu.absentSince = some a)
    (ht : 2000 ≤ s.node.now - a) : exec .motorAbsentExpiry s = .next { s with node := ccuLockout s.node } := by
  show execMotorAbsentExpiry s = _
  rw [execMotorAbsentExpiry, State.act_eq, h, reached_some ht, Node.onlyIf_true]

/-- The age of another channel is no cause (log 29). -/
theorem channelAged_other {c : Channel} (hp : c ≠ .pC) (ht : c ≠ .tC) (n : Node) : channelAged c n = n := by
  unfold channelAged
  split
  · contradiction
  · contradiction
  · rfl

/-- A hot T_C sample, and a P_C or T_C that becomes FAILED, are lockout causes (R130). -/
theorem judgeAnswer_locks {n : Node} {c : Channel} {i : Nat}
    (h : (c = .tC ∧ 3600 ≤ i ∧ i ≤ 21000 ∧ 4332 ≤ codeOfCurrent .tC i) ∨
      ((c = .pC ∨ c = .tC) ∧ (i < 3600 ∨ 21000 < i) ∧ (n.chan c).health = .ok)) :
    ∃ v : Isc, judgeAnswer c i n = ccuLockout { n with isc := v } := by
  obtain ⟨rfl, hlo, hhi, hot⟩ | ⟨hc, hi, sound⟩ := h
  · refine ⟨(n.accepting .tC (codeOfCurrent .tC i)).isc, ?_⟩
    rw [judgeAnswer_accepted ⟨hlo, hhi⟩, sampleEffect, decide_eq_true hot]
    rfl
  · refine ⟨(n.failing c).isc, ?_⟩
    obtain rfl | rfl := hc <;> rw [judgeAnswer_failed hi, failedEffect, sound] <;> rfl

/-- Settles O24: each cause brings the lockout, and the lockout halts the compressor. -/
theorem lockoutCausesLockTheCompressorOut : Obligations.LockoutCausesLockTheCompressorOut := by
  refine ⟨fun s c hc old hrun => ⟨_, exec_channelAgeExpiry_old hc old, ccuLockout_locks hrun⟩,
    fun s a ha ht hrun => ⟨_, exec_motorAbsentExpiry_due ha ht, ccuLockout_locks hrun⟩,
    fun s c i hw hrun cause => ⟨_, exec_converterAnswer_awaited hw i, ?_⟩, fun s c hp ht => ?_⟩
  · obtain ⟨v, judged⟩ := judgeAnswer_locks cause
    obtain ⟨state, since, -, -, direct, vdir, vr, -⟩ := ccuLockout_locks (n := { s.node with isc := v }) hrun
    rw [(exchangeEnded_only _).ccu (by decide), judged]
    exact ⟨state, since, direct, vdir, vr⟩
  · show execChannelAgeExpiry c s = _
    rw [execChannelAgeExpiry, State.act_eq, channelAged_other hp ht]

end Sys2Proof.Machine

/-! # Metering and the price table (file 08 R136, R137, R139 to R142, R145, R149) -/

namespace Sys2Proof.Machine

/-! ## What changes the price table (R149) -/

theorem prices_mem_mayChange {c : Instr} (h : .prices ∈ mayChange c) : ∃ f, c = .price f := by
  unfold mayChange at h
  split at h
  all_goals simp at h ⊢

/-- Settles O6: of the commands that are no start-up, only PRICE has the price table among its items; CHECK leaves the
whole MPU. -/
theorem pricesChangeOnlyByPrice : Obligations.PricesChangeOnlyByPrice := by
  intro c s t hCause hStart hPrice e
  by_cases hRead : ∃ block, c = .configReadDone block
  · obtain ⟨block, rfl⟩ := hRead
    rw [(execConfigReadDone_only e).mpu (by decide)]
  · have kept := (exec_but c hCause hStart (fun a h => hRead ⟨a, h⟩) e).1
    exact kept.prices fun h => (prices_mem_mayChange h).elim hPrice

/-! ## The projected figures (R145, R146) -/

/-- The marks change nothing else of the MPU. -/
theorem mpuMarks_mpu (n : Node) :
    ∃ slow limit, (mpuMarks n).mpu = { n.mpu with slow := slow, limit := limit } := by
  unfold mpuMarks
  split
  · exact ⟨_, _, rfl⟩
  · split
    · exact ⟨_, _, rfl⟩
    · exact ⟨_, _, rfl⟩

/-- In an OPEN window the figures are formed from the gross and the vent estimate of the moment. -/
theorem mpuProject_open {n : Node} (h : n.mpu.windowOpen = true) :
    ∃ amount slow limit, (mpuProject n).mpu = { n.mpu with
      ventEst := n.ventEstimate, projNet := n.mpu.gross - n.ventEstimate, projAmount := amount
      slow := slow, limit := limit } := by
  rw [mpuProject, if_pos h]
  obtain ⟨slow, limit, marked⟩ := mpuMarks_mpu _
  exact ⟨_, slow, limit, marked⟩

/-- The vent estimate reads the dead volume, the held P_H and T_D, and the end values of the fill. -/
theorem ventEstimate_congr {n m : Node} (hs : m.stc = n.stc) (hi : m.isc = n.isc) (hf : m.fcu = n.fcu) :
    m.ventEstimate = n.ventEstimate := by
  simp only [Node.ventEstimate, Node.ventInputs, Node.pH, Node.tD, Node.chan, hs, hi, hf]

/-! ## METER_PULSE (R136, R137, R139, R140) -/

/-- The node with a pulse weight added to the gross of the fill. -/
def Node.pulseCounted (n : Node) : Node :=
  { n with mpu := { n.mpu with gross := n.mpu.gross + n.stc.cfg.pulseWeight } }

/-- Between the count of a pulse and its projections only the record store is at work. -/
theorem mpuFillPulse_projects (n : Node) : ∃ m, Only [.rst, .liu] n.pulseCounted m ∧ mpuFillPulse n = mpuProject m := by
  refine ⟨_, ?_, rfl⟩
  split
  · exact (raiseRecord_only _ _).after (onImage_only _ n.pulseCounted)
  · exact (onImage_only _ n.pulseCounted).within

/-- A pulse in an OPEN window. -/
theorem mpuFillPulse_open {n : Node} (h : n.mpu.windowOpen = true) :
    ∃ amount slow limit, (mpuFillPulse n).mpu = { n.mpu with
      gross := n.mpu.gross + n.stc.cfg.pulseWeight, ventEst := n.ventEstimate
      projNet := n.mpu.gross + n.stc.cfg.pulseWeight - n.ventEstimate, projAmount := amount
      slow := slow, limit := limit } := by
  obtain ⟨m, counted, pulse⟩ := mpuFillPulse_projects n
  have mpu : m.mpu = n.pulseCounted.mpu := counted.mpu (by decide)
  have vent : m.ventEstimate = n.ventEstimate :=
    ventEstimate_congr (counted.stc (by decide)) (counted.isc (by decide)) (counted.fcu (by decide))
  obtain ⟨amount, slow, limit, formed⟩ := mpuProject_open (n := m) (by rw [mpu]; exact h)
  refine ⟨amount, slow, limit, ?_⟩
  rw [pulse, formed, vent, mpu]
  rfl

/-- A pulse in a CLOSED window that leaves pending creep below its limit. -/
theorem mpuCreepPulse_below {n : Node} (h : n.mpu.pending + n.stc.cfg.pulseWeight < 20000) :
    mpuCreepPulse n = { n with mpu := { n.mpu with
      pending := n.mpu.pending + n.stc.cfg.pulseWeight
      quietSince := some n.now
      creepWindow := some (creepAdd n.now n.stc.cfg.pulseWeight n.mpu.creepWindow)
      creepFlag := n.mpu.creepFlag ||
        decide (1000 < (creepAdd n.now n.stc.cfg.pulseWeight n.mpu.creepWindow).mass) } } :=
  if_neg (by omega)

theorem exec_meterPulse_open {s : State} (hr : s.node.inRun = true) (h : s.node.mpu.windowOpen = true) :
    exec .meterPulse s = .next { s with node := mpuFillPulse s.node } := by
  show execMeterPulse s = _
  rw [execMeterPulse, State.act_eq, hr, Node.onlyIf_true, meterPulse, if_pos h]

theorem exec_meterPulse_closed {s : State} (hr : s.node.inRun = true) (h : s.node.mpu.windowOpen = false) :
    exec .meterPulse s = .next { s with node := mpuCreepPulse s.node } := by
  show execMeterPulse s = _
  rw [execMeterPulse, State.act_eq, hr, Node.onlyIf_true, meterPulse, if_neg (by rw [h]; decide)]

theorem exec_meterPulse_before_run {s : State} (hr : s.node.inRun = false) : exec .meterPulse s = .next s := by
  show execMeterPulse s = _
  rw [execMeterPulse, State.act_eq, hr, Node.onlyIf_false]

/-- Settles O52: a pulse by the window, and none before RUN. -/
theorem pulsesGoToFillOrCreep : Obligations.PulsesGoToFillOrCreep := by
  refine ⟨fun s hr h => ⟨_, exec_meterPulse_open hr h, ?_⟩, fun s w hr h hlt hw => ?_,
    fun s => exec_meterPulse_before_run⟩
  · obtain ⟨amount, slow, limit, pulse⟩ := mpuFillPulse_open h
    rw [pulse]
    exact ⟨rfl, rfl, rfl, rfl, h, (mpuFillPulse_only s.node).fcu (by decide)⟩
  · have window : creepAdd s.node.now s.node.stc.cfg.pulseWeight s.node.mpu.creepWindow = w := by
      rw [hw]
      cases s.node.mpu.creepWindow <;> rfl
    rw [exec_meterPulse_closed hr h, mpuCreepPulse_below hlt, window]

/-! ## CREEP_WINDOW_CLOSE and CREEP_QUIET_EXPIRY (R140 to R142) -/

theorem exec_creepWindowClose_due {s : State} {w : CreepWindow} (h : s.node.mpu.creepWindow = some w)
    (ht : 60000 ≤ s.node.now - w.openedAt) : exec .creepWindowClose s = .next { s with node := { s.node with
      mpu := { s.node.mpu with creepWindow := none } } } := by
  show execCreepWindowClose s = _
  simp [execCreepWindowClose, Node.elapsed, h, ht]

theorem exec_creepQuietExpiry_due {s : State} {a : Nat} (h : s.node.mpu.quietSince = some a)
    (ht : 60000 ≤ s.node.now - a) :
    exec .creepQuietExpiry s = .next { s with node := creepQuiet s.node } := by
  show execCreepQuietExpiry s = _
  rw [execCreepQuietExpiry, State.act_eq, h, reached_some ht, Node.onlyIf_true]

/-- Without pending creep nothing is handed on. -/
theorem mpuAccrue_nothing {n : Node} (h : n.mpu.pending = 0) : mpuAccrue n = n := if_neg (by omega)

theorem mpuAccrue_pending {n : Node} (h : 0 < n.mpu.pending) :
    mpuAccrue n = raiseCreep n.mpu.pending { n with mpu := { n.mpu with pending := 0 } } := if_pos h

theorem mpuAccrue_mpu (n : Node) : (mpuAccrue n).mpu = { n.mpu with pending := 0 } := by
  obtain h | h := Nat.eq_zero_or_pos n.mpu.pending
  · rw [mpuAccrue_nothing h, ← h]
  · rw [mpuAccrue_pending h, (raiseCreep_only _ _).mpu (by decide)]

/-- An idle store with nothing else waiting begins the creep write at once (R159, R160). -/
theorem raiseCreep_idle {n : Node} (mass : Nat) (hw : n.rst.write = none) (hr : n.rst.recordMark = none)
    (hq : n.rst.requests = []) (hc : n.rst.creepMark = none) :
    (raiseCreep mass n).rst.write = some (.creep mass) := by
  simp [raiseCreep, storeKick, storeTake, Rst.waiting, oldestItem, hw, hr, hq, hc]

/-- Settles O53: each timer has come to its time, and pending creep is handed on where there is any. -/
theorem creepTimersAct : Obligations.CreepTimersAct := by
  refine ⟨fun s w h ht => exec_creepWindowClose_due h ht, fun s a h ht =>
    ⟨_, exec_creepQuietExpiry_due h ht, mpuAccrue_mpu _, fun hp => ?_, fun hp hw hr hq hc => ?_⟩⟩
  · show (creepQuiet s.node).rst = s.node.rst
    rw [creepQuiet, mpuAccrue_nothing (by exact hp)]
  · show (creepQuiet s.node).rst.write = some (.creep s.node.mpu.pending)
    rw [creepQuiet, mpuAccrue_pending (by exact hp)]
    exact raiseCreep_idle _ hw hr hq hc

/-! ## PRICE (R149) -/

section

variable {n : Node} {f : LineFrame}

theorem price_sets {r : Four} (hr : fieldAt f.payload 0 1 = r.num) (hp : fieldAt f.payload 1 3 ≤ 999999) :
    price f n = offer (.answer f.source.toNat kindPrice .ok 0) { n with mpu := { n.mpu with
      prices := n.mpu.prices.set r (if fieldAt f.payload 1 3 = 0 then none else some (fieldAt f.payload 1 3)) } } := by
  rw [price, hr, Four.ofNum_num]
  exact if_neg (by omega)

/-- A row outside 1 to 4, or a price of more than six digits. -/
theorem price_refused (h : fieldAt f.payload 0 1 < 1 ∨ 4 < fieldAt f.payload 0 1 ∨ 999999 < fieldAt f.payload 1 3) :
    price f n = offer (.answer f.source.toNat kindPrice .badField 0) n := by
  unfold price
  split
  · rfl
  · next row hrow =>
    have inTable : ¬(fieldAt f.payload 0 1 < 1 ∨ 4 < fieldAt f.payload 0 1) := by
      rw [← Four.ofNum_eq_none_iff, hrow]
      exact Option.some_ne_none row
    exact if_pos (by tauto)

end

/-- A PRICE of the right length, also one sent to all stations, reaches the MPU (file 10 R173). -/
theorem exec_price_run {s : State} {bits : Bits} {f : LineFrame} (hf : receive bits = some f)
    (ha : arrivalOf s.node.stc.node f = .command kindPrice) (hp : s.node.stc.phase = .run)
    (hlen : f.payload.length = 4) : exec (.price bits) s = .next { s with node := price f s.node } := by
  have sound : badField true f = false := by
    rw [Bool.eq_false_iff, Ne, badField_eq_true_iff, arrivalOf_command_kind ha, hlen]
    rintro (h | ⟨-, h⟩)
    · exact h (by decide)
    · cases h
  show execPrice bits s = _
  rw [execPrice, receive_taken hf ha, onCommand_run hp sound]

/-- Settles O54: the row and the price decide what PRICE does, and what does not reach the MPU meets the gate. -/
theorem priceSetsItsRow : Obligations.PriceSetsItsRow := by
  refine ⟨?_, commandGate_of_exec fun _ _ => rfl⟩
  rintro s bits f row p hf ha hrun hlen rfl rfl
  rw [exec_price_run hf ha hrun hlen]
  exact ⟨fun r hr hp => by rw [price_sets hr hp], fun h => by rw [price_refused h]⟩

end Sys2Proof.Machine

/-! # The nonvolatile store: what changes it, and the start-up scan (file 09 R152, R164, R165) -/

namespace Sys2Proof.Machine

/-! ## What changes the nonvolatile store (R152) -/

/-- Slots and totals copies are as they were. -/
abbrev StoreSame (n m : Node) : Prop :=
  m.rst.slots = n.rst.slots ∧ m.rst.copy1 = n.rst.copy1 ∧ m.rst.copy2 = n.rst.copy2

theorem store_mem_mayChange {c : Instr} (h : .store ∈ mayChange c) :
    c = .scanWriteComplete ∨ c = .createWriteComplete ∨ c = .checkpointWriteComplete ∨ c = .closeWriteComplete ∨
      c = .creepWriteComplete ∨ c = .collectWriteComplete := by
  unfold mayChange at h
  split at h
  all_goals simp at h ⊢

/-- CHECK reads the nonvolatile store where it begins the scan, and writes nothing. -/
theorem checkConfig_store (block : List Byte) (n : Node) : StoreSame n (checkConfig block n) := by
  unfold checkConfig
  dsimp only
  split
  · obtain ⟨slots, copy1, copy2, -⟩ := scanBegin_kept n.rst
    exact ⟨slots, copy1, copy2⟩
  · have grid := beginStatusGrid_kept (({ n with stc.hoseCode := hoseCodeRead block } : Node).enterPhase .startFault)
    exact ⟨grid.slots, grid.copy1, grid.copy2⟩

theorem beginStartUp_store (straps : BitVec 3) (levels : Levels) (n : Node) :
    StoreSame n (beginStartUp straps levels n) := by
  have kept := beginStartUp_kept straps levels n
  exact ⟨kept.slots, kept.copy1, kept.copy2⟩

theorem onlyIf_store {n : Node} {c : Bool} {f : Node → Node} (h : StoreSame n (f n)) : StoreSame n (n.onlyIf c f) := by
  cases c
  · exact ⟨rfl, rfl, rfl⟩
  · exact h

/-- Settles O7: the three start-up commands keep the store, and of the others only the write completions have it among
their items. -/
theorem storeChangesOnlyAtWriteCompletions : Obligations.StoreChangesOnlyAtWriteCompletions := by
  intro c s t hScan hCreate hCheckpoint hClose hCreep hCollect e
  have others (h1 : ∀ k, c ≠ .startUpCause k) (h2 : ∀ a b, c ≠ .startUp a b) (h3 : ∀ a, c ≠ .configReadDone a) :
      StoreSame s.node t.node := by
    refine (exec_but c h1 h2 h3 e).1.store fun h => ?_
    obtain h | h | h | h | h | h := store_mem_mayChange h
    · exact hScan h
    · exact hCreate h
    · exact hCheckpoint h
    · exact hClose h
    · exact hCreep h
    · exact hCollect h
  cases c
  case startUpCause cause =>
    cases e
    exact ⟨rfl, rfl, rfl⟩
  case startUp straps levels =>
    rw [act_next (f := fun n => n.onlyIf (decide (n.stc.phase = .held)) (beginStartUp straps levels)) e]
    exact onlyIf_store (beginStartUp_store straps levels s.node)
  case configReadDone block =>
    rw [act_next (f := fun n => n.onlyIf (decide (n.stc.phase = .configRead)) (checkConfig block)) e]
    exact onlyIf_store (checkConfig_store block s.node)
  all_goals exact others (by simp) (by simp) (by simp)

/-! ## The slots in their order (R164, R165) -/

/-- A slot that the scan leaves as it is. -/
def StoredSlot.Passes (x : StoredSlot) : Prop :=
  x.headerSound = true ∧
    (x.state = .free ∨ x.state = .collected ∨ x.state = .damaged ∨ (x.state = .closed ∧ x.bodySound = true))

section

variable {r : Rst} {i j : Nat} {x : StoredSlot}

theorem scanFrom_slot (h : r.slots[j]? = some x) : r.scanFrom j = r.scanSlots j (x :: r.slots.drop (j + 1)) := by
  obtain ⟨hj, rfl⟩ := List.getElem?_eq_some_iff.mp h
  rw [Rst.scanFrom, List.drop_eq_getElem_cons hj]

theorem scanFrom_passed (h : r.slots[j]? = some x) (hx : x.Passes) : r.scanFrom j = r.scanFrom (j + 1) := by
  obtain ⟨header, state⟩ := hx
  rw [scanFrom_slot h, Rst.scanSlots, if_neg (by rw [header]; decide)]
  obtain state | state | state | ⟨state, body⟩ := state
  · rw [state]; rfl
  · rw [state]; rfl
  · rw [state]; rfl
  · rw [state]
    exact if_pos body

/-- The scan goes past every slot that it leaves as it is. -/
theorem scanFrom_reaches (hij : i ≤ j) (hj : j ≤ r.slots.length)
    (h : ∀ k y, i ≤ k → k < j → r.slots[k]? = some y → y.Passes) : r.scanFrom i = r.scanFrom j := by
  induction j, hij using Nat.le_induction with
  | base => rfl
  | succ j hij ih =>
    have slot : r.slots[j]? = some r.slots[j] := List.getElem?_eq_getElem hj
    rw [ih (Nat.le_of_succ_le hj) fun k y hk hlt => h k y hk (Nat.lt_succ_of_lt hlt),
      scanFrom_passed slot (h j _ hij (Nat.lt_succ_self j) slot)]

/-- The scan stands at the first slot that it does not leave as it is. -/
theorem scanFrom_first (hij : i ≤ j) (hx : r.slots[j]? = some x)
    (h : ∀ k y, i ≤ k → k < j → r.slots[k]? = some y → y.Passes) :
    r.scanFrom i = r.scanSlots j (x :: r.slots.drop (j + 1)) := by
  obtain ⟨hj, -⟩ := List.getElem?_eq_some_iff.mp hx
  rw [scanFrom_reaches hij (Nat.le_of_lt hj) h, scanFrom_slot hx]

/-- Where nothing needs a write any more, the scan has taken slot 64. -/
theorem scanFrom_ends (h : ∀ k y, i ≤ k → r.slots[k]? = some y → y.Passes) : r.scanFrom i = r.scanFinish := by
  have atEnd (k : Nat) (hk : r.slots.length ≤ k) : r.scanFrom k = r.scanFinish := by
    rw [Rst.scanFrom, List.drop_eq_nil_of_le hk, Rst.scanSlots]
  obtain hi | hi := Nat.le_total r.slots.length i
  · exact atEnd i hi
  · rw [scanFrom_reaches hi (Nat.le_refl _) fun k y hk _ => h k y hk, atEnd _ (Nat.le_refl _)]

variable (ss : List StoredSlot)

theorem scanSlots_headerFails (h : x.headerSound = false) :
    r.scanSlots j (x :: ss) = { r with write := some (.scanFree j), scan := some (.atSlot j) } := by
  rw [Rst.scanSlots, if_pos h]

theorem scanSlots_bodyFails (h : x.headerSound = true) (hs : x.state = .closed ∨ x.state = .opened)
    (hb : x.bodySound = false) :
    r.scanSlots j (x :: ss) = { r with write := some (.scanDamaged j), scan := some (.atSlot j) } := by
  rw [Rst.scanSlots, if_neg (by rw [h]; decide)]
  obtain hs | hs := hs <;> rw [hs] <;> exact if_neg (by rw [hb]; decide)

theorem scanSlots_open (h : x.headerSound = true) (hs : x.state = .opened) (hb : x.bodySound = true) :
    r.scanSlots j (x :: ss) = { r with write := some (.scanClose j), scan := some (.atSlot j) } := by
  rw [Rst.scanSlots, if_neg (by rw [h]; decide), hs]
  exact if_pos hb

theorem scanFinish_restarted (h : r.restarted = true) (hw : r.write = none) (hs : r.scan ≠ some (.atSlot 65)) :
    r.scanFinish = { r with write := some .scanLast, scan := some (.atSlot 65) } := if_pos ⟨h, hw, hs⟩

theorem scanFinish_complete (h : r.restarted = false ∨ r.scan = some (.atSlot 65)) : r.scanFinish = { r with
    table := r.slots.map fun x => ⟨x.state, x.txn⟩, lastIssued := r.totals.last, scan := some .complete } := by
  refine if_neg ?_
  rintro ⟨restarted, -, before⟩
  obtain h | h := h
  · rw [h] at restarted
    cases restarted
  · exact before h

end

/-! ## The copy that the scan begins with (R164) -/

section

variable {r : Rst}

theorem scanBegin_both (h1 : r.copy1.sound = true) (h2 : r.copy2.sound = true) :
    r.scanBegin = Rst.scanFrom { r with totals := r.laterCopy, lost := 0, restarted := false } 0 := if_pos ⟨h1, h2⟩

theorem scanBegin_first (h1 : r.copy1.sound = true) (h2 : r.copy2.sound = false) : r.scanBegin = { r with
    totals := r.copy1, lost := 0, restarted := false, write := some (.scanTotals r.copy1), scan := some (.atSlot 0) } := by
  simp [Rst.scanBegin, h1, h2]

theorem scanBegin_second (h1 : r.copy1.sound = false) (h2 : r.copy2.sound = true) : r.scanBegin = { r with
    totals := r.copy2, lost := 0, restarted := false, write := some (.scanTotals r.copy2), scan := some (.atSlot 0) } := by
  simp [Rst.scanBegin, h1, h2]

theorem scanBegin_neither (h1 : r.copy1.sound = false) (h2 : r.copy2.sound = false) :
    r.scanBegin = Rst.scanFrom { r with totals := .blank, lost := 0, restarted := true } 0 := by
  simp [Rst.scanBegin, h1, h2]

end

/-! ## The highest number (R164) -/

theorem highestNumber_concat (xs : List StoredSlot) (x : StoredSlot) : highestNumber (xs ++ [x]) =
    if x.state = .free then highestNumber xs else max (highestNumber xs) x.txn := by
  rw [highestNumber, List.foldl_append]
  rfl

theorem le_highestNumber {xs : List StoredSlot} {x : StoredSlot} (hx : x ∈ xs) (hs : x.state ≠ .free) :
    x.txn ≤ highestNumber xs := by
  induction xs using List.reverseRecOn with
  | nil => cases hx
  | append_singleton xs y ih =>
    rw [highestNumber_concat]
    obtain hx | hx := List.mem_append.mp hx
    · split
      · exact ih hx
      · exact (ih hx).trans (Nat.le_max_left ..)
    · rw [List.mem_singleton.mp hx] at hs ⊢
      rw [if_neg hs]
      exact Nat.le_max_right ..

/-- It is the number of one of the slots, where one is not FREE. -/
theorem highestNumber_held (xs : List StoredSlot) :
    highestNumber xs = 0 ∨ ∃ x ∈ xs, x.state ≠ .free ∧ x.txn = highestNumber xs := by
  induction xs using List.reverseRecOn with
  | nil => exact .inl rfl
  | append_singleton xs y ih =>
    have earlier (h : ∃ x ∈ xs, x.state ≠ .free ∧ x.txn = highestNumber xs) :
        ∃ x ∈ xs ++ [y], x.state ≠ .free ∧ x.txn = highestNumber xs := by
      obtain ⟨x, hx, held⟩ := h
      exact ⟨x, List.mem_append_left _ hx, held⟩
    rw [highestNumber_concat]
    split
    · exact ih.imp_right earlier
    · next hs =>
      obtain hm | hm := Nat.le_total y.txn (highestNumber xs)
      · rw [Nat.max_eq_left hm]
        exact ih.imp_right earlier
      · exact .inr ⟨y, by simp, hs, (Nat.max_eq_right hm).symm⟩

/-! ## An OPEN record closed INTERRUPTED (R165) -/

/-- Bytes 1 to 3 of a body: authorization number, terminal, row, limit kind and the two presence bits. -/
def RecordBody.identity (b : RecordBody) : List Byte :=
  bigEndian 2 b.authNumber ++
  [BitVec.ofNat 8 (64 * (b.terminal - 9) + 16 * (b.row.num - 1) + 4 * limitCode b.limitKind +
    2 * b.peakTv.isSome.toNat + b.volume.isSome.toNat)]

/-- Bytes 5 to 10 of a body: limit mass and unit price. -/
def RecordBody.terms (b : RecordBody) : List Byte := bigEndian 3 b.limitMass ++ bigEndian 3 b.unitPrice

/-- Bytes 22 to 56 of a body: all behind the amount. -/
def RecordBody.course (b : RecordBody) : List Byte :=
  bigEndian 2 (16384 * fillKindCode b.kind + (if b.hose = .bus35 then 8192 else 0) + min b.soc 2047) ++
  bigEndian 2 b.finalPH ++ bigEndian 2 (b.peakTv.getD 0) ++ recordBFields b

theorem stageBytes_length (s : Option Stage) : (stageBytes s).length = 4 := by cases s <;> simp [stageBytes]

theorem RecordBody.course_length (b : RecordBody) : b.course.length = 35 := by
  simp [RecordBody.course, recordBFields, stageBytes_length]

theorem bigEndian_one (x : Nat) : bigEndian 1 x = [BitVec.ofNat 8 (min x 255)] := by simp [bigEndian]

/-- Bytes taken out of a body that holds them. -/
theorem bodyPart_eq {o k : Nat} {bs : List Byte} (h : o + k ≤ bs.length) : bodyPart o k bs = (bs.drop o).take k := by
  refine List.ext_getElem (by simp [bodyPart]; omega) fun i hi _ => ?_
  have : o + i < bs.length := by simp [bodyPart] at hi; omega
  simp [bodyPart, byteAt, this]

theorem bodyPart_between {a b c : List Byte} {o k : Nat} (ha : a.length = o) (hb : b.length = k) :
    bodyPart o k (a ++ (b ++ c)) = b := by
  rw [bodyPart_eq (by simp only [List.length_append]; omega), List.drop_left' ha, List.take_left' hb]

theorem fieldAt_between {a c : List Byte} {o : Nat} (ha : a.length = o) (k x : Nat) :
    fieldAt (a ++ (bigEndian k x ++ c)) o k = min x (256 ^ k - 1) := by
  rw [fieldAt, List.drop_left' ha, List.take_left' (bigEndian_length k x), natOfBytes_bigEndian]

section

variable (b : RecordBody)

/-- The bytes in front of the terms. -/
def RecordBody.front : List Byte :=
  bigEndian 1 (flagsByte b.flags) ++ b.identity ++ [BitVec.ofNat 8 (endReasonCode b.endReason)]

theorem RecordBody.front_length : b.front.length = 5 := by simp [RecordBody.front, RecordBody.identity]

theorem RecordBody.terms_length : b.terms.length = 6 := by simp [RecordBody.terms]

theorem RecordBody.bytes_eq : b.bytes = b.front ++ (b.terms ++ (bigEndian 3 b.gross ++ (bigEndian 2 b.vent ++
    (bigEndian 3 b.net ++ (bigEndian 3 b.amount ++ b.course))))) := by
  simp [RecordBody.bytes, recordAFields, RecordBody.front, RecordBody.identity, RecordBody.terms, RecordBody.course]

theorem RecordBody.bytes_flags : byteAt b.bytes 0 = BitVec.ofNat 8 (min (flagsByte b.flags) 255) := by
  simp [RecordBody.bytes_eq, RecordBody.front, byteAt, bigEndian_one]

theorem RecordBody.bytes_identity : bodyPart 1 3 b.bytes = b.identity := by
  rw [RecordBody.bytes_eq, RecordBody.front, List.append_assoc, List.append_assoc]
  exact bodyPart_between (by simp) (by simp [RecordBody.identity])

theorem RecordBody.bytes_termsGross : bodyPart 5 9 b.bytes = b.terms ++ bigEndian 3 b.gross := by
  rw [RecordBody.bytes_eq, ← List.append_assoc b.terms]
  exact bodyPart_between (RecordBody.front_length b) (by simp [RecordBody.terms_length])

theorem RecordBody.bytes_gross : bodyPart 11 3 b.bytes = bigEndian 3 b.gross := by
  rw [RecordBody.bytes_eq, ← List.append_assoc]
  exact bodyPart_between (by simp [RecordBody.front_length, RecordBody.terms_length]) (by simp)

theorem RecordBody.bytes_course : bodyPart 22 35 b.bytes = b.course := by
  have layout : b.bytes = (b.front ++ b.terms ++ bigEndian 3 b.gross ++ bigEndian 2 b.vent ++ bigEndian 3 b.net ++
      bigEndian 3 b.amount) ++ (b.course ++ []) := by simp [RecordBody.bytes_eq]
  rw [layout]
  exact bodyPart_between (by simp [RecordBody.front_length, RecordBody.terms_length]) (RecordBody.course_length b)

theorem bodyGross_bytes : bodyGross b.bytes = min b.gross 16777215 := by
  rw [bodyGross, RecordBody.bytes_eq, ← List.append_assoc]
  exact fieldAt_between (by simp [RecordBody.front_length, RecordBody.terms_length]) 3 b.gross

theorem bodyPrice_bytes : bodyPrice b.bytes = min b.unitPrice 16777215 := by
  rw [bodyPrice, RecordBody.bytes_eq, RecordBody.terms, List.append_assoc, ← List.append_assoc]
  exact fieldAt_between (by simp [RecordBody.front_length]) 3 b.unitPrice

end

/-- The flags byte with its lowest bit set is that of the flags with INTERRUPTED. -/
theorem flagsByte_interrupted (f : RecordFlags) : BitVec.ofNat 8 (min (flagsByte f) 255) ||| 1 =
    BitVec.ofNat 8 (min (flagsByte { f with interrupted := true }) 255) := by
  obtain ⟨derated, exhausted, ventFail, overshoot, interrupted⟩ := f
  revert derated exhausted ventFail overshoot interrupted
  decide

/-- An OPEN record as the scan closes it: the gross is the net and is priced. -/
def RecordBody.interrupted (b : RecordBody) : RecordBody :=
  { b with
    endReason := some .interrupted, flags := { b.flags with interrupted := true }, vent := 0,
    net := b.gross, amount := priced b.gross b.unitPrice }

/-- What the scan writes for an OPEN record, from the bytes as they stand, is that record closed INTERRUPTED. -/
theorem interruptedBody_bytes {b : RecordBody} (hg : b.gross < 16777216) (hp : b.unitPrice < 16777216) :
    interruptedBody b.bytes = b.interrupted.bytes := by
  have gross : bodyGross b.bytes = b.gross := by rw [bodyGross_bytes]; omega
  have price : bodyPrice b.bytes = b.unitPrice := by rw [bodyPrice_bytes]; omega
  have flags : bigEndian 1 (flagsByte b.interrupted.flags) = [byteAt b.bytes 0 ||| 1] := by
    rw [RecordBody.bytes_flags, flagsByte_interrupted, bigEndian_one]
    rfl
  rw [interruptedBody, RecordBody.bytes_identity, RecordBody.bytes_termsGross, RecordBody.bytes_gross, RecordBody.bytes_course, gross, price, RecordBody.bytes_eq b.interrupted,
    RecordBody.front, flags]
  simp only [List.append_assoc]
  rfl

/-! ## SCAN_WRITE_COMPLETE (R164, R165) -/

theorem exec_scanWriteComplete {s : State} (h : s.node.stc.phase = .storeScan) :
    exec .scanWriteComplete s = .next { s with node := { s.node with rst := s.node.rst.scanWriteDone } } := by
  show execScanWriteComplete s = _
  simp [execScanWriteComplete, h]

section

variable {r : Rst}

theorem scanWriteDone_totals {c : TotalsCopy} (h : r.write = some (.scanTotals c)) :
    r.scanWriteDone = Rst.scanFrom { r with copy1 := c, copy2 := c, write := none } 0 := by
  simp [Rst.scanWriteDone, h]

theorem scanWriteDone_free {i : Nat} (h : r.write = some (.scanFree i)) : r.scanWriteDone = Rst.scanFrom { r with
    slots := r.slots.modify i (fun x => x.withHeader .free 0 0), lost := r.lost + 1, write := none } (i + 1) := by
  simp [Rst.scanWriteDone, h]

theorem scanWriteDone_damaged {i : Nat} (h : r.write = some (.scanDamaged i)) : r.scanWriteDone = Rst.scanFrom { r with
    slots := r.slots.modify i (fun x => x.withHeader .damaged x.txn x.count), write := none } (i + 1) := by
  simp [Rst.scanWriteDone, h]

/-- The store with an OPEN record of a slot closed INTERRUPTED, its net and amount in the totals. -/
def Rst.closedInterrupted (r : Rst) (i txn count : Nat) (body : RecordBody) : Rst :=
  { (r.putSlot i (.make .closed txn (satSucc count) body.interrupted)).writeTotals
      { r.totals.sums with
        net := sumAdd r.totals.sums.net body.gross
        amount := sumAdd r.totals.sums.amount (priced body.gross body.unitPrice) } r.totals.last with
    write := none }

theorem scanWriteDone_close {i txn count : Nat} {body : RecordBody} (h : r.write = some (.scanClose i))
    (hs : r.slots[i]? = some (.make .opened txn count body)) (hg : body.gross < 16777216)
    (hp : body.unitPrice < 16777216) :
    r.scanWriteDone = (r.closedInterrupted i txn count body).scanFrom (i + 1) := by
  have gross : bodyGross body.bytes = body.gross := by rw [bodyGross_bytes]; omega
  have price : bodyPrice body.bytes = body.unitPrice := by rw [bodyPrice_bytes]; omega
  have written := interruptedBody_bytes hg hp
  simp [Rst.scanWriteDone, h, hs, StoredSlot.make, StoredSlot.ofBytes, Rst.closedInterrupted, gross, price, written]

theorem scanWriteDone_last (h : r.write = some .scanLast) : r.scanWriteDone =
    Rst.scanFinish { r.writeTotals r.totals.sums (highestNumber r.slots) with write := none } := by
  simp [Rst.scanWriteDone, h]

end

/-- Settles O21: each write by its own rule, the scan going past the slots it leaves as they are, and the four cases of
its beginning. -/
theorem scanWritesTakeEffect : Obligations.ScanWritesTakeEffect := by
  refine ⟨fun s hp => ⟨?totals, ?free, ?damaged, ?close, ?last⟩, fun r i => ⟨?stands, ?ends⟩,
    fun r => ⟨scanBegin_both, scanBegin_first, scanBegin_second,
      fun h1 h2 => ⟨.blank, rfl, rfl, scanBegin_neither h1 h2⟩⟩⟩
  case totals =>
    intro c hw
    have kept := scanFrom_kept { s.node.rst with copy1 := c, copy2 := c, write := none } 0
    refine ⟨_, exec_scanWriteComplete hp, ?_⟩
    rw [scanWriteDone_totals hw]
    exact ⟨kept.copy1, kept.copy2, kept.slots, rfl⟩
  case free =>
    intro i hw
    have kept := scanFrom_kept { s.node.rst with
      slots := s.node.rst.slots.modify i (fun x => x.withHeader .free 0 0), lost := s.node.rst.lost + 1
      write := none } (i + 1)
    refine ⟨_, exec_scanWriteComplete hp, ?_⟩
    rw [scanWriteDone_free hw]
    exact ⟨kept.slots, kept.lost, by rw [kept.slots]⟩
  case damaged =>
    intro i hw
    have kept := scanFrom_kept { s.node.rst with
      slots := s.node.rst.slots.modify i (fun x => x.withHeader .damaged x.txn x.count), write := none } (i + 1)
    refine ⟨_, exec_scanWriteComplete hp, ?_⟩
    rw [scanWriteDone_damaged hw]
    exact ⟨kept.slots, kept.lost, by rw [kept.slots]⟩
  case close =>
    intro i txn count body hw hs hg hprice
    have kept := scanFrom_kept (s.node.rst.closedInterrupted i txn count body) (i + 1)
    refine ⟨_, exec_scanWriteComplete hp, ?_⟩
    rw [scanWriteDone_close hw hs hg hprice, kept.slots, kept.copy1, kept.copy2]
    exact ⟨rfl, rfl, rfl, rfl, rfl, rfl⟩
  case last =>
    intro hw
    have kept := scanFinish_kept { s.node.rst.writeTotals s.node.rst.totals.sums (highestNumber s.node.rst.slots) with
      write := none }
    refine ⟨_, exec_scanWriteComplete hp, ?_⟩
    rw [scanWriteDone_last hw, kept.copy1, kept.slots]
    exact ⟨rfl, rfl, fun x => le_highestNumber, highestNumber_held _, fun hscan => scanFinish_complete (.inr hscan)⟩
  case stands =>
    intro j x hij hx passed
    rw [scanFrom_first hij hx passed]
    exact ⟨scanSlots_headerFails _, scanSlots_bodyFails _, scanSlots_open _⟩
  case ends =>
    intro passed
    rw [scanFrom_ends passed]
    exact ⟨scanFinish_restarted, fun restarted => scanFinish_complete (.inl restarted)⟩

end Sys2Proof.Machine

/-! # The completion of the writes of RUN (file 09 R155 to R162, file 03 R63, file 10 R179) -/

namespace Sys2Proof.Machine

/-! ## What stays while the store takes what waits (R160) -/

/-- What a record write, a creep write and a request that the store takes each keep, holds after the store has taken what
it can. -/
theorem storeTake_induction {P : Node → Prop}
    (record : ∀ n kind, n.rst.recordMark.map (·.kind) = some kind → P n → P (beginRecordWrite kind n))
    (creep : ∀ n mass, P n → P { n with rst.creepMark := none, rst.write := some (.creep mass) })
    (request : ∀ n q, P n → P (serveRequest q { n with rst.requests := n.rst.requests.tail })) (fuel : Nat) {n : Node}
    (h : P n) : P (storeTake fuel n) := by
  induction fuel generalizing n with
  | zero => exact h
  | succ fuel ih =>
    unfold storeTake
    split
    · exact h
    · split
      · exact h
      · next hk => exact record n _ (waiting_record hk) h
      · exact creep n _ h
      · exact ih (request n _ h)

theorem storeKick_table (n : Node) : (storeKick n).rst.table = n.rst.table := by
  refine storeTake_induction (P := fun m => m.rst.table = n.rst.table) (fun m kind _ h => ?_) (fun _ _ h => h)
    (fun m q h => ?_) _ rfl
  · unfold beginRecordWrite
    split <;> exact h
  · obtain ⟨w, served⟩ := serveRequest_rst q { m with rst.requests := m.rst.requests.tail }
    rw [served]
    exact h

/-- Without a record mark, or without a record, the working image stays. -/
theorem storeKick_image {n : Node} (h : n.rst.recordMark = none ∨ n.rst.image = none) :
    (storeKick n).rst.image = n.rst.image := by
  refine (storeTake_induction (P := fun m => (m.rst.recordMark = none ∨ m.rst.image = none) ∧
    m.rst.image = n.rst.image) (fun m kind hk hm => ?_) (fun _ _ hm => hm) (fun m q hm => ?_) _ ⟨h, rfl⟩).2
  · obtain ⟨mark | image, same⟩ := hm
    · rw [mark] at hk
      cases hk
    · simp only [beginRecordWrite, image]
      exact ⟨.inl trivial, image ▸ same⟩
  · obtain ⟨w, served⟩ := serveRequest_rst q { m with rst.requests := m.rst.requests.tail }
    rw [served]
    exact hm

/-- An idle store takes nothing where nothing waits. -/
theorem storeTake_nothing {n : Node} (hr : n.rst.recordMark = none) (hc : n.rst.creepMark = none)
    (hq : n.rst.requests = []) (fuel : Nat) : storeTake fuel n = n := by
  cases fuel <;> simp [storeTake, Rst.waiting, oldestItem, hr, hc, hq]

theorem storeKick_nothing {n : Node} (hr : n.rst.recordMark = none) (hc : n.rst.creepMark = none)
    (hq : n.rst.requests = []) : storeKick n = n := storeTake_nothing hr hc hq _

/-! ## Frames of the queue that are yet to be formed (file 10 R176, R179) -/

theorem mem_queueInsert {f g : QFrame} {q : List QFrame} (h : f ∈ queueInsert g q) : f = g ∨ f ∈ q := by
  induction q with
  | nil => exact .inl (List.mem_singleton.mp h)
  | cons x q ih =>
    unfold queueInsert at h
    split at h
    · exact List.mem_cons.mp h
    · obtain h | h := List.mem_cons.mp h
      · exact .inr (h ▸ List.mem_cons_self)
      · exact (ih h).imp_right (List.mem_cons_of_mem x)

theorem dropYoungest_sublist {c : Nat} {q r : List QFrame} (h : dropYoungest c q = some r) : r.Sublist q := by
  induction q generalizing r with
  | nil => cases h
  | cons x q ih =>
    unfold dropYoungest at h
    split at h
    · next gs hg =>
      cases h
      exact (ih hg).cons_cons x
    · split at h
      · cases h
        exact List.sublist_cons_self x q
      · cases h

theorem makeRoom_sublist {c : Nat} {q r : List QFrame} (h : makeRoom c q = some r) : r.Sublist q := by
  unfold makeRoom at h
  split at h
  · next hx =>
    cases h
    exact dropYoungest_sublist hx
  · split at h
    · exact dropYoungest_sublist h
    · cases h

/-- What stands in the queue after an offer stood there before, or is the frame offered. -/
theorem mem_queueOffer {b : FrameBody} {f : QFrame} {q : List QFrame} (h : f ∈ (queueOffer b q).1) :
    f = .fresh b ∨ f ∈ q := by
  unfold queueOffer at h
  split at h
  · obtain ⟨g, hg, rfl⟩ := List.mem_map.mp h
    split
    · exact .inl rfl
    · exact .inr hg
  · split at h
    · exact .inr h
    · split at h
      · exact .inr h
      · split at h
        · exact mem_queueInsert h
        · split at h
          · exact .inr h
          · split at h
            · next hr => exact (mem_queueInsert h).imp_right fun hf => (makeRoom_sublist hr).subset hf
            · exact .inr h

/-- PROGRESS is over: none falls due, and none waits that is yet to be formed. -/
def Node.progressOver (n : Node) : Prop :=
  n.liu.progressNext = none ∧ ∀ q ∈ n.liu.queue, ∀ x, q.body ≠ .progress x

theorem offer_progressOver {b : FrameBody} {n : Node} (hb : ∀ x, b ≠ .progress x) (h : n.progressOver) :
    (offer b n).progressOver := by
  unfold offer liuOffer
  split
  · exact h
  · refine ⟨h.1, fun q hq => ?_⟩
    obtain rfl | hq := mem_queueOffer hq
    · exact hb
    · exact h.2 q hq

theorem offerRecord_progressOver (t i : Nat) {n : Node} (h : n.progressOver) : (offerRecord t i n).progressOver := by
  unfold offerRecord
  split
  · split <;> exact offer_progressOver (by simp) (offer_progressOver (by simp) h)
  · exact h

theorem serveRequest_progressOver (q : LineRequest) {n : Node} (h : n.progressOver) :
    (serveRequest q n).progressOver := by
  have answered (t : Nat) (c : BitVec 6) (r : Result) (x : Nat) : (answer t c r x n).progressOver :=
    offer_progressOver (by simp) h
  unfold serveRequest
  split
  · unfold serveQuery
    split
    · exact offerRecord_progressOver _ _ h
    · exact answered _ _ _ _
  · exact offer_progressOver (by simp) h
  · unfold serveCollect
    split
    · exact answered _ _ _ _
    · split
      · exact answered _ _ _ _
      · split
        · exact h
        · exact h
        · exact answered _ _ _ _
        · exact answered _ _ _ _

theorem storeKick_progressOver {n : Node} (h : n.progressOver) : (storeKick n).progressOver := by
  refine storeTake_induction (P := Node.progressOver) (fun m kind _ hm => ?_) (fun _ _ hm => hm)
    (fun _ q hm => serveRequest_progressOver q hm) _ h
  rw [Node.progressOver, (beginRecordWrite_only kind m).liu (by decide)]
  exact hm

/-! ## Offers (file 10 R176, file 12 R190) -/

/-- What an offer does to the line depends on the line and on NUMBER_CONFLICT alone. -/
theorem offer_liu_congr (b : FrameBody) {n m : Node} (hs : m.stc = n.stc) (hl : m.liu = n.liu) :
    (offer b m).liu = (offer b n).liu := by
  unfold offer liuOffer
  rw [hs, hl]
  split
  · exact hl
  · rfl

theorem offerPair_liu_congr (t : Nat) (st : SlotState) (txn count : Nat) (body : List Byte) {n m : Node}
    (hs : m.stc = n.stc) (hl : m.liu = n.liu) :
    (offerPair t st txn count body m).liu = (offerPair t st txn count body n).liu :=
  offer_liu_congr _ (by rw [(offer_only _ m).stc (by decide), (offer_only _ n).stc (by decide), hs])
    (offer_liu_congr _ hs hl)

theorem offerRecord_stored {n : Node} {i txn : Nat} {st : SlotState} {x : StoredSlot}
    (ht : n.rst.table[i]? = some ⟨st, txn⟩) (hs : n.rst.slots[i]? = some x) (h : st ≠ .opened) (t : Nat) :
    offerRecord t i n = offerPair t st txn x.count x.body n := by
  simp only [offerRecord, ht, hs]
  split
  · exact absurd rfl h
  · rfl

theorem offerRecord_open {n : Node} {i txn : Nat} {x : StoredSlot} {im : Image}
    (ht : n.rst.table[i]? = some ⟨.opened, txn⟩) (hs : n.rst.slots[i]? = some x) (h : n.rst.image = some im) (t : Nat) :
    offerRecord t i n = offerPair t .opened txn im.count im.body.bytes n := by
  simp [offerRecord, ht, hs, h]

/-! ## The entry to DONE (R158, file 03 R63, R64, file 10 R179) -/

/-- The node as the fill enters DONE, its record frames offered. -/
def Node.atDone (n : Node) : Node :=
  progressAtDone { n with fcu.phase := .done, fcu.auth := none, liu.progressNext := none }

theorem atDone_progressOver (n : Node) : n.atDone.progressOver := by
  refine ⟨rfl, fun q hq x => ?_⟩
  obtain ⟨f, -, rfl⟩ := List.mem_map.mp hq
  unfold QFrame.atDone
  split
  · simp
  · next hf => exact hf x

/-- The record frames do not enter into the figures of a PROGRESS. -/
theorem progressPayload_atDone {n k : Node} (h : Only [.liu] n k) :
    Node.progressPayload { k with fcu.phase := .done, fcu.auth := none, liu.progressNext := none } =
      Node.progressPayload { n with fcu := { n.fcu with phase := .done } } := by
  simp only [Node.progressPayload, h.rst (by decide), h.fcu (by decide), h.mpu (by decide)]

theorem fcuDone_eq (slot : Nat) (n : Node) : ∃ k, Only [.liu] n k ∧
    (∀ a, n.fcu.auth = some a → k = offerRecord a.terminal slot n) ∧
    fcuDone slot n = if k.level .holstered then fcuIdle k.atDone else k.atDone := by
  unfold fcuDone
  cases n.fcu.auth with
  | none => exact ⟨n, .refl _ n, by simp, rfl⟩
  | some a => exact ⟨_, offerRecord_only _ _ n, by simp, rfl⟩

section

variable {n : Node} {slot : Nat}

theorem fcuDone_fcu : (fcuDone slot n).fcu.phase = (if n.level .holstered then .idle else .done) ∧
    (fcuDone slot n).fcu.auth = none := by
  obtain ⟨k, frame, -, done⟩ := fcuDone_eq slot n
  have level : k.level .holstered = n.level .holstered := by rw [Node.level, Node.level, frame.isc (by decide)]
  rw [done, level]
  split <;> exact ⟨rfl, rfl⟩

theorem fcuDone_progressOver : (fcuDone slot n).progressOver := by
  obtain ⟨k, -, -, done⟩ := fcuDone_eq slot n
  rw [done]
  split <;> exact atDone_progressOver k

theorem fcuDone_rst : (fcuDone slot n).rst = n.rst := by
  obtain ⟨k, frame, -, done⟩ := fcuDone_eq slot n
  rw [done, ← frame.rst (by decide)]
  split <;> rfl

/-- The record frames stand in the queue, and a PROGRESS that waits there takes the figures of this moment. -/
theorem fcuDone_queue {a : Auth} (h : n.fcu.auth = some a) : (fcuDone slot n).liu.queue =
    (offerRecord a.terminal slot n).liu.queue.map
      (QFrame.atDone ({ n with fcu := { n.fcu with phase := .done } } : Node).progressPayload) := by
  obtain ⟨k, frame, offered, done⟩ := fcuDone_eq slot n
  rw [done, ← offered a h, ← progressPayload_atDone frame]
  split <;> rfl

end

/-! ## The write completions (R155 to R159, R162) -/

section

variable {s : State}

theorem exec_createWriteComplete {im : Image} (h : s.node.rst.write = some (.record .create im)) :
    exec .createWriteComplete s =
      .next { s with node := storeKick { s.node with rst := s.node.rst.commitCreate im } } := by
  show execCreateWriteComplete s = _
  simp [execCreateWriteComplete, h]

theorem exec_checkpointWriteComplete {im : Image} (h : s.node.rst.write = some (.record .checkpoint im)) :
    exec .checkpointWriteComplete s =
      .next { s with node := storeKick { s.node with rst := s.node.rst.commitCheckpoint im } } := by
  show execCheckpointWriteComplete s = _
  simp [execCheckpointWriteComplete, h]

theorem exec_closeWriteComplete {im : Image} (h : s.node.rst.write = some (.record .close im)) :
    exec .closeWriteComplete s =
      .next { s with node := storeKick (fcuDone im.slot { s.node with rst := s.node.rst.commitClose im }) } := by
  show execCloseWriteComplete s = _
  simp [execCloseWriteComplete, h]

theorem exec_creepWriteComplete {mass : Nat} (h : s.node.rst.write = some (.creep mass)) :
    exec .creepWriteComplete s =
      .next { s with node := storeKick { s.node with rst := s.node.rst.commitCreep mass } } := by
  show execCreepWriteComplete s = _
  simp [execCreepWriteComplete, h]

theorem exec_collectWriteComplete {i txn terminal : Nat} (h : s.node.rst.write = some (.collect i txn terminal)) :
    exec .collectWriteComplete s = .next { s with
      node := storeKick (answer terminal kindCollect .ok txn { s.node with rst := s.node.rst.commitCollect i txn }) } := by
  show execCollectWriteComplete s = _
  simp [execCollectWriteComplete, h]

end

/-- A create, a creep and a collect write leave the working image to the next record write. -/
theorem storeKick_committed {n : Node} (r : Rst) (hr : r.recordMark = n.rst.recordMark) (hi : r.image = n.rst.image)
    (h : n.rst.recordMark = none) : (storeKick { n with rst := r }).rst.image = n.rst.image := by
  rw [storeKick_image (.inl (hr.trans h))]
  exact hi

/-- The image behind a checkpoint: its count, the gross written, and what the running fields of a next record write leave
alone. -/
theorem commitCheckpoint_image {n : Node} (im : Image) {cur : Image} (h : n.rst.image = some cur) :
    ∃ next, (storeKick { n with rst := n.rst.commitCheckpoint im }).rst.image = some next ∧
      next.count = min (im.count + 1) 65535 ∧ next.written = im.body.gross ∧ next.slot = cur.slot ∧
      next.txn = cur.txn ∧ next.body.gross = cur.body.gross ∧ next.body.stages = cur.body.stages ∧
      (n.rst.recordMark = none → next.body = cur.body) := by
  have committed : (n.rst.commitCheckpoint im).image =
      some { cur with count := satSucc im.count, written := im.body.gross } := by
    simp [Rst.commitCheckpoint, h]
  by_cases mark : n.rst.recordMark = none
  · have same := storeKick_image (n := { n with rst := n.rst.commitCheckpoint im }) (.inl mark)
    exact ⟨_, same.trans committed, rfl, rfl, rfl, rfl, rfl, rfl, fun _ => rfl⟩
  · obtain ⟨next, image, hcount, hwritten, hslot, htxn, hgross, hstages⟩ := storeTake_image
      (P := fun k => k.count = satSucc im.count ∧ k.written = im.body.gross ∧ k.slot = cur.slot ∧ k.txn = cur.txn ∧
        k.body.gross = cur.body.gross ∧ k.body.stages = cur.body.stages) _
      (n := { n with rst := n.rst.commitCheckpoint im }) committed ⟨rfl, rfl, rfl, rfl, rfl, rfl⟩ fun _ _ _ hk => hk
    exact ⟨next, image, hcount, hwritten, hslot, htxn, hgross, hstages, fun h => absurd h mark⟩

/-- The two record frames of a close stand in the queue, and PROGRESS takes the figures of DONE. -/
theorem commitClose_queue {n : Node} {im : Image} {a : Auth} (ha : n.fcu.auth = some a)
    (hs : im.slot < n.rst.slots.length) (ht : im.slot < n.rst.table.length) :
    (fcuDone im.slot { n with rst := n.rst.commitClose im }).liu.queue =
      (offerPair a.terminal .closed im.txn (satSucc im.count) im.body.bytes n).liu.queue.map
        (QFrame.atDone ({ n with fcu := { n.fcu with phase := .done } } : Node).progressPayload) := by
  have slot : (n.rst.commitClose im).slots[im.slot]? = some (.make .closed im.txn (satSucc im.count) im.body) := by
    simp [Rst.commitClose, Rst.putSlot, hs]
  have entry : (n.rst.commitClose im).table[im.slot]? = some ⟨.closed, im.txn⟩ := by simp [Rst.commitClose, ht]
  rw [fcuDone_queue (n := { n with rst := n.rst.commitClose im }) ha, offerRecord_stored entry slot (by decide),
    offerPair_liu_congr (n := n) (m := { n with rst := n.rst.commitClose im }) _ _ _ _ _ rfl rfl]
  rfl

/-- Settles O55: what each commit leaves, kept while the store takes what waits. -/
theorem writesTakeEffect : Obligations.WritesTakeEffect := by
  refine ⟨?create, ?checkpoint, ?close, ?creep, ?collect⟩
  case create =>
    intro s im hw
    have kept := storeKick_kept { s.node with rst := s.node.rst.commitCreate im }
    refine ⟨_, exec_createWriteComplete hw, kept.slots, ?_⟩
    rw [kept.copy1, kept.copy2]
    exact ⟨rfl, rfl, rfl, rfl, storeKick_committed _ rfl rfl⟩
  case checkpoint =>
    intro s im hw
    have kept := storeKick_kept { s.node with rst := s.node.rst.commitCheckpoint im }
    refine ⟨_, exec_checkpointWriteComplete hw, kept.slots, ?_⟩
    rw [kept.copy1, kept.copy2]
    exact ⟨rfl, rfl, fun cur => commitCheckpoint_image im⟩
  case close =>
    intro s im hw
    let m := fcuDone im.slot { s.node with rst := s.node.rst.commitClose im }
    have rst : m.rst = s.node.rst.commitClose im := fcuDone_rst
    have kept := storeKick_kept m
    obtain ⟨phase, auth⟩ := fcuDone_fcu (slot := im.slot) (n := { s.node with rst := s.node.rst.commitClose im })
    obtain ⟨progressNext, formed⟩ := storeKick_progressOver (n := m) fcuDone_progressOver
    refine ⟨_, exec_closeWriteComplete hw, ?_⟩
    rw [kept.slots, kept.copy1, kept.copy2, storeKick_table, storeKick_image (.inr (by rw [rst]; rfl)),
      (storeKick_only m).fcu (by decide), rst]
    refine ⟨rfl, rfl, rfl, rfl, rfl, phase, auth, progressNext, formed, fun a ha hs ht hc hq hr => ?_⟩
    rw [storeKick_nothing (n := m) (by rw [rst]; exact hr) (by rw [rst]; exact hc) (by rw [rst]; exact hq)]
    exact commitClose_queue ha hs ht
  case creep =>
    intro s mass hw
    have kept := storeKick_kept { s.node with rst := s.node.rst.commitCreep mass }
    refine ⟨_, exec_creepWriteComplete hw, kept.slots, ?_⟩
    rw [kept.copy1, kept.copy2]
    exact ⟨rfl, rfl, (storeKick_only _).fcu (by decide), storeKick_committed _ rfl rfl⟩
  case collect =>
    intro s i txn terminal hw
    let k : Node := { s.node with rst := s.node.rst.commitCollect i txn }
    let m := answer terminal kindCollect .ok txn k
    have rst : m.rst = k.rst := (answer_only _ _ _ _ k).rst (by decide)
    have fcu : m.fcu = k.fcu := (answer_only _ _ _ _ k).fcu (by decide)
    have kept := storeKick_kept m
    refine ⟨_, exec_collectWriteComplete hw, ?_⟩
    rw [kept.slots, kept.copy1, kept.copy2, storeKick_table, (storeKick_only m).fcu (by decide), rst, fcu]
    refine ⟨rfl, rfl, rfl, rfl, rfl, fun hr => ?_, fun hr hc hq => ?_⟩
    · rw [storeKick_image (.inl (by rw [rst]; exact hr)), rst]
      rfl
    · rw [storeKick_nothing (n := m) (by rw [rst]; exact hr) (by rw [rst]; exact hc) (by rw [rst]; exact hq)]
      exact offer_liu_congr _ rfl rfl

end Sys2Proof.Machine

/-! # QUERY, COLLECT and READ-TOTALS (file 09 R160 to R163) -/

namespace Sys2Proof.Machine

/-! ## A request as it arrives (R160) -/

/-- No write is in progress and nothing waits. -/
abbrev Rst.idle (r : Rst) : Prop := r.requests = [] ∧ r.write = none ∧ r.recordMark = none ∧ r.creepMark = none

section

variable {n : Node} {kind : RequestKind} {code : BitVec 6} {txn terminal : Nat}

theorem takeRequest_full (h : 4 ≤ n.rst.requests.length) :
    takeRequest kind code txn terminal n = offer (.answer terminal code .busy txn) n := if_pos h

theorem takeRequest_waits (h : n.rst.requests.length < 4) (hw : n.rst.write.isSome = true) :
    takeRequest kind code txn terminal n = { n with rst := { n.rst with
      requests := n.rst.requests ++ [⟨kind, txn, terminal, n.rst.ticket⟩], ticket := n.rst.ticket + 1 } } := by
  rw [takeRequest, if_neg (Nat.not_le.mpr h)]
  exact storeKick_busy hw

/-- An idle store serves a request that waits alone, and finds nothing behind it. -/
theorem storeKick_request {q : LineRequest} (hq : n.rst.requests = [q]) (hw : n.rst.write = none)
    (hr : n.rst.recordMark = none) (hc : n.rst.creepMark = none) :
    storeKick n = serveRequest q { n with rst := { n.rst with requests := [] } } := by
  obtain ⟨w, served⟩ := serveRequest_rst q { n with rst := { n.rst with requests := [] } }
  have taken : storeKick n = storeTake 1 (serveRequest q { n with rst := { n.rst with requests := [] } }) := by
    simp [storeKick, storeTake, Rst.waiting, oldestItem, hq, hw, hr, hc]
  rw [taken]
  exact storeTake_nothing (by rw [served]; exact hr) (by rw [served]; exact hc) (by rw [served]) 1

/-- The node in front of an idle store that serves a request: the request has left the list again. -/
def Node.serving (n : Node) : Node :=
  { n with rst := { n.rst with requests := [], ticket := n.rst.ticket + 1 } }

theorem takeRequest_idle (h : n.rst.idle) :
    takeRequest kind code txn terminal n = serveRequest ⟨kind, txn, terminal, n.rst.ticket⟩ n.serving := by
  obtain ⟨hq, hw, hr, hc⟩ := h
  rw [takeRequest, if_neg (by simp [hq])]
  exact storeKick_request (by rw [hq]; rfl) hw hr hc

end

/-! ## QUERY and COLLECT as they are served (R161, R162) -/

section

variable {n : Node} {txn terminal : Nat}

theorem serveQuery_only (txn terminal : Nat) (n : Node) : Only [.liu] n (serveQuery txn terminal n) := by
  unfold serveQuery
  split
  · exact offerRecord_only _ _ n
  · exact answer_only _ _ _ _ n

theorem serveQuery_unknown (h : n.rst.queried txn = none) :
    serveQuery txn terminal n = offer (.answer terminal kindQuery .unknownRecord txn) n := by
  rw [serveQuery, h]
  rfl

theorem serveQuery_record {i : Nat} (h : n.rst.queried txn = some i) :
    serveQuery txn terminal n = offerRecord terminal i n := by
  rw [serveQuery, h]

theorem serveCollect_zero : serveCollect 0 terminal n = offer (.answer terminal kindCollect .badField 0) n := rfl

theorem serveCollect_unknown (h0 : txn ≠ 0) (h : n.rst.slotOf txn = none) :
    serveCollect txn terminal n = offer (.answer terminal kindCollect .unknownRecord txn) n := by
  rw [serveCollect, if_neg h0, h]
  rfl

variable {i : Nat} {st : SlotState}

/-- A number that a slot holds: the state of the slot decides. -/
theorem serveCollect_held (h0 : txn ≠ 0) (h : n.rst.slotOf txn = some i) (hi : n.rst.table[i]? = some ⟨st, txn⟩) :
    (st = .closed ∨ st = .damaged →
      serveCollect txn terminal n = { n with rst := { n.rst with write := some (.collect i txn terminal) } }) ∧
    (st = .opened → serveCollect txn terminal n = offer (.answer terminal kindCollect .busy txn) n) ∧
    (st = .collected → serveCollect txn terminal n = offer (.answer terminal kindCollect .ok txn) n) := by
  have entry : n.rst.table.getD i ⟨.free, 0⟩ = ⟨st, txn⟩ := by rw [List.getD_eq_getElem?_getD, hi, Option.getD_some]
  rw [serveCollect, if_neg h0, h]
  simp only [entry]
  refine ⟨?_, ?_, ?_⟩
  · rintro (rfl | rfl) <;> rfl
  · rintro rfl
    rfl
  · rintro rfl
    rfl

end

/-! ## The three commands in RUN (file 10 R173) -/

section

variable {s : State} {bits : Bits} {f : LineFrame}

/-- A command of the right length to an address it may have reaches its owner. -/
theorem exec_command_run {c : Instr} {code : BitVec 6} {z : Bool} {act : LineFrame → Node → Node}
    (he : exec c s = s.receive (.command code) bits (onCommand z act)) (hf : receive bits = some f)
    (ha : arrivalOf s.node.stc.node f = .command code) (hp : s.node.stc.phase = .run)
    (hlen : kindLength f.kind = some f.payload.length) (hd : f.destination.toNat ≠ 0 ∨ z = true) :
    exec c s = .next { s with node := act f s.node } := by
  have sound : badField z f = false := by
    rw [Bool.eq_false_iff, Ne, badField_eq_true_iff]
    rintro (h | ⟨h0, hz⟩)
    · exact h hlen
    · obtain hd | hd := hd
      · exact hd h0
      · rw [hz] at hd
        cases hd
  rw [he, receive_taken hf ha, onCommand_run hp sound]

/-- BUSY at a full list, and a place in the list while a write is in progress. -/
theorem exec_request_waits {c : Instr} {kind : RequestKind} {code : BitVec 6} {txn terminal : Nat}
    (he : exec c s = .next { s with node := takeRequest kind code txn terminal s.node }) :
    (4 ≤ s.node.rst.requests.length → exec c s =
      .next { s with node := offer (.answer terminal code .busy txn) s.node }) ∧
    (s.node.rst.requests.length < 4 → s.node.rst.write.isSome = true → exec c s =
      .next { s with node := { s.node with rst := { s.node.rst with
        requests := s.node.rst.requests ++ [⟨kind, txn, terminal, s.node.rst.ticket⟩]
        ticket := s.node.rst.ticket + 1 } } }) :=
  ⟨fun h => by rw [he, takeRequest_full h], fun h hw => by rw [he, takeRequest_waits h hw]⟩

end

/-- Settles O56: the list decides whether the request is answered BUSY, kept or served, and the record it names decides
how it is served. -/
theorem requestsAreServed : Obligations.RequestsAreServed := by
  refine ⟨?_, commandGate_of_exec fun _ _ => rfl, commandGate_of_exec fun _ _ => rfl, commandGate_of_exec fun _ _ => rfl⟩
  intro s bits f x hf hrun hlen hx full kept idle
  refine ⟨fun ha hd => ?query, fun ha hd => ?collect, fun ha => ?totals⟩
  case query =>
    have taken := exec_command_run (c := .query bits) rfl hf ha hrun hlen (.inl hd)
    rw [query, ← hx, ← arrivalOf_command_kind ha] at taken
    obtain ⟨busy, waits⟩ := exec_request_waits taken
    refine ⟨busy, waits, fun hi => ⟨_, taken, ?_⟩⟩
    have served : takeRequest .query f.kind x f.terminal s.node = serveQuery x f.terminal s.node.serving :=
      takeRequest_idle hi
    obtain ⟨-, hw, -, -⟩ := hi
    rw [served, (serveQuery_only _ _ _).rst (by decide)]
    refine ⟨rfl, hw, rfl, rfl, fun unknown => ?_, fun i txn st r hq ht hs => ⟨fun hst => ?_, fun im hst him => ?_⟩⟩
    · rw [serveQuery_unknown (n := s.node.serving) unknown]
      exact offer_liu_congr _ rfl rfl
    · rw [serveQuery_record (n := s.node.serving) hq, offerRecord_stored (n := s.node.serving) ht hs hst]
      exact offerPair_liu_congr _ _ _ _ _ rfl rfl
    · subst hst
      rw [serveQuery_record (n := s.node.serving) hq, offerRecord_open (n := s.node.serving) ht hs him]
      exact offerPair_liu_congr _ _ _ _ _ rfl rfl
  case collect =>
    have taken := exec_command_run (c := .collect bits) rfl hf ha hrun hlen (.inl hd)
    rw [collect, ← hx, ← arrivalOf_command_kind ha] at taken
    obtain ⟨busy, waits⟩ := exec_request_waits taken
    refine ⟨busy, waits, fun hi => ⟨_, taken, ?_⟩⟩
    have served : takeRequest .collect f.kind x f.terminal s.node = serveCollect x f.terminal s.node.serving :=
      takeRequest_idle hi
    have answered (result : Result) (number : Nat) :
        (offer (.answer f.terminal kindCollect result number) s.node.serving).rst.write = none ∧
        (offer (.answer f.terminal kindCollect result number) s.node.serving).liu =
          (offer (.answer f.terminal kindCollect result number) s.node).liu :=
      ⟨by rw [(offer_only _ _).rst (by decide)]; exact hi.2.1, offer_liu_congr _ rfl rfl⟩
    obtain ⟨w, rst⟩ := serveRequest_rst ⟨.collect, x, f.terminal, s.node.rst.ticket⟩ s.node.serving
    rw [served]
    refine ⟨congrArg Rst.requests rst, fun h0 => ?_, fun h0 unknown => ?_, fun i st h0 hslot ht => ?_⟩
    · rw [h0, serveCollect_zero]
      exact (answered _ _).symm
    · rw [serveCollect_unknown (n := s.node.serving) h0 unknown]
      exact (answered _ _).2
    · obtain ⟨collects, opened, collected⟩ := serveCollect_held (n := s.node.serving) (terminal := f.terminal) h0 hslot ht
      refine ⟨fun hst => ?_, fun hst => ?_, fun hst => ?_⟩
      · rw [collects hst]
        exact ⟨rfl, rfl⟩
      · rw [opened hst]
        exact answered _ _
      · rw [collected hst]
        exact answered _ _
  case totals =>
    have taken := exec_command_run (c := .readTotals bits) rfl hf ha hrun hlen (.inr rfl)
    rw [readTotals, ← arrivalOf_command_kind ha] at taken
    obtain ⟨busy, waits⟩ := exec_request_waits taken
    refine ⟨busy, waits, fun hi => ⟨_, taken, ?_⟩⟩
    have served : takeRequest .readTotals f.kind 0 f.terminal s.node =
        offer (.totals f.terminal s.node.rst.totalsPayload) s.node.serving := takeRequest_idle hi
    rw [served, (offer_only _ _).rst (by decide)]
    exact ⟨rfl, offer_liu_congr _ rfl rfl⟩

end Sys2Proof.Machine

/-! # The transmit queue (file 10 R174 to R176) -/

namespace Sys2Proof.Machine

/-! ## Class order (R174) -/

/-- Urgent before normal before bulk. -/
abbrev inClassOrder (q : List QFrame) : Prop := q.Pairwise fun x y => x.body.cls ≤ y.body.cls

theorem queueInsert_inClassOrder (f : QFrame) {q : List QFrame} (h : inClassOrder q) : inClassOrder (queueInsert f q) := by
  induction q with
  | nil => exact List.pairwise_singleton _ f
  | cons g gs ih =>
    obtain ⟨first, rest⟩ := List.pairwise_cons.mp h
    unfold queueInsert
    split
    · next lower =>
      refine List.pairwise_cons.mpr ⟨fun x hx => ?_, h⟩
      obtain rfl | hx := List.mem_cons.mp hx
      · exact Nat.le_of_lt lower
      · exact (Nat.le_of_lt lower).trans (first x hx)
    · next behind =>
      refine List.pairwise_cons.mpr ⟨fun x hx => ?_, ih rest⟩
      obtain rfl | hx := mem_queueInsert hx
      · exact Nat.not_lt.mp behind
      · exact first x hx

/-- In a queue in class order a frame takes its place behind the frames of its class. -/
theorem queueInsert_place (f : QFrame) {q : List QFrame} (h : inClassOrder q) : queueInsert f q =
    (q.filter fun x => decide (x.body.cls ≤ f.body.cls)) ++ f :: q.filter fun x => decide (f.body.cls < x.body.cls) := by
  induction q with
  | nil => rfl
  | cons g gs ih =>
    obtain ⟨first, rest⟩ := List.pairwise_cons.mp h
    unfold queueInsert
    split
    · next lower =>
      have later : ∀ x ∈ g :: gs, f.body.cls < x.body.cls := by
        rintro x (_ | ⟨_, hx⟩)
        · exact lower
        · exact lower.trans_le (first x hx)
      have before : ((g :: gs).filter fun x => decide (x.body.cls ≤ f.body.cls)) = [] :=
        List.filter_eq_nil_iff.mpr fun x hx => by simpa using later x hx
      have behind : ((g :: gs).filter fun x => decide (f.body.cls < x.body.cls)) = g :: gs :=
        List.filter_eq_self.mpr fun x hx => by simpa using later x hx
      rw [before, behind, List.nil_append]
    · next behind =>
      rw [List.filter_cons_of_pos (by simpa using behind), List.filter_cons_of_neg (by simpa using behind), ih rest,
        List.cons_append]

/-- A STATUS or HEAT in the place of the waiting one is of its class. -/
theorem replaced_cls (b : FrameBody) (f : QFrame) :
    (if QFrame.waits b f then .fresh b else f : QFrame).body.cls = f.body.cls := by
  split
  · next waits => rw [QFrame.waits_body waits]; rfl
  · rfl

/-! ## The youngest frame of a class (R176, log 44) -/

section
variable {c : Nat}

theorem dropYoungest_none {q : List QFrame} (h : ∀ z ∈ q, z.body.cls = c → z.onWire = true) : dropYoungest c q = none := by
  induction q with
  | nil => rfl
  | cons f fs ih =>
    have sent : ¬(f.body.cls = c ∧ f.onWire = false) := fun ⟨hc, hw⟩ => by
      rw [h f List.mem_cons_self hc] at hw
      cases hw
    rw [dropYoungest, ih fun z hz => h z (List.mem_cons_of_mem f hz)]
    exact if_neg sent

theorem dropYoungest_last {y : QFrame} {ys : List QFrame} (hc : y.body.cls = c) (hw : y.onWire = false)
    (h : ∀ z ∈ ys, z.body.cls = c → z.onWire = true) (xs : List QFrame) :
    dropYoungest c (xs ++ y :: ys) = some (xs ++ ys) := by
  induction xs with
  | nil =>
    rw [List.nil_append, List.nil_append, dropYoungest, dropYoungest_none h]
    exact if_pos ⟨hc, hw⟩
  | cons x xs ih => rw [List.cons_append, dropYoungest, ih]; rfl

end

theorem makeRoom_bulk {q r : List QFrame} (h : dropYoungest 2 q = some r) (c : Nat) : makeRoom c q = some r := by
  rw [makeRoom, h]

theorem makeRoom_normal {q : List QFrame} (h : dropYoungest 2 q = none) (c : Nat) :
    makeRoom c q = if c = 0 then dropYoungest 1 q else none := by
  rw [makeRoom, h]

/-! ## Offers (R175, R176) -/

/-- What an offer can make of the queue: nothing, a frame replaced in its place, or the frame put into what is left of
the queue. -/
theorem queueOffer_cases (b : FrameBody) (q : List QFrame) :
    (queueOffer b q).1 = q ∨
    (queueOffer b q).1 = q.map (fun f => if QFrame.waits b f then .fresh b else f) ∨
    ∃ r, (queueOffer b q).1 = queueInsert (.fresh b) r ∧ r.Sublist q ∧ (q.length < 10 ∨ r.length + 1 = q.length) ∧
      (b.cls = 0 → urgentCount q < 5) := by
  unfold queueOffer
  split
  · exact .inr (.inl rfl)
  · split
    · exact .inl rfl
    · split
      · exact .inl rfl
      · next urgent =>
        have few : b.cls = 0 → urgentCount q < 5 := fun hc => Nat.not_le.mp fun hu => urgent ⟨hc, hu⟩
        split
        · next room => exact .inr (.inr ⟨q, rfl, .refl q, .inl room, few⟩)
        · split
          · exact .inl rfl
          · split
            · next r made => exact .inr (.inr ⟨r, rfl, makeRoom_sublist made, .inr (makeRoom_counts _ _ _ made).1, few⟩)
            · exact .inl rfl

theorem queueOffer_inClassOrder (b : FrameBody) {q : List QFrame} (h : inClassOrder q) :
    inClassOrder (queueOffer b q).1 := by
  obtain e | e | ⟨r, e, left, -, -⟩ := queueOffer_cases b q <;> rw [e]
  · exact h
  · refine List.pairwise_map.mpr (h.imp fun {x y} hxy => ?_)
    rw [replaced_cls, replaced_cls]
    exact hxy
  · exact queueInsert_inClassOrder _ (h.sublist left)

theorem queueOffer_length (b : FrameBody) {q : List QFrame} (h : q.length ≤ 10) : (queueOffer b q).1.length ≤ 10 := by
  obtain e | e | ⟨r, e, left, room, -⟩ := queueOffer_cases b q <;> rw [e]
  · exact h
  · rwa [List.length_map]
  · have := left.length_le
    rw [queueInsert_length]
    omega

theorem queueOffer_urgentCount (b : FrameBody) {q : List QFrame} (h : urgentCount q ≤ 5) :
    urgentCount (queueOffer b q).1 ≤ 5 := by
  obtain e | e | ⟨r, e, left, -, few⟩ := queueOffer_cases b q <;> rw [e]
  · exact h
  · rwa [urgentCount_map _ (replaced_cls b)]
  · have fewer : urgentCount r ≤ urgentCount q := (left.filter _).length_le
    rw [urgentCount_queueInsert]
    show (if b.cls = 0 then 1 else 0) + urgentCount r ≤ 5
    split <;> omega

section
variable {b : FrameBody} {q : List QFrame}

theorem queueOffer_replaces (h : b = .status ∨ b = .heat) (hw : q.any (QFrame.waits b) = true) :
    queueOffer b q = (q.map fun f => if QFrame.waits b f then .fresh b else f, true) := if_pos ⟨h, hw⟩

theorem queueOffer_progress_waits (h : b.isProgress = true) (hw : ∃ x ∈ q, x.body.isProgress = true ∧ x.onWire = false) :
    queueOffer b q = (q, true) := by
  have other : ¬((b = .status ∨ b = .heat) ∧ q.any (QFrame.waits b) = true) := by
    rintro ⟨rfl | rfl, -⟩ <;> cases h
  have waits : q.any (fun f => !f.onWire && f.body.isProgress) = true := by
    obtain ⟨x, hx, progress, free⟩ := hw
    exact List.any_eq_true.mpr ⟨x, hx, by simp [progress, free]⟩
  rw [queueOffer, if_neg other, if_pos ⟨h, waits⟩]

/-- The frame needs a place of its own: no STATUS or HEAT waits that it replaces, and no PROGRESS that stands for it. -/
def FrameBody.needsPlace (b : FrameBody) (q : List QFrame) : Prop :=
  (b.isProgress = true → ∀ x ∈ q, x.body.isProgress = true → x.onWire = true) ∧
    (b = .status ∨ b = .heat → q.any (QFrame.waits b) = false)

theorem queueOffer_needsPlace (h : b.needsPlace q) : queueOffer b q =
    if b.cls = 0 ∧ 5 ≤ urgentCount q then (q, false)
    else if q.length < 10 then (queueInsert (.fresh b) q, true)
    else if b.cls = 2 then (q, false)
    else (makeRoom b.cls q).elim (q, false) fun r => (queueInsert (.fresh b) r, true) := by
  obtain ⟨progress, replaced⟩ := h
  have noneReplaced : ¬((b = .status ∨ b = .heat) ∧ q.any (QFrame.waits b) = true) := fun ⟨hb, hw⟩ => by
    rw [replaced hb] at hw
    cases hw
  have noneStands : ¬(b.isProgress = true ∧ q.any (fun f => !f.onWire && f.body.isProgress) = true) := fun ⟨hb, hw⟩ => by
    obtain ⟨x, hx, free⟩ := List.any_eq_true.mp hw
    rw [Bool.and_eq_true, Bool.not_eq_true'] at free
    rw [progress hb x hx free.2] at free
    cases free.1
  rw [queueOffer, if_neg noneReplaced, if_neg noneStands]
  cases makeRoom b.cls q <;> rfl

theorem not_urgent_full (hu : b.cls = 0 → urgentCount q < 5) : ¬(b.cls = 0 ∧ 5 ≤ urgentCount q) :=
  fun ⟨hc, many⟩ => Nat.not_le.mpr (hu hc) many

variable (h : b.needsPlace q)
include h

theorem queueOffer_urgent_full (hc : b.cls = 0) (hu : 5 ≤ urgentCount q) : queueOffer b q = (q, false) := by
  rw [queueOffer_needsPlace h, if_pos ⟨hc, hu⟩]

variable (hu : b.cls = 0 → urgentCount q < 5)
include hu

theorem queueOffer_room (hl : q.length < 10) : queueOffer b q = (queueInsert (.fresh b) q, true) := by
  rw [queueOffer_needsPlace h, if_neg (not_urgent_full hu), if_pos hl]

variable (hl : 10 ≤ q.length)
include hl

theorem queueOffer_full_bulk (hc : b.cls = 2) : queueOffer b q = (q, false) := by
  rw [queueOffer_needsPlace h, if_neg (not_urgent_full hu), if_neg (Nat.not_lt.mpr hl), if_pos hc]

theorem queueOffer_full (hc : b.cls ≠ 2) : queueOffer b q =
    (makeRoom b.cls q).elim (q, false) fun r => (queueInsert (.fresh b) r, true) := by
  rw [queueOffer_needsPlace h, if_neg (not_urgent_full hu), if_neg (Nat.not_lt.mpr hl), if_neg hc]

end

/-- Settles O57: the invariants by what an offer can make of the queue, the outcomes by the place that the frame needs
and the frame that makes room for it. -/
theorem queueKeepsClassOrder : Obligations.QueueKeepsClassOrder := by
  refine fun b q => ⟨queueOffer_inClassOrder b, queueOffer_length b, queueOffer_urgentCount b, queueOffer_replaces,
    queueOffer_progress_waits, fun progress replaced => ?_⟩
  have place : b.needsPlace q := ⟨progress, replaced⟩
  refine ⟨queueOffer_urgent_full place, fun few room => ?_, fun few full => ⟨queueOffer_full_bulk place few full,
    fun xs y ys hb hq hc hw hys => ?_, fun bulkSent => ⟨fun hb => ?_, fun xs y ys hb hq hc hw hys => ?_,
      fun hb normalSent => ?_⟩⟩⟩
  · rw [queueOffer_room place few room]
    exact ⟨rfl, queueInsert_place (.fresh b)⟩
  · rw [queueOffer_full place few full hb, hq, makeRoom_bulk (dropYoungest_last hc hw hys xs), Option.elim_some]
  · rw [queueOffer_full place few full (by omega), makeRoom_normal (dropYoungest_none bulkSent), if_neg (by omega),
      Option.elim_none]
  · rw [queueOffer_full place few full (by omega), makeRoom_normal (dropYoungest_none bulkSent), if_pos hb, hq,
      dropYoungest_last hc hw hys xs, Option.elim_some]
  · rw [queueOffer_full place few full (by omega), makeRoom_normal (dropYoungest_none bulkSent), if_pos hb,
      dropYoungest_none normalSent, Option.elim_none]

end Sys2Proof.Machine

/-! # Line faults and LINE_SILENT (file 10 R169, R170) -/

namespace Sys2Proof.Machine

/-! ## Of the line only the queue changes -/

/-- Of the LIU at most the queue differs. -/
def QueueOnly (n m : Node) : Prop := m.liu = { n.liu with queue := m.liu.queue }

namespace QueueOnly

variable {n k m : Node}

theorem of_liu (h : m.liu = n.liu) : QueueOnly n m := by rw [QueueOnly, h]

theorem refl (n : Node) : QueueOnly n n := rfl

/-- The last operation first. -/
theorem after (g : QueueOnly k m) (h : QueueOnly n k) : QueueOnly n m := by rw [QueueOnly, g, h]

end QueueOnly

theorem offer_queueOnly (b : FrameBody) (n : Node) : QueueOnly n (offer b n) := by
  unfold offer liuOffer
  split
  · exact .refl n
  · rfl

theorem bcuRequest_queueOnly (b : Bank) (k : ClaimKind) (n : Node) : QueueOnly n (bcuRequest b k n).1 := by
  by_cases h : n.grants b k
  · rw [bcuRequest_granted h]
    rfl
  · rw [bcuRequest_denied h]
    exact .refl n

theorem bcuRelease_queueOnly (b : Bank) (k : ClaimKind) (n : Node) : QueueOnly n (bcuRelease b k n) := by
  unfold bcuRelease
  split
  · exact .refl n
  · split
    · rfl
    · exact (offer_queueOnly _ _).after (.of_liu rfl)

theorem ccuTry_queueOnly (bs : List Bank) (n : Node) : QueueOnly n (ccuTry bs n) := by
  induction bs generalizing n with
  | nil => exact .refl n
  | cons b bs ih =>
    have request := bcuRequest_queueOnly b .refill n
    unfold ccuTry
    split
    · next m e =>
      rw [e] at request
      exact request
    · next m e =>
      rw [e] at request
      exact (ih m).after request

theorem ccuGiveClaim_queueOnly (n : Node) : QueueOnly n (ccuGiveClaim n) := by
  unfold ccuGiveClaim
  split
  · exact .refl n
  · split
    · exact .refl n
    · exact (bcuRelease_queueOnly _ _ _).after (.of_liu rfl)
    · split
      · exact (bcuRelease_queueOnly _ _ _).after (.of_liu rfl)
      · exact .of_liu rfl

theorem ccuIdleTest_queueOnly (n : Node) : QueueOnly n (ccuIdleTest n) := by
  unfold ccuIdleTest
  split
  · exact (ccuGiveClaim_queueOnly _).after (.of_liu rfl)
  · exact .refl n

theorem ccuIdleChoice_queueOnly (skip : Option Bank) (n : Node) : QueueOnly n (ccuIdleChoice skip n) := by
  have choice : QueueOnly n (ccuChoose skip n) := by
    unfold ccuChoose
    split
    · exact ccuTry_queueOnly _ n
    · exact .refl n
  unfold ccuIdleChoice
  split
  · exact (ccuIdleTest_queueOnly _).after choice
  · exact .refl n

theorem directRequest_queueOnly (n : Node) : QueueOnly n (directRequest n).1 := by
  have served (m : Node) : QueueOnly m (ccuServe m) := .of_liu ((ccuServe_only m).liu (by decide))
  unfold directRequest
  split
  · exact .refl n
  · split
    · split
      · exact .of_liu rfl
      · exact .refl n
    · exact ccuGiveClaim_queueOnly n
    · exact (served _).after (ccuGiveClaim_queueOnly n)
    · exact (served _).after (ccuGiveClaim_queueOnly n)
    all_goals exact .refl n

theorem askDirect_queueOnly (n : Node) : QueueOnly n (askDirect n) := by
  have ended (m : Node) : QueueOnly m (endSearch m) := .of_liu ((endSearch_only m).liu (by decide))
  have request := directRequest_queueOnly n
  unfold askDirect
  split
  · split
    · next m e =>
      rw [e] at request
      exact request
    · next m e =>
      rw [e] at request
      exact (ended m).after request
  · exact ended n

theorem switchSearch_queueOnly (bs : List Bank) (n : Node) : QueueOnly n (switchSearch bs n) := by
  rw [switchSearch_eq]
  cases bs.find? fun b => n.switchCandidate b && decide (n.grants b .draw) with
  | none => exact askDirect_queueOnly n
  | some b => rfl

theorem checkSearch_queueOnly (bs : List Bank) (n : Node) : QueueOnly n (checkSearch bs n) := by
  rw [checkSearch_eq]
  cases bs.find? fun b => decide (n.grants b .draw) with
  | none => exact .of_liu ((setBankWait_only n).liu (by decide))
  | some b => rfl

/-- A DENIED claim sends the search or the choice onward (file 03 R38, R45, file 07 R124). -/
theorem reportDenied_queueOnly (b : Bank) (k : ClaimKind) (n : Node) : QueueOnly n (reportDenied b k n) := by
  cases k with
  | draw =>
    show QueueOnly n (fcuDenied b n)
    unfold fcuDenied
    split
    · split
      · exact (checkSearch_queueOnly _ _).after (.of_liu rfl)
      · exact .refl n
    · split
      · exact (switchSearch_queueOnly _ _).after (.of_liu rfl)
      · exact .refl n
  | refill =>
    show QueueOnly n (ccuDenied b n)
    unfold ccuDenied
    dsimp only
    split
    · split
      · exact .of_liu rfl
      · exact (ccuIdleChoice_queueOnly _ _).after (.of_liu rfl)
    · exact .refl n

theorem dropReport_queueOnly (b : FrameBody) (n : Node) : QueueOnly n (dropReport b n) := by
  unfold dropReport
  split
  · split
    · exact (reportDenied_queueOnly _ _ _).after (.of_liu rfl)
    · exact .refl n
  · exact .refl n
  · exact .refl n

/-- Only the drop of a CLAIM is reported to a block that may offer a frame. -/
theorem dropReport_liu {b : FrameBody} (h : ∀ bank k, b ≠ .claim bank k) (n : Node) : (dropReport b n).liu = n.liu := by
  unfold dropReport
  split
  · next bank k => exact absurd rfl (h bank k)
  · rfl
  · rfl

/-! ## A fault of the first frame of the queue -/

theorem isLineFault_of {w : LineFrame} {p : Nat} (hp : p < (wireBits w).length)
    (h : p < 8 ∨ 14 ≤ p ∨ (wireBits w)[p]? = some false) : isLineFault w p = true := by
  have within : (wireBit w p).isSome = true := by simp [wireBit, hp]
  have noYield : isYield w p = false := by
    obtain h | h | h := h
    · simp [isYield, inArbitration, Nat.not_le.mpr h]
    · simp [isYield, inArbitration, Nat.not_lt.mpr h]
    · simp [isYield, wireBit, h]
  rw [isLineFault, within, noYield]
  rfl

/-- The frame is alone to have its body: its third fault drops it. -/
theorem abandoned_first {q : QFrame} {qs : List QFrame} (hq : q.onWire = true) (hd : q.doomed = false)
    (hr : ∀ r ∈ qs, r.onWire = false ∧ r.body ≠ q.body) : abandoned q (q :: qs) = decide (2 ≤ q.faults) := by
  have none_newer : qs.any (QFrame.waits q.body) = false :=
    List.any_eq_false.mpr fun r h => by simp [QFrame.waits, (hr r h).2]
  rw [abandoned, withoutWire_first hq fun r h => (hr r h).1, none_newer, hd]
  simp

/-- The node with the wire free and the fault counted. -/
def Node.faulted (n : Node) : Node := faultCounts { n with liu.wire := none }

theorem faulted_below {n : Node} (h : n.liu.consecutive < 15) : n.faulted = { n with
    liu.wire := none, liu.total := satSucc n.liu.total, liu.consecutive := n.liu.consecutive + 1 } :=
  if_neg (by dsimp only; omega)

/-- The sixteenth fault in a row brings LINE_SILENT (R170). -/
theorem faulted_silent {n : Node} (h : 15 ≤ n.liu.consecutive) : n.faulted = { n with
    liu.wire := none, liu.total := satSucc n.liu.total, liu.consecutive := 0, liu.silentSince := some n.now } :=
  if_pos (by dsimp only; omega)

theorem faulted_wire (n : Node) : n.faulted.liu.wire = none := by
  obtain h | h := Nat.lt_or_ge n.liu.consecutive 15
  · rw [faulted_below h]
  · rw [faulted_silent h]

theorem faulted_total (n : Node) : n.faulted.liu.total = min (n.liu.total + 1) 65535 := by
  obtain h | h := Nat.lt_or_ge n.liu.consecutive 15
  · rw [faulted_below h]; rfl
  · rw [faulted_silent h]; rfl

section
variable {n : Node} {q : QFrame} {qs : List QFrame} {w : LineFrame} {p : Nat} (hl : n.liu.queue = q :: qs)
  (hq : q.onWire = true) (hd : q.doomed = false) (hw : n.liu.wire = some w) (hf : isLineFault w p = true)
  (hr : ∀ r ∈ qs, r.onWire = false ∧ r.body ≠ q.body)
include hl hq hd hw hf hr

/-- Below its third fault the frame goes back to its place with the fault counted. -/
theorem liuFault_back (hn : q.faults < 2) : liuFault p n =
    { n.faulted with liu.queue := { q with onWire := false, faults := q.faults + 1 } :: qs } := by
  have stays : abandoned q (q :: qs) = false := by rw [abandoned_first hq hd hr]; exact decide_eq_false (by omega)
  simp only [liuFault, hl, wireFrame_first hq, hw, hf, if_true, stays, Bool.false_eq_true, if_false,
    attemptBack_first hq hd hr, Node.faulted]

/-- At its third fault the frame leaves the queue, and its drop is reported. -/
theorem liuFault_drops (hn : 2 ≤ q.faults) : liuFault p n = dropReport q.body { n.faulted with liu.queue := qs } := by
  have drops : abandoned q (q :: qs) = true := by rw [abandoned_first hq hd hr]; exact decide_eq_true hn
  simp only [liuFault, hl, wireFrame_first hq, hw, hf, if_true, drops,
    withoutWire_first hq fun r h => (hr r h).1, Node.faulted]

/-- Whether the frame stays or is dropped, the rest of the line is as the count of the fault leaves it. -/
theorem liuFault_queueOnly : QueueOnly n.faulted (liuFault p n) := by
  obtain hn | hn := Nat.lt_or_ge q.faults 2
  · rw [liuFault_back hl hq hd hw hf hr hn]
    rfl
  · rw [liuFault_drops hl hq hd hw hf hr hn]
    exact (dropReport_queueOnly _ _).after rfl

end

theorem exec_lineFault (p : Nat) (s : State) : exec (.lineFault p) s = .next { s with node := liuFault p s.node } := rfl

theorem exec_lineSilentEnd_due {s : State} {a : Nat} (ha : s.node.liu.silentSince = some a) (ht : 1000 ≤ s.node.now - a) :
    exec .lineSilentEnd s = .next { s with node := { s.node with
      liu := { s.node.liu with silentSince := none, silentEnded := true } } } := by
  have due : s.node.reached s.node.liu.silentSince 1000 = true := (reached_iff _ _ _).mpr ⟨a, ha, ht⟩
  show execLineSilentEnd s = _
  rw [execLineSilentEnd, State.act_eq, due, Node.onlyIf_true]

/-- Settles O59: the counts by the number of faults in a row, the queue by the number of faults of the frame. -/
theorem lineFaultsAreCounted : Obligations.LineFaultsAreCounted := by
  refine ⟨fun s q qs w p hl hq hd hw hp hm hr => ⟨_, exec_lineFault p s, ?_⟩,
    fun s a ha ht => exec_lineSilentEnd_due ha ht⟩
  have fault := isLineFault_of hp hm
  have line : QueueOnly s.node.faulted (liuFault p s.node) := liuFault_queueOnly hl hq hd hw fault hr
  have back := liuFault_back hl hq hd hw fault hr
  have dropped := liuFault_drops hl hq hd hw fault hr
  refine ⟨by rw [line, faulted_wire], by rw [line, faulted_total], fun few => ?_, fun many => ?_, fun hn => ?_,
    fun hn noClaim => ?_, fun hn heat => ?_⟩
  · rw [line, faulted_below few]
    exact ⟨rfl, rfl⟩
  · rw [line, faulted_silent many]
    exact ⟨rfl, rfl⟩
  · rw [back hn]
  · rw [dropped hn, dropReport_liu noClaim]
  · rw [dropped hn, heat]
    rfl

end Sys2Proof.Machine

/-! # The STATUS and PROGRESS grids and the quiet timer (file 10 R177 to R179, file 03 R57, file 04 R80, file 06 R114,
file 07 R133) -/

namespace Sys2Proof.Machine

/-! ## The timers of the line -/

theorem exec_statusTick_due {s : State} {g : Nat} (hg : s.node.liu.statusNext = some g) (hn : g ≤ s.node.now) :
    exec .statusTick s = .next { s with node := offer .status { s.node with
      liu := { s.node.liu with statusNext := some (g + 100) } } } := by
  show execStatusTick s = _
  rw [execStatusTick, State.act_eq, hg, gridDue_some hn, Node.onlyIf_true, hg]
  rfl

theorem exec_progressTick_due {s : State} {g : Nat} {a : Auth} (hg : s.node.liu.progressNext = some g)
    (hn : g ≤ s.node.now) (ha : s.node.fcu.auth = some a) :
    exec .progressTick s = .next { s with node := offer (.progress a.terminal) { s.node with
      liu := { s.node.liu with progressNext := some (g + 1000) } } } := by
  show execProgressTick s = _
  rw [execProgressTick, State.act_eq, hg, gridDue_some hn, Node.onlyIf_true, hg, ha]
  rfl

theorem exec_quietTimer1000_due {s : State} {a : Nat} (ha : s.node.liu.quietSince = some a) (ht : 1000 ≤ s.node.now - a) :
    exec .quietTimer1000 s = .next { s with node := ccuHold (lineQuietBegin s.node) } := by
  have due : s.node.quietAtLeast 1000 = true := (reached_iff _ _ _).mpr ⟨a, ha, ht⟩
  show execQuietTimer1000 s = _
  rw [execQuietTimer1000, State.act_eq, due, Node.onlyIf_true]

theorem exec_quietTimer1800_due {s : State} {a : Nat} (ha : s.node.liu.quietSince = some a) (ht : 1800 ≤ s.node.now - a) :
    exec .quietTimer1800 s = .next { s with node := quiet1800 s.node } := by
  have due : s.node.quietAtLeast 1800 = true := (reached_iff _ _ _).mpr ⟨a, ha, ht⟩
  show execQuietTimer1800 s = _
  rw [execQuietTimer1800, State.act_eq, due, Node.onlyIf_true]

/-! ## 1,000 ms: the valves close, the fill pauses (file 03 R57, file 07 R133) -/

theorem pauseEffect_pauses (n : Node) : (pauseEffect n).fcu.pauses = n.fcu.pauses := by
  unfold pauseEffect
  split
  · rfl
  · split <;> rfl

theorem pauseEffect_vb (n : Node) : (pauseEffect n).fcu.vb = n.fcu.vb := by
  unfold pauseEffect
  split
  · rfl
  · split <;> rfl

theorem lineQuietBegin_only (n : Node) : Only [.fcu] n (lineQuietBegin n) := by
  unfold lineQuietBegin
  split
  · exact (pauseEffect_only _).after (Only.after (x := [.fcu]) fcu_only fcu_only)
  · exact .refl _ n

theorem lineQuietBegin_resting {n : Node} (h : n.fcu.phase.filling = false) : lineQuietBegin n = n :=
  if_neg (by rw [h]; exact Bool.noConfusion)

/-- LINE_QUIET of a fill in progress, its bank valves closed. -/
theorem lineQuietBegin_filling {n : Node} (h : n.fcu.phase.filling = true) :
    (lineQuietBegin n).fcu.pauses.lineQuiet.isSome = true ∧
      ∀ b : Bank, ((lineQuietBegin n).fcu.vb.get b).opened = false := by
  rw [lineQuietBegin, if_pos h, pauseEffect_pauses, pauseEffect_vb]
  refine ⟨?_, fun b => by rw [closeBanks_vb, ValveRec.command_opened]⟩
  cases n.fcu.pauses.lineQuiet <;> rfl

theorem ccuHold_only (n : Node) : Only [.ccu] n (ccuHold n) := ccu_only

theorem ccuHold_shut (n : Node) : (ccuHold n).ccu.hold = true ∧ (ccuHold n).ccu.vdir.opened = false ∧
    ∀ b : Bank, ((ccuHold n).ccu.vr.get b).opened = false := by
  simp [ccuHold, closeCompressorValves]

/-! ## 1,800 ms: no claim, no reservation, no running compressor (file 04 R80, file 06 R114, file 07 R133) -/

theorem reportDropped_filling (b : Bank) (k : ClaimKind) (n : Node) :
    (reportDropped b k n).fcu.phase.filling = n.fcu.phase.filling := by
  cases k with
  | draw => exact (flowNeedsSource_samePeriod _).filling
  | refill => rw [show reportDropped b .refill n = ccuDropped b n from rfl, (ccuDropped_only b n).fcu (by decide)]

theorem reportsDropped_only (os : List OwnClaim) (n : Node) :
    Only [.fcu, .ccu] n (os.foldl (fun m o => reportDropped o.bank o.kind m) n) :=
  Only.foldl (fun m o => reportDropped_only o.bank o.kind m) os n

theorem bcuDropAll_own (n : Node) : (bcuDropAll n).bcu.own = [] :=
  congrArg Bcu.own ((reportsDropped_only n.bcu.own _).bcu (by decide))

theorem bcuDropAll_filling (n : Node) : (bcuDropAll n).fcu.phase.filling = n.fcu.phase.filling :=
  List.foldlRecOn (motive := fun m : Node => m.fcu.phase.filling = n.fcu.phase.filling) _ _ rfl
    fun m hm o _ => (reportDropped_filling o.bank o.kind m).trans hm

theorem hsuQuiet_hsu (n : Node) : ∃ resend, (hsuQuiet n).hsu =
    { n.hsu with rOwn := 0, waiting := false, raise := none, resend := resend } := by
  rw [hsuQuiet, hsuOffer_hsu, fcuCeiling_eq]
  exact ⟨_, rfl⟩

theorem hsuQuiet_filling (n : Node) : (hsuQuiet n).fcu.phase.filling = n.fcu.phase.filling := by
  have flow : FlowOnly n (hsuQuiet n) :=
    FlowOnly.trans (.same rfl) ((fcuCeiling_flow { n with hsu.rOwn := 0, hsu.waiting := false, hsu.raise := none }).trans
      (hsuOffer_flow _))
  obtain ⟨⟨f, h⟩, -⟩ := flow
  rw [h]

/-- With no claim left a stop of the compressor has none to release. -/
theorem bcuRelease_own_nil {n : Node} (h : n.bcu.own = []) (b : Bank) (k : ClaimKind) :
    (bcuRelease b k n).bcu.own = [] := by
  have none_found : n.bcu.find b k = none := by rw [Bcu.find, h]; rfl
  rwa [bcuRelease, none_found]

theorem ccuGiveClaim_own_nil {n : Node} (h : n.bcu.own = []) : (ccuGiveClaim n).bcu.own = [] := by
  unfold ccuGiveClaim
  split
  · exact h
  · split
    · exact h
    · exact bcuRelease_own_nil (n := { n with ccu.claim := none }) h _ _
    · split
      · exact bcuRelease_own_nil (n := { n with ccu.claim := none }) h _ _
      · exact h

theorem ccuStop_own_nil {n : Node} (h : n.bcu.own = []) : (ccuStop n).bcu.own = [] := by
  unfold ccuStop
  cases n.cmRun with
  | false => exact h
  | true =>
    rw [Node.onlyIf_true, ccuGo, (tellDirect_only _ _).bcu (by decide)]
    exact ccuGiveClaim_own_nil h

/-- What the blocks make of 1,800 ms, but for the mark of the fill. -/
def quietStops (n : Node) : Node := ccuStop (hsuQuiet (bcuDropAll n))

theorem quietStops_own (n : Node) : (quietStops n).bcu.own = [] :=
  ccuStop_own_nil (by rw [(hsuQuiet_only _).bcu (by decide), bcuDropAll_own])

theorem quietStops_hsu (n : Node) : (quietStops n).hsu.rOwn = 0 ∧ (quietStops n).hsu.waiting = false ∧
    (quietStops n).hsu.raise = none := by
  obtain ⟨resend, quiet⟩ := hsuQuiet_hsu (bcuDropAll n)
  rw [quietStops, (ccuStop_only _).hsu (by decide), quiet]
  exact ⟨rfl, rfl, rfl⟩

theorem quietStops_filling (n : Node) : (quietStops n).fcu.phase.filling = n.fcu.phase.filling := by
  rw [quietStops, ccuStop_filling, hsuQuiet_filling, bcuDropAll_filling]

theorem quiet1800_filling {n : Node} (h : n.fcu.phase.filling = true) :
    quiet1800 n = { quietStops n with fcu.lineFault := true } :=
  if_pos ((quietStops_filling n).trans h)

theorem quiet1800_only (n : Node) : Only [.fcu] (quietStops n) (quiet1800 n) := by
  by_cases h : n.fcu.phase.filling = true
  · rw [quiet1800_filling h]
    exact fcu_only
  · have resting : quiet1800 n = quietStops n := if_neg (by rwa [← quietStops, quietStops_filling])
    rw [resting]
    exact .refl _ _

/-- Settles O60: the grids by their ticks, the two values of the quiet timer by what each block makes of them. -/
theorem gridsAndQuietTimerAct : Obligations.GridsAndQuietTimerAct := by
  refine ⟨fun s g hg hn => exec_statusTick_due hg hn, fun s g a hg hn ha => exec_progressTick_due hg hn ha,
    fun s a ha ht => ⟨_, exec_quietTimer1000_due ha ht, ?_⟩, fun s a ha ht => ⟨_, exec_quietTimer1800_due ha ht, ?_⟩⟩
  · obtain ⟨hold, vdir, vr⟩ := ccuHold_shut (lineQuietBegin s.node)
    have held := ccuHold_only (lineQuietBegin s.node)
    refine ⟨hold, vdir, vr, (held.bcu (by decide)).trans ((lineQuietBegin_only _).bcu (by decide)), fun hf => ?_,
      fun hf => ?_⟩
    · rw [held.fcu (by decide)]
      exact lineQuietBegin_filling hf
    · rw [held.fcu (by decide), lineQuietBegin_resting hf]
  · have only := quiet1800_only s.node
    obtain ⟨rOwn, waiting, raise⟩ := quietStops_hsu s.node
    rw [only.bcu (by decide), only.hsu (by decide), only.ccu (by decide)]
    refine ⟨quietStops_own _, rOwn, waiting, raise, ccuStop_not_running _, fun hf => ?_⟩
    rw [quiet1800_filling hf]

end Sys2Proof.Machine

/-! # Start-up and the configuration block (file 11 R181 to R187) -/

namespace Sys2Proof.Machine

/-! ## START_UP_CAUSE (R181) -/

theorem exec_startUpCause (cause : StartCause) (s : State) :
    exec (.startUpCause cause) s = .next { s with node := holdPart cause s.node } := rfl

theorem holdPart_causes (cause : StartCause) (n : Node) :
    (holdPart cause n).stc.causes =
      if n.stc.causes.contains cause then n.stc.causes else n.stc.causes ++ [cause] := rfl

/-- The hold adds its cause to those that hold the part already. -/
theorem mem_holdPart_causes {cause c : StartCause} {n : Node} :
    c ∈ (holdPart cause n).stc.causes ↔ c = cause ∨ c ∈ n.stc.causes := by
  rw [holdPart_causes]
  split
  · next known =>
    refine ⟨.inr, fun h => ?_⟩
    obtain rfl | held := h
    · exact List.contains_iff_mem.mp known
    · exact held
  · rw [List.mem_append, List.mem_singleton, or_comm]

/-- A start-up commands every valve closed, from the position it has. -/
theorem blocksStartUp_valve (n : Node) (v : Valve) : (blocksStartUp n).valve v = (n.valve v).command false n.now := by
  cases v with
  | draw b => exact Quad.get_map _ n.fcu.vb b
  | refill b => exact Quad.get_map _ n.ccu.vr b
  | direct => rfl
  | vent => rfl

theorem holdPart_valve_shut (cause : StartCause) (n : Node) (v : Valve) :
    ((holdPart cause n).valve v).opened = false := by
  rw [holdPart, blocksStartUp_valve, ValveRec.command_opened]

/-- Settles O16: the causes and the valves are those of the hold, every block is at its start-up values by the definition
of the hold. -/
theorem startUpCauseHoldsThePart : Obligations.StartUpCauseHoldsThePart := by
  intro cause s
  exact ⟨_, exec_startUpCause cause s, rfl, mem_holdPart_causes.mpr (.inl rfl),
    fun c held => mem_holdPart_causes.mpr (.inr held), holdPart_valve_shut cause s.node, rfl, rfl, rfl, rfl, rfl, rfl,
    rfl, rfl, rfl, rfl, rfl, rfl, rfl, rfl, rfl, rfl, rfl, rfl⟩

/-! ## What no command changes, and what holds from CHECK to the next start-up (R181, R183, R185) -/

/-- Settles O4: the three start-up commands act on the node alone and keep its clock, and the rule of all other commands
says the rest. -/
theorem commandsLeaveQueueAndClock : Obligations.CommandsLeaveQueueAndClock := by
  intro c s t e
  have others (h1 : ∀ k, c ≠ .startUpCause k) (h2 : ∀ a b, c ≠ .startUp a b) (h3 : ∀ a, c ≠ .configReadDone a) :
      t.pending = s.pending ∧ t.node.now = s.node.now := by
    obtain ⟨kept, pending⟩ := exec_but c h1 h2 h3 e
    exact ⟨pending, kept.now⟩
  cases c
  case startUpCause cause =>
    cases e
    exact ⟨rfl, rfl⟩
  case startUp straps levels =>
    by_cases hp : s.node.stc.phase = .held
    · rw [exec_startUp_held hp] at e
      cases e
      exact ⟨rfl, (beginStartUp_only straps levels s.node).now⟩
    · rw [exec_startUp_other hp] at e
      cases e
      exact ⟨rfl, rfl⟩
  case configReadDone block =>
    have acted := act_next (f := fun n => n.onlyIf (decide (n.stc.phase = .configRead)) (checkConfig block)) e
    exact ⟨by rw [acted], (execConfigReadDone_only e).now⟩
  all_goals exact others (by simp) (by simp) (by simp)

/-- Settles O5: no command outside start-up has these values among the items it may change. -/
theorem configurationHoldsUntilStartUp : Obligations.ConfigurationHoldsUntilStartUp := by
  intro c s t hCause hStart hRead e
  have kept := (exec_but c hCause hStart hRead e).1
  exact ⟨kept.cfg, kept.number, kept.hoseCode, kept.startedAt⟩

/-! ## The nominal pressures (R184 test 4) -/

theorem Four.exists_below {b : Four} (h : 1 < b.num) : ∃ c : Four, c.num + 1 = b.num := by
  cases b with
  | one => exact absurd h (by decide)
  | two => exact ⟨.one, rfl⟩
  | three => exact ⟨.two, rfl⟩
  | four => exact ⟨.three, rfl⟩

/-- Test 4 at one bank: its pressure is in range and above that of the bank below it. -/
theorem nominalsPass_bank {count : Nat} {p : Quad Nat} (h : nominalsPass count p = true) {b : Bank}
    (hb : b.num ≤ count) :
    2000 ≤ p.get b ∧ p.get b ≤ 9500 ∧ ∀ a : Bank, a.num + 1 = b.num → p.get a < p.get b := by
  have test := List.all_eq_true.mp h b (Four.mem_all b)
  simp only [Bool.or_eq_true, Bool.and_eq_true, decide_eq_true_eq, List.all_eq_true] at test
  obtain ⟨⟨low, high⟩, above⟩ := test.resolve_left (Nat.not_lt.mpr hb)
  exact ⟨low, high, fun a below => (above a (Four.mem_all a)).resolve_left (not_not_intro below)⟩

/-- Each bank above the next below it makes the pressures ascend, by induction on the banks between. -/
theorem nominalsPass_ascends {count : Nat} {p : Quad Nat} (h : nominalsPass count p = true) {a b : Bank}
    (hab : a.num < b.num) (hb : b.num ≤ count) : p.get a < p.get b := by
  obtain ⟨gap, hgap⟩ := Nat.exists_eq_add_of_lt hab
  induction gap generalizing b with
  | zero => exact (nominalsPass_bank h hb).2.2 a hgap.symm
  | succ gap ih =>
    obtain ⟨c, hc⟩ := Four.exists_below (b := b) (by omega)
    calc p.get a < p.get c := ih (by omega) (by omega) (by omega)
      _ < p.get b := (nominalsPass_bank h hb).2.2 c hc

/-! ## The values of R185 -/

theorem le_clamp (x lo hi : Nat) : lo ≤ clamp x lo hi := Nat.le_max_left _ _

theorem clamp_le {lo hi : Nat} (h : lo ≤ hi) (x : Nat) : clamp x lo hi ≤ hi :=
  Nat.max_le.mpr ⟨h, Nat.min_le_right _ _⟩

theorem le_withDefault {dflt lo : Nat} (h : lo ≤ dflt) (code x hi : Nat) : lo ≤ withDefault code dflt x lo hi := by
  unfold withDefault
  split
  · exact h
  · exact le_clamp x lo hi

theorem withDefault_le {dflt lo hi : Nat} (h : lo ≤ hi) (hd : dflt ≤ hi) (code x : Nat) :
    withDefault code dflt x lo hi ≤ hi := by
  unfold withDefault
  split
  · exact hd
  · exact clamp_le h x

theorem hoseOfCode_some {code : Nat} {hose : HoseClass} (h : hoseOfCode code = some hose) :
    code = 1 ∧ hose = .car70 ∨ code = 2 ∧ hose = .bus35 := by
  unfold hoseOfCode at h
  split at h
  · cases h; exact .inl ⟨rfl, rfl⟩
  · cases h; exact .inr ⟨rfl, rfl⟩
  · cases h

/-- The ranges of R185 that CHECK brings about by a clamp or a default. -/
def ValuesInRange (c : Cfg) : Prop :=
  (∀ b : Bank, 1 ≤ c.drawLimit.get b ∧ c.drawLimit.get b ≤ 3) ∧
  100 ≤ c.hysteresis ∧ c.hysteresis ≤ 1000 ∧ 1 ≤ c.maxStarts ∧ c.maxStarts ≤ 12 ∧
  10 ≤ c.directFlow ∧ c.directFlow ≤ 400 ∧ 10000 ≤ c.capacity ∧ c.capacity ≤ 250000 ∧
  (c.hose = .car70 → 50 ≤ c.peakFlow ∧ c.peakFlow ≤ 600) ∧
  (c.hose = .bus35 → 100 ≤ c.peakFlow ∧ c.peakFlow ≤ 1500) ∧
  800 ≤ c.commTarget ∧ c.commTarget ≤ 1000 ∧ 700 ≤ c.nonCommTarget ∧ c.nonCommTarget ≤ 950 ∧
  2332 ≤ c.tSet ∧ c.tSet ≤ 2532 ∧ 1 ≤ c.pulseWeight ∧ c.pulseWeight ≤ 100 ∧
  5 ≤ c.deadVolume ∧ c.deadVolume ≤ 200 ∧ 200 ≤ c.carrier ∧ c.carrier ≤ 333

/-- What a block that passes CHECK has shown and hands out: the four tests of R184, and the ranges of R185. -/
theorem readConfig_some {block : List Byte} {c : Cfg} (h : readConfig block = some c) :
    ((List.range 32).map (configByte block)).sum % 256 = 0 ∧ hoseOfCode (hoseCodeRead block) = some c.hose ∧
    (2 ≤ c.bankCount ∧ c.bankCount ≤ 4) ∧ nominalsPass c.bankCount c.nominal = true ∧ ValuesInRange c := by
  unfold readConfig at h
  split at h
  · cases h
  next checksum =>
  split at h
  · cases h
  next hose code =>
  dsimp only at h
  split at h
  · cases h
  next count =>
  split at h
  · cases h
  next nominals =>
  cases h
  obtain ⟨two_le, le_four⟩ := not_or.mp count
  refine ⟨not_not.mp checksum, code, ⟨Nat.not_lt.mp two_le, Nat.not_lt.mp le_four⟩, (Bool.not_eq_false _).mp nominals,
    fun b => ?draws, le_clamp .., clamp_le (by decide) _,
    le_withDefault (by decide) .., withDefault_le (by decide) (by decide) ..,
    le_clamp .., clamp_le (by decide) _, le_clamp .., clamp_le (by decide) _, fun car => ?car, fun bus => ?bus,
    le_withDefault (by decide) .., withDefault_le (by decide) (by decide) ..,
    le_withDefault (by decide) .., withDefault_le (by decide) (by decide) ..,
    le_withDefault (by decide) .., withDefault_le (by decide) (by decide) ..,
    le_clamp .., clamp_le (by decide) _, le_clamp .., clamp_le (by decide) _, le_clamp .., clamp_le (by decide) _⟩
  case draws =>
    cases b <;> exact ⟨le_withDefault (by decide) .., withDefault_le (by decide) (by decide) ..⟩
  case car =>
    cases car
    exact ⟨le_clamp .., clamp_le (by decide) _⟩
  case bus =>
    cases bus
    exact ⟨le_clamp .., clamp_le (by decide) _⟩

/-- Settles O19: the tests that CHECK has made, test 4 bank by bank and over any two banks, and the ranges of the values
it has clamped. -/
theorem configurationValuesAreInRange : Obligations.ConfigurationValuesAreInRange := by
  intro block c h
  obtain ⟨checksum, code, ⟨two_le, le_four⟩, nominals, ranges⟩ := readConfig_some h
  refine ⟨checksum, hoseOfCode_some code, two_le, le_four, fun b hb => ?_,
    fun a b hab hb => nominalsPass_ascends nominals hab hb, ranges⟩
  obtain ⟨low, high, -⟩ := nominalsPass_bank nominals hb
  exact ⟨low, high⟩

/-! ## CHECK (R184 to R186) -/

theorem exec_configReadDone {s : State} (hp : s.node.stc.phase = .configRead) (block : List Byte) :
    exec (.configReadDone block) s = .next { s with node := checkConfig block s.node } := by
  show execConfigReadDone block s = _
  simp [execConfigReadDone, hp]

/-- Settles O18: CHECK goes by what the block reads as. -/
theorem configurationIsChecked : Obligations.ConfigurationIsChecked := by
  intro block s hp
  rw [exec_configReadDone hp, checkConfig]
  refine ⟨fun cfg passes => ?_, fun fails => ?_⟩
  · rw [passes]
    rfl
  · rw [fails]
    rfl

/-! ## The phases behind CHECK (R182, R187) -/

theorem exec_storeScanEnd {s : State} (hp : s.node.stc.phase = .storeScan) (hc : s.node.rst.scan = some .complete) :
    exec .storeScanEnd s = .next { s with node := beginWarmUp s.node } := by
  show execStoreScanEnd s = _
  simp [execStoreScanEnd, hp, hc]

theorem exec_warmUpEnd {s : State} (hp : s.node.stc.phase = .warmUp) (ht : 500 ≤ s.node.now - s.node.stc.phaseSince) :
    exec .warmUpEnd s = .next { s with node := s.node.enterPhase .listen } := by
  show execWarmUpEnd s = _
  simp [execWarmUpEnd, hp, Node.elapsed, ht]

theorem exec_listenEnd {s : State} (hp : s.node.stc.phase = .listen) (ht : 1000 ≤ s.node.now - s.node.stc.phaseSince) :
    exec .listenEnd s = .next { s with node := beginRun s.node } := by
  show execListenEnd s = _
  simp [execListenEnd, hp, Node.elapsed, ht]

/-- Settles O20: each phase ends at its own test, and the next one begins by its definition. -/
theorem startPhasesFollowOneAnother : Obligations.StartPhasesFollowOneAnother :=
  ⟨fun _ hp hc => exec_storeScanEnd hp hc, fun _ hp ht => exec_warmUpEnd hp ht, fun _ hp ht => exec_listenEnd hp ht⟩

end Sys2Proof.Machine

/-! # Reception reads what was sent (file 12 R188, file 10 R171)

A frame's data bits are read back bit by bit, in the two pieces in which reception takes them, and the fields are read
back from the bits. -/

namespace Sys2Proof.Machine

/-! ## A field is read from its bits -/

@[simp] theorem bitsOf_length {w : Nat} (x : BitVec w) : (bitsOf x).length = w := by simp [bitsOf]

theorem natOfBits_snoc (bs : Bits) (b : Bool) : natOfBits (bs ++ [b]) = 2 * natOfBits bs + b.toNat := by
  simp [natOfBits]

/-- The first `i` bits of a field spell what stands above the others. -/
theorem natOfBits_first {w : Nat} (x : BitVec w) {i : Nat} (h : i ≤ w) :
    natOfBits ((List.range i).map fun j => x.getMsbD j) = x.toNat / 2 ^ (w - i) := by
  induction i with
  | zero => simp [natOfBits, Nat.div_eq_of_lt x.isLt]
  | succ i ih =>
    have bit : (x.getMsbD i).toNat = x.toNat / 2 ^ (w - (i + 1)) % 2 := by
      rw [BitVec.getMsbD, decide_eq_true (by omega : i < w), Bool.true_and, BitVec.getLsbD, Nat.toNat_testBit,
        show w - 1 - i = w - (i + 1) by omega]
    have above : x.toNat / 2 ^ (w - i) = x.toNat / 2 ^ (w - (i + 1)) / 2 := by
      rw [Nat.div_div_eq_div_mul, ← Nat.pow_succ, Nat.succ_eq_add_one, show w - (i + 1) + 1 = w - i by omega]
    rw [List.range_succ, List.map_append, List.map_singleton, natOfBits_snoc, ih (by omega), bit, above]
    omega

@[simp] theorem natOfBits_bitsOf {w : Nat} (x : BitVec w) : natOfBits (bitsOf x) = x.toNat := by
  simp [bitsOf, natOfBits_first x (Nat.le_refl w)]

@[simp] theorem fieldOf_bitsOf {w : Nat} (x : BitVec w) : fieldOf w (bitsOf x) = x := by simp [fieldOf]

@[simp] theorem bitsOfBytes_length (p : List Byte) : (bitsOfBytes p).length = 8 * p.length := by
  simp [bitsOfBytes, Nat.mul_comm]

theorem bytesOfBits_bitsOfBytes (p : List Byte) (rest : Bits) :
    bytesOfBits p.length (bitsOfBytes p ++ rest) = p := by
  induction p with
  | nil => rfl
  | cons b p ih =>
    have split : bitsOfBytes (b :: p) ++ rest = bitsOf b ++ (bitsOfBytes p ++ rest) := by simp [bitsOfBytes]
    rw [split, List.length_cons, bytesOfBits, List.take_left' (bitsOf_length b), List.drop_left' (bitsOf_length b),
      fieldOf_bitsOf, ih]

/-! ## The parts of a frame -/

/-- What stands on the wire behind the header: the payload and the CRC-16. -/
def dataBits (f : LineFrame) : Bits := bitsOfBytes f.payload ++ bitsOf (crc16 (checkedBits f))

theorem checkedBits_crc (f : LineFrame) :
    checkedBits f ++ bitsOf (crc16 (checkedBits f)) = headerBits f ++ dataBits f :=
  List.append_assoc ..

@[simp] theorem headerBits_length (f : LineFrame) : (headerBits f).length = 24 := by simp [headerBits]

@[simp] theorem dataBits_length (f : LineFrame) : (dataBits f).length = 8 * f.payload.length + 16 := by simp [dataBits]

theorem dataBits_payload (f : LineFrame) : (dataBits f).take (8 * f.payload.length) = bitsOfBytes f.payload :=
  List.take_left' (bitsOfBytes_length _)

theorem dataBits_crc (f : LineFrame) : (dataBits f).drop (8 * f.payload.length) = bitsOf (crc16 (checkedBits f)) :=
  List.drop_left' (bitsOfBytes_length _)

theorem headerBits_payloadLength {f : LineFrame} (h : f.payload.length ≤ 32) :
    natOfBits ((headerBits f).drop 16) = f.payload.length := by
  have last : (headerBits f).drop 16 = bitsOf (BitVec.ofNat 8 f.payload.length) := List.drop_left' (by simp)
  rw [last, natOfBits_bitsOf, BitVec.toNat_ofNat]
  omega

/-- A frame's own bits pass the checks of R171 and give the frame. -/
theorem frameOfBits_sent {f : LineFrame} (low : 1 ≤ f.source.toNat) (high : f.source.toNat ≤ 12)
    (dest : f.destination.toNat ≤ 12) : frameOfBits f.payload.length (headerBits f) (dataBits f) = some f := by
  have cls : fieldOf 2 ((headerBits f).take 2) = f.cls := by simp [headerBits]
  have source : fieldOf 4 (((headerBits f).drop 2).take 4) = f.source := by simp [headerBits]
  have destination : fieldOf 4 (((headerBits f).drop 6).take 4) = f.destination := by
    simp [headerBits, List.drop_append, List.drop_of_length_le]
  have kind : fieldOf 6 (((headerBits f).drop 10).take 6) = f.kind := by
    simp [headerBits, List.drop_append, List.drop_of_length_le]
  have payload : bytesOfBits f.payload.length (dataBits f) = f.payload := bytesOfBits_bitsOfBytes ..
  have crc : crc16 (headerBits f ++ (dataBits f).take (8 * f.payload.length)) =
      fieldOf 16 ((dataBits f).drop (8 * f.payload.length)) := by
    rw [dataBits_payload, dataBits_crc, fieldOf_bitsOf, checkedBits]
  simp only [frameOfBits, cls, source, destination, kind, payload]
  exact if_pos ⟨crc, low, high, dest⟩

/-! ## Fill bits (R188) -/

/-- Level and run behind these data bits and their fill bits. -/
def runAfter (level : Bool) (run : Nat) : Bits → Bool × Nat
  | [] => (level, run)
  | b :: bs =>
    if (if b = level then run + 1 else 1) = 6 then runAfter (!b) 1 bs
    else runAfter b (if b = level then run + 1 else 1) bs

/-- The fill bits of the second of two pieces go on from the run that the first one ends in. -/
theorem stuff_append (level : Bool) (run : Nat) (h d : Bits) :
    stuff level run (h ++ d) = stuff level run h ++ stuff (runAfter level run h).1 (runAfter level run h).2 d := by
  induction h generalizing level run with
  | nil => rfl
  | cons b h ih =>
    simp only [List.cons_append, stuff, runAfter]
    generalize (if b = level then run + 1 else 1) = r
    by_cases full : r = 6 <;> simp [full, ih]

/-- Reception takes back the data bits that were sent, and stands behind their last fill bit. -/
theorem takeBits_stuff (level : Bool) (run : Nat) (bs rest : Bits) :
    takeBits bs.length level run (stuff level run bs ++ rest) =
      .got bs (runAfter level run bs).1 (runAfter level run bs).2 rest := by
  induction bs generalizing level run with
  | nil => rfl
  | cons b bs ih =>
    simp only [stuff, runAfter, List.length_cons]
    generalize hr : (if b = level then run + 1 else 1) = r
    by_cases full : r = 6 <;> simp [takeBits, hr, full, ih, Taken.cons]

/-- The header and what follows it are taken in two pieces. -/
theorem takeBits_sent (f : LineFrame) (rest : Bits) : ∃ level run level' run' between,
    takeBits 24 true 1 (stuff true 1 (headerBits f ++ dataBits f) ++ rest) = .got (headerBits f) level run between ∧
    takeBits (8 * f.payload.length + 16) level run between = .got (dataBits f) level' run' rest := by
  have header := takeBits_stuff true 1 (headerBits f)
  rw [headerBits_length] at header
  rw [stuff_append, List.append_assoc, header, ← dataBits_length]
  exact ⟨_, _, _, _, _, rfl, takeBits_stuff ..⟩

/-! ## Reception (R171) -/

theorem receive_startSymbol (bs : Bits) : receive (startSymbol ++ bs) = receiveBody (bs.length + 8) bs := by
  simp [receive, startSymbol]

/-- A whole frame is read with its end field. -/
theorem receiveBody_whole {f : LineFrame} (low : 1 ≤ f.source.toNat) (high : f.source.toNat ≤ 12)
    (dest : f.destination.toNat ≤ 12) (len : f.payload.length ≤ 32) (fuel : Nat) :
    receiveBody (fuel + 1) (stuff true 1 (headerBits f ++ dataBits f) ++ endField) = some f := by
  obtain ⟨level, run, level', run', between, header, data⟩ := takeBits_sent f endField
  simp [receiveBody, header, data, headerBits_payloadLength len, Nat.not_lt.mpr len, frameOfBits_sent low high dest]

/-- A frame whose end field a start symbol cuts is discarded for what follows that symbol. -/
theorem receiveBody_cut {f : LineFrame} {rest next : Bits} (len : f.payload.length ≤ 32)
    (cut : rest.take 8 ≠ endField) (symbol : ∀ level run, symbolBehind level run rest = some (true :: next))
    (fuel : Nat) :
    receiveBody (fuel + 1) (stuff true 1 (headerBits f ++ dataBits f) ++ rest) = receiveBody fuel next := by
  obtain ⟨level, run, level', run', between, header, data⟩ := takeBits_sent f rest
  have notEnd : rest ≠ endField := fun whole => cut (by rw [whole]; rfl)
  simp [receiveBody, header, data, headerBits_payloadLength len, Nat.not_lt.mpr len, notEnd, cut, symbol]

/-! ## The end field that a start symbol cuts -/

/-- Recessive bits end any run of dominant ones. -/
theorem symbolIn_recessive (k run : Nat) (bs : Bits) :
    symbolIn run (List.replicate (k + 1) true ++ bs) = symbolIn 0 bs := by
  induction k generalizing run with
  | zero => simp [symbolIn]
  | succ k ih => rw [List.replicate_succ, List.cons_append, symbolIn, if_pos rfl, ih]

theorem symbolBehind_cut {k : Nat} (one : 1 ≤ k) (next : Bits) (level : Bool) (run : Nat) :
    symbolBehind level run (List.replicate k true ++ (startSymbol ++ next)) = some (true :: next) := by
  obtain ⟨j, rfl⟩ := Nat.exists_eq_add_of_le' one
  rw [symbolBehind, symbolIn_recessive]
  rfl

theorem cut_endField {k : Nat} (few : k < 8) (next : Bits) :
    (List.replicate k true ++ (startSymbol ++ next)).take 8 ≠ endField := by
  intro whole
  have dominant : ((List.replicate k true ++ (startSymbol ++ next)).take 8)[k]? = some false := by
    simp [few, startSymbol]
  have recessive : endField[k]? = some true := List.getElem?_replicate_of_lt few
  simp [whole, recessive] at dominant

/-- Settles O14: the whole frame by the bits it is taken back from; the cut one by the start symbol behind it. -/
theorem receptionReadsWhatWasSent : Obligations.ReceptionReadsWhatWasSent := by
  intro f low high dest len
  have whole := receiveBody_whole low high dest len
  refine ⟨?_, fun cut k cutLen one few => ?_⟩
  · rw [wireBits, checkedBits_crc, List.append_assoc, receive_startSymbol]
    exact whole _
  · have next := receiveBody_cut cutLen (cut_endField few _)
      (symbolBehind_cut one (stuff true 1 (headerBits f ++ dataBits f) ++ endField))
    rw [wireBits, checkedBits_crc, checkedBits_crc]
    simp only [List.append_assoc] at next whole ⊢
    rw [receive_startSymbol, next]
    exact whole _

end Sys2Proof.Machine

/-! # The front of the queue, and timers that are stopped or early (logs 1, 2 and 59)

A timer command tests its timer before it acts: each test fails while the timer is stopped and while its time has not
come, and a command whose test fails leaves the state as it is. -/

namespace Sys2Proof.Machine

theorem step_pending {s : State} {c : Instr} {rest : List Instr} (h : s.pending = c :: rest) :
    step s = exec c { s with pending := rest } := by
  rw [step, h]

/-- Settles O1: the step takes the command off the queue and runs it. -/
theorem stepRunsTheFrontCommand : Obligations.StepRunsTheFrontCommand := fun _ _ => step_pending rfl

/-! ## Commands that leave the node alone -/

theorem act_unchanged {f : Node → Node} {s : State} (h : f s.node = s.node) : s.act f = .next s := by
  rw [State.act_eq, h]

/-- A command whose test fails leaves the state as it is. -/
theorem act_onlyIf_false {test : Node → Bool} {f : Node → Node} {s : State} (h : test s.node = false) :
    (s.act fun n => n.onlyIf (test n) f) = .next s :=
  act_unchanged (by rw [h, Node.onlyIf_false])

theorem and_false_left {a b : Bool} (h : a = false) : (a && b) = false := by rw [h, Bool.false_and]

theorem and_false_right {a b : Bool} (h : b = false) : (a && b) = false := by rw [h, Bool.and_false]

/-! ## The tests of stopped and of early timers -/

section
variable {n : Node} {timer : Option Nat} {a g ms : Nat}

theorem gridDue_stopped (h : timer = none) : n.gridDue timer = false := by rw [h, Node.gridDue]

theorem gridDue_early (h : timer = some g) (early : n.now < g) : n.gridDue timer = false := by
  rw [h]
  exact decide_eq_false (Nat.not_le.mpr early)

theorem reached_stopped (h : timer = none) : n.reached timer ms = false := by rw [h, Node.reached]

theorem reached_early (h : timer = some a) (early : n.now - a < ms) : n.reached timer ms = false := by
  rw [h]
  exact decide_eq_false (Nat.not_le.mpr early)

/-- A phase of the start ends in that phase alone, and not before its time. -/
theorem phaseTest_false {p : StartPhase} (h : n.stc.phase ≠ p ∨ n.now - n.stc.phaseSince < ms) :
    (decide (n.stc.phase = p) && decide (ms ≤ n.elapsed n.stc.phaseSince)) = false :=
  h.elim (fun other => and_false_left (decide_eq_false other))
    fun early => and_false_right (decide_eq_false (Nat.not_le.mpr early))

theorem exchangeLate_stopped (h : n.isc.cycle = none) : n.exchangeLate = false := by rw [Node.exchangeLate, h]

theorem lineQuiet_stopped (h : n.vlr.decoder = none) : n.lineQuiet = false := by rw [Node.lineQuiet, h]

theorem lineQuiet_of_decoder {d : Decoder} (h : n.vlr.decoder = some d) (quiet : n.reached d.quietFrom 3 = false) :
    n.lineQuiet = false := by
  rw [Node.lineQuiet, h]
  exact quiet

theorem Vlr.silent_unheard {v : Vlr} {x : Side} (h : v.link ≠ .valid ∨ v.decoder = none ∨ v.declares x = false) :
    v.silent x = false := by
  obtain link | decoder | undeclared := h
  · simp [Vlr.silent, link]
  · simp [Vlr.silent, decoder]
  · simp [Vlr.silent, undeclared]

theorem Vlr.silent_early {v : Vlr} {x : Side} (h : (v.side x).age = some a) (early : a < 1000) :
    v.silent x = false := by
  simp [Vlr.silent, h, early]

theorem stepEnded_elsewhere {c : CheckStep} (h : n.fcu.phase ≠ .checking) : n.stepEnded c ms = false := by
  simp [Node.stepEnded, h]

theorem stepEnded_of_reached {c : CheckStep} (h : n.reached n.fcu.stepSince ms = false) : n.stepEnded c ms = false :=
  and_false_right h

theorem retryDue_noWait (h : n.fcu.pauses.bankWait = none) : n.retryDue = false := by simp [Node.retryDue, h]

theorem retryDue_early (h : n.fcu.searchAt = some a) (early : n.now - a < 1000) : n.retryDue = false :=
  and_false_left (and_false_right (reached_early h early))

theorem stateLasted_elsewhere {st : CompState} (h : n.ccu.state ≠ st) : n.stateLasted st ms = false :=
  and_false_left (decide_eq_false h)

theorem stateLasted_early {st : CompState} (early : n.now - n.ccu.since < ms) : n.stateLasted st ms = false :=
  and_false_right (decide_eq_false (Nat.not_le.mpr early))

/-! ## Tests that the effect makes itself -/

theorem channelAged_young {c : Channel} (h : n.olderThan c 2000 = false) : channelAged c n = n := by
  by_cases pressure : c = .pC
  · subst pressure
    simp [channelAged, h]
  by_cases temperature : c = .tC
  · subst temperature
    simp [channelAged, h]
  exact channelAged_other pressure temperature n

theorem recovered_stopped (h : n.isc.loop = .normal ∨ n.isc.loop = .tripped) : recovered n = n := by
  obtain h | h := h <;> rw [recovered, h]

theorem recovered_early (h : n.isc.loop = .recovering a) (early : n.now - a < 5000) : recovered n = n := by
  rw [recovered, h]
  exact if_neg (Nat.not_le.mpr early)

section
variable {b : Bank} {k : ClaimKind}

theorem settleExpiry_unsettled (h : n.settled b k = none) : settleExpiry b k n = n := by rw [settleExpiry, h]

theorem settled_noClaim (h : n.bcu.find b k = none) : n.settled b k = none := by rw [Node.settled, h]

theorem settled_early (h : n.bcu.find b k = some ⟨b, k, .settling a⟩) (early : n.now - a < 150) :
    n.settled b k = none := by
  rw [Node.settled, h]
  exact if_neg (Nat.not_le.mpr early)

end

theorem ptbStale_unknown {x : Nat} (h : n.ptb.find x = none) : ptbStale x n = n := by rw [ptbStale, h]

theorem ptbForget_unknown {x : Nat} (h : n.ptb.find x = none) : ptbForget x n = n := by rw [ptbForget, h]

theorem ptbStale_early {x : Nat} {p : Peer} (h : n.ptb.find x = some p)
    (early : p.stale = true ∨ n.now - p.last < 350) : ptbStale x n = n := by
  rw [ptbStale, h]
  exact if_pos early

theorem ptbForget_early {x : Nat} {p : Peer} (h : n.ptb.find x = some p) (early : n.now - p.last < 2000) :
    ptbForget x n = n := by
  rw [ptbForget, h]
  exact if_pos early

theorem ccuIdleTest_elsewhere (h : n.ccu.state ≠ .idleRun) : ccuIdleTest n = n := if_neg fun ⟨idle, _⟩ => h idle

theorem ccuIdleTest_stopped (h : n.ccu.runSince = none) : ccuIdleTest n = n :=
  if_neg fun ⟨_, _, _, reached⟩ => by simp [reached_stopped h] at reached

/-- No start is an hour old, so none leaves the list. -/
theorem starts_young {starts : List Nat} (h : ∀ a ∈ starts, n.now - a < 3600000) :
    starts.filter (fun t => decide (n.elapsed t < 3600000)) = starts :=
  List.filter_eq_self.mpr fun a ha => decide_eq_true (h a ha)

end

/-! ## The test of each row -/

section
variable {s : State}

theorem exec_warmUpEnd_notDue (h : s.node.stc.phase ≠ .warmUp ∨ s.node.now - s.node.stc.phaseSince < 500) :
    exec .warmUpEnd s = .next s :=
  show execWarmUpEnd s = _ from act_onlyIf_false (phaseTest_false h)

theorem exec_listenEnd_notDue (h : s.node.stc.phase ≠ .listen ∨ s.node.now - s.node.stc.phaseSince < 1000) :
    exec .listenEnd s = .next s :=
  show execListenEnd s = _ from act_onlyIf_false (phaseTest_false h)

theorem exec_scanGridInstant_notDue (h : s.node.gridDue s.node.isc.gridNext = false) :
    exec .scanGridInstant s = .next s :=
  show execScanGridInstant s = _ from act_onlyIf_false h

theorem exec_exchangeTimeout_notDue (h : s.node.exchangeLate = false) : exec .exchangeTimeout s = .next s :=
  show execExchangeTimeout s = _ from act_onlyIf_false h

theorem exec_quietLineSeen_notDue (h : s.node.lineQuiet = false) : exec .quietLineSeen s = .next s :=
  show execQuietLineSeen s = _ from act_onlyIf_false h

theorem exec_sideSilentExpiry_notDue {x : Side} (h : s.node.vlr.silent x = false) :
    exec (.sideSilentExpiry x) s = .next s :=
  show execSideSilentExpiry x s = _ from act_onlyIf_false h

theorem exec_authorizationTimeout_notDue (h : s.node.reached s.node.fcu.authSince 120000 = false) :
    exec .authorizationTimeout s = .next s :=
  show execAuthorizationTimeout s = _ from act_onlyIf_false h

theorem exec_pulseEnd_notDue (h : s.node.stepEnded .pulse 1000 = false) : exec .pulseEnd s = .next s :=
  show execPulseEnd s = _ from act_onlyIf_false h

theorem exec_equalizeEnd_notDue (h : s.node.stepEnded .equalize 2000 = false) : exec .equalizeEnd s = .next s :=
  show execEqualizeEnd s = _ from act_onlyIf_false h

theorem exec_holdEnd_notDue (h : s.node.stepEnded .hold 5000 = false) : exec .holdEnd s = .next s :=
  show execHoldEnd s = _ from act_onlyIf_false h

theorem exec_rezeroVentTimeout_notDue
    (h : s.node.fcu.phase ≠ .checking ∨ s.node.reached s.node.fcu.rezeroVent 20000 = false) :
    exec .rezeroVentTimeout s = .next s :=
  show execRezeroVentTimeout s = _ from act_onlyIf_false
    (h.elim (fun phase => and_false_left (and_false_left (decide_eq_false phase))) and_false_right)

theorem exec_ventTimeout_notDue
    (h : s.node.fcu.phase ≠ .venting ∨ s.node.reached s.node.fcu.ventSince 20000 = false) :
    exec .ventTimeout s = .next s :=
  show execVentTimeout s = _ from act_onlyIf_false
    (h.elim (fun phase => and_false_left (and_false_left (decide_eq_false phase))) and_false_right)

theorem exec_controlPeriod_notDue
    (h : s.node.fcu.phase.filling = false ∨ s.node.gridDue s.node.fcu.periodNext = false) :
    exec .controlPeriod s = .next s :=
  show execControlPeriod s = _ from act_onlyIf_false (h.elim and_false_left and_false_right)

theorem exec_bankSearchRetry_notDue (h : s.node.retryDue = false) : exec .bankSearchRetry s = .next s :=
  show execBankSearchRetry s = _ from act_onlyIf_false h

theorem exec_evaluationTick_notDue (h : s.node.gridDue s.node.hsu.gridNext = false) :
    exec .evaluationTick s = .next s :=
  show execEvaluationTick s = _ from act_onlyIf_false h

theorem exec_surveyTick_notDue (h : s.node.gridDue s.node.ccu.surveyNext = false) : exec .surveyTick s = .next s :=
  show execSurveyTick s = _ from act_onlyIf_false h

theorem exec_startingEnd_notDue (h : s.node.stateLasted .starting 5000 = false) : exec .startingEnd s = .next s :=
  show execStartingEnd s = _ from act_onlyIf_false h

theorem exec_stoppingEnd_notDue (h : s.node.stateLasted .stopping 10000 = false) : exec .stoppingEnd s = .next s :=
  show execStoppingEnd s = _ from act_onlyIf_false h

theorem exec_lockoutEnd_notDue (h : s.node.stateLasted .lockout 600000 = false) : exec .lockoutEnd s = .next s :=
  show execLockoutEnd s = _ from act_onlyIf_false h

theorem exec_motorAbsentExpiry_notDue (h : s.node.reached s.node.ccu.absentSince 2000 = false) :
    exec .motorAbsentExpiry s = .next s :=
  show execMotorAbsentExpiry s = _ from act_onlyIf_false h

theorem exec_creepQuietExpiry_notDue (h : s.node.reached s.node.mpu.quietSince 60000 = false) :
    exec .creepQuietExpiry s = .next s :=
  show execCreepQuietExpiry s = _ from act_onlyIf_false h

theorem exec_lineSilentEnd_notDue (h : s.node.reached s.node.liu.silentSince 1000 = false) :
    exec .lineSilentEnd s = .next s :=
  show execLineSilentEnd s = _ from act_onlyIf_false h

theorem exec_statusTick_notDue (h : s.node.gridDue s.node.liu.statusNext = false) : exec .statusTick s = .next s :=
  show execStatusTick s = _ from act_onlyIf_false h

theorem exec_progressTick_notDue (h : s.node.gridDue s.node.liu.progressNext = false) :
    exec .progressTick s = .next s :=
  show execProgressTick s = _ from act_onlyIf_false h

theorem exec_quietTimer1000_notDue (h : s.node.quietAtLeast 1000 = false) : exec .quietTimer1000 s = .next s :=
  show execQuietTimer1000 s = _ from act_onlyIf_false h

theorem exec_quietTimer1800_notDue (h : s.node.quietAtLeast 1800 = false) : exec .quietTimer1800 s = .next s :=
  show execQuietTimer1800 s = _ from act_onlyIf_false h

theorem exec_startListExpiry_notDue (h : ∀ a ∈ s.node.ccu.starts, s.node.now - a < 3600000) :
    exec .startListExpiry s = .next s :=
  show execStartListExpiry s = _ from act_unchanged (by rw [starts_young h])

theorem exec_creepWindowClose_stopped (h : s.node.mpu.creepWindow = none) : exec .creepWindowClose s = .next s :=
  show execCreepWindowClose s = _ from act_unchanged (by rw [h])

theorem exec_creepWindowClose_early {w : CreepWindow} (h : s.node.mpu.creepWindow = some w)
    (early : s.node.now - w.openedAt < 60000) : exec .creepWindowClose s = .next s :=
  show execCreepWindowClose s = _ from act_unchanged (by
    rw [h]
    exact if_neg (Nat.not_le.mpr early))

end

/-- Settles O10, row by row in the order of the statement: the test of the row fails. -/
theorem earlyTimersChangeNothing : Obligations.EarlyTimersChangeNothing := fun s =>
  -- Start-up and the scanner (files 11 and 01).
  ⟨exec_warmUpEnd_notDue,
    exec_listenEnd_notDue,
    fun h => exec_scanGridInstant_notDue (gridDue_stopped h),
    fun _ h early => exec_scanGridInstant_notDue (gridDue_early h early),
    fun h => exec_exchangeTimeout_notDue (exchangeLate_stopped h),
    fun _ h early => exec_exchangeTimeout_early h early,
    fun _ h => act_unchanged (channelAged_young h),
    fun h => act_unchanged (recovered_stopped h),
    fun _ h early => act_unchanged (recovered_early h early),
    -- The vehicle link (file 02).
    fun h => exec_quietLineSeen_notDue (lineQuiet_stopped h),
    fun _ hd h => exec_quietLineSeen_notDue (lineQuiet_of_decoder hd (reached_stopped h)),
    fun _ _ hd h early =>
      exec_quietLineSeen_notDue (lineQuiet_of_decoder hd (reached_early h (Nat.lt_succ_of_le early))),
    fun _ h => exec_sideSilentExpiry_notDue (Vlr.silent_unheard h),
    fun _ _ h early => exec_sideSilentExpiry_notDue (Vlr.silent_early h early),
    -- The fill (file 03).
    fun h => exec_authorizationTimeout_notDue (reached_stopped h),
    fun _ h early => exec_authorizationTimeout_notDue (reached_early h early),
    fun h => ⟨exec_pulseEnd_notDue (stepEnded_elsewhere h), exec_equalizeEnd_notDue (stepEnded_elsewhere h),
      exec_holdEnd_notDue (stepEnded_elsewhere h),
      exec_rezeroVentTimeout_notDue (.inl h)⟩,
    fun h => ⟨exec_pulseEnd_notDue (stepEnded_of_reached (reached_stopped h)),
      exec_equalizeEnd_notDue (stepEnded_of_reached (reached_stopped h)),
      exec_holdEnd_notDue (stepEnded_of_reached (reached_stopped h))⟩,
    fun _ h => ⟨fun early => exec_pulseEnd_notDue (stepEnded_of_reached (reached_early h early)),
      fun early => exec_equalizeEnd_notDue (stepEnded_of_reached (reached_early h early)),
      fun early => exec_holdEnd_notDue (stepEnded_of_reached (reached_early h early))⟩,
    fun h => exec_rezeroVentTimeout_notDue (.inr (reached_stopped h)),
    fun _ h early => exec_rezeroVentTimeout_notDue (.inr (reached_early h early)),
    fun h => exec_ventTimeout_notDue (.inl h),
    fun _ h early => exec_ventTimeout_notDue (.inr (reached_early h early)),
    fun h => exec_controlPeriod_notDue (.inl h),
    fun _ h early => exec_controlPeriod_notDue (.inr (gridDue_early h early)),
    fun h => exec_bankSearchRetry_notDue (retryDue_noWait h),
    fun _ h early => exec_bankSearchRetry_notDue (retryDue_early h early),
    -- Claims, peers and the reservation (files 04 to 06).
    fun _ _ h => act_unchanged (settleExpiry_unsettled (settled_noClaim h)),
    fun _ _ _ h early => act_unchanged (settleExpiry_unsettled (settled_early h early)),
    fun _ h => ⟨act_unchanged (ptbStale_unknown h), act_unchanged (ptbForget_unknown h)⟩,
    fun _ _ h => ⟨fun early => act_unchanged (ptbStale_early h early),
      fun early => act_unchanged (ptbForget_early h early)⟩,
    fun h => exec_evaluationTick_notDue (gridDue_stopped h),
    fun _ h early => exec_evaluationTick_notDue (gridDue_early h early),
    -- The compressor (file 07).
    fun h => exec_surveyTick_notDue (gridDue_stopped h),
    fun _ h early => exec_surveyTick_notDue (gridDue_early h early),
    fun h => ⟨exec_startingEnd_notDue (stateLasted_elsewhere (by simp [h])),
      exec_stoppingEnd_notDue (stateLasted_elsewhere (by simp [h])),
      exec_lockoutEnd_notDue (stateLasted_elsewhere (by simp [h])),
      act_unchanged (ccuIdleTest_elsewhere (by simp [h]))⟩,
    fun early => exec_startingEnd_notDue (stateLasted_early early),
    fun early => exec_stoppingEnd_notDue (stateLasted_early early),
    fun early => exec_lockoutEnd_notDue (stateLasted_early early),
    fun h => act_unchanged (ccuIdleTest_stopped h),
    fun _ h early => act_unchanged (ccuIdleTest_runs_on h early),
    fun h => exec_motorAbsentExpiry_notDue (reached_stopped h),
    fun _ h early => exec_motorAbsentExpiry_notDue (reached_early h early),
    exec_startListExpiry_notDue,
    -- Creep (file 08).
    exec_creepWindowClose_stopped,
    fun _ h early => exec_creepWindowClose_early h early,
    fun h => exec_creepQuietExpiry_notDue (reached_stopped h),
    fun _ h early => exec_creepQuietExpiry_notDue (reached_early h early),
    -- The line (file 10).
    fun h => exec_lineSilentEnd_notDue (reached_stopped h),
    fun _ h early => exec_lineSilentEnd_notDue (reached_early h early),
    fun h => exec_statusTick_notDue (gridDue_stopped h),
    fun _ h early => exec_statusTick_notDue (gridDue_early h early),
    fun h => exec_progressTick_notDue (gridDue_stopped h),
    fun _ h early => exec_progressTick_notDue (gridDue_early h early),
    fun h => ⟨exec_quietTimer1000_notDue (reached_stopped h), exec_quietTimer1800_notDue (reached_stopped h)⟩,
    fun _ h => ⟨fun early => exec_quietTimer1000_notDue (reached_early h early),
      fun early => exec_quietTimer1800_notDue (reached_early h early)⟩⟩

end Sys2Proof.Machine
